-- ==== Sys2Proof/Word.lean ====
section
/-!
DEFINITION. The words and numbers the manual speaks of: bytes and 16-bit fields of frames and flash, 32-bit TDM
slots, and the numbering of stations, zones, channels and the like (00, Numbering).
-/
namespace Sys2Proof

/-- One byte of a frame, of a library record or of the configuration image. -/
abbrev Byte := BitVec 8

/-- A two-byte field, big-endian in its place (R166). -/
abbrev Half := BitVec 16

/-- One 32-bit slot of a TDM frame (R133, R137). -/
abbrev SlotWord := BitVec 32

/-- A station on the cue link, 0..15. -/
abbrev Station := Fin 16

/-- A zone, 0..3. -/
abbrev Zone := Fin 4

/-- A channel class: MAIN 0, SURROUND 1, BASS 2, PERSONAL 3. -/
abbrev ChannelClass := Fin 4

/-- A link group, 0..3. -/
abbrev Group := Fin 4

/-- A channel, 0..7. -/
abbrev Channel := Fin 8

end Sys2Proof
end

