-- ==== Sys2Proof/Syntax.lean ====
section
/-!
DEFINITION. The commands of the node: one constructor of `Instr` per row of the table of operations and events. An
operand is what the node's surroundings bring with the command: pin levels, bytes read from flash (DESIGN CHOICE, log
16; safe), TDM slots, origin and payload bytes of a frame that completed on the cue link (whole frames: DESIGN CHOICE,
log 12; how the bits of the line become a command: `frameCommand`, log 27).
-/
namespace Sys2Proof

/-- The two causes of a reset (R138). -/
inductive ResetCause where
  | powerOn
  | pin
  deriving DecidableEq, Repr

/-- The two speed-source records (R52). -/
inductive Source where
  | primary
  | secondary
  deriving DecidableEq, Repr

/-- The key of a reduction table entry: kind, origin and tag (R66). -/
inductive EntryKey where
  | link (origin : Station) (group : Group)
  | dip (origin : Station) (id : Fin 8)
  deriving DecidableEq, Repr

/-- A frame as it was read from the line, before any check (R147, R153). `endMark` says that all bits read where the
end mark stands were recessive. -/
structure RawFrame where
  priority : BitVec 3
  origin   : Station
  kind     : BitVec 4
  length   : BitVec 4
  payload  : List Byte
  check    : Half
  endMark  : Bool
  deriving DecidableEq, Repr

/-- The commands, in the table's order. -/
inductive Instr where
  /-- A reset of the given cause is held (R138). -/
  | resetAssert (cause : ResetCause)
  /-- The reset is released; the levels of STN3..STN0, STN3 first (R157). -/
  | resetRelease (straps : BitVec 4)
  /-- 50 µs have passed since the release command (R128). -/
  | releaseWaitEnd
  /-- The three identification bytes have been read (R129). -/
  | identificationRead (b0 b1 b2 : Byte)
  /-- Bytes 0 to 7 of the configuration image have been read (R158). -/
  | imageHeaderRead (header : List Byte)
  /-- Bytes 8 to 605 of the configuration image have been read (R158, R159). -/
  | imageRead (rest : List Byte)
  /-- A frame sync, `interval` nanoseconds after the one before it, and the frame's 16 slots (R133). -/
  | frameSync (interval : Nat) (slots : Vector SlotWord 16)
  /-- 62.5 µs have passed with no frame sync (R134). -/
  | frameSyncGap
  /-- An output frame is due from the internal reference (R137). -/
  | outputFrameTick
  /-- The block in progress completes (R136). -/
  | blockCompletion
  /-- The settle timer expires (R141). -/
  | settleExpiry
  /-- The link-silence timer expires (R142). -/
  | linkSilenceExpiry
  /-- A source's freshness time runs out (R56). -/
  | freshnessExpiry (source : Source)
  /-- An entry's lifetime runs out (R75). -/
  | lifetimeExpiry (key : EntryKey)
  /-- A station's silence age reaches 2000 ms (R155). -/
  | silenceExpiry (station : Station)
  /-- The transmit queue entry at this place has waited 100 ms (R152). -/
  | latenessExpiry (place : Nat)
  /-- The SILENT timer expires (R150). -/
  | silentExpiry
  /-- The line is idle and the interface begins to send (R147). -/
  | sendingStart
  /-- Every bit of the frame was read back as sent (R149). -/
  | frameSent
  /-- A recessive contention bit was read back dominant (R149). -/
  | contentionLost
  /-- A bit was read back wrongly elsewhere (R150). -/
  | transmitError
  /-- A frame that fails a check of R153. -/
  | invalidFrame (frame : RawFrame)
  /-- A valid image frame, kind 1: payload bytes 0, 1 and 2, and those from byte 3 on (R37, R167). -/
  | imageCue (origin : Station) (zone stamp flags : Byte) (fields : List Byte)
  /-- A valid pace frame, kind 2: payload byte 0, bytes 1 and 2 (R53, R167). -/
  | paceCue (origin : Station) (validity : Byte) (speed : Byte × Byte)
  /-- A valid dip frame, kind 3, of five payload bytes: byte 0, byte 1, bytes 2 and 3, byte 4 (R70, R167; DESIGN CHOICE,
  log 27). -/
  | dipApply (origin : Station) (op masks : Byte) (depth : Byte × Byte) (hold : Byte)
  /-- A valid dip frame, kind 3, of one payload byte (R70, R167). -/
  | dipRelease (origin : Station) (op : Byte)
  /-- A valid headroom frame, kind 4: payload bytes 0 and 1, 2 and 3, 4 and 5, 6 and 7, bytes 8 and 9 (R73, R167). -/
  | headroomCue (origin : Station) (v0 v1 v2 v3 : Byte × Byte) (code flags : Byte)
  /-- A valid sleep frame, kind 5 (R140). -/
  | sleepCue (origin : Station)
  /-- A valid wake frame, kind 6 (R140). -/
  | wakeCue (origin : Station)
  /-- A valid query frame, kind 7: payload bytes 0 to 3 (R163, R167). -/
  | queryCue (origin : Station) (target group index flags : Byte)
  /-- A valid report frame, kind 8, of another station (R154). -/
  | reportFrame (origin : Station) (payload : List Byte)
  /-- The library port starts a fill (R122). -/
  | fillStart
  /-- The record read ends with these 128 bytes (R124). -/
  | fillCompletion (record : List Byte)
  /-- The pending deep power-down command is sent (R130). -/
  | deepPowerDown
  deriving DecidableEq, Repr

end Sys2Proof
end

