-- ==== Sys2Proof/WellFormed.lean ====
section
/-!
DEFINITION. What makes a command well formed: operands of the lengths the manual gives them. Operands whose type
admits only the manual's values need no check.
-/
namespace Sys2Proof

/-- The payload lengths of a report frame (R148). -/
def reportLengthOk (n : Nat) : Bool := n == 5 || n == 7 || n == 9 || n == 11

/-- A command whose operands have the lengths the formats give them: the image header and the rest of the image
(R158, R169), a library record (R168), the payload of an image and of a report frame (R148), a received frame with as many
payload bytes as its length field says (R153), a place of the eight-entry transmit queue (R151). -/
def Instr.wellFormed : Instr → Bool
  | .resetAssert _ => true
  | .resetRelease _ => true
  | .releaseWaitEnd => true
  | .identificationRead _ _ _ => true
  | .imageHeaderRead header => header.length == 8
  | .imageRead rest => rest.length == 598
  | .frameSync _ _ => true
  | .frameSyncGap => true
  | .outputFrameTick => true
  | .blockCompletion => true
  | .settleExpiry => true
  | .linkSilenceExpiry => true
  | .freshnessExpiry _ => true
  | .lifetimeExpiry _ => true
  | .silenceExpiry _ => true
  | .latenessExpiry place => decide (place < 8)
  | .silentExpiry => true
  | .sendingStart => true
  | .frameSent => true
  | .contentionLost => true
  | .transmitError => true
  | .invalidFrame f => f.payload.length == f.length.toNat
  | .imageCue _ _ _ _ fields => decide (fields.length ≤ 5)
  | .paceCue _ _ _ => true
  | .dipApply _ _ _ _ _ => true
  | .dipRelease _ _ => true
  | .headroomCue _ _ _ _ _ _ _ => true
  | .sleepCue _ => true
  | .wakeCue _ => true
  | .queryCue _ _ _ _ _ => true
  | .reportFrame _ payload => reportLengthOk payload.length
  | .fillStart => true
  | .fillCompletion record => record.length == 128
  | .deepPowerDown => true

end Sys2Proof
end

