-- ==== Sys2Proof/Decode.lean ====
section
/-!
DEFINITION. The block has no instruction words: no row of the table of operations and events gives bits, so no word
spells a command. (How frames, records and the configuration image are read stands in Machine/Operands.lean.)
-/
namespace Sys2Proof

/-- The command a table word spells: none, since the table gives no row any bits. -/
def decodeTableWord (_nbits _w : Nat) : Option Instr := none

end Sys2Proof
end

