-- ==== Sys2Proof/Config.lean ====
section
/-!
DEFINITION. What the manual leaves open inside one command, as free values without a body: every choice is applied to
the state's counter `draws`, so that each use is a fresh choice (DESIGN CHOICE of form, logs 3 to 7, 31, 32 and 34; safe).
-/
namespace Sys2Proof

/-- In one block completion, is the ramp step of a group's LINK slot taken before the group's own value reaches its target
(R27, R81, R90)? The manual lets either be first, for each slot. Log 3. -/
opaque Config.stepFirst : Nat → Group → Bool

/-- At an audio return, is the NODE slot's step of the block completion taken before its target change (R27, R135, R136)?
The manual lets either be first. Log 31. -/
opaque Config.nodeStepFirst : Nat → Bool

/-- In a block completion that enters DORMANT, is the entry taken before the channels' work of that completion (R87)?
The manual lets either be first. Log 4. -/
opaque Config.entryFirst : Nat → Bool

/-- At the entry to DORMANT, is the fill queue cleared before the channels give up their pins (R113, R130)?
The manual gives no order. Log 6. -/
opaque Config.clearFirst : Nat → Bool

/-- The rank of a channel where several channels act on one event "in turn" (R108): the manual gives no order of turns.
Log 5. -/
opaque Config.channelRank : Nat → Channel → Nat

/-- A cue and the absence report of its station reach the cue's recipient together, the expiry having been first at the link
interface: does the recipient take the cue first (R49, R58, R77)? The manual lets either be first. Log 32. -/
opaque Config.cueFirst : Nat → Bool

/-- After a transmit error, does the line carry a frame whose start mark the interface has read, so that it is within that
frame (R147, R150, R153)? The command does not say at which bit the error was. Log 34. -/
opaque Config.errorInFrame : Nat → Bool

/-- Which of several events of the node's own that are due at the same moment is taken next. Log 7. -/
opaque Config.eventPick : Nat → Nat

end Sys2Proof
end

