-- ==== Sys2Proof/Machine/State.lean ====
section
/-!
DEFINITION. The state of the node: every register, queue, table, counter, flag and pin the manual gives it, as plain
data, grouped by the block that owns it (00, Block Diagram), with the values right after reset; and the two stop types.
-/
namespace Sys2Proof.Machine

/-- No command of this node faults: the manual turns every failed check into a state, a counter or a flag. No
constructor, so no one raises it; safe. -/
inductive Fault : Type
  deriving DecidableEq, Repr

/-- Refusals. -/
inductive Refusal where
  /-- A command without a meaning yet; raised by an arm of `exec` only, and by none now. Safe: the model stops. -/
  | notModelled (mnemonic : String)
  deriving DecidableEq, Repr

/-! ### Node state controller and start-up loader (chapters 9 and 11) -/

/-- Node states (R138). -/
inductive NodeState where
  | start | held | waking | active | quiet | dormant
  deriving DecidableEq, Repr

/-- The node state controller (R138). `supplyHold` and `pinHold` say which reset causes hold the part at the moment. -/
structure NodeControl where
  state       : NodeState
  ampOn       : Bool
  settle      : Option Nat
  linkSilence : Option Nat
  cause       : ResetCause
  supplyHold  : Bool
  pinHold     : Bool
  deriving DecidableEq, Repr

/-- Configuration fault codes (R161); `noFault` is NONE. -/
inductive FaultCode where
  | noFault | noMemory | badSignature | badLength | badCheck | badRange | badLaw | badCurve | badRamp
  deriving DecidableEq, Repr

/-- The steps of the start-up read (R158); `done` after the hand-over or the entry to HELD. -/
inductive LoaderStage where
  | releaseWait | identification | header | image | done
  deriving DecidableEq, Repr

/-- The start-up loader: station number (R157), fault code (R161), step (R158) and the header bytes already read by
the image read that goes on. -/
structure Loader where
  station : Station
  fault   : FaultCode
  stage   : LoaderStage
  header  : List Byte
  deriving DecidableEq, Repr

/-! ### Ramp engine (chapter 2) -/

/-- A term slot (R18). -/
structure TermSlot where
  current    : Int
  target     : Int
  active     : Option (Fin 32)
  blocksLeft : Nat
  deriving DecidableEq, Repr

/-- The names of the 37 slots (R19). -/
inductive SlotId where
  | vol (z : Zone) | fade (z : Zone) | bal (z : Zone) | pace (z : Zone)
  | dip (z : Zone) (k : ChannelClass)
  | link (g : Group)
  | node
  deriving DecidableEq, Repr

/-- Causes of a target change (R21), in the order of the ramp vector (R169). -/
inductive Cause where
  | volumeUp | volumeDown | mute | fadeBalance | pace | dipOnset | dipRelease | linkAttack | linkRelease
  | nodeFadeOut | nodeFadeIn
  deriving DecidableEq, Repr

/-- A ramp profile record (R20). -/
structure RampRecord where
  rate  : Nat
  span  : Nat
  chain : Option (Fin 32)
  deriving DecidableEq, Repr

/-- The 32 records and the ramp vector of a configuration (R20); a vector entry of `none` is STEP. -/
structure RampProfile where
  records : Vector RampRecord 32
  vector  : Vector (Option (Fin 32)) 11
  deriving DecidableEq, Repr

/-- The ramp engine (R18, R20); no profile is held before hand-over and in HELD. -/
structure RampEngine where
  slots   : Vector TermSlot 37
  profile : Option RampProfile
  deriving DecidableEq, Repr

/-! ### Image handler (chapter 3) -/

/-- An origin record (R41). -/
structure OriginRecord where
  origin : Station
  stamp  : Byte
  deriving DecidableEq, Repr

/-- A zone image record with its origin table, oldest acceptance first (R40, R41). -/
structure ZoneImage where
  volume    : Nat
  fade      : Int
  balance   : Int
  preset    : Fin 16
  maxVolume : Nat
  origins   : List OriginRecord
  deriving DecidableEq, Repr

/-! ### Pace unit (chapter 4) -/

/-- A speed-source record (R52); station `none` is NONE. -/
structure SpeedSource where
  station   : Option Station
  lastSpeed : Nat
  valid     : Bool
  freshness : Nat
  deriving DecidableEq, Repr

/-- Speed states (R57); `noSpeed` is NONE. -/
inductive SpeedState where
  | noSpeed | primary | secondary | hold
  deriving DecidableEq, Repr

/-- A breakpoint of a pace curve (R59). -/
structure Breakpoint where
  speed : Nat
  boost : Nat
  deriving DecidableEq, Repr

/-- A pace curve: breakpoints 0 to 7 (R59). -/
abbrev Curve := Vector Breakpoint 8

/-- The pace unit (R52, R57, R59, R61). -/
structure PaceUnit where
  primary    : SpeedSource
  secondary  : SpeedSource
  speedState : SpeedState
  usedSpeed  : Nat
  bands      : Vector (Fin 8) 4
  curves     : Option (Vector Curve 4)
  deriving DecidableEq, Repr

/-! ### Reduction table (chapter 5) -/

/-- A reduction table entry (R66). The masks of a LINK entry are absent; they are carried as zero. A lifetime of
`none` means until released. -/
structure Entry where
  key      : EntryKey
  zones    : BitVec 4
  classes  : BitVec 4
  depth    : Nat
  lifetime : Option Nat
  deriving DecidableEq, Repr

/-! ### Channels (chapters 1, 6 and 7) -/

/-- Rows of a channel record (R4). -/
inductive Row where
  | front | rear | neither
  deriving DecidableEq, Repr

/-- Sides of a channel record (R5). -/
inductive Side where
  | left | right | neither
  deriving DecidableEq, Repr

/-- A channel record (R2, R85, R102, R133); group `none` is NONE. -/
structure ChannelRecord where
  enabled : Bool
  zone    : Zone
  row     : Row
  side    : Side
  cls     : ChannelClass
  group   : Option Group
  profile : Fin 32
  slot    : Fin 16
  trim    : Nat
  share   : Nat
  ceiling : Nat
  release : Nat
  hold    : Nat
  deriving DecidableEq, Repr

/-- The two law tables of a configuration (section 1.2). -/
structure Laws where
  fade    : Vector Nat 33
  balance : Vector Nat 33
  deriving DecidableEq, Repr

/-- A coefficient key (R102). -/
structure CoefKey where
  preset  : Fin 16
  band    : Fin 8
  profile : Fin 32
  deriving DecidableEq, Repr

/-- The place of a cache line: set and way (R115). -/
structure LineRef where
  set : Fin 16
  way : Fin 4
  deriving DecidableEq, Repr

/-- The state words of one section (R99). -/
structure SectionState where
  x1 : Int
  x2 : Int
  y1 : Int
  y2 : Int
  deriving DecidableEq, Repr

/-- An incoming set: its line, the crossfade block k (R102, R110), and whether its first block has started
(DESIGN CHOICE, log 25; safe). -/
structure Incoming where
  line    : LineRef
  k       : Nat
  running : Bool
  deriving DecidableEq, Repr

/-- Request states (R102); `idle` is NONE. A channel in `waitingFill l` is one of the attached channels of line l
(R105, R115). -/
inductive Request where
  | idle
  | waitingFill (line : LineRef)
  | queued
  deriving DecidableEq, Repr

/-- What a channel holds for the block it composes: pre-limit attenuation, applied reduction, total attenuation
(R1, R8, R9, R10). -/
structure Composed where
  aPre  : Nat
  rApp  : Nat
  total : Nat
  deriving DecidableEq, Repr

/-- A channel: its record; the limiter (R85); the coefficient context (R102); and what lasts one block: the composed
values, the block peak, the clip and the overflow condition (R1, R13, R14, R101). -/
structure ChannelState where
  record         : ChannelRecord
  reduction      : Nat
  holdCount      : Nat
  active         : Option LineRef
  incoming       : Option Incoming
  wanted         : CoefKey
  request        : Request
  failed         : Option CoefKey
  activeStates   : Vector SectionState 6
  incomingStates : Vector SectionState 6
  composed       : Option Composed
  peak           : Nat
  clip           : Bool
  overflow       : Bool
  deriving DecidableEq, Repr

/-- Own group values H, last accepted group values S, and the emission age in ms (R89, R91). -/
structure Emission where
  own  : Vector Nat 4
  sent : Vector Nat 4
  age  : Nat
  deriving DecidableEq, Repr

/-! ### Coefficient cache and library port (chapter 8) -/

/-- Coefficients of one section, as their stored integers (section 7.1). -/
structure Coefs where
  b0 : Int
  b1 : Int
  b2 : Int
  a1 : Int
  a2 : Int
  deriving DecidableEq, Repr

/-- Line states (R115). -/
inductive LineState where
  | invalid | filling | valid
  deriving DecidableEq, Repr

/-- A cache line (R115); the section count is the length of `coefs`. -/
structure Line where
  key   : CoefKey
  state : LineState
  pins  : Nat
  coefs : List Coefs
  deriving DecidableEq, Repr

/-- A cache set: four ways and the round-robin pointer (R115). -/
structure CacheSet where
  ways    : Vector Line 4
  pointer : Fin 4
  deriving DecidableEq, Repr

/-- A fill queue entry (R119). -/
structure QueueEntry where
  key  : CoefKey
  line : Option LineRef
  deriving DecidableEq, Repr

/-- The fill in flight (R122). -/
structure Fill where
  line    : LineRef
  key     : CoefKey
  address : Nat
  deriving DecidableEq, Repr

/-- Library states (R126). -/
inductive LibraryState where
  | absent | ready | faulty
  deriving DecidableEq, Repr

/-- Flash power states (R128). -/
inductive FlashPower where
  | poweredDown | releasing | awake
  deriving DecidableEq, Repr

/-- The coefficient cache and the library port (R115, R119, R122, R125, R126, R128, R130). `selected`: LIB_CSn is low,
a data read goes on. `mosi`: the bytes of the last command on LIB_MOSI (DESIGN CHOICE, log 20; safe). -/
structure Library where
  sets        : Vector CacheSet 16
  queue       : List QueueEntry
  fill        : Option Fill
  errors      : Nat
  state       : LibraryState
  flash       : FlashPower
  downPending : Bool
  selected    : Bool
  mosi        : List Byte
  deriving DecidableEq, Repr

/-! ### Audio ports (chapter 9) -/

/-- Input presence states (R134). -/
inductive Presence where
  | present | lost
  deriving DecidableEq, Repr

/-- The audio ports (R133, R134, R136, R137). `blockDue`: the block in progress has reached its end
(DESIGN CHOICE, log 2). `nodeStepped`: the NODE slot has taken the step of the coming block completion already, at an audio
return (R27; the model's own field, DESIGN CHOICE, log 31; safe). `outFrame`: the last output frame (DESIGN CHOICE, log 20; safe). -/
structure AudioPorts where
  presence    : Presence
  goodFrames  : Nat
  syncSeen    : Bool
  blockFrames : Nat
  blockDue    : Bool
  nodeStepped : Bool
  outRunning  : Bool
  outFrame    : Vector SlotWord 8
  deriving DecidableEq, Repr

/-! ### Link interface (chapter 10) -/

/-- The kinds the node sends (R148). -/
inductive TxKind where
  | headroom | report
  deriving DecidableEq, Repr

/-- A transmit queue entry (R151); `late`: its lateness expiry came during a sending attempt (R152). -/
structure TxEntry where
  kind    : TxKind
  payload : List Byte
  age     : Nat
  late    : Bool
  deriving DecidableEq, Repr

/-- The sending attempt in progress: the bits it sends, start mark first, recessive true (R147, R149); whether its
entry's content has been replaced since (R151); whether its entry has gone from the queue (R152). -/
structure Attempt where
  bits     : List Bool
  replaced : Bool
  gone     : Bool
  deriving DecidableEq, Repr

/-- A presence record (R155). -/
structure PresenceRecord where
  present : Bool
  age     : Nat
  deriving DecidableEq, Repr

/-- The recipients of an absence report: image handler, pace unit, reduction table (R155). -/
inductive Recipient where
  | image | pace | table
  deriving DecidableEq, Repr

/-- The link interface (R147, R150, R151, R154, R155). `inFrame`: the interface is within a frame that it receives on after a
lost contention or a transmit error (R147, R149, R150). `owed`: a station whose absence report has come to a recipient together
with a cue of the station, and which the recipient takes after the cue (R49, R58, R77; the model's own field, DESIGN
CHOICE, log 32; safe). -/
structure LinkInterface where
  queue    : List TxEntry
  sending  : Option Attempt
  inFrame  : Bool
  errors   : Nat
  silent   : Option Nat
  clash    : Bool
  stations : Vector PresenceRecord 16
  owed     : Option (Station × Recipient)
  deriving DecidableEq, Repr

/-! ### Statistics block (chapter 12) -/

/-- LINK counters, in the order of R162. -/
inductive LinkCounter where
  | framesHeard | framesSent | contentionLosses | checkErrors | formatErrors | staleImageCues
  | unexpectedPaceSources | reductionsRefused | lateDiscards | transmitErrors | clashes | queriesRefused
  deriving DecidableEq, Repr

/-- CHANNEL counters, in the order of R162. -/
inductive ChannelCounter where
  | clipBlocks | limiterActive | bin48 | bin96 | bin192 | bin384 | overflowBlocks
  deriving DecidableEq, Repr

/-- CACHE/AUDIO counters, in the order of R162. -/
inductive CacheCounter where
  | hits | misses | fillErrors | noWayWaits | audioLosses
  deriving DecidableEq, Repr

/-- The counters of the statistics block (R162). -/
structure Statistics where
  link       : Vector Nat 12
  channel    : Vector (Vector Nat 7) 8
  cacheAudio : Vector Nat 5
  deriving DecidableEq, Repr

/-! ### The whole node -/

/-- The state of the node. `draws` is the counter the free values are applied to and `pending` the queue of waiting
commands: these two are the model's own (DESIGN CHOICE, log 29; safe). -/
structure State where
  node     : NodeControl
  loader   : Loader
  ramp     : RampEngine
  image    : Vector ZoneImage 4
  pace     : PaceUnit
  table    : List Entry
  laws     : Option Laws
  channels : Vector ChannelState 8
  emission : Emission
  library  : Library
  ports    : AudioPorts
  link     : LinkInterface
  stats    : Statistics
  draws    : Nat
  pending  : List Instr
  deriving DecidableEq, Repr

/-! ### Values after reset -/

/-- A slot at rest at a value (R18: idle). -/
def TermSlot.idleAt (v : Int) : TermSlot := { current := v, target := v, active := none, blocksLeft := 0 }

/-- The slots after reset: NODE at 1600, every other slot at 0, all idle (R19). NODE is slot 36. -/
def RampEngine.initial : RampEngine :=
  { slots := (Vector.replicate 37 (TermSlot.idleAt 0)).set 36 (TermSlot.idleAt 1600), profile := none }

/-- The built-in zone image of reset and of HELD (R40). -/
def ZoneImage.initial : ZoneImage :=
  { volume := 120, fade := 0, balance := 0, preset := 0, maxVolume := 120, origins := [] }

/-- A speed source after reset (R52). -/
def SpeedSource.initial : SpeedSource := { station := none, lastSpeed := 0, valid := false, freshness := 0 }

/-- The pace unit after reset and at the entry to HELD (R52, R57, R61, R63). -/
def PaceUnit.initial : PaceUnit :=
  { primary := .initial, secondary := .initial, speedState := .noSpeed, usedSpeed := 0,
    bands := Vector.replicate 4 0, curves := none }

/-- The built-in channel record of a channel in a zone, taken from its slot (R145). DESIGN CHOICE (log 10): it is also
the record a channel holds from reset until the hand-over, when the manual gives it none; unsafe, but no rule reads it
there. -/
def ChannelRecord.builtIn (zone : Zone) (slot : Fin 16) : ChannelRecord :=
  { enabled := true, zone := zone, row := .neither, side := .neither, cls := 0, group := none, profile := 0,
    slot := slot, trim := 0, share := 0, ceiling := 8388607, release := 16, hold := 0 }

/-- The zero states of a set (R99, R102). -/
def SectionState.zeros : Vector SectionState 6 := Vector.replicate 6 { x1 := 0, x2 := 0, y1 := 0, y2 := 0 }

/-- The key after reset (R102). -/
def CoefKey.initial : CoefKey := { preset := 0, band := 0, profile := 0 }

/-- A channel after reset: limiter clear (R85), context at its reset values (R102), no block composed (R17). -/
def ChannelState.initial (record : ChannelRecord) : ChannelState :=
  { record := record, reduction := 0, holdCount := 0, active := none, incoming := none, wanted := .initial,
    request := .idle, failed := none, activeStates := SectionState.zeros, incomingStates := SectionState.zeros,
    composed := none, peak := 0, clip := false, overflow := false }

/-- The eight channels with their built-in records: zone is the channel number div 2, source slot the channel number
(R145). -/
def initialChannels : Vector ChannelState 8 :=
  #v[.initial (.builtIn 0 0), .initial (.builtIn 0 1), .initial (.builtIn 1 2), .initial (.builtIn 1 3),
     .initial (.builtIn 2 4), .initial (.builtIn 2 5), .initial (.builtIn 3 6), .initial (.builtIn 3 7)]

/-- Emission after reset (R89, R91). -/
def Emission.initial : Emission := { own := Vector.replicate 4 0, sent := Vector.replicate 4 0, age := 0 }

/-- An INVALID line (R115). DESIGN CHOICE (log 10): its meaningless key and set are the zero key and no sections. -/
def Line.blank : Line := { key := .initial, state := .invalid, pins := 0, coefs := [] }

/-- The cache and the library port while a reset is held (R115, R119, R125, R126, R128). -/
def Library.initial : Library :=
  { sets := Vector.replicate 16 { ways := Vector.replicate 4 .blank, pointer := 0 }, queue := [], fill := none,
    errors := 0, state := .absent, flash := .poweredDown, downPending := false, selected := false, mosi := [] }

/-- The audio ports after reset (R134, R137). -/
def AudioPorts.initial : AudioPorts :=
  { presence := .lost, goodFrames := 0, syncSeen := false, blockFrames := 0, blockDue := false,
    nodeStepped := false, outRunning := false, outFrame := Vector.replicate 8 0#32 }

/-- The link interface after reset (R147, R155, R156). -/
def LinkInterface.initial : LinkInterface :=
  { queue := [], sending := none, inFrame := false, errors := 0, silent := none, clash := false,
    stations := Vector.replicate 16 { present := false, age := 0 }, owed := none }

/-- The counters after reset (R162). -/
def Statistics.initial : Statistics :=
  { link := Vector.replicate 12 0, channel := Vector.replicate 8 (Vector.replicate 7 0),
    cacheAudio := Vector.replicate 5 0 }

/-- The node while a reset is held: the reset values of every block, nothing going on (R138; DESIGN CHOICE, log 9). -/
def State.underReset (cause : ResetCause) (station : Station) (supply pin : Bool) : State :=
  { node := { state := .start, ampOn := false, settle := none, linkSilence := none, cause := cause,
              supplyHold := supply, pinHold := pin }
    loader := { station := station, fault := .noFault, stage := .releaseWait, header := [] }
    ramp := .initial
    image := Vector.replicate 4 .initial
    pace := .initial
    table := []
    laws := none
    channels := initialChannels
    emission := .initial
    library := .initial
    ports := .initial
    link := .initial
    stats := .initial
    draws := 0
    pending := [] }

/-- The node right after the release of a reset: every block at its reset values, node state START, the straps
sampled, and the release command 0xAB just sent to the flash, which is RELEASING (R128, R138, R157, R158). -/
def State.released (cause : ResetCause) (station : Station) : State :=
  { State.underReset cause station false false with
    library := { Library.initial with flash := .releasing, mosi := [0xAB#8] } }

/-- The node right after reset. DESIGN CHOICE (log 8): the reset was a POWER_ON reset and STN3..STN0 were all low. -/
def State.reset : State := State.released .powerOn 0

end Sys2Proof.Machine
end

