-- ==== Sys2Proof/Machine/Ops.lean ====
section
/-!
DEFINITION. The shared operations under the meanings: rounding, bits and check values, counters, access to channels,
cache lines and slots, the free choices, and the conditions on the node state that many rules share.
-/
namespace Sys2Proof.Machine

/-! ### Numbers -/

/-- Division rounded to nearest, ties away from zero (00, Arithmetic; R12, R14, R99, R110). The divisor is positive. -/
def roundDiv (n : Int) (d : Nat) : Int :=
  if n < 0 then -(((2 * n.natAbs + d) / (2 * d) : Nat) : Int) else ((2 * n.natAbs + d) / (2 * d) : Nat)

/-- A value clamped to a range (00, Arithmetic). -/
def clampInt (lo hi v : Int) : Int := if v < lo then lo else if hi < v then hi else v

/-- Saturation to the internal word, ±(2^31 − 1) (00, Audio words; R99). -/
def saturateWord (v : Int) : Int := clampInt (-2147483647) 2147483647 v

/-! ### Bits, bytes and check values -/

/-- The bits of a byte, most significant first. -/
def byteBits (b : Byte) : List Bool :=
  [b.getMsbD 0, b.getMsbD 1, b.getMsbD 2, b.getMsbD 3, b.getMsbD 4, b.getMsbD 5, b.getMsbD 6, b.getMsbD 7]

/-- The bits of a two-byte field, most significant first. -/
def halfBits (h : Half) : List Bool := byteBits (h.extractLsb' 8 8) ++ byteBits (h.extractLsb' 0 8)

/-- The bits of a four-bit field, most significant first. -/
def nibbleBits (n : BitVec 4) : List Bool := [n.getMsbD 0, n.getMsbD 1, n.getMsbD 2, n.getMsbD 3]

/-- A two-byte field as its bytes, most significant first (R166). -/
def halfBytes (h : Half) : List Byte := [h.extractLsb' 8 8, h.extractLsb' 0 8]

/-- One bit taken into the CRC-16 of polynomial 0x1021, not reflected (R166). -/
def crcStep (c : Nat) (b : Bool) : Nat :=
  if c.testBit 15 != b then ((c * 2) % 65536) ^^^ 0x1021 else (c * 2) % 65536

/-- Bits taken into the CRC-16 one after the other. (The match on the running value changes nothing: it makes the
kernel evaluate it before it goes on.) -/
def crcBits : List Bool → Nat → Nat
  | [], c => c
  | b :: bs, c =>
    match crcStep c b with
    | 0 => crcBits bs 0
    | n + 1 => crcBits bs (n + 1)

/-- The CRC-16 of a bit string: initial value 0xFFFF, no final exclusive-or (R166). -/
def crc16 (bits : List Bool) : Half := BitVec.ofNat 16 (crcBits bits 0xFFFF)

/-- The CRC-16 of bytes in order, each most significant bit first (R166). -/
def crcBytes (bytes : List Byte) : Half := crc16 (bytes.flatMap byteBits)

/-- Byte i of a byte string; a missing byte reads as 0 (DESIGN CHOICE, log 18; safe: no well-formed
command lacks one). -/
def byteAt (bytes : List Byte) (i : Nat) : Byte := bytes.getD i 0#8

/-- The big-endian two-byte field at i (R166). -/
def halfAt (bytes : List Byte) (i : Nat) : Half := byteAt bytes i ++ byteAt bytes (i + 1)

/-- The big-endian four-byte field at i (R166). -/
def wordAt (bytes : List Byte) (i : Nat) : BitVec 32 := halfAt bytes i ++ halfAt bytes (i + 2)

/-! ### Free choices (logs 3 to 7 and 32) -/

/-- The order in which channels take their turns at one event: a permutation of the eight channels that nothing
constrains further (log 5). -/
def channelOrder (n : Nat) : List Channel :=
  (List.finRange 8).insertionSort fun a b => Config.channelRank n a ≤ Config.channelRank n b

/-- The state after a use of the free values, so that the next use is a fresh one. -/
def State.drawn (s : State) : State := { s with draws := s.draws + 1 }

/-! ### Conditions shared by many rules -/

/-- A reset of either cause is being held (R138). -/
def State.inReset (s : State) : Bool := s.node.supplyHold || s.node.pinHold

/-- The node is in DORMANT. -/
def State.dormant (s : State) : Bool := s.node.state == .dormant

/-- The node states in which cues are taken: HELD, WAKING, ACTIVE, QUIET (R39, R53, R69, R163). -/
def State.takesCues (s : State) : Bool :=
  match s.node.state with
  | .held | .waking | .active | .quiet => true
  | .start | .dormant => false

/-- The node states in which the node runs on a configuration and is awake: WAKING, ACTIVE, QUIET (R92, R142). -/
def State.awake (s : State) : Bool :=
  match s.node.state with
  | .waking | .active | .quiet => true
  | .start | .held | .dormant => false

/-- The node states in which audio blocks are paced and output frames sent: every state after START, with no reset held
(R34, R136, R137). -/
def State.paced (s : State) : Bool := !s.inReset && s.node.state != .start

/-- The node states in which enabled channels compose: HELD, WAKING, ACTIVE, QUIET (R17). -/
def State.composing (s : State) : Bool := s.takesCues

/-! ### Counters (R162) -/

/-- Place of a LINK counter in the order of R162. -/
def LinkCounter.index : LinkCounter → Fin 12
  | .framesHeard => 0 | .framesSent => 1 | .contentionLosses => 2 | .checkErrors => 3 | .formatErrors => 4
  | .staleImageCues => 5 | .unexpectedPaceSources => 6 | .reductionsRefused => 7 | .lateDiscards => 8
  | .transmitErrors => 9 | .clashes => 10 | .queriesRefused => 11

/-- Place of a CHANNEL counter in the order of R162. -/
def ChannelCounter.index : ChannelCounter → Fin 7
  | .clipBlocks => 0 | .limiterActive => 1 | .bin48 => 2 | .bin96 => 3 | .bin192 => 4 | .bin384 => 5
  | .overflowBlocks => 6

/-- Place of a CACHE/AUDIO counter in the order of R162. -/
def CacheCounter.index : CacheCounter → Fin 5
  | .hits => 0 | .misses => 1 | .fillErrors => 2 | .noWayWaits => 3 | .audioLosses => 4

/-- A counted event: the counter rises by one and sticks at 65,535 (R162). -/
def bump (n : Nat) : Nat := if n < 65535 then n + 1 else n

/-- Count an event of a LINK counter; nothing is counted in DORMANT (R162). -/
def State.countLink (c : LinkCounter) (s : State) : State :=
  if s.dormant then s
  else { s with stats := { s.stats with link := s.stats.link.set c.index (bump s.stats.link[c.index]) } }

/-- Count an event of a CHANNEL counter; nothing is counted in DORMANT (R162). -/
def State.countChannel (ch : Channel) (c : ChannelCounter) (s : State) : State :=
  if s.dormant then s
  else { s with stats := { s.stats with
    channel := s.stats.channel.set ch (s.stats.channel[ch].set c.index (bump s.stats.channel[ch][c.index])) } }

/-- Count an event of a CACHE/AUDIO counter; nothing is counted in DORMANT (R162). -/
def State.countCache (c : CacheCounter) (s : State) : State :=
  if s.dormant then s
  else { s with stats := { s.stats with
    cacheAudio := s.stats.cacheAudio.set c.index (bump s.stats.cacheAudio[c.index]) } }

/-! ### Channels, cache lines, slots -/

/-- Channel c. -/
def State.channel (s : State) (c : Channel) : ChannelState := s.channels[c]

/-- Channel c replaced. -/
def State.setChannel (s : State) (c : Channel) (x : ChannelState) : State :=
  { s with channels := s.channels.set c x }

/-- Every channel changed by a function of its number and itself. -/
def State.mapChannels (f : Channel → ChannelState → ChannelState) (s : State) : State :=
  { s with channels := Vector.ofFn fun c => f c s.channels[c] }

/-- A cache line. -/
def State.line (s : State) (l : LineRef) : Line := s.library.sets[l.set].ways[l.way]

/-- A cache line replaced. -/
def State.setLine (s : State) (l : LineRef) (x : Line) : State :=
  { s with library := { s.library with
    sets := s.library.sets.set l.set { s.library.sets[l.set] with
      ways := s.library.sets[l.set].ways.set l.way x } } }

/-- Place of a slot among the 37. -/
def SlotId.index : SlotId → Fin 37
  | .vol z => ⟨z, by omega⟩
  | .fade z => ⟨4 + z, by omega⟩
  | .bal z => ⟨8 + z, by omega⟩
  | .pace z => ⟨12 + z, by omega⟩
  | .dip z k => ⟨16 + 4 * z + k, by omega⟩
  | .link g => ⟨32 + g, by omega⟩
  | .node => 36

/-- A term slot. -/
def State.slot (s : State) (id : SlotId) : TermSlot := s.ramp.slots[id.index]

/-- A term slot replaced. -/
def State.setSlot (s : State) (id : SlotId) (t : TermSlot) : State :=
  { s with ramp := { s.ramp with slots := s.ramp.slots.set id.index t } }

/-! ### Timers -/

/-- One millisecond of a timer that is stopped or running: it stands at 0 until its expiry is taken. -/
def tickTimer : Option Nat → Option Nat
  | none => none
  | some n => some (n - 1)

end Sys2Proof.Machine
end

