-- ==== Sys2Proof/Machine/Flags.lean ====
section
/-!
DEFINITION. Flags and codes: the flags of headroom cues and of item group STATE, and the encodings of states in
payloads and reports (R95, R164, R167).
-/
namespace Sys2Proof.Machine

/-- CLASH, SILENT, LIBRARY_FAULT, CONFIG_FAULT and AUDIO_LOST as they stand (R95). -/
def State.flagSilent (s : State) : Bool := s.link.silent.isSome
def State.flagLibraryFault (s : State) : Bool := s.library.state == .faulty
def State.flagConfigFault (s : State) : Bool := s.node.state == .held && s.loader.fault != .noFault
def State.flagAudioLost (s : State) : Bool := s.ports.presence == .lost

/-- The flags byte: bit 0 CLASH, bit 1 SILENT, bit 2 LIBRARY_FAULT, bit 3 CONFIG_FAULT, bit 4 AUDIO_LOST, bits 7 to 5
zero (R167). -/
def State.flagsByte (s : State) : Byte :=
  0#3 ++ BitVec.ofBool s.flagAudioLost ++ BitVec.ofBool s.flagConfigFault ++ BitVec.ofBool s.flagLibraryFault ++
    BitVec.ofBool s.flagSilent ++ BitVec.ofBool s.link.clash

/-- Node state codes (R167): those of reports; a headroom cue carries the same codes 1 to 4. -/
def NodeState.code : NodeState → Nat
  | .start => 0 | .held => 1 | .waking => 2 | .active => 3 | .quiet => 4 | .dormant => 5

/-- Reset cause codes (R167). -/
def causeCode : ResetCause → Nat
  | .powerOn => 0 | .pin => 1

/-- Library state codes (R167). -/
def LibraryState.code : LibraryState → Nat
  | .absent => 0 | .ready => 1 | .faulty => 2

/-- Speed state codes (R167). -/
def SpeedState.code : SpeedState → Nat
  | .noSpeed => 0 | .primary => 1 | .secondary => 2 | .hold => 3

/-- Configuration fault codes (R167). -/
def FaultCode.code : FaultCode → Nat
  | .noFault => 0 | .noMemory => 1 | .badSignature => 2 | .badLength => 3 | .badCheck => 4 | .badRange => 5
  | .badLaw => 6 | .badCurve => 7 | .badRamp => 8

end Sys2Proof.Machine
end

