-- ==== Sys2Proof/Machine/Ramp.lean ====
section
/-!
DEFINITION. The ramp engine (chapter 2): target changes, steps, forced values, and the settings of all slots at once.
-/
namespace Sys2Proof.Machine

/-- Place of a cause in the ramp vector (R169). -/
def Cause.index : Cause → Fin 11
  | .volumeUp => 0 | .volumeDown => 1 | .mute => 2 | .fadeBalance => 3 | .pace => 4 | .dipOnset => 5
  | .dipRelease => 6 | .linkAttack => 7 | .linkRelease => 8 | .nodeFadeOut => 9 | .nodeFadeIn => 10

/-- The cause a target change selects, from the slot, its current value and the new target (R21). -/
def causeOf (id : SlotId) (current new : Int) : Cause :=
  match id with
  | .vol _ => if new = 1600 then .mute else if new < current then .volumeUp else .volumeDown
  | .fade _ => .fadeBalance
  | .bal _ => .fadeBalance
  | .pace _ => .pace
  | .dip _ _ => if current < new then .dipOnset else .dipRelease
  | .link _ => if current < new then .linkAttack else .linkRelease
  | .node => if new = 1600 then .nodeFadeOut else .nodeFadeIn

/-- The ramp vector entry of a cause; `none` is STEP, and so is every entry while no profile is held (R20). -/
def RampEngine.entry (r : RampEngine) (c : Cause) : Option (Fin 32) :=
  match r.profile with
  | none => none
  | some p => p.vector[c.index]

/-- A ramp profile record. While no profile is held none is active; it then reads as a record that moves nothing. -/
def RampEngine.record (r : RampEngine) (i : Fin 32) : RampRecord :=
  match r.profile with
  | none => { rate := 0, span := 0, chain := none }
  | some p => p.records[i]

/-- A written target meets a slot: same target, target equal to the current value, or a retarget under the vector
entry of its cause (R22). -/
def TermSlot.write (entry : Option (Fin 32)) (span : Fin 32 → Nat) (v : Int) (t : TermSlot) : TermSlot :=
  if v = t.target then t
  else if v = t.current then TermSlot.idleAt v
  else
    match entry with
    | some r => { t with target := v, active := some r, blocksLeft := span r }
    | none => { t with target := v, active := none, blocksLeft := 0 }

/-- The owner of a slot writes its target (R22). -/
def State.writeTarget (id : SlotId) (v : Int) (s : State) : State :=
  s.setSlot id ((s.slot id).write (s.ramp.entry (causeOf id (s.slot id).current v))
    (fun r => (s.ramp.record r).span) v)

/-- The current value moved by a rate toward the target (R24). -/
def moveToward (current target : Int) (rate : Nat) : Int :=
  if target < current then current - rate else current + rate

/-- One step of a slot: a ramp step with its chain load (R24, R25), a pending step (R26), or nothing when idle. -/
def TermSlot.step (record : Fin 32 → RampRecord) (t : TermSlot) : TermSlot :=
  match t.active with
  | none => if t.current = t.target then t else TermSlot.idleAt t.target
  | some r =>
    if (t.target - t.current).natAbs ≤ (record r).rate then TermSlot.idleAt t.target
    else
      match (record r).chain with
      | none => { t with current := moveToward t.current t.target (record r).rate }
      | some c =>
        if t.blocksLeft - 1 = 0 then
          { t with current := moveToward t.current t.target (record r).rate, active := some c,
                   blocksLeft := (record c).span }
        else
          { t with current := moveToward t.current t.target (record r).rate, blocksLeft := t.blocksLeft - 1 }

/-- A slot after the step of a block completion (R24, R26, R34). The NODE slot stays where it has taken that step already,
at an audio return (R27; log 31). -/
def State.stepped (s : State) (id : SlotId) : TermSlot :=
  if id = .node ∧ s.ports.nodeStepped = true then s.slot id else (s.slot id).step s.ramp.record

/-- The step of every slot at a block completion (R24, R26, R34), `State.stepped` of each. -/
def State.rampStep (s : State) : State :=
  { s with ramp := { s.ramp with slots := Vector.ofFn fun i =>
      if i = SlotId.node.index ∧ s.ports.nodeStepped = true then s.ramp.slots[i] else s.ramp.slots[i].step s.ramp.record } }

/-- A forced value (R29). -/
def TermSlot.force (v : Int) (t : TermSlot) : TermSlot :=
  if v = t.target then TermSlot.idleAt v
  else
    match t.active with
    | some _ => { t with current := v }
    | none => { t with current := v, blocksLeft := 0 }

/-- NODE.current forced to 1600 at the loss of input audio (R30). -/
def State.forceNodeMute (s : State) : State := s.setSlot .node ((s.slot .node).force 1600)

/-- Every slot except NODE set to its target, idle (R32). -/
def State.settleSlots (s : State) : State :=
  { s with ramp := { s.ramp with slots := Vector.ofFn fun i =>
      if i = SlotId.node.index then s.ramp.slots[i] else TermSlot.idleAt s.ramp.slots[i].target } }

/-- An initial target set without a cause, with the current value equal to it (R31). -/
def State.initialTarget (id : SlotId) (v : Int) (s : State) : State := s.setSlot id (TermSlot.idleAt v)

end Sys2Proof.Machine
end

