-- ==== Sys2Proof/Machine/Gain.lean ====
section
/-!
DEFINITION. Gain composition (chapter 1): laws, the composed attenuations, the gain table, the output sample, the
overshoot detector.
-/
namespace Sys2Proof.Machine

/-- The law value of a magnitude 0..512: truncating linear interpolation in 33 entries (R3). -/
def lawValue (law : Vector Nat 33) (x : Nat) : Nat :=
  if x / 16 ≥ 32 then law.toList.getD 32 0
  else
    law.toList.getD (x / 16) 0 +
      ((law.toList.getD (x / 16 + 1) 0 - law.toList.getD (x / 16) 0) * (x % 16)) / 16

/-- The law value under laws that may not be held: before hand-over and in HELD there is no law, and every channel
there has row and side NONE (R145; DEDUCED, log 19; safe). -/
def lawOf (law : Option (Vector Nat 33)) (x : Nat) : Nat :=
  match law with
  | none => 0
  | some l => lawValue l x

/-- The fade attenuation of a channel (R4). -/
def fadeAttenuation (law : Option (Vector Nat 33)) (row : Row) (p : Int) : Nat :=
  match row with
  | .front => if 0 < p then lawOf law p.natAbs else 0
  | .rear => if p < 0 then lawOf law p.natAbs else 0
  | .neither => 0

/-- The balance attenuation of a channel (R5). -/
def balanceAttenuation (law : Option (Vector Nat 33)) (side : Side) (q : Int) : Nat :=
  match side with
  | .left => if 0 < q then lawOf law q.natAbs else 0
  | .right => if q < 0 then lawOf law q.natAbs else 0
  | .neither => 0

/-- The effective pace boost (R6). -/
def effectiveBoost (pace vol : Int) (share : Nat) : Int := min ((pace * share).tdiv 16) vol

/-- The pre-limit attenuation: the whole sum, limited once to at most 1600 (R8). -/
def preLimit (vol f b trim boost dip node : Int) : Nat := (min (vol + f + b + trim - boost + dip + node) 1600).toNat

/-- The applied reduction (R9). -/
def appliedReduction (group : Option Group) (reduction : Nat) (linkTerm : Group → Int) : Nat :=
  match group with
  | none => reduction
  | some g => max reduction (linkTerm g).toNat

/-- The total attenuation (R10). -/
def totalAttenuation (aPre rApp : Nat) : Nat := min 1600 (aPre + rApp)

/-- What a channel reads and composes at a block start (R1, R4 to R10). -/
def State.compose (s : State) (c : Channel) : Composed :=
  let r := (s.channel c).record
  let vol := (s.slot (.vol r.zone)).current
  let f := fadeAttenuation (s.laws.map (·.fade)) r.row (s.slot (.fade r.zone)).current
  let b := balanceAttenuation (s.laws.map (·.balance)) r.side (s.slot (.bal r.zone)).current
  let e := effectiveBoost (s.slot (.pace r.zone)).current vol r.share
  let aPre := preLimit vol f b r.trim e (s.slot (.dip r.zone r.cls)).current (s.slot .node).current
  let rApp := appliedReduction r.group (s.channel c).reduction fun g => (s.slot (.link g)).current
  { aPre := aPre, rApp := rApp, total := totalAttenuation aPre rApp }

/-- The 320th power, in two exponents that stay small. -/
def pow320 (x : Nat) : Nat := (x ^ 64) ^ 5

/-- Is n − 1/2 at most 2^23 × 10^(−a/320)? Exactly, with both sides raised to the 320th power (R11). -/
def gainFits (a n : Nat) : Bool := decide (pow320 (2 * n - 1) * 10 ^ a ≤ pow320 16777216)

/-- The largest number below 2^bits above `acc` that fits, found bit by bit. -/
def gainSearch (a : Nat) : Nat → Nat → Nat
  | 0, acc => acc
  | b + 1, acc => gainSearch a b (if gainFits a (acc + 2 ^ b) then acc + 2 ^ b else acc)

/-- The gain table: G(A) = round(2^23 × 10^(−A/320)), ties upward, for A below 1600, and G(1600) = 0 (R11). -/
def gain (a : Nat) : Nat := if a < 1600 then gainSearch a 24 0 else 0

/-- A word scaled by a gain: the exact product over 2^23, rounded, ties away from zero (R12, R14). -/
def scaled (x : Int) (g : Nat) : Int := roundDiv (x * g) 8388608

/-- The output sample: clamped at the ceiling (R13). -/
def clampSample (ceiling : Nat) (y : Int) : Int := clampInt (-(ceiling : Int)) ceiling y

/-- Was the sample clamped (R13)? A magnitude equal to the ceiling is not. -/
def clipped (ceiling : Nat) (y : Int) : Bool := decide (ceiling < y.natAbs)

/-- The least n from `n` on with round(P × 10^(−n/320)) at most the ceiling, ties upward, given the 320th powers of 2P
and of 2·ceiling + 1; the search ends after `fuel` trials (R15). -/
def overshootFrom (p c : Nat) : Nat → Nat → Nat
  | 0, n => n
  | fuel + 1, n => if p < c * 10 ^ n then n else overshootFrom p c fuel (n + 1)

/-- The overshoot of a block peak over a ceiling, 0..384 (R15). -/
def overshoot (peak ceiling : Nat) : Nat := overshootFrom (pow320 (2 * peak)) (pow320 (2 * ceiling + 1)) 384 0

end Sys2Proof.Machine
end

