-- ==== Sys2Proof/Machine/Equaliser.lean ====
section
/-!
DEFINITION. The equaliser (chapter 7, sections 7.1 and 7.5) and a frame's way through a channel (chapter 1, sections
1.6 and 1.7): section arithmetic, running sets, the crossfade blend, output sample, clip and block peak.
-/
namespace Sys2Proof.Machine

/-- The output word of a section before saturation: round(acc / 2^30) (R99). -/
def sectionSum (k : Coefs) (st : SectionState) (x0 : Int) : Int :=
  roundDiv (k.b0 * x0 + k.b1 * st.x1 + k.b2 * st.x2 - k.a1 * st.y1 - k.a2 * st.y2) 1073741824

/-- The output word of a section (R99). -/
def sectionOut (k : Coefs) (st : SectionState) (x0 : Int) : Int := saturateWord (sectionSum k st x0)

/-- The section's states after the frame (R99). -/
def sectionNext (k : Coefs) (st : SectionState) (x0 : Int) : SectionState :=
  { x1 := x0, x2 := st.x1, y1 := sectionOut k st x0, y2 := st.y1 }

/-- Did the section saturate in this frame (R99)? -/
def sectionSaturated (k : Coefs) (st : SectionState) (x0 : Int) : Bool :=
  sectionOut k st x0 != sectionSum k st x0

/-- What a running set gives for one frame. -/
structure SetResult where
  out       : Int
  states    : List SectionState
  saturated : Bool
  deriving DecidableEq, Repr

/-- A frame through the sections of a set in order; positions above the section count pass the word and keep their
states (R100). -/
def runSections : List Coefs → List SectionState → Int → SetResult
  | [], sts, x => { out := x, states := sts, saturated := false }
  | _ :: _, [], x => { out := x, states := [], saturated := false }
  | k :: ks, st :: sts, x =>
    let rest := runSections ks sts (sectionOut k st x)
    { out := rest.out, states := sectionNext k st x :: rest.states,
      saturated := sectionSaturated k st x || rest.saturated }

/-- Six section states from a list. -/
def sixStates (l : List SectionState) : Vector SectionState 6 :=
  Vector.ofFn fun i => l.getD i { x1 := 0, x2 := 0, y1 := 0, y2 := 0 }

/-- The coefficients of a channel's set: those of its line, or none for FLAT, which passes its input (R100). -/
def State.coefsOf (s : State) (l : Option LineRef) : List Coefs :=
  match l with
  | none => []
  | some l => (s.line l).coefs

/-- The crossfade blend (R110). -/
def blend (yActive yIncoming : Int) (k : Nat) : Int := roundDiv (yActive * (8 - (k : Int)) + yIncoming * k) 8

/-- The incoming set that runs in this block, if any (R110). -/
def ChannelState.runningIncoming (x : ChannelState) : Option Incoming :=
  match x.incoming with
  | some inc => if inc.running then some inc else none
  | none => none

/-- The equaliser's part of a frame: the channel with its states moved on and its overflow condition formed, and the
word x_eq (R100, R101, R110). -/
def State.equalise (s : State) (x : ChannelState) (word : Int) : ChannelState × Int :=
  let a := runSections (s.coefsOf x.active) x.activeStates.toList word
  match x.runningIncoming with
  | none =>
    ({ x with activeStates := sixStates a.states, overflow := x.overflow || a.saturated }, a.out)
  | some inc =>
    let b := runSections (s.coefsOf (some inc.line)) x.incomingStates.toList word
    ({ x with activeStates := sixStates a.states, incomingStates := sixStates b.states,
              overflow := x.overflow || a.saturated || b.saturated },
      blend a.out b.out inc.k)

/-- One frame of a composing channel: equaliser, output sample with its clamp and clip condition (R12, R13), and the
block peak at the pre-limit gain (R14). -/
def State.frame (s : State) (x : ChannelState) (held : Composed) (word : Int) : ChannelState × Int :=
  let (x', xeq) := s.equalise x word
  let y := scaled xeq (gain held.total)
  let y0 := scaled xeq (gain held.aPre)
  ({ x' with clip := x'.clip || clipped x.record.ceiling y, peak := max x'.peak y0.natAbs },
    clampSample x.record.ceiling y)

/-- One frame of channel c on an input word: a channel that composes no block runs nothing and gives 0 (R2, R17). -/
def State.channelFrame (s : State) (word : Channel → Int) (c : Channel) : ChannelState × Int :=
  match (s.channel c).composed with
  | none => (s.channel c, 0)
  | some held => s.frame (s.channel c) held (word c)

/-- One frame through all channels. -/
def State.runFrame (word : Channel → Int) (s : State) : State :=
  { s with channels := Vector.ofFn fun c => (s.channelFrame word c).1 }

/-- The sample of a TDM slot: its upper 24 bits, signed (R133). -/
def slotSample (w : SlotWord) : Int := (w.extractLsb' 8 24).toInt

/-- The output slot of a sample: the sample in the upper 24 bits, the lower 8 at zero (R137). -/
def outputSlot (y : Int) : SlotWord := BitVec.ofInt 24 y ++ 0#8

/-- The output frame of zeros (R137). -/
def zeroFrame : Vector SlotWord 8 := Vector.replicate 8 0#32

/-- The output frame formed from an input frame: zeros while AMP_ON is off, else each channel's sample (R137). -/
def State.outputOf (word : Channel → Int) (s : State) : Vector SlotWord 8 :=
  if s.node.ampOn then Vector.ofFn fun c => outputSlot (s.channelFrame word c).2 else zeroFrame

end Sys2Proof.Machine
end

