-- ==== Sys2Proof/Machine/Cache.lean ====
section
/-!
DEFINITION. The coefficient cache, the fill queue and the channels' coefficient contexts (chapters 7 and 8): lookup,
allocation, pruning, placement, pins, evaluation, wanted key changes, crossfade ends. Where several channels act on one
event, `ord` is the order of their turns (log 5; safe).
-/
namespace Sys2Proof.Machine

/-- The set of a key (R116). -/
def CoefKey.set (k : CoefKey) : Fin 16 := Fin.ofNat 16 (k.profile.val + 3 * k.band.val + 5 * k.preset.val)

/-- The four ways, in order. -/
def allWays : List (Fin 4) := [0, 1, 2, 3]

/-- The ways in search order from a pointer (R118). -/
def waysFrom (p : Fin 4) : List (Fin 4) := [p, p + 1, p + 2, p + 3]

/-- The way of a set that holds a key in a given state, if one does (R117). -/
def CacheSet.find (set : CacheSet) (state : LineState) (key : CoefKey) : Option (Fin 4) :=
  allWays.find? fun w => set.ways[w].state == state && set.ways[w].key == key

/-- The lowest-numbered INVALID way (R118). -/
def CacheSet.invalidWay (set : CacheSet) : Option (Fin 4) := allWays.find? fun w => set.ways[w].state == .invalid

/-- The first VALID way with pin count 0 from the pointer (R118). -/
def CacheSet.victim (set : CacheSet) : Option (Fin 4) :=
  (waysFrom set.pointer).find? fun w => set.ways[w].state == .valid && set.ways[w].pins == 0

/-- A FILLING line for a key (R118). -/
def Line.fillingFor (key : CoefKey) : Line := { key := key, state := .filling, pins := 0, coefs := [] }

/-- A way taken for a key: the line is FILLING (R118). -/
def CacheSet.take (set : CacheSet) (w : Fin 4) (key : CoefKey) : CacheSet :=
  { set with ways := set.ways.set w (Line.fillingFor key) }

/-- A way chosen and taken for a key: the lowest INVALID way, else the first VALID unpinned way from the pointer, which
then moves past it; or none (R118). -/
def CacheSet.allocate (set : CacheSet) (key : CoefKey) : Option (Fin 4 × CacheSet) :=
  match set.invalidWay with
  | some w => some (w, set.take w key)
  | none =>
    match set.victim with
    | some w => some (w, { set.take w key with pointer := w + 1 })
    | none => none

/-- A cache set replaced. -/
def State.setCacheSet (s : State) (i : Fin 16) (set : CacheSet) : State :=
  { s with library := { s.library with sets := s.library.sets.set i set } }

/-- The fill queue replaced. -/
def State.setQueue (s : State) (q : List QueueEntry) : State := { s with library := { s.library with queue := q } }

/-- A way of the key's set allocated, if there is one: its line and the state after (R118). -/
def State.allocate (s : State) (key : CoefKey) : Option LineRef × State :=
  match s.library.sets[key.set].allocate key with
  | some (w, set) => (some { set := key.set, way := w }, s.setCacheSet key.set set)
  | none => (none, s)

/-- A line made INVALID, its coefficient set discarded (R120, R125, R127, R130). Its key, which has no meaning while the
line is INVALID (R115), keeps the value it had (DESIGN CHOICE, log 10; unsafe). -/
def State.invalidate (s : State) (l : LineRef) : State := s.setLine l { s.line l with state := .invalid, coefs := [] }

/-- Channels QUEUED on a key attach to the line its entry was given (R107). -/
def State.attachQueued (s : State) (key : CoefKey) (l : LineRef) : State :=
  s.mapChannels fun _ x =>
    if x.request = .queued ∧ x.wanted = key then { x with request := .waitingFill l } else x

/-- The entries of the queue with the oldest lineless entry of a key given a line, in its place (R121). -/
def giveLine (key : CoefKey) (l : LineRef) : List QueueEntry → List QueueEntry
  | [] => []
  | e :: es => if e.key = key ∧ e.line = none then { e with line := some l } :: es else e :: giveLine key l es

/-- A way of a set has come free: the oldest lineless entry of the set, if any, is given a line (R121). -/
def State.wayFree (i : Fin 16) (s : State) : State :=
  match s.library.queue.find? fun e => e.line == none && e.key.set == i with
  | none => s
  | some e =>
    match s.allocate e.key with
    | (none, _) => s
    | (some l, s') => (s'.setQueue (giveLine e.key l s'.library.queue)).attachQueued e.key l

/-- A channel takes a reference to a line: the pin count rises (R115). -/
def State.pin (l : LineRef) (s : State) : State := s.setLine l { s.line l with pins := (s.line l).pins + 1 }

/-- A channel gives a reference up: the pin count falls, and at 0 a way has come free (R115, R121). -/
def State.unpin (l : LineRef) (s : State) : State :=
  let s' := s.setLine l { s.line l with pins := (s.line l).pins - 1 }
  if (s'.line l).state = .valid ∧ (s'.line l).pins = 0 then s'.wayFree l.set else s'

/-- A reference that may be FLAT given up (R111). -/
def State.unpinActive (l : Option LineRef) (s : State) : State :=
  match l with
  | none => s
  | some l => s.unpin l

/-- The request state of channel c set. -/
def State.setRequest (c : Channel) (r : Request) (s : State) : State :=
  s.setChannel c { s.channel c with request := r }

/-- Channel c takes a VALID line as incoming with k = 1, pinned; the crossfade begins at the next block start
(R105, R108). -/
def State.takeIncoming (c : Channel) (l : LineRef) (s : State) : State :=
  let s' := s.pin l
  s'.setChannel c { s'.channel c with
    incoming := some { line := l, k := 1, running := false }, request := .idle,
    incomingStates := SectionState.zeros }

/-- Does some enabled channel want the key (R120)? -/
def State.wantedBySome (s : State) (key : CoefKey) : Bool :=
  s.channels.toList.any fun x => x.record.enabled && x.wanted == key

/-- The queue without the oldest entry whose key no enabled channel wants, and that entry (R120). -/
def pruneQueue (wanted : CoefKey → Bool) : List QueueEntry → Option QueueEntry × List QueueEntry
  | [] => (none, [])
  | e :: es =>
    if wanted e.key then
      let r := pruneQueue wanted es
      (r.1, e :: r.2)
    else (some e, es)

/-- A queue entry added at the end (R119). When the queue is full one entry is pruned first; the line of a pruned entry
becomes INVALID, and the placement for its way is made after the addition (R120, R121). -/
def State.enqueueFill (e : QueueEntry) (s : State) : State :=
  if s.library.queue.length < 16 then s.setQueue (s.library.queue ++ [e])
  else
    match pruneQueue s.wantedBySome s.library.queue with
    | (none, q) => s.setQueue (q ++ [e])
    | (some old, q) =>
      match old.line with
      | none => s.setQueue (q ++ [e])
      | some l => ((s.setQueue (q ++ [e])).invalidate l).wayFree l.set

/-- A miss of channel c for a key under READY (R118): on a key already queued the channel waits as QUEUED; else a way is
allocated, the channel attached, the fill queued; or the key is queued without a line and a no-way wait is counted. -/
def State.missReady (c : Channel) (key : CoefKey) (s : State) : State :=
  if s.library.queue.any (fun e => e.key == key) then s.setRequest c .queued
  else
    match s.allocate key with
    | (some l, s') => (s'.setRequest c (.waitingFill l)).enqueueFill { key := key, line := some l }
    | (none, _) => ((s.countCache .noWayWaits).setRequest c .queued).enqueueFill { key := key, line := none }

/-- A lookup of a key by channel c and what the channel does with the result (R105, R117). -/
def State.lookup (c : Channel) (key : CoefKey) (s : State) : State :=
  match s.library.sets[key.set].find .valid key with
  | some w => (s.countCache .hits).takeIncoming c { set := key.set, way := w }
  | none =>
    match s.library.sets[key.set].find .filling key with
    | some w => (s.countCache .hits).setRequest c (.waitingFill { set := key.set, way := w })
    | none =>
      if s.library.state = .ready then (s.countCache .misses).missReady c key
      else (s.countCache .misses).setRequest c .idle

/-- The key of a channel's active set; FLAT has none (R102). -/
def State.activeKey (s : State) (c : Channel) : Option CoefKey := (s.channel c).active.map fun l => (s.line l).key

/-- An evaluation of channel c (R104). A channel that is not enabled makes none (R102). -/
def State.evaluate (c : Channel) (s : State) : State :=
  if (s.channel c).record.enabled = false then s
  else if s.library.state = .absent then s
  else if s.activeKey c = some (s.channel c).wanted then s.setRequest c .idle
  else if (s.channel c).failed = some (s.channel c).wanted then s.setRequest c .idle
  else s.lookup c (s.channel c).wanted

/-- The wanted key of channel c changes (R103): recorded, the failed key cleared; acted on at the end of a crossfade
that runs, else evaluated at once after any request has been dropped (R106). A channel that is not enabled only records
it (R102). -/
def State.changeKey (c : Channel) (key : CoefKey) (s : State) : State :=
  if key = (s.channel c).wanted then s
  else
    let s' := s.setChannel c { s.channel c with wanted := key, failed := none }
    if (s.channel c).record.enabled = false then s'
    else if (s.channel c).incoming.isSome then s'
    else (s'.setRequest c .idle).evaluate c

/-- The channels of a list act in turn. -/
def State.inTurn (f : Channel → State → State) (ord : List Channel) (s : State) : State :=
  ord.foldl (fun s c => f c s) s

/-- A zone's preset is handed to its channels (R48). DESIGN CHOICE (log 35, unsafe): each channel records its new key and
evaluates before the next channel's key changes, so a pruning (R120) in one turn sees the old wanted keys of the channels
still to come; the manual does not say whether all channels take the new key first. -/
def State.handPreset (ord : List Channel) (z : Zone) (p : Fin 16) (s : State) : State :=
  s.inTurn (fun c s =>
    if (s.channel c).record.zone = z then s.changeKey c { (s.channel c).wanted with preset := p } else s) ord

/-- Changed bands are handed to the channels of their zones; a zone whose band stays hands nothing on (R62). DESIGN CHOICE
(log 35, unsafe): as in `State.handPreset`, each channel evaluates before the next channel's key changes. -/
def State.handBands (ord : List Channel) (before after : Vector (Fin 8) 4) (s : State) : State :=
  s.inTurn (fun c s =>
    let z := (s.channel c).record.zone
    if after[z] = before[z] then s else s.changeKey c { (s.channel c).wanted with band := after[z] }) ord

/-- The crossfade of channel c ends (R111). -/
def State.endCrossfade (c : Channel) (inc : Incoming) (s : State) : State :=
  let x := s.channel c
  let s' := s.setChannel c { x with active := some inc.line, incoming := none, activeStates := x.incomingStates,
                                    incomingStates := SectionState.zeros }
  (s'.unpinActive x.active).evaluate c

/-- The crossfade of channel c at a block completion: k rises, or the crossfade ends after the block with k = 8
(R110, R111). A set whose first block has not started yet waits for the block start. -/
def State.advanceCrossfade (c : Channel) (s : State) : State :=
  match (s.channel c).runningIncoming with
  | none => s
  | some inc =>
    if inc.k < 8 then s.setChannel c { s.channel c with incoming := some { inc with k := inc.k + 1 } }
    else s.endCrossfade c inc

/-! ### Fill outcome -/

/-- The record index and the flash address of a key (R123). -/
def recordIndex (k : CoefKey) : Nat := (k.preset.val * 8 + k.band.val) * 32 + k.profile.val
def recordAddress (k : CoefKey) : Nat := 0x010000 + recordIndex k * 128

/-- Channel c, if attached to the line, pins it and takes it as incoming (R108). -/
def State.takeIfAttached (l : LineRef) (c : Channel) (s : State) : State :=
  if (s.channel c).request = .waitingFill l then s.takeIncoming c l else s

/-- A fill passes (R124): the line takes the coefficient set and is VALID, the error count is 0, the attached channels
take it in turn, and an unpinned line is then a way come free. -/
def State.fillPasses (ord : List Channel) (f : Fill) (coefs : List Coefs) (s : State) : State :=
  let s1 := s.setLine f.line { s.line f.line with state := .valid, coefs := coefs }
  let s2 := { s1 with library := { s1.library with errors := 0, fill := none, selected := false } }
  let s3 := s2.inTurn (State.takeIfAttached f.line) ord
  if (s3.line f.line).pins = 0 then s3.wayFree f.line.set else s3

/-- A line that is FILLING becomes INVALID (R127); its key keeps the value it had (DESIGN CHOICE, log 10; unsafe). -/
def Line.dropFilling (l : Line) : Line := if l.state = .filling then { l with state := .invalid, coefs := [] } else l

/-- The library becomes FAULTY: the queue is cleared, every FILLING line INVALID, and every channel that waits becomes
NONE without a failed key (R109, R127). -/
def State.becomeFaulty (s : State) : State :=
  let s' := { s with library := { s.library with
    state := .faulty, queue := [],
    sets := Vector.ofFn fun i =>
      { s.library.sets[i] with ways := Vector.ofFn fun w => s.library.sets[i].ways[w].dropFilling } } }
  s'.mapChannels fun _ x => { x with request := .idle }

/-- A fill error (R109, R125): the line is INVALID, the error is counted, the attached channels record the failed key;
the third consecutive error makes the library FAULTY, otherwise a way has come free. -/
def State.fillFails (f : Fill) (s : State) : State :=
  let s1 := (s.invalidate f.line).countCache .fillErrors
  let s2 := { s1 with library := { s1.library with
    errors := s1.library.errors + 1, fill := none, selected := false } }
  let s3 := s2.mapChannels fun _ x =>
    if x.request = .waitingFill f.line then { x with request := .idle, failed := some f.key } else x
  if 3 ≤ s3.library.errors then s3.becomeFaulty else s3.wayFree f.line.set

/-! ### Sleep -/

/-- Channel c at the entry to DORMANT: an incoming set becomes active at once and the old active line is given up;
requests are dropped; filter states become 0 (R113). -/
def State.sleepChannel (c : Channel) (s : State) : State :=
  let x := s.channel c
  let x' := { x with request := .idle, incoming := none, activeStates := SectionState.zeros,
                     incomingStates := SectionState.zeros }
  match x.incoming with
  | none => s.setChannel c x'
  | some inc => (s.setChannel c { x' with active := some inc.line }).unpinActive x.active

/-- The fill queue is cleared at the entry to DORMANT, and every line that had an entry becomes INVALID; the line of a
fill in flight, which has no entry, stays FILLING (R130). -/
def State.clearFillQueue (s : State) : State :=
  let s' := s.library.queue.foldl (fun s e => match e.line with | none => s | some l => s.invalidate l) s
  s'.setQueue []

end Sys2Proof.Machine
end

