-- ==== Sys2Proof/Machine/Operands.lean ====
section
/-!
DEFINITION. The operand forms (chapter 13): frames on the link and their checks, payload layouts, library records, and
the configuration image with its checks in order (R158, R159).
-/
namespace Sys2Proof.Machine

/-! ### Frames (R147, R148, R153, R166) -/

/-- The priority of a kind; none for an unknown kind (R148). -/
def kindPriority (kind : Nat) : Option (BitVec 3) :=
  match kind with
  | 1 => some 4 | 2 => some 3 | 3 => some 1 | 4 => some 2 | 5 => some 0 | 6 => some 0 | 7 => some 6 | 8 => some 7
  | _ => none

/-- The payload lengths a kind allows (R148). -/
def kindLengths (kind : Nat) : List Nat :=
  match kind with
  | 1 => [3, 4, 5, 6, 7, 8] | 2 => [3] | 3 => [1, 5] | 4 => [10] | 5 => [0] | 6 => [0] | 7 => [4]
  | 8 => [5, 7, 9, 11]
  | _ => []

/-- The bits from priority through payload, which the check value covers (R147, R166). -/
def coveredBits (priority : BitVec 3) (origin kind length : BitVec 4) (payload : List Byte) : List Bool :=
  [priority.getMsbD 0, priority.getMsbD 1, priority.getMsbD 2] ++ nibbleBits origin ++ nibbleBits kind ++
    nibbleBits length ++ payload.flatMap byteBits

/-- A station number as a four-bit field. -/
def stationBits (s : Station) : BitVec 4 := BitVec.ofNat 4 s.val

/-- The first check of R153 that a received frame fails, as the counter it is counted under; none for a valid frame. -/
def frameFailure (f : RawFrame) : Option LinkCounter :=
  if f.endMark = false then some .formatErrors
  else if crc16 (coveredBits f.priority (stationBits f.origin) f.kind f.length f.payload) ≠ f.check then
    some .checkErrors
  else
    match kindPriority f.kind.toNat with
    | none => some .formatErrors
    | some p =>
      if p ≠ f.priority then some .formatErrors
      else if (kindLengths f.kind.toNat).contains f.length.toNat then none
      else some .formatErrors

/-- The number of a kind the node sends (R148). -/
def TxKind.number : TxKind → BitVec 4
  | .headroom => 4
  | .report => 8

/-- The priority of a kind the node sends (R148). -/
def TxKind.priority : TxKind → BitVec 3
  | .headroom => 2
  | .report => 7

/-- All bits of a frame the node sends: start mark, covered bits, check value, end mark of three recessive bits; a
dominant bit is false (R147, R166). -/
def frameBits (kind : TxKind) (origin : Station) (payload : List Byte) : List Bool :=
  let body := coveredBits kind.priority (stationBits origin) kind.number (BitVec.ofNat 4 payload.length) payload
  false :: body ++ halfBits (crc16 body) ++ [true, true, true]

/-- The number that a field's bits spell, most significant bit first (R166). -/
def bitsNat (bits : List Bool) : Nat := bits.foldl (fun n b => 2 * n + b.toNat) 0

/-- The number in the `width` bits that begin `start` bits after the start mark. -/
def fieldAt (bits : List Bool) (start width : Nat) : Nat := bitsNat ((bits.drop start).take width)

/-- `n` bytes read from a bit stream. -/
def readBytes : Nat → List Bool → List Byte
  | 0, _ => []
  | n + 1, bits => BitVec.ofNat 8 (bitsNat (bits.take 8)) :: readBytes n (bits.drop 8)

/-- The frame read from the bits that follow the start mark, recessive true: the fields at their bit places, then as many
payload bytes as the length field gives, the check value and the end mark (R153, R166). -/
def readFrame (bits : List Bool) : RawFrame :=
  let n := fieldAt bits 11 4
  { priority := BitVec.ofNat 3 (fieldAt bits 0 3)
    origin := Fin.ofNat 16 (fieldAt bits 3 4)
    kind := BitVec.ofNat 4 (fieldAt bits 7 4)
    length := BitVec.ofNat 4 n
    payload := readBytes n (bits.drop 15)
    check := BitVec.ofNat 16 (fieldAt bits (15 + 8 * n) 16)
    endMark := (bits.drop (31 + 8 * n)).take 3 == [true, true, true] }

/-- The two bytes at a place, the first most significant (R166). -/
def bytesAt (bytes : List Byte) (i : Nat) : Byte × Byte := (byteAt bytes i, byteAt bytes (i + 1))

/-- The command that a frame read from the line is: an invalid frame, or by its kind number the cue, query or report it
carries, its operands taken by their byte places alone (R148, R153, R154, R167). The two lengths of a dip frame are two
commands (DESIGN CHOICE, log 27; safe). -/
def frameCommand (f : RawFrame) : Instr :=
  match frameFailure f, f.kind.toNat with
  | none, 1 => .imageCue f.origin (byteAt f.payload 0) (byteAt f.payload 1) (byteAt f.payload 2) (f.payload.drop 3)
  | none, 2 => .paceCue f.origin (byteAt f.payload 0) (bytesAt f.payload 1)
  | none, 3 =>
    if f.length = 5#4 then
      .dipApply f.origin (byteAt f.payload 0) (byteAt f.payload 1) (bytesAt f.payload 2) (byteAt f.payload 4)
    else .dipRelease f.origin (byteAt f.payload 0)
  | none, 4 =>
    .headroomCue f.origin (bytesAt f.payload 0) (bytesAt f.payload 2) (bytesAt f.payload 4) (bytesAt f.payload 6)
      (byteAt f.payload 8) (byteAt f.payload 9)
  | none, 5 => .sleepCue f.origin
  | none, 6 => .wakeCue f.origin
  | none, 7 =>
    .queryCue f.origin (byteAt f.payload 0) (byteAt f.payload 1) (byteAt f.payload 2) (byteAt f.payload 3)
  | none, 8 => .reportFrame f.origin f.payload
  | _, _ => .invalidFrame f

/-! ### The image payload (R37, R38, R167) -/

/-- The optional fields of an image cue. -/
structure ImageFields where
  volume  : Option Byte
  step    : Option Byte
  fade    : Option Byte
  balance : Option Byte
  preset  : Option Byte
  deriving DecidableEq, Repr

/-- The number of presence flags set (R38). -/
def flagCount (flags : Byte) : Nat :=
  flags[0].toNat + flags[1].toNat + flags[2].toNat + flags[3].toNat + flags[4].toNat

/-- The next field if its flag is set, and the bytes left. -/
def takeField (present : Bool) (bytes : List Byte) : Option Byte × List Byte :=
  if present then (bytes.head?, bytes.tail) else (none, bytes)

/-- The fields after the presence flags, in the order of the flag bits (R37, R167). -/
def imageFields (flags : Byte) (bytes : List Byte) : ImageFields :=
  let v := takeField flags[0] bytes
  let st := takeField flags[1] v.2
  let f := takeField flags[2] st.2
  let b := takeField flags[3] f.2
  let p := takeField flags[4] b.2
  { volume := v.1, step := st.1, fade := f.1, balance := b.1, preset := p.1 }

/-! ### The library record (R124, R168) -/

/-- The coefficients of section i (from 0) of a record. -/
def recordSection (bytes : List Byte) (i : Nat) : Coefs :=
  { b0 := (wordAt bytes (4 + 20 * i)).toInt, b1 := (wordAt bytes (8 + 20 * i)).toInt,
    b2 := (wordAt bytes (12 + 20 * i)).toInt, a1 := (wordAt bytes (16 + 20 * i)).toInt,
    a2 := (wordAt bytes (20 + 20 * i)).toInt }

/-- The key carried in a record's key echo (R168). -/
def recordKey (bytes : List Byte) : CoefKey :=
  { preset := ⟨((halfAt bytes 0).extractLsb' 8 4).toNat, ((halfAt bytes 0).extractLsb' 8 4).isLt⟩
    band := ⟨((halfAt bytes 0).extractLsb' 5 3).toNat, ((halfAt bytes 0).extractLsb' 5 3).isLt⟩
    profile := ⟨((halfAt bytes 0).extractLsb' 0 5).toNat, ((halfAt bytes 0).extractLsb' 0 5).isLt⟩ }

/-- The checks of R124 on a record read for a key. -/
def recordPasses (key : CoefKey) (bytes : List Byte) : Bool :=
  (crcBytes (bytes.take 126) == halfAt bytes 126) && (recordKey bytes == key) &&
    decide ((byteAt bytes 2).toNat ≤ 6)

/-- The coefficient set of a record: its sections 1 to the section count (R124, R168). -/
def recordCoefs (bytes : List Byte) : List Coefs := (List.range (byteAt bytes 2).toNat).map (recordSection bytes)

/-! ### The configuration image (R158, R159, R169) -/

/-- A zone record of the image. -/
structure ZoneConfig where
  maxVolume : Nat
  volume    : Nat
  fade      : Int
  balance   : Int
  preset    : Fin 16
  curve     : Curve
  deriving DecidableEq, Repr

/-- A configuration that has passed every check. -/
structure NodeConfig where
  primary   : Option Station
  secondary : Option Station
  library   : Bool
  channels  : Vector ChannelRecord 8
  zones     : Vector ZoneConfig 4
  laws      : Laws
  profile   : RampProfile
  deriving DecidableEq, Repr

/-- The values of n fields, if every one of them has one. -/
def gather {α : Type} {n : Nat} (dflt : α) (f : Fin n → Option α) : Option (Vector α n) :=
  if (List.finRange n).all fun i => (f i).isSome then some (Vector.ofFn fun i => (f i).getD dflt) else none

/-- A byte as a number below n. -/
def finField (n : Nat) (b : Byte) : Option (Fin n) := if h : b.toNat < n then some ⟨b.toNat, h⟩ else none

/-- A number in a range. -/
def ranged (lo hi v : Nat) : Option Nat := if lo ≤ v ∧ v ≤ hi then some v else none

/-- A signed byte in −32..+32. -/
def stepField (b : Byte) : Option Int := if -32 ≤ b.toInt ∧ b.toInt ≤ 32 then some b.toInt else none

/-- A flag encoded 0 or 1. -/
def flagField (b : Byte) : Option Bool := if b = 0#8 then some false else if b = 1#8 then some true else none

/-- A field below n, or 0xFF for NONE (R166). -/
def optionField (n : Nat) (b : Byte) : Option (Option (Fin n)) :=
  if b = 0xFF#8 then some none else (finField n b).map some

/-- The row of a channel record (R169). -/
def rowField (b : Byte) : Option Row :=
  if b = 0#8 then some .front else if b = 1#8 then some .rear else if b = 2#8 then some .neither else none

/-- The side of a channel record (R169). -/
def sideField (b : Byte) : Option Side :=
  if b = 0#8 then some .left else if b = 1#8 then some .right else if b = 2#8 then some .neither else none

/-- Channel record c, if every field is in its range (R159 check 4, R169). -/
def channelRecord (img : List Byte) (c : Nat) : Option ChannelRecord :=
  let o := 12 + 20 * c
  match flagField (byteAt img o), finField 4 (byteAt img (o + 1)), rowField (byteAt img (o + 2)),
      sideField (byteAt img (o + 3)), finField 4 (byteAt img (o + 4)), optionField 4 (byteAt img (o + 5)),
      finField 32 (byteAt img (o + 6)), finField 16 (byteAt img (o + 7)) with
  | some enabled, some zone, some row, some side, some cls, some group, some profile, some slot =>
    match ranged 0 480 (halfAt img (o + 8)).toNat, ranged 0 16 (byteAt img (o + 10)).toNat,
        ranged 1 16 (byteAt img (o + 11)).toNat, ranged 1 8388607 (wordAt img (o + 16)).toNat with
    | some trim, some share, some release, some ceiling =>
      some { enabled := enabled, zone := zone, row := row, side := side, cls := cls, group := group,
             profile := profile, slot := slot, trim := trim, share := share, ceiling := ceiling,
             release := release, hold := (byteAt img (o + 12)).toNat }
    | _, _, _, _ => none
  | _, _, _, _, _, _, _, _ => none

/-- A breakpoint of a zone record, if speed and boost are in their ranges. -/
def breakpoint (img : List Byte) (o : Nat) : Option Breakpoint :=
  match ranged 0 600 (halfAt img o).toNat, ranged 0 192 (halfAt img (o + 2)).toNat with
  | some speed, some boost => some { speed := speed, boost := boost }
  | _, _ => none

/-- Zone record z, if every field is in its range (R159 check 4, R169). -/
def zoneRecord (img : List Byte) (z : Nat) : Option ZoneConfig :=
  let o := 172 + 40 * z
  match ranged 0 120 (byteAt img o).toNat, stepField (byteAt img (o + 2)), stepField (byteAt img (o + 3)),
      finField 16 (byteAt img (o + 4)),
      gather (n := 8) { speed := 0, boost := 0 } (fun k => breakpoint img (o + 8 + 4 * k)) with
  | some maxVolume, some fade, some balance, some preset, some curve =>
    match ranged 0 maxVolume (byteAt img (o + 1)).toNat with
    | some volume =>
      some { maxVolume := maxVolume, volume := volume, fade := fade, balance := balance, preset := preset,
             curve := curve }
    | none => none
  | _, _, _, _, _ => none

/-- Rate and span of ramp record r, if in their ranges; the chain is read by check 7 (R159, R169). -/
def rampRange (img : List Byte) (r : Nat) : Option (Nat × Nat) :=
  let o := 464 + 4 * r
  match ranged 1 255 (byteAt img o).toNat, ranged 0 4095 (halfAt img (o + 2)).toNat with
  | some rate, some span => some (rate, span)
  | _, _ => none

/-- Ramp record r, if its chain is a record number or none, with a span of at least 1 when it has a chain
(R159 check 7). -/
def rampRecord (img : List Byte) (r : Nat) : Option RampRecord :=
  match rampRange img r, optionField 32 (byteAt img (464 + 4 * r + 1)) with
  | some (rate, span), some chain =>
    if chain.isSome ∧ span = 0 then none else some { rate := rate, span := span, chain := chain }
  | _, _ => none

/-- Ramp vector entry i: a record number, or 0xFE for STEP (R159 check 7, R166, R169). -/
def vectorField (img : List Byte) (i : Nat) : Option (Option (Fin 32)) :=
  if byteAt img (592 + i) = 0xFE#8 then some none else (finField 32 (byteAt img (592 + i))).map some

/-- A law table at an offset (R169). -/
def lawTable (img : List Byte) (o : Nat) : Vector Nat 33 := Vector.ofFn fun i => (halfAt img (o + 2 * i)).toNat

/-- A list in which each number is at least the one before it. -/
def nondecreasing : List Nat → Bool
  | a :: b :: l => decide (a ≤ b) && nondecreasing (b :: l)
  | _ => true

/-- A list in which each number is above the one before it. -/
def increasing : List Nat → Bool
  | a :: b :: l => decide (a < b) && increasing (b :: l)
  | _ => true

/-- Check 5 on a law table (R159). -/
def lawOk (law : Vector Nat 33) : Bool :=
  (law[0] == 0) && law.toList.all (fun e => decide (e ≤ 1600)) && nondecreasing law.toList

/-- Check 6 on a pace curve (R159). -/
def curveOk (curve : Curve) : Bool := increasing (curve.toList.map (·.speed))

/-- The fault code of the header checks 1 and 2, or NONE (R158, R159, R169). -/
def headerFault (header : List Byte) : FaultCode :=
  if (header.take 5 != [0x48#8, 0x5A#8, 0x4E#8, 0x38#8, 0x01#8]) = true then .badSignature
  else if halfAt header 6 ≠ 606#16 then .badLength
  else .noFault

/-- Checks 5, 6 and 7 on an image whose fields are in their ranges (R159). -/
def checkTables (img : List Byte) (primary secondary : Option Station) (library : Bool)
    (channels : Vector ChannelRecord 8) (zones : Vector ZoneConfig 4) : Except FaultCode NodeConfig :=
  if !(lawOk (lawTable img 332) && lawOk (lawTable img 398)) then .error .badLaw
  else if !(zones.toList.all fun z => curveOk z.curve) then .error .badCurve
  else
    match gather (n := 32) { rate := 0, span := 0, chain := none } (fun r => rampRecord img r),
        gather (n := 11) none (fun i => vectorField img i) with
    | some records, some vector =>
      .ok { primary := primary, secondary := secondary, library := library, channels := channels, zones := zones,
            laws := { fade := lawTable img 332, balance := lawTable img 398 },
            profile := { records := records, vector := vector } }
    | _, _ => .error .badRamp

/-- The channel record that stands in for a missing one inside `gather`; never part of an admitted image. -/
def blankRecord : ChannelRecord := ChannelRecord.builtIn 0 0

/-- The zone record that stands in for a missing one inside `gather`; never part of an admitted image. -/
def blankZone : ZoneConfig :=
  { maxVolume := 0, volume := 0, fade := 0, balance := 0, preset := 0,
    curve := Vector.replicate 8 { speed := 0, boost := 0 } }

/-- Checks 3 to 7 on the whole image, in order; the first that fails gives the fault code (R159). -/
def checkImage (img : List Byte) : Except FaultCode NodeConfig :=
  if crcBytes (img.take 604) ≠ halfAt img 604 then .error .badCheck
  else
    match optionField 16 (byteAt img 8), optionField 16 (byteAt img 9), flagField (byteAt img 10),
        gather (n := 8) blankRecord (fun c => channelRecord img c),
        gather (n := 4) blankZone (fun z => zoneRecord img z),
        gather (n := 32) (0, 0) (fun r => rampRange img r) with
    | some primary, some secondary, some library, some channels, some zones, some _ =>
      checkTables img primary secondary library channels zones
    | _, _, _, _, _, _ => .error .badRange

end Sys2Proof.Machine
end

