-- ==== Sys2Proof/Machine/Image.lean ====
section
/-!
DEFINITION. The image handler (chapter 3): stamp window and origin tables, the effect of an accepted cue, absence.
-/
namespace Sys2Proof.Machine

/-- A zone image record replaced. -/
def State.setImage (s : State) (z : Zone) (im : ZoneImage) : State := { s with image := s.image.set z im }

/-- The VOL target of a volume index (R46). -/
def volumeTarget (i : Nat) : Int := if i = 0 then 1600 else (120 - (i : Int)) * 8

/-- The FADE or BAL target of a step (R46). -/
def stepTarget (f : Int) : Int := f * 16

/-- How an arrival is judged (R42, R43). -/
inductive StampClass where
  | newOrigin | repeated | fresh | stale
  deriving DecidableEq, Repr

/-- The origin's last accepted stamp in a zone's table (R41). -/
def lastStamp (origins : List OriginRecord) (origin : Station) : Option Byte :=
  (origins.find? fun r => r.origin == origin).map (·.stamp)

/-- The class of an arrival by its distance from the last accepted stamp, modulo 256 (R42, R43). -/
def stampClass (last : Option Byte) (stamp : Byte) : StampClass :=
  match last with
  | none => .newOrigin
  | some l =>
    if (stamp - l).toNat = 0 then .repeated else if (stamp - l).toNat ≤ 127 then .fresh else .stale

/-- The table without an origin's record; the others keep their order (R42, R49). -/
def removeOrigin (origin : Station) (origins : List OriginRecord) : List OriginRecord :=
  origins.filter fun r => r.origin != origin

/-- The table after an acceptance: the origin's record stands at the end with the new stamp; a full table that held no
record of the origin loses its oldest (R42, R43). -/
def acceptStamp (origin : Station) (stamp : Byte) (origins : List OriginRecord) : List OriginRecord :=
  let kept := removeOrigin origin origins
  (if kept.length < 4 then kept else kept.tail) ++ [{ origin := origin, stamp := stamp }]

/-- The new volume index of an accepted cue (R45). -/
def newVolume (f : ImageFields) (im : ZoneImage) : Nat :=
  match f.volume, f.step with
  | some v, _ => min v.toNat im.maxVolume
  | none, some d => (clampInt 0 im.maxVolume (im.volume + d.toInt)).toNat
  | none, none => im.volume

/-- A fade or balance step of an accepted cue, clamped (R47). -/
def newStep (field : Option Byte) (old : Int) : Int :=
  match field with
  | some b => clampInt (-32) 32 b.toInt
  | none => old

/-- The preset of an accepted cue: a value of 16 or more is ignored (R48). -/
def newPreset (field : Option Byte) (old : Fin 16) : Fin 16 :=
  match field with
  | some b => if h : b.toNat < 16 then ⟨b.toNat, h⟩ else old
  | none => old

/-- A target written only if the image value has changed (section 3.4, R46). -/
def State.writeIfChanged (changed : Bool) (id : SlotId) (v : Int) (s : State) : State :=
  if changed then s.writeTarget id v else s

/-- An accepted cue applied to a zone: image, targets, preset handed to the zone's channels (R45 to R48). -/
def State.applyImage (ord : List Channel) (z : Zone) (f : ImageFields) (s : State) : State :=
  let im := s.image[z]
  let vol := newVolume f im
  let fade := newStep f.fade im.fade
  let bal := newStep f.balance im.balance
  let pre := newPreset f.preset im.preset
  let s1 := s.setImage z { im with volume := vol, fade := fade, balance := bal, preset := pre }
  let s2 := s1.writeIfChanged (vol != im.volume) (.vol z) (volumeTarget vol)
  let s3 := s2.writeIfChanged (fade != im.fade) (.fade z) (stepTarget fade)
  let s4 := s3.writeIfChanged (bal != im.balance) (.bal z) (stepTarget bal)
  if pre = im.preset then s4 else s4.handPreset ord z pre

/-- The acceptance of a cue recorded in its zone's origin table (R42, R43). -/
def State.recordStamp (z : Zone) (origin : Station) (stamp : Byte) (s : State) : State :=
  s.setImage z { s.image[z] with origins := acceptStamp origin stamp s.image[z].origins }

/-- An image cue that the handler takes, zone in byte 0, stamp in byte 1, presence flags in byte 2, fields from byte 3
on: payload checks, stamp window, application (R38, R42, R43, R167). -/
def State.takeImage (ord : List Channel) (origin : Station) (payload : List Byte) (s : State) : State :=
  let stamp := byteAt payload 1
  let flags := byteAt payload 2
  if payload.length ≠ 3 + flagCount flags then s.countLink .formatErrors
  else
    match finField 4 (byteAt payload 0) with
    | none => s.countLink .formatErrors
    | some z =>
      match stampClass (lastStamp s.image[z].origins origin) stamp with
      | .repeated => s
      | .stale => s.countLink .staleImageCues
      | .newOrigin => (s.recordStamp z origin stamp).applyImage ord z (imageFields flags (payload.drop 3))
      | .fresh => (s.recordStamp z origin stamp).applyImage ord z (imageFields flags (payload.drop 3))

/-- The origin records of an absent station removed from all four tables (R49). -/
def State.removeOrigins (origin : Station) (s : State) : State :=
  { s with image := Vector.ofFn fun z =>
      { s.image[z] with origins := removeOrigin origin s.image[z].origins } }

/-- All four origin tables emptied (R50). -/
def State.emptyOrigins (s : State) : State :=
  { s with image := Vector.ofFn fun z => { s.image[z] with origins := [] } }

end Sys2Proof.Machine
end

