-- ==== Sys2Proof/Machine/Pace.lean ====
section
/-!
DEFINITION. The pace unit (chapter 4): sources, selection, boosts and bands.
-/
namespace Sys2Proof.Machine

/-- The pace unit replaced. -/
def State.setPace (s : State) (p : PaceUnit) : State := { s with pace := p }

/-- A speed-source record. -/
def PaceUnit.source (p : PaceUnit) (which : Source) : SpeedSource :=
  match which with
  | .primary => p.primary
  | .secondary => p.secondary

/-- A speed-source record replaced. -/
def PaceUnit.setSource (p : PaceUnit) (which : Source) (x : SpeedSource) : PaceUnit :=
  match which with
  | .primary => { p with primary := x }
  | .secondary => { p with secondary := x }

/-- The record a station feeds: PRIMARY first, so a station named by both feeds PRIMARY alone (R52, R55). -/
def PaceUnit.sourceOf (p : PaceUnit) (origin : Station) : Option Source :=
  if p.primary.station = some origin then some .primary
  else if p.secondary.station = some origin then some .secondary
  else none

/-- The boost between two breakpoints: truncating toward zero, on falling segments too (R59). -/
def interpolateBoost (p q : Breakpoint) (speed : Nat) : Int :=
  (p.boost : Int) + (((q.boost : Int) - p.boost) * ((speed : Int) - p.speed)).tdiv ((q.speed : Int) - p.speed)

/-- The boost on the segments after the first breakpoint, which is at or below the speed (R59). -/
def boostFrom (p : Breakpoint) (speed : Nat) : List Breakpoint → Int
  | [] => p.boost
  | q :: rest => if speed < q.speed then interpolateBoost p q speed else boostFrom q speed rest

/-- The boost of a curve at a speed (R59). -/
def curveBoost (curve : Curve) (speed : Nat) : Int :=
  if speed ≤ curve[0].speed then curve[0].boost else boostFrom curve[0] speed curve.toList.tail

/-- The breakpoint speed of a band. -/
def bandSpeed (curve : Curve) (b : Fin 8) : Nat := curve[b].speed

/-- The upward pass, at most `fuel` moves (R61). -/
def bandUp (curve : Curve) (speed : Nat) : Nat → Fin 8 → Fin 8
  | 0, b => b
  | fuel + 1, b =>
    if h : b.val + 1 < 8 then
      if bandSpeed curve ⟨b.val + 1, h⟩ ≤ speed then bandUp curve speed fuel ⟨b.val + 1, h⟩ else b
    else b

/-- The downward pass with its hysteresis of 10, at most `fuel` moves (R61). -/
def bandDown (curve : Curve) (speed : Nat) : Nat → Fin 8 → Fin 8
  | 0, b => b
  | fuel + 1, b =>
    if 0 < b.val ∧ speed + 10 < bandSpeed curve b then
      bandDown curve speed fuel ⟨b.val - 1, by omega⟩
    else b

/-- A zone's band at a new used speed: the upward pass, and the downward pass only if that did not raise it (R61). -/
def newBand (curve : Curve) (speed : Nat) (b : Fin 8) : Fin 8 :=
  if bandUp curve speed 7 b = b then bandDown curve speed 7 b else bandUp curve speed 7 b

/-- PACE targets of all four zones written at the used speed (R60). -/
def State.writePaceTargets (curves : Vector Curve 4) (speed : Nat) (s : State) : State :=
  ([0, 1, 2, 3] : List Zone).foldl (fun s z => s.writeTarget (.pace z) (curveBoost curves[z] speed)) s

/-- New PACE targets and bands after a change of the used speed (R57, R60, R61, R62). With no curve held there is no
source, so the used speed never changes (R63). -/
def State.formPace (ord : List Channel) (s : State) : State :=
  match s.pace.curves with
  | none => s
  | some curves =>
    let before := s.pace.bands
    let after : Vector (Fin 8) 4 := Vector.ofFn fun z => newBand curves[z] s.pace.usedSpeed before[z]
    ((s.writePaceTargets curves s.pace.usedSpeed).setPace { s.pace with bands := after }).handBands ord before after

/-- The speed state after a selection (R57). -/
def selectState (primary secondary : Bool) (before : SpeedState) : SpeedState :=
  if primary then .primary
  else if secondary then .secondary
  else
    match before with
    | .noSpeed => .noSpeed
    | .primary | .secondary | .hold => .hold

/-- The used speed after a selection (R57). -/
def selectSpeed (p : PaceUnit) : Nat :=
  if p.primary.valid then p.primary.lastSpeed
  else if p.secondary.valid then p.secondary.lastSpeed
  else p.usedSpeed

/-- A selection (R57). -/
def State.select (ord : List Channel) (s : State) : State :=
  let speed := selectSpeed s.pace
  let s' := s.setPace { s.pace with
    speedState := selectState s.pace.primary.valid s.pace.secondary.valid s.pace.speedState, usedSpeed := speed }
  if speed = s.pace.usedSpeed then s' else s'.formPace ord

/-- A source made not fresh: flag clear, freshness time 0, last speed kept (R54, R56, R58). -/
def SpeedSource.unfresh (x : SpeedSource) : SpeedSource := { x with valid := false, freshness := 0 }

/-- A source after a VALID cue (R54). -/
def SpeedSource.hear (x : SpeedSource) (speed : Nat) : SpeedSource :=
  { x with lastSpeed := min speed 600, valid := true, freshness := 250 }

/-- A source's flag cleared. -/
def State.clearSource (which : Source) (s : State) : State :=
  s.setPace (s.pace.setSource which (s.pace.source which).unfresh)

/-- A pace cue that the unit takes, validity in byte 0, speed in bytes 1 and 2 (R54, R55, R167). -/
def State.takePace (ord : List Channel) (origin : Station) (payload : List Byte) (s : State) : State :=
  match s.pace.sourceOf origin with
  | none => s.countLink .unexpectedPaceSources
  | some which =>
    if byteAt payload 0 = 1#8 then
      (s.setPace (s.pace.setSource which ((s.pace.source which).hear (halfAt payload 1).toNat))).select ord
    else if byteAt payload 0 = 0#8 then (s.clearSource which).select ord
    else s.countLink .formatErrors

/-- The absence of a station at one source record (R58). -/
def State.sourceAbsent (ord : List Channel) (st : Station) (which : Source) (s : State) : State :=
  if (s.pace.source which).station = some st ∧ (s.pace.source which).valid = true then
    (s.clearSource which).select ord
  else s

/-- The absence of a station at the pace unit (R58). -/
def State.paceAbsence (ord : List Channel) (st : Station) (s : State) : State :=
  (s.sourceAbsent ord st .primary).sourceAbsent ord st .secondary

/-- The speed state at the entry to DORMANT (R64). -/
def sleepSpeedState (x : SpeedState) : SpeedState :=
  match x with
  | .primary | .secondary | .hold => .hold
  | .noSpeed => .noSpeed

/-- The pace unit at the entry to DORMANT (R64). -/
def State.sleepPace (s : State) : State :=
  s.setPace { s.pace with primary := s.pace.primary.unfresh, secondary := s.pace.secondary.unfresh,
                          speedState := sleepSpeedState s.pace.speedState }

end Sys2Proof.Machine
end

