-- ==== Sys2Proof/Machine/Reduction.lean ====
section
/-!
DEFINITION. The reduction table (chapter 5): admission, dip and headroom cues, removals, targets.
-/
namespace Sys2Proof.Machine

/-- The origin of an entry's key. -/
def entryOrigin : EntryKey → Station
  | .link o _ => o
  | .dip o _ => o

/-- The entry of a key, if present (R66). -/
def findEntry (key : EntryKey) (table : List Entry) : Option Entry := table.find? fun e => e.key == key

/-- The table without the entry of a key; the others keep their order (R67). -/
def removeEntry (key : EntryKey) (table : List Entry) : List Entry := table.filter fun e => e.key != key

/-- The entry of a key replaced at its place (R67). -/
def updateEntry (e : Entry) (table : List Entry) : List Entry := table.map fun x => if x.key = e.key then e else x

/-- The smallest depth of a list of entries below a bound, or the bound. -/
def leastDepth (bound : Nat) (table : List Entry) : Nat := table.foldl (fun m e => min m e.depth) bound

/-- The table without its first entry of a given depth. -/
def removeFirstDepth (depth : Nat) : List Entry → List Entry
  | [] => []
  | e :: es => if e.depth = depth then es else e :: removeFirstDepth depth es

/-- The admission of a new key: room, displacement of the shallowest and earliest entry of smaller depth, or refusal
(R68). -/
def admitEntry (e : Entry) (table : List Entry) : Option (List Entry) :=
  if table.length < 24 then some (table ++ [e])
  else if leastDepth e.depth table < e.depth then
    some (removeFirstDepth (leastDepth e.depth table) table ++ [e])
  else none

/-- The table replaced. -/
def State.setTable (s : State) (table : List Entry) : State := { s with table := table }

/-- An entry written: an update in place of a present key, or an admission, counted when refused (R68, R71, R73). -/
def State.putEntry (e : Entry) (s : State) : State :=
  match findEntry e.key s.table with
  | some _ => s.setTable (updateEntry e s.table)
  | none =>
    match admitEntry e s.table with
    | some t => s.setTable t
    | none => s.countLink .reductionsRefused

/-- The depth an entry asks of the DIP slot of a zone and class (R78). -/
def dipDepth (z : Zone) (k : ChannelClass) (e : Entry) : Nat :=
  match e.key with
  | .dip _ _ => if e.zones[z] && e.classes[k] then e.depth else 0
  | .link _ _ => 0

/-- The depth an entry asks of a LINK slot (R79). -/
def linkDepth (g : Group) (e : Entry) : Nat :=
  match e.key with
  | .link _ g' => if g' = g then e.depth else 0
  | .dip _ _ => 0

/-- The DIP target of a zone and class (R78). -/
def dipTarget (table : List Entry) (z : Zone) (k : ChannelClass) : Nat :=
  table.foldl (fun m e => max m (dipDepth z k e)) 0

/-- The LINK target of a group (R79). -/
def linkTarget (own : Nat) (table : List Entry) (g : Group) : Nat :=
  table.foldl (fun m e => max m (linkDepth g e)) own

/-- The LINK target of a group recomputed and written (R79, R80). -/
def State.writeLinkTarget (g : Group) (s : State) : State :=
  s.writeTarget (.link g) (linkTarget s.emission.own[g] s.table g)

/-- The DIP target of a zone and class recomputed and written (R78, R80). -/
def State.writeDipTarget (z : Zone) (k : ChannelClass) (s : State) : State :=
  s.writeTarget (.dip z k) (dipTarget s.table z k)

/-- All 16 DIP and 4 LINK targets recomputed and written; a target that is unchanged is no target change (R80, R22). -/
def State.recomputeTargets (s : State) : State :=
  let dips : List (Zone × ChannelClass) :=
    [(0, 0), (0, 1), (0, 2), (0, 3), (1, 0), (1, 1), (1, 2), (1, 3), (2, 0), (2, 1), (2, 2), (2, 3), (3, 0), (3, 1),
      (3, 2), (3, 3)]
  ([0, 1, 2, 3] : List Group).foldl (fun s g => s.writeLinkTarget g)
    (dips.foldl (fun s zk => s.writeDipTarget zk.1 zk.2) s)

/-- The lifetime a dip APPLY asks for: hold × 100 ms, or none for a hold of 0 (R71). -/
def dipLifetime (hold : Byte) : Option Nat := if hold = 0#8 then none else some (hold.toNat * 100)

/-- The dip id of an operation byte (R167). -/
def dipId (op : Byte) : Fin 8 := ⟨(op.extractLsb' 0 3).toNat, (op.extractLsb' 0 3).isLt⟩

/-- The operation of an operation byte: 1 APPLY, 2 RELEASE (R167). -/
def dipOp (op : Byte) : Nat := (op.extractLsb' 4 4).toNat

/-- A dip RELEASE: the entry removed if present, and the targets recomputed (R72). -/
def State.releaseDip (origin : Station) (id : Fin 8) (s : State) : State :=
  match findEntry (.dip origin id) s.table with
  | none => s
  | some _ => (s.setTable (removeEntry (.dip origin id) s.table)).recomputeTargets

/-- A dip APPLY: handled as a RELEASE for a depth or mask of 0, else the entry written and the targets recomputed
(R71). -/
def State.applyDip (origin : Station) (id : Fin 8) (zones classes : BitVec 4) (depth : Nat) (hold : Byte)
    (s : State) : State :=
  if depth = 0 ∨ zones = 0#4 ∨ classes = 0#4 then s.releaseDip origin id
  else
    (s.putEntry { key := .dip origin id, zones := zones, classes := classes, depth := min depth 1600,
                  lifetime := dipLifetime hold }).recomputeTargets

/-- A dip payload of five bytes that the table takes, operation and id in byte 0, masks in byte 1, depth in bytes 2 and 3,
hold in byte 4: its operation must be APPLY (R70, R71, R167). -/
def State.takeDipApply (origin : Station) (payload : List Byte) (s : State) : State :=
  if dipOp (byteAt payload 0) = 1 then
    s.applyDip origin (dipId (byteAt payload 0)) ((byteAt payload 1).extractLsb' 0 4) ((byteAt payload 1).extractLsb' 4 4)
      (halfAt payload 2).toNat (byteAt payload 4)
  else s.countLink .formatErrors

/-- A dip payload of one byte that the table takes: its operation must be RELEASE (R70, R72, R167). -/
def State.takeDipRelease (origin : Station) (payload : List Byte) (s : State) : State :=
  if dipOp (byteAt payload 0) = 2 then s.releaseDip origin (dipId (byteAt payload 0)) else s.countLink .formatErrors

/-- One group value of a headroom cue (R73). -/
def State.applyGroup (origin : Station) (g : Group) (v : Nat) (s : State) : State :=
  if v = 0 then s.setTable (removeEntry (.link origin g) s.table)
  else s.putEntry { key := .link origin g, zones := 0#4, classes := 0#4, depth := min v 384, lifetime := some 300 }

/-- A headroom cue that the table takes: the values of groups 0 to 3, two bytes each from byte 0 on, in group order, then
one recomputation; the state code and flags in bytes 8 and 9 play no part (R69, R73, R167). -/
def State.takeHeadroom (origin : Station) (payload : List Byte) (s : State) : State :=
  ((((s.applyGroup origin 0 (halfAt payload 0).toNat).applyGroup origin 1 (halfAt payload 2).toNat).applyGroup
    origin 2 (halfAt payload 4).toNat).applyGroup origin 3 (halfAt payload 6).toNat).recomputeTargets

/-- The entry of a key removed and the targets recomputed (R75). -/
def State.expireEntry (key : EntryKey) (s : State) : State :=
  (s.setTable (removeEntry key s.table)).recomputeTargets

/-- Every entry of an absent station removed, and the targets recomputed once (R77). -/
def State.purgeStation (st : Station) (s : State) : State :=
  (s.setTable (s.table.filter fun e => entryOrigin e.key != st)).recomputeTargets

end Sys2Proof.Machine
end

