-- ==== Sys2Proof/Machine/Link.lean ====
section
/-!
DEFINITION. The link interface (chapter 10): the transmit queue, sending attempts, SILENT, presence and absence, and
the reception common to all valid frames.
-/
namespace Sys2Proof.Machine

/-- The link interface replaced. -/
def State.setLink (s : State) (l : LinkInterface) : State := { s with link := l }

/-! ### The transmit queue (R151) -/

/-- Is a headroom entry queued (R151)? -/
def hasHeadroom (q : List TxEntry) : Bool := q.any fun e => e.kind == .headroom

/-- The queued headroom entry with new content in its place, its age restarted (R151, R152). Where its lateness expired
during an attempt that has not ended, the restart undoes it: the entry is not discarded and not counted as late if the
attempt ends unsent, and the next attempt sends the new content, as R151 has it. R152 has an entry that expired under an
attempt discarded then, and does not speak of a replacement in between (DEDUCED, log 14; unsafe). -/
def replaceHeadroom (payload : List Byte) (q : List TxEntry) : List TxEntry :=
  q.map fun e => if e.kind = .headroom then { e with payload := payload, age := 0, late := false } else e

/-- Is the entry at the head a headroom entry? -/
def headIsHeadroom (q : List TxEntry) : Bool :=
  match q with
  | [] => false
  | e :: _ => e.kind == .headroom

/-- The sending attempt after a replacement of the headroom entry: if it is the entry being sent, the attempt goes on
with the content it began with and is marked (R151). -/
def markReplaced (q : List TxEntry) (a : Option Attempt) : Option Attempt :=
  match a with
  | none => none
  | some a => if headIsHeadroom q && !a.gone then some { a with replaced := true } else some a

/-- A new entry (R151). -/
def TxEntry.fresh (kind : TxKind) (payload : List Byte) : TxEntry :=
  { kind := kind, payload := payload, age := 0, late := false }

/-- A headroom cue handed to the queue: the link interface after an acceptance, or none for a refusal (R151). -/
def LinkInterface.acceptHeadroom (l : LinkInterface) (payload : List Byte) : Option LinkInterface :=
  if hasHeadroom l.queue then
    some { l with queue := replaceHeadroom payload l.queue, sending := markReplaced l.queue l.sending }
  else if l.queue.length < 8 then some { l with queue := l.queue ++ [.fresh .headroom payload] }
  else none

/-- A query answer handed to the queue: queued whole, or none for a refusal (R151). -/
def LinkInterface.acceptAnswer (l : LinkInterface) (frames : List (List Byte)) : Option LinkInterface :=
  if l.queue.length + frames.length ≤ 8 then
    some { l with queue := l.queue ++ frames.map (TxEntry.fresh .report) }
  else none

/-! ### Sending (R147 to R152, R156) -/

/-- May the interface start to send: no attempt going on, not within a frame that it receives, not SILENT, an entry in the
queue (R147, R150)? -/
def LinkInterface.maySend (l : LinkInterface) : Bool :=
  l.sending.isNone && !l.inFrame && l.silent.isNone && !l.queue.isEmpty

/-- The head entry's frame begins (R147). -/
def LinkInterface.startSending (l : LinkInterface) (station : Station) : LinkInterface :=
  match l.queue with
  | [] => l
  | e :: _ => { l with sending := some { bits := frameBits e.kind station e.payload, replaced := false, gone := false } }

/-- The queue after a frame of the attempt was sent: the entry leaves, unless it has gone already, or was replaced
meanwhile and waits on with its new content (R149, R151, R152; DEDUCED, log 14; unsafe). -/
def queueAfterSend (a : Attempt) (q : List TxEntry) : List TxEntry :=
  if a.gone then q
  else if a.replaced then q.modify 0 fun e => { e with late := false }
  else q.tail

/-- Is the entry of an attempt that ends unsent due to be discarded as late (R152)? -/
def lateAtEnd (a : Attempt) (q : List TxEntry) : Bool :=
  match q with
  | [] => false
  | e :: _ => !a.gone && e.late

/-- An attempt ends unsent: the interface goes on as a receiver, within a frame and so not idle where the line carries one
(R147); the entry stays at the head, unless its lateness came during the attempt; then it is discarded and counted late
(R149, R150, R152). -/
def State.endUnsent (inFrame : Bool) (a : Attempt) (s : State) : State :=
  if lateAtEnd a s.link.queue then
    (s.setLink { s.link with sending := none, inFrame := inFrame, queue := s.link.queue.tail }).countLink .lateDiscards
  else s.setLink { s.link with sending := none, inFrame := inFrame }

/-- SILENT is entered: timer at 1000 ms, queue emptied, error count 0 (R150). -/
def LinkInterface.enterSilent (l : LinkInterface) : LinkInterface :=
  { l with silent := some 1000, queue := [], errors := 0 }

/-- One more consecutive error; the sixteenth enters SILENT (R150). -/
def LinkInterface.raiseErrors (l : LinkInterface) : LinkInterface :=
  if 16 ≤ l.errors + 1 then l.enterSilent else { l with errors := l.errors + 1 }

/-- The lateness of the entry at a place: discarded and counted, or only marked while it is under a sending attempt
(R152). -/
def State.makeLate (place : Nat) (s : State) : State :=
  if place = 0 ∧ (s.link.sending.any fun a => !a.gone) then
    s.setLink { s.link with queue := s.link.queue.modify 0 fun e => { e with late := true } }
  else (s.setLink { s.link with queue := s.link.queue.eraseIdx place }).countLink .lateDiscards

/-- The queue flushed at the entry to DORMANT; an attempt in progress runs on without its entry (R152; DEDUCED,
log 14; unsafe). -/
def LinkInterface.flush (l : LinkInterface) : LinkInterface :=
  { l with queue := [], sending := l.sending.map fun a => { a with gone := true } }

/-! ### Presence (R154, R155) -/

/-- A station's presence record replaced. -/
def State.setPresence (st : Station) (p : PresenceRecord) (s : State) : State :=
  s.setLink { s.link with stations := s.link.stations.set st p }

/-- A station marked present, its silence age restarted (R155). -/
def State.markPresent (st : Station) (s : State) : State := s.setPresence st { present := true, age := 0 }

/-- The recipients of an absence report; they need no order among them (R155). -/
def Recipient.all : List Recipient := [.image, .pace, .table]

/-- An absence report at one recipient, which acts for its own state (R49, R58, R77). -/
def State.tellAbsence (ord : List Channel) (st : Station) (s : State) (r : Recipient) : State :=
  match r with
  | .image => s.removeOrigins st
  | .pace => s.paceAbsence ord st
  | .table => s.purgeStation st

/-- An absence report at some recipients (R155). -/
def State.tellAll (ord : List Channel) (st : Station) (rs : List Recipient) (s : State) : State :=
  rs.foldl (State.tellAbsence ord st) s

/-- The absence report that a recipient takes after a cue, or none (log 32). -/
def State.setOwed (o : Option (Station × Recipient)) (s : State) : State := s.setLink { s.link with owed := o }

/-- The origin of a command that is a valid frame (R154). -/
def frameOrigin : Instr → Option Station
  | .imageCue o _ _ _ _ => some o
  | .paceCue o _ _ => some o
  | .dipApply o _ _ _ _ => some o
  | .dipRelease o _ => some o
  | .headroomCue o _ _ _ _ _ _ => some o
  | .sleepCue o => some o
  | .wakeCue o => some o
  | .queryCue o _ _ _ _ => some o
  | .reportFrame o _ => some o
  | _ => none

/-- The recipient of absence reports that a valid frame's cue is dispatched to, if it is one of the three (R154). Sleep,
wake and query cues and report frames go to none of them. -/
def cueRecipient : Instr → Option Recipient
  | .imageCue _ _ _ _ _ => some .image
  | .paceCue _ _ _ => some .pace
  | .dipApply _ _ _ _ _ => some .table
  | .dipRelease _ _ => some .table
  | .headroomCue _ _ _ _ _ _ _ => some .table
  | _ => none

/-- The recipient that a station's absence report reaches together with a cue of the station: the one that the frame taken
next is dispatched to, where that is a frame of the station and cues are taken (R49, R58, R77, R154; log 32). -/
def State.meetsAt (s : State) (st : Station) : Option Recipient :=
  match s.pending with
  | [] => none
  | c :: _ => if frameOrigin c = some st ∧ st ≠ s.loader.station ∧ s.takesCues = true then cueRecipient c else none

/-- A station becomes absent, its age stops, and its absence is reported (R155). The recipients take the report at once, but
for one that a cue of the station reaches together with it: that one takes the report or the cue first, by the free choice
(R49, R58, R77; DESIGN CHOICE, log 32; safe). -/
def State.reportAbsence (ord : List Channel) (cueFirst : Bool) (st : Station) (s : State) : State :=
  let absent := s.setPresence st { (s.link.stations[st]) with present := false }
  match s.meetsAt st with
  | none => absent.tellAll ord st Recipient.all
  | some r =>
    if cueFirst then (absent.tellAll ord st (Recipient.all.filter (· ≠ r))).setOwed (some (st, r))
    else absent.tellAll ord st Recipient.all

/-- Is a station's silence expiry due: its silence age has reached 2000 ms, outside DORMANT (R155)? A frame of the station
that is taken first restarts the age, so that no expiry occurs and no absence is reported. -/
def State.silenceDue (s : State) (st : Station) : Bool :=
  !s.dormant && s.link.stations[st].present && decide (2000 ≤ s.link.stations[st].age)

/-- The silence ages of present stations restarted at the wake (R155). -/
def LinkInterface.restartAges (l : LinkInterface) : LinkInterface :=
  { l with stations := Vector.ofFn fun i => if l.stations[i].present then { l.stations[i] with age := 0 } else l.stations[i] }

/-! ### Reception of valid frames (R153, R154) -/

/-- What becomes of a valid frame. -/
inductive Reception where
  /-- Not received, or ignored: of no effect beyond its end on the line. -/
  | ignored
  /-- It carries the node's own origin. -/
  | clash
  /-- It marks presence and is dispatched. -/
  | taken
  deriving DecidableEq, Repr

/-- The reception of a valid frame: nothing while a reset is held (R153); in DORMANT only a wake cue of another station;
otherwise a clash for the node's own origin, and any other frame taken (R154). A sending attempt that is still going on
plays no part and goes on (DESIGN CHOICE, log 33; safe). -/
def State.reception (origin : Station) (isWake : Bool) (s : State) : Reception :=
  if s.inReset then .ignored
  else if s.dormant then (if isWake && origin != s.loader.station then .taken else .ignored)
  else if origin = s.loader.station then .clash
  else .taken

/-- A frame on the line is complete: the interface is within it no more, and counts to idle from there (R147). -/
def State.endFrame (s : State) : State := s.setLink { s.link with inFrame := false }

/-- A clash: the flag is set and the clash counted (R154). -/
def State.clashed (s : State) : State :=
  (s.setLink { s.link with inFrame := false, clash := true }).countLink .clashes

/-- The link-silence timer set anew by a frame of another station, in WAKING, ACTIVE and QUIET (R142). -/
def State.restartLinkSilence (s : State) : State :=
  if s.awake then { s with node := { s.node with linkSilence := some 5000 } } else s

/-- What every taken frame does before its dispatch: its end on the line, counted as heard, presence marked,
link-silence timer restarted (R142, R147, R154, R155). In DORMANT nothing is counted, so a wake cue that ends it is not (R162; DEDUCED,
log 13; unsafe). -/
def State.heard (origin : Station) (s : State) : State :=
  ((s.countLink .framesHeard).endFrame.markPresent origin).restartLinkSilence

/-- A valid frame received and, if taken, dispatched to `f` (R154). It ends on the line in every case, but while a reset is
held nothing is received (R147, R153). -/
def State.receive (origin : Station) (isWake : Bool) (f : State → State) (s : State) : State :=
  match s.reception origin isWake with
  | .ignored => if s.inReset then s else s.endFrame
  | .clash => s.clashed
  | .taken => f (s.heard origin)

/-- A dispatched cue reaches its block in the node states in which cues are taken (R39, R53, R69, R163). -/
def State.whenTaken (f : State → State) (s : State) : State := if s.takesCues then f s else s

/-- A cue at a recipient of absence reports. A report of the origin's absence that came with it and was not taken before it
is taken after it (R49, R58, R77; log 32). -/
def State.takeCue (r : Recipient) (origin : Station) (f : State → State) (s : State) : State :=
  if s.link.owed = some (origin, r) then
    let t := f (s.setOwed none)
    t.drawn.tellAbsence (channelOrder t.draws) origin r
  else f s

end Sys2Proof.Machine
end

