-- ==== Sys2Proof/Machine/Limiter.lean ====
section
/-!
DEFINITION. Channel limiting and headroom linking (chapter 6): limiter update, block statistics, own group values,
emission of headroom cues.
-/
namespace Sys2Proof.Machine

/-- The limiter update (R86). -/
def ChannelState.limit (x : ChannelState) (e : Nat) : ChannelState :=
  if x.reduction < e then { x with reduction := e, holdCount := x.record.hold }
  else if 0 < x.holdCount then { x with holdCount := x.holdCount - 1 }
  else { x with reduction := max e (x.reduction - x.record.release), holdCount := 0 }

/-- The overshoot of the block just composed (R15). -/
def ChannelState.blockOvershoot (x : ChannelState) : Nat := overshoot x.peak x.record.ceiling

/-- The depth bin of an applied reduction above 0 (R97). -/
def depthBin (rApp : Nat) : ChannelCounter :=
  if rApp ≤ 48 then .bin48 else if rApp ≤ 96 then .bin96 else if rApp ≤ 192 then .bin192 else .bin384

/-- A counted event, if it happened. -/
def State.countIf (happened : Bool) (ch : Channel) (c : ChannelCounter) (s : State) : State :=
  if happened then s.countChannel ch c else s

/-- The results of one channel at a block completion: clip, limiter-active with its bin, EQ overflow (R16, R97, R101). -/
def State.countBlock (s : State) (c : Channel) : State :=
  match (s.channel c).composed with
  | none => s
  | some held =>
    (((s.countIf (s.channel c).clip c .clipBlocks).countIf (decide (0 < held.rApp)) c .limiterActive).countIf
      (decide (0 < held.rApp)) c (depthBin held.rApp)).countIf (s.channel c).overflow c .overflowBlocks

/-- The eight channels in order; used where the order makes no difference. -/
def allChannels : List Channel := [0, 1, 2, 3, 4, 5, 6, 7]

/-- Every channel that composed the block delivers its results and is updated by its limiter (R16, R86). -/
def State.updateLimiters (s : State) : State :=
  (allChannels.foldl State.countBlock s).mapChannels fun _ x =>
    if x.composed.isSome then x.limit x.blockOvershoot else x

/-- The part of a channel in the own value of a group (R89). -/
def ChannelState.share (x : ChannelState) (g : Group) : Nat :=
  if x.record.enabled = true ∧ x.record.group = some g then x.reduction else 0

/-- The own value of a group: the largest reduction among its enabled channels (R89). -/
def ownValue (channels : Vector ChannelState 8) (g : Group) : Nat :=
  channels.toList.foldl (fun m x => max m (x.share g)) 0

/-- The emission logic's record replaced. -/
def State.setEmission (s : State) (e : Emission) : State := { s with emission := e }

/-- The four link groups. -/
def allGroups : List Group := [0, 1, 2, 3]

/-- The new own values of the listed groups handed to the reduction table, each only if it has changed (R90). -/
def State.handOwn (before own : Vector Nat 4) (groups : List Group) (s : State) : State :=
  groups.foldl (fun s g => if own[g] = before[g] then s else s.writeLinkTarget g) s

/-- The own values replaced. -/
def State.holdOwn (own : Vector Nat 4) (s : State) : State := s.setEmission { s.emission with own := own }

/-- The own values set, and each changed one handed to the reduction table (R90). -/
def State.setOwn (own : Vector Nat 4) (s : State) : State := (s.holdOwn own).handOwn s.emission.own own allGroups

/-- The own values a block completion forms from the reductions, in WAKING, ACTIVE and QUIET; in the other states they stay
(R89). -/
def State.ownValues (s : State) : Vector Nat 4 :=
  if s.awake then Vector.ofFn fun g => ownValue s.channels g else s.emission.own

/-! ### Emission (R91 to R95) -/

/-- A significant change of one group (R92). -/
def significantGroup (h sent : Nat) : Bool :=
  (h == 0) != (sent == 0) || decide (8 ≤ h - sent) || decide (8 ≤ sent - h)

/-- A significant change: in at least one group (R92). -/
def Emission.significant (e : Emission) : Bool :=
  ([0, 1, 2, 3] : List Group).any fun g => significantGroup e.own[g] e.sent[g]

/-- Does some own value stand above 0 (R93)? -/
def Emission.limiting (e : Emission) : Bool := ([0, 1, 2, 3] : List Group).any fun g => decide (0 < e.own[g])

/-- The refresh and presence checks (R93). -/
def Emission.refreshDue (e : Emission) : Bool :=
  if e.limiting then decide (100 ≤ e.age) else decide (500 ≤ e.age)

/-- Is a headroom cue handed over at this block completion: significant and spaced, in WAKING, ACTIVE and QUIET (R92),
or due as refresh or presence report, in HELD too (R93, R96)? -/
def State.emissionDue (s : State) : Bool :=
  (s.awake && s.emission.significant && decide (10 ≤ s.emission.age)) || (s.takesCues && s.emission.refreshDue)

/-- The payload of a headroom cue with the current values (R95, R167). -/
def State.headroomPayload (s : State) : List Byte :=
  halfBytes (BitVec.ofNat 16 s.emission.own[0]) ++ halfBytes (BitVec.ofNat 16 s.emission.own[1]) ++
    halfBytes (BitVec.ofNat 16 s.emission.own[2]) ++ halfBytes (BitVec.ofNat 16 s.emission.own[3]) ++
    [BitVec.ofNat 8 s.node.state.code, s.flagsByte]

/-- A headroom cue handed over: on acceptance S takes the values and the age restarts; a refusal changes nothing
(R94). -/
def State.handHeadroom (s : State) : State :=
  match s.link.acceptHeadroom s.headroomPayload with
  | none => s
  | some l => (s.setLink l).setEmission { s.emission with sent := s.emission.own, age := 0 }

/-- The emission decision of a block completion (R92, R93). -/
def State.emit (s : State) : State := if s.emissionDue then s.handHeadroom else s

/-- The limiters cleared (R87). -/
def ChannelState.clearLimiter (x : ChannelState) : ChannelState := { x with reduction := 0, holdCount := 0 }

end Sys2Proof.Machine
end

