-- ==== Sys2Proof/Machine/Node.lean ====
section
/-!
DEFINITION. The node state controller (chapter 9): block starts, the NODE target, and the entries to ACTIVE, QUIET,
DORMANT, WAKING and HELD with their effect on every block; sleep, wake and the two node timers.
-/
namespace Sys2Proof.Machine

/-- A channel at a block start: what it reads and holds, peak and conditions cleared, and an incoming set that waits
begins to run (R1, R14, R17, R101, R110). -/
def ChannelState.startBlock (x : ChannelState) (held : Option Composed) : ChannelState :=
  { x with composed := held, peak := 0, clip := false, overflow := false,
           incoming := if held.isSome then x.incoming.map fun inc => { inc with running := true } else x.incoming }

/-- A block starts: every enabled channel composes in the node states where the channel processors run (R1, R17), and every
slot has its step before it.
No block starts at a wake itself (DEDUCED, log 28). -/
def State.blockStart (s : State) : State :=
  let s' := s.mapChannels fun c x =>
    x.startBlock (if s.composing && x.record.enabled then some (s.compose c) else none)
  { s' with ports := { s'.ports with blockFrames := 0, nodeStepped := false } }

/-- The NODE target of a node state and input presence (R139). -/
def nodeTarget (st : NodeState) (p : Presence) : Int := if st = .active ∧ p = .present then 0 else 1600

/-- The NODE target formed anew and written (R139). -/
def State.formNodeTarget (s : State) : State := s.writeTarget .node (nodeTarget s.node.state s.ports.presence)

/-- The node state controller's record replaced. -/
def State.setNode (s : State) (n : NodeControl) : State := { s with node := n }

/-- The entry to ACTIVE: the settle timer is stopped and the NODE target formed (R139, R141, R143). -/
def State.enterActive (s : State) : State :=
  (s.setNode { s.node with state := .active, settle := none }).formNodeTarget

/-- A channel at the entry to DORMANT: limiter cleared, stopped (R87, R144, R17). -/
def ChannelState.stop (x : ChannelState) : ChannelState :=
  { x.clearLimiter with composed := none, peak := 0, clip := false, overflow := false }

/-- The cache and the contexts at the entry to DORMANT, with the fill queue cleared first or last (R113, R130; log 6). -/
def State.sleepCache (ord : List Channel) (clearFirst : Bool) (s : State) : State :=
  if clearFirst then s.clearFillQueue.inTurn State.sleepChannel ord
  else (s.inTurn State.sleepChannel ord).clearFillQueue

/-- The library port at the entry to DORMANT: the deep power-down is pending (R130). -/
def State.requestPowerDown (s : State) : State := { s with library := { s.library with downPending := true } }

/-- Zeros in every slot of the output port (R137). -/
def State.clearOutput (s : State) : State := { s with ports := { s.ports with outFrame := zeroFrame } }

/-- The entry to DORMANT, with the effect on every block (R50, R64, R82, R87, R91, R113, R130, R144, R152). The output
port carries zeros from the fall of AMP_ON on (R137, R144, R146). -/
def State.enterDormant (ord : List Channel) (clearFirst : Bool) (s : State) : State :=
  let s1 := s.setNode { s.node with state := .dormant, ampOn := false, settle := none, linkSilence := none }
  let s2 := ((s1.mapChannels fun _ x => x.stop).setOwn (Vector.replicate 4 0))
  let s3 := s2.setEmission { s2.emission with sent := Vector.replicate 4 0 }
  let s4 := (s3.setTable []).recomputeTargets
  let s5 := ((s4.emptyOrigins.sleepPace).setLink s4.link.flush).clearOutput
  (s5.sleepCache ord clearFirst).requestPowerDown

/-- The entry to QUIET: the NODE target becomes 1600, and with NODE.current at 1600 the node enters DORMANT within the
same event (R143). -/
def State.enterQuiet (ord : List Channel) (clearFirst : Bool) (s : State) : State :=
  let s' := (s.setNode { s.node with state := .quiet, settle := none }).formNodeTarget
  if (s'.slot .node).current = 1600 then s'.enterDormant ord clearFirst else s'

/-- The entry to WAKING: AMP_ON rises, both timers start, the emission age is 500 (R91, R141). -/
def State.enterWaking (s : State) : State :=
  (s.setNode { s.node with state := .waking, ampOn := true, settle := some 50, linkSilence := some 5000 }).setEmission
    { s.emission with age := 500 }

/-- The release command: sent, and the flash is RELEASING (R128). -/
def Library.release (l : Library) : Library := { l with flash := .releasing, mosi := [0xAB#8] }

/-- The library port at the wake: a pending deep power-down is cancelled, or a powered-down flash is released (R131). -/
def Library.wake (l : Library) : Library :=
  if l.downPending then { l with downPending := false }
  else if l.flash = .poweredDown then l.release
  else l

/-- The wake that ends DORMANT (R32, R113, R131, R141, R155). -/
def State.wake (ord : List Channel) (s : State) : State :=
  let s1 := s.enterWaking.settleSlots
  let s2 := s1.setLink s1.link.restartAges
  ({ s2 with library := s2.library.wake }).inTurn State.evaluate ord

/-- A sleep cue at the node state controller (R140, R141). -/
def State.takeSleep (ord : List Channel) (clearFirst : Bool) (s : State) : State :=
  match s.node.state with
  | .waking | .active => s.enterQuiet ord clearFirst
  | .start | .held | .quiet | .dormant => s

/-- A wake cue at the node state controller (R140, R143). -/
def State.takeWake (ord : List Channel) (s : State) : State :=
  match s.node.state with
  | .quiet => s.enterActive
  | .dormant => s.wake ord
  | .start | .held | .waking | .active => s

/-- The settle timer's expiry (R140, R141): it occurs when the time left has reached 0 (DESIGN CHOICE,
log 1; safe). -/
def State.settleExpires (s : State) : State :=
  if !s.inReset && s.node.settle == some 0 then
    if s.node.state = .waking then s.enterActive else s.setNode { s.node with settle := none }
  else s

/-- The link-silence timer's expiry (R140, R142): it occurs when the time left has reached 0
(DESIGN CHOICE, log 1; safe). -/
def State.linkSilenceExpires (ord : List Channel) (clearFirst : Bool) (s : State) : State :=
  if !s.inReset && s.node.linkSilence == some 0 then
    let s' := s.setNode { s.node with linkSilence := none }
    if s.node.state = .active then s'.enterQuiet ord clearFirst else s'
  else s

/-- The entry to HELD with a fault code: every block at its HELD values, the built-in channel records taken, the first
block started; the flash stays as it is (R33, R40, R63, R83, R87, R91, R113, R129, R136, R145, R161). -/
def State.enterHeld (code : FaultCode) (s : State) : State :=
  State.blockStart { s with
    node := { s.node with state := .held, ampOn := false, settle := none, linkSilence := none }
    loader := { s.loader with fault := code, stage := .done, header := [] }
    ramp := .initial
    image := Vector.replicate 4 .initial
    pace := .initial
    table := []
    laws := none
    channels := initialChannels
    emission := { Emission.initial with age := 500 }
    library := { Library.initial with flash := s.library.flash, mosi := s.library.mosi }
    ports := { s.ports with outRunning := true } }

end Sys2Proof.Machine
end

