-- ==== Sys2Proof/Machine/Startup.lean ====
section
/-!
DEFINITION. Reset and start-up (chapters 9 and 11): reset held and released, the start-up read step by step, the
hand-over of a valid configuration.
-/
namespace Sys2Proof.Machine

/-- A reset of a cause begins to be held, beside one that may be held already (R138). Every block takes its reset
values at once, and again at the release (DESIGN CHOICE, log 9). -/
def State.assertReset (cause : ResetCause) (s : State) : State :=
  { State.underReset s.node.cause s.loader.station (s.node.supplyHold || cause == .powerOn)
      (s.node.pinHold || cause == .pin) with draws := s.draws, pending := s.pending }

/-- The cause recorded at the release: POWER_ON when both held the reset (R138; DEDUCED, log 30). -/
def NodeControl.recordedCause (n : NodeControl) : ResetCause := if n.supplyHold then .powerOn else .pin

/-- The reset is released: reset values, cause recorded, straps sampled, START, release command sent
(R128, R138, R157, R158). -/
def State.releaseReset (straps : BitVec 4) (s : State) : State :=
  if s.inReset then
    { State.released s.node.recordedCause ⟨straps.toNat, straps.isLt⟩ with draws := s.draws, pending := s.pending }
  else s

/-- The library port replaced. -/
def State.setLibrary (s : State) (l : Library) : State := { s with library := l }

/-- The start-up loader's record replaced. -/
def State.setLoader (s : State) (l : Loader) : State := { s with loader := l }

/-- Is the loader in START at a given step? -/
def State.loading (s : State) (stage : LoaderStage) : Bool :=
  !s.inReset && s.node.state == .start && s.loader.stage == stage

/-- The end of the 50 µs release wait: the flash is AWAKE; in START the identification read begins (R128, R129, R158). -/
def State.endReleaseWait (s : State) : State :=
  if !s.inReset && s.library.flash == .releasing then
    let s' := s.setLibrary { s.library with flash := .awake }
    if s.loading .releaseWait then
      (s'.setLibrary { s'.library with selected := true, mosi := [0x9F#8] }).setLoader
        { s'.loader with stage := .identification }
    else s'
  else s

/-- Do the identification bytes show that no memory answers (R129)? -/
def noMemory (b0 b1 b2 : Byte) : Bool :=
  (b0 == 0x00#8 && b1 == 0x00#8 && b2 == 0x00#8) || (b0 == 0xFF#8 && b1 == 0xFF#8 && b2 == 0xFF#8)

/-- The identification has been read: NO_MEMORY and HELD, or the read of the image from address 0 begins (R129, R158). -/
def State.takeIdentification (b0 b1 b2 : Byte) (s : State) : State :=
  if s.loading .identification then
    if noMemory b0 b1 b2 then s.enterHeld .noMemory
    else (s.setLibrary { s.library with selected := true, mosi := [0x03#8, 0#8, 0#8, 0#8] }).setLoader
      { s.loader with stage := .header }
  else s

/-- The image header has been read and is checked (R158, R159). -/
def State.takeHeader (header : List Byte) (s : State) : State :=
  if s.loading .header then
    match headerFault header with
    | .noFault => s.setLoader { s.loader with stage := .image, header := header }
    | code => s.enterHeld code
  else s

/-- The initial VOL, FADE, BAL and PACE targets of a zone (R31, R46, R60). -/
def State.initialZone (cfg : NodeConfig) (z : Zone) (s : State) : State :=
  (((s.initialTarget (.vol z) (volumeTarget cfg.zones[z].volume)).initialTarget (.fade z)
    (stepTarget cfg.zones[z].fade)).initialTarget (.bal z) (stepTarget cfg.zones[z].balance)).initialTarget (.pace z)
      (curveBoost cfg.zones[z].curve 0)

/-- A zone image at the hand-over (R40). -/
def ZoneConfig.image (z : ZoneConfig) : ZoneImage :=
  { volume := z.volume, fade := z.fade, balance := z.balance, preset := z.preset, maxVolume := z.maxVolume,
    origins := [] }

/-- A channel at the hand-over: its record, and the key of its zone's default preset, band 0 and its profile (R102). -/
def NodeConfig.channel (cfg : NodeConfig) (c : Channel) : ChannelState :=
  { ChannelState.initial cfg.channels[c] with
    wanted := { preset := cfg.zones[cfg.channels[c].zone].preset, band := 0, profile := cfg.channels[c].profile } }

/-- Every block takes its part of the configuration (R2, R20, R31, R40, R52, R59, R83, R85, R102, R126, R160). -/
def State.takeConfig (cfg : NodeConfig) (s : State) : State :=
  let s1 : State := { s with
    loader := { s.loader with stage := .done, header := [] }
    ramp := { RampEngine.initial with profile := some cfg.profile }
    image := Vector.ofFn fun z => cfg.zones[z].image
    pace := { PaceUnit.initial with
      primary := { SpeedSource.initial with station := cfg.primary }
      secondary := { SpeedSource.initial with station := cfg.secondary }
      curves := some (Vector.ofFn fun z => cfg.zones[z].curve) }
    table := []
    laws := some cfg.laws
    channels := Vector.ofFn fun c => cfg.channel c
    library := { s.library with state := if cfg.library then .ready else .absent, selected := false }
    ports := { s.ports with outRunning := true } }
  ([0, 1, 2, 3] : List Zone).foldl (fun s z => s.initialZone cfg z) s1

/-- The hand-over of a valid configuration: the node enters WAKING, the first block starts, each enabled channel makes
its first evaluation (R136, R141, R160). -/
def State.handOver (ord : List Channel) (cfg : NodeConfig) (s : State) : State :=
  ((s.takeConfig cfg).enterWaking.blockStart).inTurn State.evaluate ord

/-- The whole image has been read and is checked: hand-over, or the fault code and HELD (R159, R160, R161). -/
def State.takeImageRead (ord : List Channel) (rest : List Byte) (s : State) : State :=
  if s.loading .image then
    match checkImage (s.loader.header ++ rest) with
    | .ok cfg => s.handOver ord cfg
    | .error code => s.enterHeld code
  else s

end Sys2Proof.Machine
end

