-- ==== Sys2Proof/Machine/Audio.lean ====
section
/-!
DEFINITION. The audio ports (chapter 9): frame syncs, loss and return, output frames, and the block completion with
everything that happens in it.
-/
namespace Sys2Proof.Machine

/-- The audio ports replaced. -/
def State.setPorts (s : State) (p : AudioPorts) : State := { s with ports := p }

/-- A frame sync is good: it has a usable previous sync, 20.0 µs to 21.74 µs before it, in whole
nanoseconds (R133; DESIGN CHOICE, log 11). -/
def goodSync (seen : Bool) (interval : Nat) : Bool := seen && decide (20000 ≤ interval) && decide (interval ≤ 21740)

/-- Audio loss (R30, R134, R139): LOST, good-frame count 0, zeros on the output, NODE target formed anew and
NODE.current forced to 1600, the loss counted. -/
def State.audioLoss (s : State) : State :=
  let s1 := s.setPorts { s.ports with presence := .lost, goodFrames := 0, outFrame := zeroFrame }
  (s1.formNodeTarget.forceNodeMute).countCache .audioLosses

/-- Audio return (R135, R136, R139): PRESENT, count 0, NODE target formed anew; the block in progress completes. R27 lets
the target change or the step of that completion be first at the NODE slot. The completion is a command of its own that is
made due, so where the step is first the slot takes it here, before its target, and the completion leaves the slot out (the
order is free, log 31; safe). -/
def State.audioReturn (stepFirst : Bool) (s : State) : State :=
  let early := stepFirst && s.paced && !s.ports.nodeStepped
  let s1 := if early then s.setSlot .node ((s.slot .node).step s.ramp.record) else s
  (s1.drawn.setPorts { s.ports with
    presence := .present, goodFrames := 0, blockDue := s.paced || s.ports.blockDue,
    nodeStepped := s.ports.nodeStepped || early, outFrame := zeroFrame }).formNodeTarget

/-- The input words of a frame: each channel takes the sample of its source slot (R133). -/
def State.inputWords (s : State) (slots : Vector SlotWord 16) (c : Channel) : Int :=
  slotSample slots[(s.channel c).record.slot]

/-- An input frame of a paced block passes through the channels to the output; the 48th ends the block
(R133, R136, R137). -/
def State.inputFrame (slots : Vector SlotWord 16) (s : State) : State :=
  if s.paced then
    let word := s.inputWords slots
    (s.runFrame word).setPorts { s.ports with
      blockFrames := s.ports.blockFrames + 1,
      blockDue := s.ports.blockDue || decide (48 ≤ s.ports.blockFrames + 1),
      outFrame := s.outputOf word }
  else s

/-- A frame sync while PRESENT: a frame, or an audio loss (R134). -/
def State.syncPresent (good : Bool) (slots : Vector SlotWord 16) (s : State) : State :=
  if good then s.inputFrame slots else s.audioLoss

/-- A frame sync while LOST: the good-frame count rises, starts again, or reaches 48 (R135). -/
def State.syncLost (stepFirst good : Bool) (s : State) : State :=
  if good then
    if 48 ≤ s.ports.goodFrames + 1 then s.audioReturn stepFirst
    else s.setPorts { s.ports with goodFrames := s.ports.goodFrames + 1 }
  else s.setPorts { s.ports with goodFrames := 0 }

/-- A frame sync (R133 to R135). It is the reference for the next one, a frame sync that is not good too: R133 and the worked
sequence of chapter 9 have it so, while R135 begins the qualification again "with the next frame sync as its reference"
(DEDUCED, log 11; unsafe). -/
def State.takeSync (stepFirst : Bool) (interval : Nat) (slots : Vector SlotWord 16) (s : State) : State :=
  if s.inReset then s
  else
    let good := goodSync s.ports.syncSeen interval
    let s' := s.setPorts { s.ports with syncSeen := true }
    match s.ports.presence with
    | .present => s'.syncPresent good slots
    | .lost => s'.syncLost stepFirst good

/-- 62.5 µs without a frame sync (R133, R134, R135). -/
def State.takeGap (s : State) : State :=
  if s.inReset then s
  else
    let s' := s.setPorts { s.ports with syncSeen := false }
    match s.ports.presence with
    | .present => s'.audioLoss
    | .lost => s'.setPorts { s'.ports with goodFrames := 0 }

/-- An output frame from the reference while input audio is lost: zeros, and the filters run on zero input
(R100, R137). -/
def State.outputTick (s : State) : State :=
  if s.paced && s.ports.presence == .lost then
    (s.runFrame fun _ => 0).setPorts { s.ports with outFrame := zeroFrame }
  else s

/-! ### Block completion (R136) -/

/-- Limiter updates, own values and ramp steps of a completion. Each changed own value reaches its LINK slot before the
slot's step or after it, each group for itself (R27, R86, R89, R90; the order is free, log 3; safe). -/
def State.stepAndUpdate (stepFirst : Group → Bool) (s : State) : State :=
  let updated := s.updateLimiters
  let own := updated.ownValues
  let early := (updated.holdOwn own).handOwn s.emission.own own (allGroups.filter fun g => !stepFirst g)
  early.rampStep.handOwn s.emission.own own (allGroups.filter stepFirst)

/-- Is NODE.current of 1600 handed over in QUIET (R28, R143)? -/
def State.fadedOut (s : State) : Bool := s.node.state == .quiet && (s.slot .node).current == 1600

/-- The end of a completion: DORMANT is entered if NODE.current of 1600 is handed over in QUIET (R28). -/
def State.dormantIfFaded (ord : List Channel) (clearFirst : Bool) (s : State) : State :=
  if s.fadedOut then s.enterDormant ord clearFirst else s

/-- The work of a block completion, given the free choices: ramp steps, limiter updates, own values, emission,
crossfades, the entry to DORMANT, the next block start (R24, R28, R86, R89, R92, R110, R111, R136). -/
def State.completeBlock (stepFirst : Group → Bool) (entryFirst clearFirst : Bool) (ord : List Channel) (s : State) :
    State :=
  let stepped := s.rampStep
  if entryFirst && stepped.fadedOut then (stepped.enterDormant ord clearFirst).blockStart
  else
    (((s.stepAndUpdate stepFirst).emit.inTurn State.advanceCrossfade ord).dormantIfFaded ord clearFirst).blockStart

/-- A block completion: it occurs when the block in progress has reached its end, in the states where blocks are paced
(R34, R136; DESIGN CHOICE, log 1 and 2). -/
def State.takeCompletion (stepFirst : Group → Bool) (entryFirst clearFirst : Bool) (ord : List Channel) (s : State) :
    State :=
  if s.paced && s.ports.blockDue then
    (s.setPorts { s.ports with blockDue := false }).completeBlock stepFirst entryFirst clearFirst ord
  else s

end Sys2Proof.Machine
end

