-- ==== Sys2Proof/Machine/AudioCommands.lean ====
section
/-!
DEFINITION. The meanings of the audio commands (chapter 9).
-/
namespace Sys2Proof.Machine

/-- FRAME_SYNC (R133 to R137), with the order the manual leaves open at an audio return (log 31; safe). -/
def execFrameSync (interval : Nat) (slots : Vector SlotWord 16) (s : State) : Host.Outcome State Fault Refusal :=
  .next (s.takeSync (Config.nodeStepFirst s.draws) interval slots)

/-- FRAME_SYNC_GAP (R134, R135). -/
def execFrameSyncGap (s : State) : Host.Outcome State Fault Refusal := .next s.takeGap

/-- OUTPUT_FRAME_TICK (R100, R137). -/
def execOutputFrameTick (s : State) : Host.Outcome State Fault Refusal := .next s.outputTick

/-- BLOCK_COMPLETION (R136), with the choices the manual leaves open (log 3 to 6; safe). -/
def execBlockCompletion (s : State) : Host.Outcome State Fault Refusal :=
  .next (s.drawn.takeCompletion (Config.stepFirst s.draws) (Config.entryFirst s.draws) (Config.clearFirst s.draws)
    (channelOrder s.draws))

end Sys2Proof.Machine
end

