-- ==== Sys2Proof/Machine/Stats.lean ====
section
/-!
DEFINITION. The statistics block's answers (chapter 12): item table, values, report frames, hand-over with clearing.
-/
namespace Sys2Proof.Machine

/-- A number as a 16-bit report value (R167). -/
def reportNat (n : Nat) : Half := BitVec.ofNat 16 n

/-- A signed number as a 16-bit report value (R167). -/
def reportInt (v : Int) : Half := BitVec.ofInt 16 v

/-- The values of item group STATE (R164). -/
def State.stateValues (s : State) : List Half :=
  [reportNat s.node.state.code, reportNat (causeCode s.node.cause), reportNat s.loader.station.val,
   reportNat s.library.state.code, reportNat s.pace.speedState.code, reportNat s.pace.usedSpeed,
   reportNat s.loader.fault.code, 0#8 ++ s.flagsByte]

/-- The values of item group ZONE (R164). -/
def State.zoneValues (s : State) (z : Zone) : List Half :=
  [reportNat s.image[z].volume, reportInt s.image[z].fade, reportInt s.image[z].balance,
   reportNat s.image[z].preset.val, reportNat s.pace.bands[z].val, reportInt (s.slot (.pace z)).target,
   reportInt (s.slot (.vol z)).current]

/-- The first value of a reduction entry: kind in bit 15, origin in bits 11 to 8, tag in bits 2 to 0 (R167). -/
def entryHead (key : EntryKey) : Half :=
  match key with
  | .link o g => BitVec.ofNat 16 (256 * o.val + g.val)
  | .dip o i => BitVec.ofNat 16 (32768 + 256 * o.val + i.val)

/-- The masks of a reduction entry: those of a dip, 0 for a LINK entry (R167). -/
def entryMasks (e : Entry) : Half :=
  match e.key with
  | .link _ _ => 0#16
  | .dip _ _ => 0#8 ++ e.classes ++ e.zones

/-- The four values of a reduction entry (R84, R164, R167). -/
def entryValues (e : Entry) : List Half :=
  [entryHead e.key, reportNat e.depth, entryMasks e,
   match e.lifetime with
   | some t => reportNat t
   | none => 0xFFFF#16]

/-- The entries at up to four positions from a starting position (R84). -/
def entriesFrom (table : List Entry) (i : Nat) : List Entry := (table.drop i).take 4

/-- Values cut into frames of four; the last frame carries what remains (R164). -/
def inFours : List Half → List (List Half)
  | [] => []
  | a :: b :: c :: d :: rest => [a, b, c, d] :: inFours rest
  | rest => [rest]

/-- The values of a REDUCTION answer, frame by frame (R164). -/
def reductionFrames (table : List Entry) (i : Nat) : List (List Half) :=
  match entriesFrom table i with
  | [] => [[reportNat table.length]]
  | es => es.map entryValues

/-- The values of an answer, frame by frame; none when the item group or the index is outside the item table
(R163, R164). -/
def State.answerValues (s : State) (group index : Nat) : Option (List (List Half)) :=
  match group with
  | 0 => if index = 0 then some (inFours s.stateValues) else none
  | 1 => if index = 0 then some (inFours (s.stats.link.toList.map reportNat)) else none
  | 2 => if h : index < 8 then some (inFours (s.stats.channel[index].toList.map reportNat)) else none
  | 3 => if index = 0 then some (inFours (s.stats.cacheAudio.toList.map reportNat)) else none
  | 4 => if index < 24 then some (reductionFrames s.table index) else none
  | 5 => if h : index < 4 then some (inFours (s.zoneValues ⟨index, h⟩)) else none
  | _ => none

/-- The payload of a report frame: heading with part number and part count, then the values (R164, R167). -/
def reportPayload (group index : Byte) (part count : Nat) (values : List Half) : List Byte :=
  [group, index, BitVec.ofNat 4 part ++ BitVec.ofNat 4 count] ++ values.flatMap halfBytes

/-- The payloads of an answer, part by part (R164). -/
def reportPayloads (group index : Byte) (count : Nat) : Nat → List (List Half) → List (List Byte)
  | _, [] => []
  | part, v :: vs => reportPayload group index part count v :: reportPayloads group index count (part + 1) vs

/-- The answer of a query as report payloads (R163, R164). -/
def State.answer (s : State) (group index : Byte) : Option (List (List Byte)) :=
  (s.answerValues group.toNat index.toNat).map fun frames => reportPayloads group index frames.length 1 frames

/-- The counters that an answer reports, cleared (R165). -/
def State.clearReported (group index : Nat) (s : State) : State :=
  match group with
  | 1 => { s with stats := { s.stats with link := Vector.replicate 12 0 } }
  | 2 =>
    if h : index < 8 then
      { s with stats := { s.stats with channel := s.stats.channel.set index (Vector.replicate 7 0) } }
    else s
  | 3 => { s with stats := { s.stats with cacheAudio := Vector.replicate 5 0 } }
  | _ => s

/-- An answer handed to the link interface: queued whole, with the reported counters cleared if CLEAR is set, or
refused whole and counted (R151, R165). -/
def State.handAnswer (group index : Nat) (clear : Bool) (frames : List (List Byte)) (s : State) : State :=
  match s.link.acceptAnswer frames with
  | none => s.countLink .queriesRefused
  | some l => if clear then (s.setLink l).clearReported group index else s.setLink l

/-- A query that the statistics block takes, target in byte 0, item group in byte 1, index in byte 2, CLEAR in bit 0 of
byte 3 (R163, R167). -/
def State.takeQuery (payload : List Byte) (s : State) : State :=
  if (byteAt payload 0).toNat ≠ s.loader.station.val then s
  else
    match s.answer (byteAt payload 1) (byteAt payload 2) with
    | none => s.countLink .formatErrors
    | some frames => s.handAnswer (byteAt payload 1).toNat (byteAt payload 2).toNat (byteAt payload 3)[0] frames

end Sys2Proof.Machine
end

