-- ==== Sys2Proof/Machine/CueCommands.lean ====
section
/-!
DEFINITION. The meanings of the valid frames by kind (chapters 3, 4, 5, 9, 10 and 12). Each is received as R153 and
R154 state, and its payload, bytes in order, reaches its block in the node states in which cues are taken; the block reads
the fields by their byte places (R166, R167).
-/
namespace Sys2Proof.Machine

/-- IMAGE_CUE (R37 to R48). -/
def execImageCue (origin : Station) (zone stamp flags : Byte) (fields : List Byte) (s : State) :
    Host.Outcome State Fault Refusal :=
  .next (s.drawn.receive origin false
    (State.whenTaken (State.takeCue .image origin
      (State.takeImage (channelOrder s.draws) origin (zone :: stamp :: flags :: fields)))))

/-- PACE_CUE (R53 to R55). -/
def execPaceCue (origin : Station) (validity : Byte) (speed : Byte × Byte) (s : State) :
    Host.Outcome State Fault Refusal :=
  .next (s.drawn.receive origin false
    (State.whenTaken (State.takeCue .pace origin
      (State.takePace (channelOrder s.draws) origin [validity, speed.1, speed.2]))))

/-- DIP_APPLY: a dip frame of five payload bytes (R69 to R71). -/
def execDipApply (origin : Station) (op masks : Byte) (depth : Byte × Byte) (hold : Byte) (s : State) :
    Host.Outcome State Fault Refusal :=
  .next (s.receive origin false (State.whenTaken (State.takeCue .table origin
    (State.takeDipApply origin [op, masks, depth.1, depth.2, hold]))))

/-- DIP_RELEASE: a dip frame of one payload byte (R69, R70, R72). -/
def execDipRelease (origin : Station) (op : Byte) (s : State) : Host.Outcome State Fault Refusal :=
  .next (s.receive origin false (State.whenTaken (State.takeCue .table origin (State.takeDipRelease origin [op]))))

/-- HEADROOM_CUE: the state code and flags play no part (R69, R73). -/
def execHeadroomCue (origin : Station) (v0 v1 v2 v3 : Byte × Byte) (code flags : Byte) (s : State) :
    Host.Outcome State Fault Refusal :=
  .next (s.receive origin false (State.whenTaken (State.takeCue .table origin (State.takeHeadroom origin
    [v0.1, v0.2, v1.1, v1.2, v2.1, v2.2, v3.1, v3.2, code, flags]))))

/-- SLEEP_CUE (R140, R141, R143). -/
def execSleepCue (origin : Station) (s : State) : Host.Outcome State Fault Refusal :=
  .next (s.drawn.receive origin false (State.takeSleep (channelOrder s.draws) (Config.clearFirst s.draws)))

/-- WAKE_CUE: the one cue taken in DORMANT (R140, R141, R143, R154). -/
def execWakeCue (origin : Station) (s : State) : Host.Outcome State Fault Refusal :=
  .next (s.drawn.receive origin true (State.takeWake (channelOrder s.draws)))

/-- QUERY_CUE (R163 to R165). -/
def execQueryCue (origin : Station) (target group index flags : Byte) (s : State) :
    Host.Outcome State Fault Refusal :=
  .next (s.receive origin false (State.whenTaken (State.takeQuery [target, group, index, flags])))

/-- REPORT_FRAME: heard, and dispatched to no block (R154). -/
def execReportFrame (origin : Station) (_payload : List Byte) (s : State) : Host.Outcome State Fault Refusal :=
  .next (s.receive origin false id)

end Sys2Proof.Machine
end

