-- ==== Sys2Proof/Machine/LibraryCommands.lean ====
section
/-!
DEFINITION. The meanings of the library port's commands (chapter 8).
-/
namespace Sys2Proof.Machine

/-- The oldest queue entry with a line, and the queue without it (R122). -/
def oldestWithLine : List QueueEntry → Option (CoefKey × LineRef × List QueueEntry)
  | [] => none
  | e :: es =>
    match e.line with
    | some l => some (e.key, l, es)
    | none =>
      match oldestWithLine es with
      | none => none
      | some (k, l, rest) => some (k, l, e :: rest)

/-- The command bytes of a read from an address (R128). -/
def readCommand (address : Nat) : List Byte :=
  [0x03#8, BitVec.ofNat 8 (address / 65536), BitVec.ofNat 8 (address / 256), BitVec.ofNat 8 address]

/-- May a fill start: none in flight, flash AWAKE, library READY (R122)? -/
def Library.mayFill (l : Library) : Bool := l.fill.isNone && l.flash == .awake && l.state == .ready

/-- The oldest entry with a line leaves the queue and its fill is in flight (R122, R123). -/
def State.startFill (s : State) : State :=
  if !s.inReset && s.library.mayFill then
    match oldestWithLine s.library.queue with
    | none => s
    | some (key, l, rest) =>
      s.setLibrary { s.library with
        queue := rest, fill := some { line := l, key := key, address := recordAddress key }, selected := true,
        mosi := readCommand (recordAddress key) }
  else s

/-- FILL_START (R122, R123). -/
def execFillStart (s : State) : Host.Outcome State Fault Refusal := .next s.startFill

/-- The record read of the fill in flight ends and is checked (R124, R125). -/
def State.finishFill (ord : List Channel) (record : List Byte) (s : State) : State :=
  match s.library.fill with
  | none => s
  | some f => if recordPasses f.key record then s.fillPasses ord f (recordCoefs record) else s.fillFails f

/-- FILL_COMPLETION (R108, R109, R124, R125, R127). -/
def execFillCompletion (record : List Byte) (s : State) : Host.Outcome State Fault Refusal :=
  .next (s.drawn.finishFill (channelOrder s.draws) record)

/-- May the pending deep power-down be sent: no fill in flight, flash AWAKE (R130)? -/
def Library.mayPowerDown (l : Library) : Bool := l.downPending && l.fill.isNone && l.flash == .awake

/-- The pending deep power-down command is sent (R130). -/
def State.powerDown (s : State) : State :=
  if !s.inReset && s.library.mayPowerDown then
    s.setLibrary { s.library with flash := .poweredDown, downPending := false, mosi := [0xB9#8] }
  else s

/-- DEEP_POWER_DOWN (R128, R130). -/
def execDeepPowerDown (s : State) : Host.Outcome State Fault Refusal := .next s.powerDown

end Sys2Proof.Machine
end

