-- ==== Sys2Proof/Machine/LinkCommands.lean ====
section
/-!
DEFINITION. The meanings of the commands of sending, and of an invalid frame (chapter 10).
-/
namespace Sys2Proof.Machine

/-- The line is idle: the head entry's frame begins, if one may be sent (R147, R150). Within a frame that the interface lost or
abandoned the line is not idle, and nothing begins. Of any other frame on the line, and of the 11 recessive bit times, the
command's word is taken (DESIGN CHOICE, log 12; unsafe). -/
def State.startSending (s : State) : State :=
  if !s.inReset && s.link.maySend then s.setLink (s.link.startSending s.loader.station) else s

/-- SENDING_START (R147). -/
def execSendingStart (s : State) : Host.Outcome State Fault Refusal := .next s.startSending

/-- The frame of the attempt is sent: counted, errors 0, its entry leaves the queue (R149, R151, R152). -/
def State.finishSending (s : State) : State :=
  match s.link.sending with
  | none => s
  | some a =>
    (s.setLink { s.link with sending := none, errors := 0, queue := queueAfterSend a s.link.queue }).countLink .framesSent

/-- FRAME_SENT (R149). -/
def execFrameSent (s : State) : Host.Outcome State Fault Refusal := .next s.finishSending

/-- Contention is lost: counted, the attempt ends, the entry stays for the next idle, the frame is received on (R147, R149,
R152). -/
def State.loseContention (s : State) : State :=
  match s.link.sending with
  | none => s
  | some a => (s.endUnsent true a).countLink .contentionLosses

/-- CONTENTION_LOST (R149). -/
def execContentionLost (s : State) : Host.Outcome State Fault Refusal := .next s.loseContention

/-- A transmit error: counted, the attempt ends, a frame that the line carries is received on (whether it
does is free, log 34; safe), the error count rises and may bring SILENT
(R147, R150, R152; DEDUCED, log 15; unsafe). -/
def State.failSending (inFrame : Bool) (s : State) : State :=
  match s.link.sending with
  | none => s
  | some a =>
    let s' := (s.endUnsent inFrame a).countLink .transmitErrors
    s'.setLink s'.link.raiseErrors

/-- TRANSMIT_ERROR (R150). -/
def execTransmitError (s : State) : Host.Outcome State Fault Refusal :=
  .next (s.drawn.failSending (Config.errorInFrame s.draws))

/-- An invalid frame: at its end on the line (R147) discarded, counted under its first failing check (R153). A frame that passes
every check is none (DESIGN CHOICE, log 26; safe). A sending attempt that is still going on plays no part and goes on (DESIGN CHOICE, log 33;
safe). -/
def State.discardInvalid (f : RawFrame) (s : State) : State :=
  if s.inReset then s
  else
    match frameFailure f with
    | none => s
    | some c => (s.countLink c).endFrame

/-- INVALID_FRAME (R153). -/
def execInvalidFrame (f : RawFrame) (s : State) : Host.Outcome State Fault Refusal := .next (s.discardInvalid f)

end Sys2Proof.Machine
end

