-- ==== Sys2Proof/Machine/ResetCommands.lean ====
section
/-!
DEFINITION. The meanings of the reset and start-up commands (chapters 8, 9 and 11).
-/
namespace Sys2Proof.Machine

/-- RESET_ASSERT (R138). -/
def execResetAssert (cause : ResetCause) (s : State) : Host.Outcome State Fault Refusal := .next (s.assertReset cause)

/-- RESET_RELEASE (R138, R157, R158). -/
def execResetRelease (straps : BitVec 4) (s : State) : Host.Outcome State Fault Refusal :=
  .next (s.releaseReset straps)

/-- RELEASE_WAIT_END (R128, R129, R158). -/
def execReleaseWaitEnd (s : State) : Host.Outcome State Fault Refusal := .next s.endReleaseWait

/-- IDENTIFICATION_READ (R129, R158, R161). -/
def execIdentificationRead (b0 b1 b2 : Byte) (s : State) : Host.Outcome State Fault Refusal :=
  .next (s.takeIdentification b0 b1 b2)

/-- IMAGE_HEADER_READ (R158, R159, R161). -/
def execImageHeaderRead (header : List Byte) (s : State) : Host.Outcome State Fault Refusal :=
  .next (s.takeHeader header)

/-- IMAGE_READ (R159, R160, R161). -/
def execImageRead (rest : List Byte) (s : State) : Host.Outcome State Fault Refusal :=
  .next (s.drawn.takeImageRead (channelOrder s.draws) rest)

end Sys2Proof.Machine
end

