-- ==== Sys2Proof/Machine/TimerCommands.lean ====
section
/-!
DEFINITION. The meanings of the expiries. An expiry occurs when its timer runs and its time is up; a command that comes
earlier, or for a stopped timer, is no expiry and changes nothing (DESIGN CHOICE,
log 1; safe).
-/
namespace Sys2Proof.Machine

/-- SETTLE_EXPIRY (R140, R141). -/
def execSettleExpiry (s : State) : Host.Outcome State Fault Refusal := .next s.settleExpires

/-- LINK_SILENCE_EXPIRY (R140, R142, R143). -/
def execLinkSilenceExpiry (s : State) : Host.Outcome State Fault Refusal :=
  .next (s.drawn.linkSilenceExpires (channelOrder s.draws) (Config.clearFirst s.draws))

/-- Has a source's freshness time run out (R56)? -/
def SpeedSource.expired (x : SpeedSource) : Bool := x.valid && x.freshness == 0

/-- The freshness expiry of a source: flag cleared, selection made (R56). -/
def State.freshnessExpires (ord : List Channel) (which : Source) (s : State) : State :=
  if !s.inReset && (s.pace.source which).expired then (s.clearSource which).select ord else s

/-- FRESHNESS_EXPIRY (R56, R57). -/
def execFreshnessExpiry (which : Source) (s : State) : Host.Outcome State Fault Refusal :=
  .next (s.drawn.freshnessExpires (channelOrder s.draws) which)

/-- Has the lifetime of the entry of a key run out (R75)? -/
def State.entryExpired (s : State) (key : EntryKey) : Bool :=
  match findEntry key s.table with
  | none => false
  | some e => e.lifetime == some 0

/-- The lifetime expiry of an entry: removed, targets recomputed (R75). -/
def State.lifetimeExpires (key : EntryKey) (s : State) : State :=
  if !s.inReset && s.entryExpired key then s.expireEntry key else s

/-- LIFETIME_EXPIRY (R75). -/
def execLifetimeExpiry (key : EntryKey) (s : State) : Host.Outcome State Fault Refusal :=
  .next (s.lifetimeExpires key)

/-- The silence expiry of a station: absent, and reported (R155). -/
def State.silenceExpires (ord : List Channel) (cueFirst : Bool) (st : Station) (s : State) : State :=
  if !s.inReset && s.silenceDue st then s.reportAbsence ord cueFirst st else s

/-- SILENCE_EXPIRY (R49, R58, R77, R155). -/
def execSilenceExpiry (st : Station) (s : State) : Host.Outcome State Fault Refusal :=
  .next (s.drawn.silenceExpires (channelOrder s.draws) (Config.cueFirst s.draws) st)

/-- Has the entry at a place of the transmit queue waited 100 ms, with no lateness expiry yet (R152)? -/
def State.latenessDue (s : State) (place : Nat) : Bool :=
  match s.link.queue[place]? with
  | none => false
  | some e => decide (100 ≤ e.age) && !e.late

/-- The lateness expiry of an entry (R152). -/
def State.latenessExpires (place : Nat) (s : State) : State :=
  if !s.inReset && s.latenessDue place then s.makeLate place else s

/-- LATENESS_EXPIRY (R152). -/
def execLatenessExpiry (place : Nat) (s : State) : Host.Outcome State Fault Refusal := .next (s.latenessExpires place)

/-- The SILENT expiry: the interface leaves SILENT (R150). -/
def State.silentExpires (s : State) : State :=
  if !s.inReset && s.link.silent == some 0 then s.setLink { s.link with silent := none } else s

/-- SILENT_EXPIRY (R150). -/
def execSilentExpiry (s : State) : Host.Outcome State Fault Refusal := .next s.silentExpires

end Sys2Proof.Machine
end

