-- ==== Sys2Proof/Machine/Dispatch.lean ====
section
/-!
DEFINITION. One arm per command.
-/
namespace Sys2Proof.Machine

def exec (i : Instr) (s : State) : Host.Outcome State Fault Refusal :=
  match i with
  | .resetAssert cause => Sys2Proof.Machine.execResetAssert cause s
  | .resetRelease straps => Sys2Proof.Machine.execResetRelease straps s
  | .releaseWaitEnd => Sys2Proof.Machine.execReleaseWaitEnd s
  | .identificationRead b0 b1 b2 => Sys2Proof.Machine.execIdentificationRead b0 b1 b2 s
  | .imageHeaderRead header => Sys2Proof.Machine.execImageHeaderRead header s
  | .imageRead rest => Sys2Proof.Machine.execImageRead rest s
  | .frameSync interval slots => Sys2Proof.Machine.execFrameSync interval slots s
  | .frameSyncGap => Sys2Proof.Machine.execFrameSyncGap s
  | .outputFrameTick => Sys2Proof.Machine.execOutputFrameTick s
  | .blockCompletion => Sys2Proof.Machine.execBlockCompletion s
  | .settleExpiry => Sys2Proof.Machine.execSettleExpiry s
  | .linkSilenceExpiry => Sys2Proof.Machine.execLinkSilenceExpiry s
  | .freshnessExpiry source => Sys2Proof.Machine.execFreshnessExpiry source s
  | .lifetimeExpiry key => Sys2Proof.Machine.execLifetimeExpiry key s
  | .silenceExpiry station => Sys2Proof.Machine.execSilenceExpiry station s
  | .latenessExpiry place => Sys2Proof.Machine.execLatenessExpiry place s
  | .silentExpiry => Sys2Proof.Machine.execSilentExpiry s
  | .sendingStart => Sys2Proof.Machine.execSendingStart s
  | .frameSent => Sys2Proof.Machine.execFrameSent s
  | .contentionLost => Sys2Proof.Machine.execContentionLost s
  | .transmitError => Sys2Proof.Machine.execTransmitError s
  | .invalidFrame frame => Sys2Proof.Machine.execInvalidFrame frame s
  | .imageCue origin zone stamp flags fields => Sys2Proof.Machine.execImageCue origin zone stamp flags fields s
  | .paceCue origin validity speed => Sys2Proof.Machine.execPaceCue origin validity speed s
  | .dipApply origin op masks depth hold => Sys2Proof.Machine.execDipApply origin op masks depth hold s
  | .dipRelease origin op => Sys2Proof.Machine.execDipRelease origin op s
  | .headroomCue origin v0 v1 v2 v3 code flags => Sys2Proof.Machine.execHeadroomCue origin v0 v1 v2 v3 code flags s
  | .sleepCue origin => Sys2Proof.Machine.execSleepCue origin s
  | .wakeCue origin => Sys2Proof.Machine.execWakeCue origin s
  | .queryCue origin target group index flags => Sys2Proof.Machine.execQueryCue origin target group index flags s
  | .reportFrame origin payload => Sys2Proof.Machine.execReportFrame origin payload s
  | .fillStart => Sys2Proof.Machine.execFillStart s
  | .fillCompletion record => Sys2Proof.Machine.execFillCompletion record s
  | .deepPowerDown => Sys2Proof.Machine.execDeepPowerDown s

end Sys2Proof.Machine
end

