-- ==== Sys2Proof/Machine/Clock.lean ====
section
/-!
DEFINITION. What the node does of its own while no command waits (DESIGN CHOICE, log 2; unsafe): an event of its own that
is due, or one millisecond of the internal reference. It makes no TDM event (DESIGN CHOICE, log 22; unsafe) and counts no
time below a millisecond (DESIGN CHOICE, log 24; unsafe).
-/
namespace Sys2Proof.Machine

/-- A list of one event if a condition holds. -/
def dueIf (b : Bool) (i : Instr) : List Instr := if b then [i] else []

/-- The events of the library port that are due, each a step of its own (R122, R128, R130; DESIGN CHOICE, log 23). -/
def State.libraryEvents (s : State) : List Instr :=
  dueIf (s.library.flash == .releasing) .releaseWaitEnd ++
    dueIf (s.library.mayFill && (oldestWithLine s.library.queue).isSome) .fillStart ++
    dueIf s.library.mayPowerDown .deepPowerDown

/-- The expiries that are due: timers at 0 and ages at their limits (R56, R75, R141, R142, R150, R152, R155). -/
def State.expiryEvents (s : State) : List Instr :=
  dueIf (s.node.settle == some 0) .settleExpiry ++
    dueIf (s.node.linkSilence == some 0) .linkSilenceExpiry ++
    dueIf (s.link.silent == some 0) .silentExpiry ++
    dueIf s.pace.primary.expired (.freshnessExpiry .primary) ++
    dueIf s.pace.secondary.expired (.freshnessExpiry .secondary) ++
    (s.table.filter fun e => e.lifetime == some 0).map (fun e => .lifetimeExpiry e.key) ++
    ((List.finRange 16).filter s.silenceDue).map .silenceExpiry ++
    ((List.range s.link.queue.length).filter s.latenessDue).map .latenessExpiry

/-- Every event of the node's own that is due. -/
def State.ownEvents (s : State) : List Instr :=
  if s.inReset then []
  else s.libraryEvents ++ dueIf (s.paced && s.ports.blockDue) .blockCompletion ++ s.expiryEvents

/-- One millisecond of a source's freshness time (R56). -/
def SpeedSource.tick (x : SpeedSource) : SpeedSource := if x.valid then { x with freshness := x.freshness - 1 } else x

/-- One millisecond of a silence age; in DORMANT, and of an absent station, it stands (R155; DESIGN
CHOICE, log 17). -/
def PresenceRecord.tick (p : PresenceRecord) : PresenceRecord :=
  if p.present then { p with age := min 2000 (p.age + 1) } else p

/-- One millisecond of a queue entry's age (R152). -/
def TxEntry.tick (e : TxEntry) : TxEntry := { e with age := min 100 (e.age + 1) }

/-- One millisecond at the link interface. -/
def LinkInterface.tick (l : LinkInterface) (dormant : Bool) : LinkInterface :=
  { l with queue := l.queue.map TxEntry.tick, silent := tickTimer l.silent,
           stations := if dormant then l.stations else Vector.ofFn fun i => l.stations[i].tick }

/-- One millisecond of the internal 1 ms reference: timers, freshness, lifetimes, ages, and, while input audio is lost,
the end of the block in progress (R56, R75, R91, R136, R138, R150, R152, R155). The emission age counts in START too
(DEDUCED, log 21; safe). -/
def State.advance (s : State) : State :=
  { s with
    node := { s.node with settle := tickTimer s.node.settle, linkSilence := tickTimer s.node.linkSilence }
    pace := { s.pace with primary := s.pace.primary.tick, secondary := s.pace.secondary.tick }
    table := s.table.map fun e => { e with lifetime := tickTimer e.lifetime }
    emission := { s.emission with age := if s.dormant then s.emission.age else min 500 (s.emission.age + 1) }
    link := s.link.tick s.dormant
    ports := { s.ports with blockDue := s.ports.blockDue || (s.paced && s.ports.presence == .lost) } }

/-- The output frames of one millisecond of the reference while input audio is lost (R137). -/
def State.outputTicks (s : State) : List Instr :=
  if s.paced && s.ports.presence == .lost then List.replicate 48 .outputFrameTick else []

/-- One of the events that are due (log 7). -/
def pickEvent (n : Nat) (e : Instr) (es : List Instr) : Instr :=
  match es with
  | [] => e
  | _ :: _ => (e :: es).getD (Config.eventPick n % (es.length + 1)) e

/-- A step with no command waiting: an event that is due is put in the queue, or, when none is due, one millisecond
passes; while a reset is held nothing happens. -/
def State.idle (s : State) : State :=
  match s.ownEvents with
  | e :: es => { s.drawn with pending := [pickEvent s.draws e es] }
  | [] => if s.inReset then s else { s.advance with pending := s.outputTicks }

end Sys2Proof.Machine
end

