-- ==== Sys2Proof/Safety.lean ====
section
/-!
DEFINITION. What the manual promises of every state the node is in, block by block: the laws that its rules state for
the whole machine, and that every step keeps.
-/
namespace Sys2Proof.Machine

/-- The three conditions of a term slot are the only ones (R18): a slot with an active record has not reached its
target; a slot without one counts no blocks (R22, R24, R26, R29). -/
def TermSlot.Sound (t : TermSlot) : Prop :=
  (t.active ≠ none → t.current ≠ t.target) ∧ (t.active = none → t.blocksLeft = 0)

/-- Every term slot is in one of the three conditions of R18. -/
def State.SlotLaw (s : State) : Prop := ∀ id : SlotId, (s.slot id).Sound

/-- AMP_ON, the NODE target, NODE.current and the output port follow the node state and the input presence (R137, R138,
R139, R144, R146): AMP_ON is on in WAKING, ACTIVE and QUIET alone; the NODE target is that of R139; outside ACTIVE and
QUIET the NODE slot rests at 1600; the output clocks run in every state but START, and the output carries zeros while
AMP_ON is off or input audio is lost. -/
structure State.NodeLaw (s : State) : Prop where
  amp    : s.node.ampOn = s.awake
  target : (s.slot .node).target = nodeTarget s.node.state s.ports.presence
  sound  : (s.slot .node).Sound
  silent : s.node.state ≠ .active → s.node.state ≠ .quiet → s.slot .node = TermSlot.idleAt 1600
  clocks : s.ports.outRunning = true ↔ s.node.state ≠ .start
  zeros  : s.node.ampOn = false ∨ s.ports.presence = .lost → s.ports.outFrame = Vector.replicate 8 0#32

/-- An entry is one R66 allows at a node of the given station number. -/
def Entry.Sound (station : Station) (e : Entry) : Prop :=
  entryOrigin e.key ≠ station ∧ 1 ≤ e.depth ∧
    match e.key with
    | .link _ _ => e.depth ≤ 384
    | .dip _ _ => e.depth ≤ 1600 ∧ e.zones ≠ 0#4 ∧ e.classes ≠ 0#4

/-- The reduction table holds at most 24 entries, no two of one key, none of the node's own station, each with a depth
in its range (R66). -/
structure State.TableLaw (s : State) : Prop where
  size    : s.table.length ≤ 24
  keys    : (s.table.map (·.key)).Nodup
  entries : ∀ e ∈ s.table, e.Sound s.loader.station

/-- The entry is a DIP entry that covers the zone and the class: both are in its masks (R66, R78). -/
def Entry.Covers (e : Entry) (z : Zone) (k : ChannelClass) : Prop :=
  (∃ o i, e.key = .dip o i) ∧ e.zones[z] = true ∧ e.classes[k] = true

/-- The value v is the largest depth among the entries that cover the zone and the class, 0 if there is none (R78). -/
structure DipTargetIs (table : List Entry) (z : Zone) (k : ChannelClass) (v : Int) : Prop where
  bound    : 0 ≤ v ∧ ∀ e ∈ table, e.Covers z k → (e.depth : Int) ≤ v
  attained : v = 0 ∨ ∃ e ∈ table, e.Covers z k ∧ (e.depth : Int) = v

/-- The value v is the largest among the own value of the group and the depths of its LINK entries (R79). -/
structure LinkTargetIs (own : Nat) (table : List Entry) (g : Group) (v : Int) : Prop where
  bound    : (own : Int) ≤ v ∧ ∀ e ∈ table, (∃ o, e.key = .link o g) → (e.depth : Int) ≤ v
  attained : v = own ∨ ∃ e ∈ table, (∃ o, e.key = .link o g) ∧ (e.depth : Int) = v

/-- The DIP and LINK targets are those of the entries and own values (R78, R79); before the hand-over there are no
entries and no own values (R83, R89). -/
structure State.TargetLaw (s : State) : Prop where
  dip   : ∀ z k, DipTargetIs s.table z k (s.slot (.dip z k)).target
  link  : ∀ g : Group, LinkTargetIs s.emission.own[g] s.table g (s.slot (.link g)).target
  start : s.node.state = .start → s.table = [] ∧ s.emission.own = Vector.replicate 4 0

/-- The transmit queue never holds more than 8 frames, nor more than one headroom cue (R151); the consecutive error
count stays below 16, where SILENT is entered (R150); the queue is empty in DORMANT (R152); no attempt of the node's own runs
while it is within a frame that it receives (R147, R149, R150). -/
structure State.QueueLaw (s : State) : Prop where
  size     : s.link.queue.length ≤ 8
  headroom : s.link.queue.countP (fun e => e.kind == .headroom) ≤ 1
  errors   : s.link.errors < 16
  dormant  : s.node.state = .dormant → s.link.queue = []
  frame    : s.link.inFrame = true → s.link.sending = none

/-- A zone image is within its ranges, with at most four origin records, one per origin, none of the node's own station
(R40, R41). -/
structure ZoneImage.Sound (station : Station) (im : ZoneImage) : Prop where
  volume  : im.volume ≤ im.maxVolume
  maximum : im.maxVolume ≤ 120
  fade    : -32 ≤ im.fade ∧ im.fade ≤ 32
  balance : -32 ≤ im.balance ∧ im.balance ≤ 32
  size    : im.origins.length ≤ 4
  origins : (im.origins.map (·.origin)).Nodup
  own     : ∀ r ∈ im.origins, r.origin ≠ station

/-- Every zone image is sound, and the VOL, FADE and BAL targets are those its values convert into (R40, R41, R46). -/
structure State.ImageLaw (s : State) : Prop where
  sound   : ∀ z : Zone, s.image[z].Sound s.loader.station
  volume  : ∀ z : Zone, (s.slot (.vol z)).target = volumeTarget s.image[z].volume
  fade    : ∀ z : Zone, (s.slot (.fade z)).target = stepTarget s.image[z].fade
  balance : ∀ z : Zone, (s.slot (.bal z)).target = stepTarget s.image[z].balance

/-- The node's own station is never marked present (R155), and every entry's and every origin record's station is
(R49, R77, R155), but for a station whose absence report is still to be taken by the table or the image handler. Such a
report stands only while a cue of that station to that recipient is the next command and will be taken (log 32). -/
structure State.PresenceLaw (s : State) : Prop where
  own     : (s.link.stations[s.loader.station]).present = false
  entries : ∀ e ∈ s.table,
    (s.link.stations[entryOrigin e.key]).present = true ∨ s.link.owed = some (entryOrigin e.key, .table)
  origins : ∀ z : Zone, ∀ r ∈ s.image[z].origins,
    (s.link.stations[r.origin]).present = true ∨ s.link.owed = some (r.origin, .image)
  owed    : ∀ o r, s.link.owed = some (o, r) → s.inReset = false ∧ s.takesCues = true ∧ o ≠ s.loader.station ∧
    ∃ c rest, s.pending = c :: rest ∧ frameOrigin c = some o ∧ cueRecipient c = some r

/-- No counter stands above 65,535 (R162). -/
structure State.CounterLaw (s : State) : Prop where
  link    : ∀ i : Fin 12, s.stats.link[i] ≤ 65535
  channel : ∀ c : Channel, ∀ i : Fin 7, s.stats.channel[c][i] ≤ 65535
  cache   : ∀ i : Fin 5, s.stats.cacheAudio[i] ≤ 65535

/-- The limiter and the values formed from it stay in their ranges (R85, R89). -/
structure State.LimiterLaw (s : State) : Prop where
  reduction : ∀ c : Channel, (s.channel c).reduction ≤ 384
  own       : ∀ g : Group, s.emission.own[g] ≤ 384
  sent      : ∀ g : Group, s.emission.sent[g] ≤ 384
  age       : s.emission.age ≤ 500

/-- Current value and target of a slot lie in a range. -/
def TermSlot.Within (t : TermSlot) (lo hi : Int) : Prop :=
  lo ≤ t.current ∧ t.current ≤ hi ∧ lo ≤ t.target ∧ t.target ≤ hi

/-- Every term slot is in the value range of its kind (R19); the curves the pace unit holds are admitted ones (R59). -/
structure State.RangeLaw (s : State) : Prop where
  vol    : ∀ z : Zone, (s.slot (.vol z)).Within 0 1600
  fade   : ∀ z : Zone, (s.slot (.fade z)).Within (-512) 512
  bal    : ∀ z : Zone, (s.slot (.bal z)).Within (-512) 512
  pace   : ∀ z : Zone, (s.slot (.pace z)).Within 0 192
  dip    : ∀ z k, (s.slot (.dip z k)).Within 0 1600
  link   : ∀ g : Group, (s.slot (.link g)).Within 0 384
  node   : (s.slot .node).Within 0 1600
  curves : ∀ cs, s.pace.curves = some cs → ∀ z : Zone,
    (∀ k : Fin 8, cs[z][k].boost ≤ 192) ∧ ∀ j k : Fin 8, j < k → cs[z][j].speed < cs[z][k].speed

/-- How many references a channel holds on a line: its active and its incoming set (R102). -/
def ChannelState.references (x : ChannelState) (l : LineRef) : Nat :=
  (if x.active = some l then 1 else 0) + (if x.incoming.map (·.line) = some l then 1 else 0)

/-- How many references all channels hold on a line (R102). -/
def State.references (s : State) (l : LineRef) : Nat :=
  (s.channels.toList.map fun x => x.references l).sum

/-- The pin count of every line is the number of references the channels hold on it, and every pinned line is VALID
(R102, R115). -/
structure State.PinLaw (s : State) : Prop where
  count  : ∀ l : LineRef, (s.line l).pins = s.references l
  pinned : ∀ l : LineRef, 0 < (s.line l).pins → (s.line l).state = .valid

/-- Every line that is not INVALID holds a key of its set, and no two such lines of a set hold one key (R116, R117). -/
structure State.KeyLaw (s : State) : Prop where
  place  : ∀ l : LineRef, (s.line l).state ≠ .invalid → (s.line l).key.set = l.set
  single : ∀ l m : LineRef, l.set = m.set → (s.line l).state ≠ .invalid → (s.line m).state ≠ .invalid →
    (s.line l).key = (s.line m).key → l = m

/-- The fill queue holds at most 16 entries, one per key; its lines and the line of the fill in flight are the FILLING
lines, each with the key it is filled for (R119, R122). -/
structure State.FillLaw (s : State) : Prop where
  size    : s.library.queue.length ≤ 16
  keys    : (s.library.queue.map (·.key)).Nodup
  queued  : ∀ e ∈ s.library.queue, ∀ l, e.line = some l → (s.line l).state = .filling ∧ (s.line l).key = e.key
  flying  : ∀ f, s.library.fill = some f → (s.line f.line).state = .filling ∧ (s.line f.line).key = f.key ∧
    ∀ e ∈ s.library.queue, e.key ≠ f.key
  filling : ∀ l, (s.line l).state = .filling →
    (∃ e ∈ s.library.queue, e.line = some l) ∨ (∃ f, s.library.fill = some f ∧ f.line = l)

/-- The cache, the fill queue and the channels' contexts agree: the pins, the keys and the fills are in order; a channel
that waits for a fill is enabled, runs no crossfade and waits on the FILLING line of its wanted key; a QUEUED channel
waits on an entry without a line for its wanted key, and such a key is on no line (R102, R105, R107, R118). Before the
hand-over cache and queue are empty; in DORMANT no channel waits or crossfades, and in neither is a speed source fresh
(R64, R113, R130). -/
structure State.CacheLaw (s : State) : Prop where
  pins     : s.PinLaw
  keys     : s.KeyLaw
  fills    : s.FillLaw
  waiting  : ∀ c l, (s.channel c).request = .waitingFill l →
    (s.line l).state = .filling ∧ (s.line l).key = (s.channel c).wanted ∧
      (s.channel c).incoming = none ∧ (s.channel c).record.enabled = true
  queued   : ∀ c, (s.channel c).request = .queued →
    (∃ e ∈ s.library.queue, e.key = (s.channel c).wanted ∧ e.line = none) ∧
      (s.channel c).incoming = none ∧ (s.channel c).record.enabled = true
  lineless : ∀ e ∈ s.library.queue, e.line = none → ∀ l, (s.line l).state ≠ .invalid → (s.line l).key ≠ e.key
  start    : s.node.state = .start → s.library.queue = [] ∧ s.library.fill = none ∧
    ∀ l, (s.line l).state = .invalid ∧ (s.line l).pins = 0
  dormant  : s.node.state = .dormant → ∀ c, (s.channel c).request = .idle ∧ (s.channel c).incoming = none
  sources  : s.node.state = .start ∨ s.node.state = .dormant → ∀ w, (s.pace.source w).valid = false

/-! ### Bytes: the formats of chapter 13, written as numbers at byte places -/

/-- The unsigned number in n bytes from a place on, most significant byte first (R166). -/
def unsignedAt (bytes : List Byte) (place n : Nat) : Nat :=
  (List.range n).foldl (fun v k => 256 * v + (bytes.getD (place + k) 0#8).toNat) 0

/-- The two's complement number in n bytes from a place on (R166). -/
def signedAt (bytes : List Byte) (place n : Nat) : Int :=
  if 2 ^ (8 * n - 1) ≤ unsignedAt bytes place n then (unsignedAt bytes place n : Int) - 2 ^ (8 * n)
  else unsignedAt bytes place n

/-- A number as two bytes, most significant first (R166). -/
def twoBytes (v : Nat) : List Byte := [BitVec.ofNat 8 (v / 256), BitVec.ofNat 8 v]

/-- The flags of a headroom cue and of item group STATE, bit by bit, as they stand (R95, R164, R167). -/
structure State.FlagsAre (s : State) (flags : Byte) : Prop where
  clash    : flags[0] = true ↔ s.link.clash = true
  silent   : flags[1] = true ↔ s.link.silent ≠ none
  library  : flags[2] = true ↔ s.library.state = .faulty
  config   : flags[3] = true ↔ s.node.state = .held ∧ s.loader.fault ≠ .noFault
  audio    : flags[4] = true ↔ s.ports.presence = .lost
  reserved : flags[5] = false ∧ flags[6] = false ∧ flags[7] = false

/-- The content of a headroom cue: four group values, node state code, flags (R95, R167). -/
def State.HeadroomContent (s : State) (own : Vector Nat 4) (payload : List Byte) : Prop :=
  ∃ (code : Nat) (flags : Byte),
    payload = twoBytes own[0] ++ twoBytes own[1] ++ twoBytes own[2] ++ twoBytes own[3] ++ [BitVec.ofNat 8 code, flags] ∧
    (s.node.state, code) ∈ ([(.held, 1), (.waking, 2), (.active, 3), (.quiet, 4)] : List (NodeState × Nat)) ∧
    s.FlagsAre flags

/-- The values of item group STATE (R164, R167). -/
def State.StateReport (s : State) (values : List Nat) : Prop :=
  ∃ (node cause library speed fault : Nat) (flags : Byte),
    values = [node, cause, s.loader.station.val, library, speed, s.pace.usedSpeed, fault, flags.toNat] ∧
    (s.node.state, node) ∈ ([(.start, 0), (.held, 1), (.waking, 2), (.active, 3), (.quiet, 4), (.dormant, 5)] :
      List (NodeState × Nat)) ∧
    (s.node.cause, cause) ∈ ([(.powerOn, 0), (.pin, 1)] : List (ResetCause × Nat)) ∧
    (s.library.state, library) ∈ ([(.absent, 0), (.ready, 1), (.faulty, 2)] : List (LibraryState × Nat)) ∧
    (s.pace.speedState, speed) ∈ ([(.noSpeed, 0), (.primary, 1), (.secondary, 2), (.hold, 3)] : List (SpeedState × Nat)) ∧
    (s.loader.fault, fault) ∈ ([(.noFault, 0), (.noMemory, 1), (.badSignature, 2), (.badLength, 3), (.badCheck, 4),
      (.badRange, 5), (.badLaw, 6), (.badCurve, 7), (.badRamp, 8)] : List (FaultCode × Nat)) ∧
    s.FlagsAre flags

/-- The values of a reduction entry: kind, origin and tag; depth; masks, 0 for a LINK entry; lifetime left, 0xFFFF when
absent (R84, R164, R167). -/
def Entry.Report (e : Entry) (values : List Nat) : Prop :=
  ∃ head masks : Nat, values = [head, e.depth, masks, e.lifetime.getD 0xFFFF] ∧
    (∀ o g, e.key = .link o g → head = 256 * o.val + g.val ∧ masks = 0) ∧
    (∀ o i, e.key = .dip o i → head = 32768 + 256 * o.val + i.val ∧ masks = 16 * e.classes.toNat + e.zones.toNat)

/-- The values of item group ZONE: volume index, fade step, balance step, preset, band, PACE target, VOL current; a signed
value in two's complement (R164, R167). -/
def State.zoneReport (s : State) (z : Zone) : List Nat :=
  [s.image[z].volume, (s.image[z].fade % 65536).toNat, (s.image[z].balance % 65536).toNat, s.image[z].preset.val,
   s.pace.bands[z].val, ((s.slot (.pace z)).target % 65536).toNat, ((s.slot (.vol z)).current % 65536).toNat]

/-- A library record passes for a key: check value over bytes 0 to 125, key echo, section count (R124, R168). -/
structure RecordPasses (key : CoefKey) (record : List Byte) : Prop where
  check   : (crcBytes (record.take 126)).toNat = unsignedAt record 126 2
  preset  : key.preset.val = unsignedAt record 0 2 / 256 % 16
  band    : key.band.val = unsignedAt record 0 2 / 32 % 8
  profile : key.profile.val = unsignedAt record 0 2 % 32
  count   : unsignedAt record 2 1 ≤ 6

/-- The coefficient set of a library record: sections 1 to the section count, b0, b1, b2, a1, a2 in four bytes each, the
first at byte 4 (R124, R168). -/
def recordSet (record : List Byte) : List Coefs :=
  (List.range (unsignedAt record 2 1)).map fun i =>
    { b0 := signedAt record (4 + 20 * i) 4, b1 := signedAt record (8 + 20 * i) 4, b2 := signedAt record (12 + 20 * i) 4,
      a1 := signedAt record (16 + 20 * i) 4, a2 := signedAt record (20 + 20 * i) 4 }

/-! ### The configuration image (R158, R159, R169) -/

/-- The fields of a channel record that begins at a byte place (R169). -/
structure ChannelRecord.ReadAt (r : ChannelRecord) (img : List Byte) (o : Nat) : Prop where
  enabled : (r.enabled, unsignedAt img o 1) ∈ [(false, 0), (true, 1)]
  zone    : r.zone.val = unsignedAt img (o + 1) 1
  row     : (r.row, unsignedAt img (o + 2) 1) ∈ ([(.front, 0), (.rear, 1), (.neither, 2)] : List (Row × Nat))
  side    : (r.side, unsignedAt img (o + 3) 1) ∈ ([(.left, 0), (.right, 1), (.neither, 2)] : List (Side × Nat))
  cls     : r.cls.val = unsignedAt img (o + 4) 1
  group   : (r.group.map (·.val)).getD 0xFF = unsignedAt img (o + 5) 1
  profile : r.profile.val = unsignedAt img (o + 6) 1
  slot    : r.slot.val = unsignedAt img (o + 7) 1
  trim    : r.trim = unsignedAt img (o + 8) 2
  share   : r.share = unsignedAt img (o + 10) 1
  release : r.release = unsignedAt img (o + 11) 1
  hold    : r.hold = unsignedAt img (o + 12) 1
  ceiling : r.ceiling = unsignedAt img (o + 16) 4

/-- The fields of a zone record that begins at a byte place (R169). -/
structure ZoneConfig.ReadAt (r : ZoneConfig) (img : List Byte) (o : Nat) : Prop where
  maxVolume : r.maxVolume = unsignedAt img o 1
  volume    : r.volume = unsignedAt img (o + 1) 1
  fade      : r.fade = signedAt img (o + 2) 1
  balance   : r.balance = signedAt img (o + 3) 1
  preset    : r.preset.val = unsignedAt img (o + 4) 1
  speed     : ∀ k : Fin 8, r.curve[k].speed = unsignedAt img (o + 8 + 4 * k.val) 2
  boost     : ∀ k : Fin 8, r.curve[k].boost = unsignedAt img (o + 10 + 4 * k.val) 2

/-- The fields of a configuration image at their byte places (R169). -/
structure NodeConfig.ReadFrom (cfg : NodeConfig) (img : List Byte) : Prop where
  primary   : (cfg.primary.map (·.val)).getD 0xFF = unsignedAt img 8 1
  secondary : (cfg.secondary.map (·.val)).getD 0xFF = unsignedAt img 9 1
  library   : (cfg.library, unsignedAt img 10 1) ∈ [(false, 0), (true, 1)]
  channels  : ∀ c : Channel, cfg.channels[c].ReadAt img (12 + 20 * c.val)
  zones     : ∀ z : Zone, cfg.zones[z].ReadAt img (172 + 40 * z.val)
  fade      : ∀ i : Fin 33, cfg.laws.fade[i] = unsignedAt img (332 + 2 * i.val) 2
  balance   : ∀ i : Fin 33, cfg.laws.balance[i] = unsignedAt img (398 + 2 * i.val) 2
  rate      : ∀ r : Fin 32, cfg.profile.records[r].rate = unsignedAt img (464 + 4 * r.val) 1
  chain     : ∀ r : Fin 32, (cfg.profile.records[r].chain.map (·.val)).getD 0xFF = unsignedAt img (465 + 4 * r.val) 1
  span      : ∀ r : Fin 32, cfg.profile.records[r].span = unsignedAt img (466 + 4 * r.val) 2
  vector    : ∀ i : Fin 11, (cfg.profile.vector[i].map (·.val)).getD 0xFE = unsignedAt img (592 + i.val) 1

/-- Check 3: the check value over bytes 0 to 603 (R159). -/
def CheckRight (img : List Byte) : Prop := (crcBytes (img.take 604)).toNat = unsignedAt img 604 2

/-- The ranges of a channel record (R159 check 4). -/
structure ChannelInRange (img : List Byte) (o : Nat) : Prop where
  enabled : unsignedAt img o 1 ≤ 1
  place   : unsignedAt img (o + 1) 1 ≤ 3 ∧ unsignedAt img (o + 2) 1 ≤ 2 ∧ unsignedAt img (o + 3) 1 ≤ 2
  kind    : unsignedAt img (o + 4) 1 ≤ 3 ∧ (unsignedAt img (o + 5) 1 ≤ 3 ∨ unsignedAt img (o + 5) 1 = 0xFF)
  profile : unsignedAt img (o + 6) 1 ≤ 31 ∧ unsignedAt img (o + 7) 1 ≤ 15
  trim    : unsignedAt img (o + 8) 2 ≤ 480 ∧ unsignedAt img (o + 10) 1 ≤ 16
  release : 1 ≤ unsignedAt img (o + 11) 1 ∧ unsignedAt img (o + 11) 1 ≤ 16
  ceiling : 1 ≤ unsignedAt img (o + 16) 4 ∧ unsignedAt img (o + 16) 4 ≤ 8388607

/-- The ranges of a zone record (R159 check 4). -/
structure ZoneInRange (img : List Byte) (o : Nat) : Prop where
  volume  : unsignedAt img o 1 ≤ 120 ∧ unsignedAt img (o + 1) 1 ≤ unsignedAt img o 1
  fade    : -32 ≤ signedAt img (o + 2) 1 ∧ signedAt img (o + 2) 1 ≤ 32
  balance : -32 ≤ signedAt img (o + 3) 1 ∧ signedAt img (o + 3) 1 ≤ 32
  preset  : unsignedAt img (o + 4) 1 ≤ 15
  points  : ∀ k : Fin 8, unsignedAt img (o + 8 + 4 * k.val) 2 ≤ 600 ∧ unsignedAt img (o + 10 + 4 * k.val) 2 ≤ 192

/-- Check 4: every field within its range (R159). -/
structure FieldsInRange (img : List Byte) : Prop where
  sources  : ∀ o ∈ [8, 9], unsignedAt img o 1 ≤ 15 ∨ unsignedAt img o 1 = 0xFF
  library  : unsignedAt img 10 1 ≤ 1
  channels : ∀ c : Channel, ChannelInRange img (12 + 20 * c.val)
  zones    : ∀ z : Zone, ZoneInRange img (172 + 40 * z.val)
  ramps    : ∀ r : Fin 32, 1 ≤ unsignedAt img (464 + 4 * r.val) 1 ∧ unsignedAt img (466 + 4 * r.val) 2 ≤ 4095

/-- Check 5: each law table starts at 0, never falls and never passes 1600 (R159). -/
def LawsInOrder (img : List Byte) : Prop :=
  ∀ o ∈ [332, 398], unsignedAt img o 2 = 0 ∧ (∀ i, i < 33 → unsignedAt img (o + 2 * i) 2 ≤ 1600) ∧
    ∀ i, i < 32 → unsignedAt img (o + 2 * i) 2 ≤ unsignedAt img (o + 2 * (i + 1)) 2

/-- Check 6: the speeds of each pace curve rise (R159). -/
def CurvesInOrder (img : List Byte) : Prop :=
  ∀ (z : Zone) (k : Nat), k < 7 →
    unsignedAt img (180 + 40 * z.val + 4 * k) 2 < unsignedAt img (180 + 40 * z.val + 4 * (k + 1)) 2

/-- Check 7: chains and vector entries are record numbers, none or STEP, and a record with a chain has a span (R159). -/
def RampsValid (img : List Byte) : Prop :=
  (∀ r : Fin 32, unsignedAt img (465 + 4 * r.val) 1 = 0xFF ∨
    (unsignedAt img (465 + 4 * r.val) 1 ≤ 31 ∧ 1 ≤ unsignedAt img (466 + 4 * r.val) 2)) ∧
  ∀ i : Fin 11, unsignedAt img (592 + i.val) 1 ≤ 31 ∨ unsignedAt img (592 + i.val) 1 = 0xFE

/-! ### What single events do: the terms the statements are written in -/

/-- No reset is held, the node takes cues, and the frame comes from another station (R39, R53, R69, R154, R163). -/
structure State.Takes (s : State) (o : Station) : Prop where
  released : s.inReset = false
  state    : s.takesCues = true
  other    : o ≠ s.loader.station

/-- A cue of the station reaches the recipient: it is taken, and no report of the station's absence has come with it that
the recipient is to take after it (log 32; SilenceExpiryReportsAbsence says what a cue does where one has). -/
structure State.TakesAt (s : State) (o : Station) (r : Recipient) : Prop extends s.Takes o where
  noneOwed : s.link.owed ≠ some (o, r)

/-- Every DIP and LINK slot is written the target that the entries and own values of `t` ask for; every other slot is as
before (R78, R79, R80). -/
structure State.Retargeted (s t : State) : Prop where
  dip     : ∀ z k, ∃ v, DipTargetIs t.table z k v ∧ t.slot (.dip z k) = (s.writeTarget (.dip z k) v).slot (.dip z k)
  link    : ∀ g : Group, ∃ v, LinkTargetIs t.emission.own[g] t.table g v ∧
    t.slot (.link g) = (s.writeTarget (.link g) v).slot (.link g)
  other   : ∀ i, (∀ z k, i ≠ .dip z k) → (∀ g, i ≠ .link g) → t.slot i = s.slot i
  profile : t.ramp.profile = s.ramp.profile

/-- An entry meets a table: an update in its place, room, the displacement of the shallowest and among those the
earliest inserted entry of smaller depth, or a refusal (R67, R68, R71, R73). -/
structure EntryTaken (e : Entry) (before after : List Entry) (refused : Bool) : Prop where
  update   : (∃ x ∈ before, x.key = e.key) →
    refused = false ∧ after = before.map fun x => if x.key = e.key then e else x
  room     : (∀ x ∈ before, x.key ≠ e.key) → before.length < 24 → refused = false ∧ after = before ++ [e]
  displace : (∀ x ∈ before, x.key ≠ e.key) → 24 ≤ before.length → (∃ x ∈ before, x.depth < e.depth) →
    refused = false ∧ ∃ l v r, before = l ++ v :: r ∧ (∀ x ∈ before, v.depth ≤ x.depth) ∧
      (∀ x ∈ l, v.depth < x.depth) ∧ after = l ++ r ++ [e]
  refuse   : (∀ x ∈ before, x.key ≠ e.key) → 24 ≤ before.length → (∀ x ∈ before, e.depth ≤ x.depth) →
    refused = true ∧ after = before

/-- One group value of a headroom cue meets the table: a value of 0 removes the group's entry, any other is taken with a
depth of at most 384 and 300 ms to live (R73). -/
def GroupTaken (o : Station) (g : Group) (v : Nat) (before after : List Entry) (refused : Bool) : Prop :=
  (v = 0 → refused = false ∧ after = before.filter fun x => x.key ≠ .link o g) ∧
  (v ≠ 0 → EntryTaken { key := .link o g, zones := 0#4, classes := 0#4, depth := min v 384, lifetime := some 300 }
    before after refused)

/-- A selection made by a pace unit whose source records are those of `p` (R57). -/
structure PaceUnit.Selects (p q : PaceUnit) : Prop where
  sources : q.primary = p.primary ∧ q.secondary = p.secondary
  curves  : q.curves = p.curves
  first   : p.primary.valid = true → q.speedState = .primary ∧ q.usedSpeed = p.primary.lastSpeed
  second  : p.primary.valid = false → p.secondary.valid = true →
    q.speedState = .secondary ∧ q.usedSpeed = p.secondary.lastSpeed
  neither : p.primary.valid = false → p.secondary.valid = false →
    q.speedState = (if p.speedState = .noSpeed then .noSpeed else .hold) ∧ q.usedSpeed = p.usedSpeed

/-- A selection on the pace unit `p` takes the state `s` to `t`: a changed used speed writes the PACE targets, moves the
bands and hands each changed band to the zone's channels; an unchanged one hands nothing on (R57, R60, R61, R62). The
channels take the keys they are handed in turn, in some order, each by a key change that is whole before the next channel's
key changes (DESIGN CHOICE, log 35: the manual does not say whether all keys are recorded first). -/
structure State.SpeedTaken (p : PaceUnit) (s t : State) : Prop where
  selects : p.Selects t.pace
  rest    : t = { s with pace := t.pace, ramp := t.ramp, channels := t.channels, library := t.library,
                         stats := { s.stats with cacheAudio := t.stats.cacheAudio }, draws := t.draws }
  same    : t.pace.usedSpeed = p.usedSpeed →
    t.ramp = s.ramp ∧ t.pace.bands = p.bands ∧ t.channels = s.channels ∧ t.library = s.library
  boosts  : t.pace.usedSpeed ≠ p.usedSpeed → ∀ cs, p.curves = some cs → ∀ z : Zone,
    t.slot (.pace z) = (s.writeTarget (.pace z) (curveBoost cs[z] t.pace.usedSpeed)).slot (.pace z)
  bands   : t.pace.usedSpeed ≠ p.usedSpeed → ∀ cs, p.curves = some cs → ∀ z : Zone,
    t.pace.bands[z] = newBand cs[z] t.pace.usedSpeed p.bands[z]
  slots   : (∀ i, (∀ z, i ≠ .pace z) → t.slot i = s.slot i) ∧ t.ramp.profile = s.ramp.profile
  handed  : t.pace.usedSpeed ≠ p.usedSpeed → p.curves ≠ none → ∃ ord : List Channel, ord.Nodup ∧ (∀ c, c ∈ ord) ∧
    t = ord.foldl (fun x c =>
      if t.pace.bands[(x.channel c).record.zone] = p.bands[(x.channel c).record.zone] then x
      else x.changeKey c { (x.channel c).wanted with band := t.pace.bands[(x.channel c).record.zone] })
      { s with pace := t.pace, ramp := t.ramp, draws := t.draws }
  keys    : ∀ c, (t.channel c).wanted =
    if t.pace.bands[(s.channel c).record.zone] = p.bands[(s.channel c).record.zone] then (s.channel c).wanted
    else { (s.channel c).wanted with band := t.pace.bands[(s.channel c).record.zone] }

/-- A station's absence is told to one recipient in the state `s`, and it leaves `t`. The image handler removes the station's
origin records and keeps the images; at the pace unit a speed source that the station feeds is no longer fresh, its last
speed kept, and a selection is made; the table removes the station's entries and the targets are recomputed
(R49, R58, R77). -/
def State.ToldAbsent (st : Station) : Recipient → State → State → Prop
  | .image, s, t => t = { s with image := t.image } ∧
    ∀ z : Zone, t.image[z] = { s.image[z] with origins := s.image[z].origins.filter fun r => r.origin ≠ st }
  | .pace, s, t =>
    ((∀ w, (s.pace.source w).station = some st → (s.pace.source w).valid = false) → t = s) ∧
    (∀ w w', w ≠ w' → (s.pace.source w).station = some st → (s.pace.source w).valid = true →
      ((s.pace.source w').station = some st → (s.pace.source w').valid = false) →
      State.SpeedTaken (s.pace.setSource w { s.pace.source w with valid := false, freshness := 0 }) s t)
  | .table, s, t =>
    t = { s with table := s.table.filter fun e => entryOrigin e.key ≠ st, ramp := t.ramp } ∧ s.Retargeted t

/-- A station's absence is told to some recipients, one after the other (R155). -/
def State.ToldInTurn (st : Station) : List Recipient → State → State → Prop
  | [], s, t => t = s
  | r :: rs, s, t => ∃ u, State.ToldAbsent st r s u ∧ State.ToldInTurn st rs u t

/-- The state `t` holds every value the entry to HELD with a fault code gives the node that was in `s`
(R33, R40, R63, R83, R85, R87, R91, R102, R126, R145, R161). -/
structure State.HeldWith (code : FaultCode) (s t : State) : Prop where
  node     : t.node = { s.node with state := .held, ampOn := false, settle := none, linkSilence := none }
  loader   : t.loader = { station := s.loader.station, fault := code, stage := .done, header := [] }
  slots    : ∀ i, t.slot i = TermSlot.idleAt (if i = .node then 1600 else 0)
  profile  : t.ramp.profile = none ∧ t.laws = none
  image    : ∀ z : Zone, t.image[z] =
    { volume := 120, fade := 0, balance := 0, preset := 0, maxVolume := 120, origins := [] }
  pace     : t.pace.primary = { station := none, lastSpeed := 0, valid := false, freshness := 0 } ∧
    t.pace.secondary = { station := none, lastSpeed := 0, valid := false, freshness := 0 } ∧
    t.pace.speedState = .noSpeed ∧ t.pace.usedSpeed = 0 ∧ (∀ z : Zone, t.pace.bands[z] = 0) ∧ t.pace.curves = none
  table    : t.table = []
  record   : ∀ c : Channel, (t.channel c).record =
    { enabled := true, zone := ⟨c.val / 2, by omega⟩, row := .neither, side := .neither, cls := 0, group := none,
      profile := 0, slot := ⟨c.val, by omega⟩, trim := 0, share := 0, ceiling := 8388607, release := 16, hold := 0 }
  limiter  : ∀ c, (t.channel c).reduction = 0 ∧ (t.channel c).holdCount = 0
  context  : ∀ c, (t.channel c).active = none ∧ (t.channel c).incoming = none ∧ (t.channel c).request = .idle ∧
    (t.channel c).failed = none
  composed : ∀ c, (t.channel c).composed = some { aPre := 1600, rApp := 0, total := 1600 }
  emission : (∀ g : Group, t.emission.own[g] = 0 ∧ t.emission.sent[g] = 0) ∧ t.emission.age = 500
  library  : t.library.state = .absent ∧ t.library.queue = [] ∧ t.library.fill = none ∧ t.library.errors = 0 ∧
    t.library.selected = false ∧ (∀ l, (t.line l).state = .invalid ∧ (t.line l).pins = 0)
  flash    : t.library.flash = s.library.flash ∧ t.library.mosi = s.library.mosi
  ports    : t.ports = { s.ports with outRunning := true, blockFrames := 0, nodeStepped := false }
  kept     : t.link = s.link ∧ t.stats = s.stats ∧ t.pending = s.pending

/-- The state `t` holds every value the entry to DORMANT gives the node that was in `s`, and what the manual says is
kept (R17, R50, R64, R82, R87, R91, R113, R130, R144, R152). -/
structure State.DormantFrom (s t : State) : Prop where
  node     : t.node = { s.node with state := .dormant, ampOn := false, settle := none, linkSilence := none }
  image    : ∀ z : Zone, t.image[z] = { s.image[z] with origins := [] }
  pace     : t.pace = { s.pace with
    primary := { s.pace.primary with valid := false, freshness := 0 },
    secondary := { s.pace.secondary with valid := false, freshness := 0 },
    speedState := if s.pace.speedState = .noSpeed then .noSpeed else .hold }
  table    : t.table = []
  targets  : (∀ z k, (t.slot (.dip z k)).target = 0) ∧ (∀ g, (t.slot (.link g)).target = 0)
  channels : ∀ c, (t.channel c).reduction = 0 ∧ (t.channel c).holdCount = 0 ∧ (t.channel c).composed = none ∧
    (t.channel c).peak = 0 ∧ (t.channel c).clip = false ∧
    (t.channel c).incoming = none ∧ (t.channel c).request = .idle ∧
    (t.channel c).activeStates = SectionState.zeros ∧ (t.channel c).incomingStates = SectionState.zeros ∧
    (t.channel c).wanted = (s.channel c).wanted ∧ (t.channel c).failed = (s.channel c).failed ∧
    (t.channel c).record = (s.channel c).record
  emission : ∀ g : Group, t.emission.own[g] = 0 ∧ t.emission.sent[g] = 0
  library  : t.library.queue = [] ∧ t.library.downPending = true ∧ t.library.fill = s.library.fill ∧
    t.library.errors = s.library.errors ∧ t.library.state = s.library.state ∧ t.library.flash = s.library.flash
  link     : t.link.queue = [] ∧ (∀ a, t.link.sending = some a → a.gone = true) ∧
    t.link.sending.isSome = s.link.sending.isSome ∧ t.link.errors = s.link.errors ∧
    t.link.silent = s.link.silent ∧ t.link.clash = s.link.clash ∧ t.link.stations = s.link.stations ∧
    t.link.owed = s.link.owed ∧ t.link.inFrame = s.link.inFrame
  kept     : t.loader = s.loader ∧ t.laws = s.laws ∧ t.stats.link = s.stats.link ∧ t.pending = s.pending ∧
    t.ramp.profile = s.ramp.profile

/-- The entry to DORMANT is made within a command that does nothing else to the other slots, the counters, the
emission age and the flash commands, and to the ports but zeros on the output (R137, R144, R146); a half-done crossfade
is finished by it (R113, R143). -/
structure State.FallsDormant (s t : State) : Prop where
  entry  : s.DormantFrom t
  slots  : ∀ i, (∀ z k, i ≠ .dip z k) → (∀ g, i ≠ .link g) → t.slot i = s.slot i
  active : ∀ c, (t.channel c).active =
    match (s.channel c).incoming with
    | some inc => some inc.line
    | none => (s.channel c).active
  rest   : t.ports = { s.ports with outFrame := Vector.replicate 8 0#32 } ∧ t.stats = s.stats ∧
    t.emission.age = s.emission.age ∧ t.library.mosi = s.library.mosi

/-- Every channel makes an evaluation, in turn in some order (R104). -/
def State.EvaluatedInTurn (s t : State) : Prop :=
  ∃ ord : List Channel, ord.Nodup ∧ (∀ c, c ∈ ord) ∧ t = ord.foldl (fun x c => x.evaluate c) s

/-- A channel's turn at the end of a block in which its incoming set ran or waits: k rises, or after the block with k = 8
the incoming set is the active one with its states, the old active line, if there is one, is given up, and the channel
makes an evaluation (R110, R111). -/
def State.crossfadeTurn (x : State) (c : Channel) : State :=
  match (x.channel c).incoming with
  | none => x
  | some inc =>
    if inc.running = false then x
    else if inc.k < 8 then x.setChannel c { x.channel c with incoming := some { inc with k := inc.k + 1 } }
    else
      let y := x.setChannel c { x.channel c with
        active := some inc.line, incoming := none, activeStates := (x.channel c).incomingStates,
        incomingStates := SectionState.zeros }
      match (x.channel c).active with
      | none => y.evaluate c
      | some old => (y.unpin old).evaluate c

/-- A frame's word passes through the running sets of a channel (R99, R100, R101, R110): through the sections of its
active set, FLAT passing it as it is; where a crossfade runs, through those of the incoming set too, and the result is the
blend at its k. The states of the sets that ran move on, and a saturation in either makes the overflow condition true. -/
def State.Equalised (s : State) (x : ChannelState) (word : Int) (y : ChannelState) (xeq : Int) : Prop :=
  y = { x with activeStates := y.activeStates, incomingStates := y.incomingStates, overflow := y.overflow } ∧
  ∃ a : SetResult, y.activeStates.toList = a.states ∧
    (x.active = none → a = { out := word, states := x.activeStates.toList, saturated := false }) ∧
    (∀ l, x.active = some l → a = runSections (s.line l).coefs x.activeStates.toList word) ∧
    ((∀ inc, x.incoming = some inc → inc.running = false) →
      xeq = a.out ∧ y.incomingStates = x.incomingStates ∧ y.overflow = (x.overflow || a.saturated)) ∧
    (∀ inc b, x.incoming = some inc → inc.running = true →
      b = runSections (s.line inc.line).coefs x.incomingStates.toList word →
      xeq = blend a.out b.out inc.k ∧ y.incomingStates.toList = b.states ∧
        y.overflow = (x.overflow || a.saturated || b.saturated))

/-- The state `t` holds what a valid configuration gives the node that was in `s` (R2, R20, R31, R40, R52, R59, R85,
R102, R126, R141, R160). -/
structure State.ConfiguredBy (cfg : NodeConfig) (s t : State) : Prop where
  node     : t.node = { s.node with state := .waking, ampOn := true, settle := some 50, linkSilence := some 5000 }
  loader   : t.loader = { s.loader with stage := .done, header := [] }
  profile  : t.ramp.profile = some cfg.profile ∧ t.laws = some cfg.laws
  slots    : t.slot .node = TermSlot.idleAt 1600 ∧ ∀ z : Zone,
    t.slot (.vol z) = TermSlot.idleAt (volumeTarget cfg.zones[z].volume) ∧
    t.slot (.fade z) = TermSlot.idleAt (cfg.zones[z].fade * 16) ∧
    t.slot (.bal z) = TermSlot.idleAt (cfg.zones[z].balance * 16) ∧
    t.slot (.pace z) = TermSlot.idleAt (curveBoost cfg.zones[z].curve 0)
  silent   : (∀ z k, t.slot (.dip z k) = TermSlot.idleAt 0) ∧ ∀ g, t.slot (.link g) = TermSlot.idleAt 0
  image    : ∀ z : Zone, t.image[z] =
    { volume := cfg.zones[z].volume, fade := cfg.zones[z].fade, balance := cfg.zones[z].balance,
      preset := cfg.zones[z].preset, maxVolume := cfg.zones[z].maxVolume, origins := [] }
  pace     : t.pace.primary = { station := cfg.primary, lastSpeed := 0, valid := false, freshness := 0 } ∧
    t.pace.secondary = { station := cfg.secondary, lastSpeed := 0, valid := false, freshness := 0 } ∧
    t.pace.speedState = .noSpeed ∧ t.pace.usedSpeed = 0 ∧ (∀ z : Zone, t.pace.bands[z] = 0) ∧
    ∃ cs, t.pace.curves = some cs ∧ ∀ z : Zone, cs[z] = cfg.zones[z].curve
  table    : t.table = []
  record   : ∀ c : Channel, (t.channel c).record = cfg.channels[c]
  wanted   : ∀ c : Channel, (t.channel c).wanted =
    { preset := cfg.zones[cfg.channels[c].zone].preset, band := 0, profile := cfg.channels[c].profile }
  limiter  : ∀ c, (t.channel c).reduction = 0 ∧ (t.channel c).holdCount = 0
  composed : ∀ c, (t.channel c).composed.isSome = (t.channel c).record.enabled ∧
    ∀ held, (t.channel c).composed = some held → held.aPre = 1600 ∧ held.total = 1600
  emission : t.emission = { s.emission with age := 500 }
  library  : t.library.state = (if cfg.library then .ready else .absent) ∧ t.library.flash = s.library.flash ∧
    t.library.selected = false
  ports    : t.ports = { s.ports with outRunning := true, blockFrames := 0, nodeStepped := false }
  kept     : t.link = s.link ∧ t.stats.link = s.stats.link ∧ t.stats.channel = s.stats.channel ∧
    t.pending = s.pending
  evaluated : ∃ u : State, u.EvaluatedInTurn t ∧
    u = { t with
      channels := u.channels, stats := s.stats,
      library := { s.library with state := if cfg.library then .ready else .absent, selected := false } } ∧
    ∀ c, u.channel c = { t.channel c with
      active := none, incoming := none, request := .idle, failed := none, activeStates := SectionState.zeros,
      incomingStates := SectionState.zeros, peak := 0, clip := false, overflow := false }

end Sys2Proof.Machine
end

