-- ==== Sys2Proof/Certificates/Slice0/Obligations.lean ====
section
/-!
DEFINITION. The statements for the provers. `exec c s = .next t` says that the command c, taken in the state s, completes
and leaves t. A frame is written as a record update: what is not named there is as before.
-/
open Sys2Proof Sys2Proof.Machine

/-! ### Steps -/

/-- A step takes the command at the front of the queue and runs it on the state with the queue's rest. -/
def Obligations.StepRunsTheFrontCommand : Prop :=
  ∀ (c : Instr) (rest : List Instr) (s : State), s.pending = c :: rest → step s = exec c { s with pending := rest }

/-- The model's choice (log 2): with no command waiting and no event of the node's own due, a step lets one millisecond
of the internal reference pass. Every timer, freshness time, lifetime and age that runs moves by one, the emission age in
START too (log 21). While blocks are paced and input audio is lost, the block in progress is then at its end and 48 output
frames wait to be sent; else no command waits. -/
def Obligations.IdleStepPassesOneMillisecond : Prop :=
  ∀ s : State, s.pending = [] → s.inReset = false → s.ownEvents = [] →
    ∃ t, step s = .next t ∧
      t = { s with node := t.node, pace := t.pace, table := t.table, emission := t.emission, link := t.link,
                   ports := t.ports, pending := t.pending } ∧
      (s.node.state ≠ .start ∧ s.ports.presence = .lost → t.pending = List.replicate 48 .outputFrameTick) ∧
      (¬ (s.node.state ≠ .start ∧ s.ports.presence = .lost) → t.pending = []) ∧
      t.node = { s.node with settle := s.node.settle.map (· - 1), linkSilence := s.node.linkSilence.map (· - 1) } ∧
      (∀ w, t.pace.source w =
        if (s.pace.source w).valid then { s.pace.source w with freshness := (s.pace.source w).freshness - 1 }
        else s.pace.source w) ∧
      t.pace = { s.pace with primary := t.pace.primary, secondary := t.pace.secondary } ∧
      t.table = s.table.map (fun e => { e with lifetime := e.lifetime.map (· - 1) }) ∧
      t.emission = { s.emission with age := if s.node.state = .dormant then s.emission.age else min 500 (s.emission.age + 1) } ∧
      t.link.queue = s.link.queue.map (fun e => { e with age := min 100 (e.age + 1) }) ∧
      t.link.silent = s.link.silent.map (· - 1) ∧
      t.link = { s.link with queue := t.link.queue, silent := t.link.silent, stations := t.link.stations } ∧
      (∀ st : Station, t.link.stations[st] =
        if s.link.stations[st].present ∧ s.node.state ≠ .dormant then
          { s.link.stations[st] with age := min 2000 (s.link.stations[st].age + 1) }
        else s.link.stations[st]) ∧
      t.ports = { s.ports with blockDue := s.ports.blockDue || (s.paced && s.ports.presence == .lost) }

/-! ### Reset and start-up -/

/-- While a reset is held AMP_ON is off, nothing is sent, LIB_CSn is high and the output port stands still. Every ramp, fill,
frame and crossfade in progress is abandoned, with the channels' requests, the fill queue, the transmit queue and everything
that a timer runs for. That the blocks stand at these values already at the assertion, and not only from the release on,
is the model's choice (log 9). -/
def Obligations.ResetAssertAbandonsEverything : Prop :=
  ∀ (cause : ResetCause) (s : State), ∃ t, exec (.resetAssert cause) s = .next t ∧
    t.inReset = true ∧
    t.node.supplyHold = (s.node.supplyHold || cause == .powerOn) ∧ t.node.pinHold = (s.node.pinHold || cause == .pin) ∧
    t.node.ampOn = false ∧ t.node.settle = none ∧ t.node.linkSilence = none ∧
    t.link.sending = none ∧ t.link.inFrame = false ∧ t.link.queue = [] ∧ t.link.silent = none ∧ t.link.errors = 0 ∧
    t.library.selected = false ∧ t.library.fill = none ∧ t.library.queue = [] ∧
    (∀ l, (t.line l).state = .invalid ∧ (t.line l).pins = 0) ∧
    t.ports.outRunning = false ∧ t.ports.outFrame = Vector.replicate 8 0#32 ∧ t.ports.blockDue = false ∧
    (∀ i, t.slot i = TermSlot.idleAt (if i = .node then 1600 else 0)) ∧ t.table = [] ∧
    t.pace.primary.valid = false ∧ t.pace.secondary.valid = false ∧ (∀ st : Station, t.link.stations[st].present = false) ∧
    (∀ c, (t.channel c).active = none ∧ (t.channel c).incoming = none ∧ (t.channel c).request = .idle ∧
      (t.channel c).composed = none ∧ (t.channel c).reduction = 0 ∧ (t.channel c).holdCount = 0) ∧
    t.pending = s.pending

/-- At the release of a reset every block takes its reset values, the cause is recorded, the straps are sampled and the
release command is sent. Two clauses are the model's reading: the cause, POWER_ON whenever the supply held the reset, with
both holds ending at one release (log 30), and that no law table is held (log 19). -/
def Obligations.ResetReleaseGivesResetValues : Prop :=
  ∀ (straps : BitVec 4) (s : State), s.inReset = true → ∃ t, exec (.resetRelease straps) s = .next t ∧
    t.node = { state := .start, ampOn := false, settle := none, linkSilence := none,
               cause := if s.node.supplyHold then .powerOn else .pin, supplyHold := false, pinHold := false } ∧
    t.loader.station.val = straps.toNat ∧ t.loader.fault = .noFault ∧ t.loader.stage = .releaseWait ∧
    (∀ i, t.slot i = TermSlot.idleAt (if i = .node then 1600 else 0)) ∧ t.ramp.profile = none ∧ t.laws = none ∧
    (∀ z : Zone, t.image[z] =
      { volume := 120, fade := 0, balance := 0, preset := 0, maxVolume := 120, origins := [] }) ∧
    t.pace.primary = { station := none, lastSpeed := 0, valid := false, freshness := 0 } ∧
    t.pace.secondary = { station := none, lastSpeed := 0, valid := false, freshness := 0 } ∧
    t.pace.speedState = .noSpeed ∧ t.pace.usedSpeed = 0 ∧ (∀ z : Zone, t.pace.bands[z] = 0) ∧
    t.table = [] ∧
    (∀ c, (t.channel c).reduction = 0 ∧ (t.channel c).holdCount = 0 ∧ (t.channel c).active = none ∧
      (t.channel c).incoming = none ∧ (t.channel c).wanted = { preset := 0, band := 0, profile := 0 } ∧
      (t.channel c).request = .idle ∧ (t.channel c).failed = none ∧ (t.channel c).composed = none ∧
      (t.channel c).peak = 0 ∧ (t.channel c).clip = false) ∧
    (∀ g : Group, t.emission.own[g] = 0 ∧ t.emission.sent[g] = 0) ∧ t.emission.age = 0 ∧
    (∀ l, (t.line l).state = .invalid ∧ (t.line l).pins = 0) ∧ (∀ i : Fin 16, t.library.sets[i].pointer = 0) ∧
    t.library.queue = [] ∧ t.library.fill = none ∧ t.library.errors = 0 ∧ t.library.state = .absent ∧
    t.library.flash = .releasing ∧ t.library.mosi = [0xAB#8] ∧
    t.ports.presence = .lost ∧ t.ports.goodFrames = 0 ∧ t.ports.outRunning = false ∧
    t.link.queue = [] ∧ t.link.sending = none ∧ t.link.inFrame = false ∧ t.link.errors = 0 ∧ t.link.silent = none ∧ t.link.clash = false ∧
    (∀ st : Station, t.link.stations[st] = { present := false, age := 0 }) ∧
    (∀ i : Fin 12, t.stats.link[i] = 0) ∧ (∀ c : Channel, ∀ i : Fin 7, t.stats.channel[c][i] = 0) ∧
    (∀ i : Fin 5, t.stats.cacheAudio[i] = 0)

/-- The commands of the library port alone: the end of the release wait, the start of a fill, the deep power-down. -/
def Obligations.LibraryPortCommands : Prop :=
  ∀ s : State, s.inReset = false →
    (s.library.flash = .releasing → ¬ (s.node.state = .start ∧ s.loader.stage = .releaseWait) →
      exec .releaseWaitEnd s = .next { s with library := { s.library with flash := .awake } }) ∧
    (s.library.flash = .releasing → s.node.state = .start → s.loader.stage = .releaseWait →
      exec .releaseWaitEnd s = .next { s with
        library := { s.library with flash := .awake, selected := true, mosi := [0x9F#8] },
        loader := { s.loader with stage := .identification } }) ∧
    (∀ (before after : List QueueEntry) (key : CoefKey) (l : LineRef),
      s.library.fill = none → s.library.flash = .awake → s.library.state = .ready →
      s.library.queue = before ++ { key := key, line := some l } :: after → (∀ e ∈ before, e.line = none) →
      ∃ a : Nat, a = 0x010000 + ((key.preset.val * 8 + key.band.val) * 32 + key.profile.val) * 128 ∧
        exec .fillStart s = .next { s with library := { s.library with
          queue := before ++ after, fill := some { line := l, key := key, address := a }, selected := true,
          mosi := [0x03#8, BitVec.ofNat 8 (a / 65536), BitVec.ofNat 8 (a / 256), BitVec.ofNat 8 a] } }) ∧
    (s.library.downPending = true → s.library.fill = none → s.library.flash = .awake →
      exec .deepPowerDown s = .next { s with
        library := { s.library with flash := .poweredDown, downPending := false, mosi := [0xB9#8] } }) ∧
    (s.library.fill.isSome → exec .fillStart s = .next s ∧ exec .deepPowerDown s = .next s) ∧
    (s.library.flash ≠ .awake → exec .fillStart s = .next s ∧ exec .deepPowerDown s = .next s)

/-- The identification and the image header decide how START goes on. -/
def Obligations.StartUpReadsDecide : Prop :=
  ∀ s : State, s.inReset = false → s.node.state = .start →
    (∀ b0 b1 b2 : Byte, s.loader.stage = .identification →
      ((b0 = 0x00#8 ∧ b1 = 0x00#8 ∧ b2 = 0x00#8) ∨ (b0 = 0xFF#8 ∧ b1 = 0xFF#8 ∧ b2 = 0xFF#8) →
        ∃ t, exec (.identificationRead b0 b1 b2) s = .next t ∧ State.HeldWith .noMemory s t) ∧
      (¬ ((b0 = 0x00#8 ∧ b1 = 0x00#8 ∧ b2 = 0x00#8) ∨ (b0 = 0xFF#8 ∧ b1 = 0xFF#8 ∧ b2 = 0xFF#8)) →
        exec (.identificationRead b0 b1 b2) s = .next { s with
          library := { s.library with selected := true, mosi := [0x03#8, 0x00#8, 0x00#8, 0x00#8] },
          loader := { s.loader with stage := .header } })) ∧
    (∀ b0 b1 b2 b3 format reserved hi lo : Byte, s.loader.stage = .header →
      (¬ (b0 = 0x48#8 ∧ b1 = 0x5A#8 ∧ b2 = 0x4E#8 ∧ b3 = 0x38#8 ∧ format = 1#8) →
        ∃ t, exec (.imageHeaderRead [b0, b1, b2, b3, format, reserved, hi, lo]) s = .next t ∧
          State.HeldWith .badSignature s t) ∧
      (b0 = 0x48#8 ∧ b1 = 0x5A#8 ∧ b2 = 0x4E#8 ∧ b3 = 0x38#8 ∧ format = 1#8 → hi.toNat * 256 + lo.toNat ≠ 606 →
        ∃ t, exec (.imageHeaderRead [b0, b1, b2, b3, format, reserved, hi, lo]) s = .next t ∧
          State.HeldWith .badLength s t) ∧
      (b0 = 0x48#8 ∧ b1 = 0x5A#8 ∧ b2 = 0x4E#8 ∧ b3 = 0x38#8 ∧ format = 1#8 → hi.toNat * 256 + lo.toNat = 606 →
        exec (.imageHeaderRead [b0, b1, b2, b3, format, reserved, hi, lo]) s = .next { s with
          loader := { s.loader with stage := .image, header := [b0, b1, b2, b3, format, reserved, hi, lo] } }))

/-- A whole image that fails a check sends the node to HELD with that check's fault code; no part of it is taken. -/
def Obligations.ImageReadRejectsABadImage : Prop :=
  ∀ (s : State) (rest : List Byte) (code : FaultCode), s.inReset = false → s.node.state = .start →
    s.loader.stage = .image → checkImage (s.loader.header ++ rest) = .error code →
    ∃ t, exec (.imageRead rest) s = .next t ∧ State.HeldWith code s t

/-- A whole image that passes every check is handed to every block at once, the node enters WAKING, and every channel makes
its first evaluation, in turn. -/
def Obligations.ImageReadHandsOver : Prop :=
  ∀ (s : State) (rest : List Byte) (cfg : NodeConfig), s.inReset = false → s.node.state = .start →
    s.loader.stage = .image → checkImage (s.loader.header ++ rest) = .ok cfg →
    ∃ t, exec (.imageRead rest) s = .next t ∧ State.ConfiguredBy cfg s t

/-- The image checks 3 to 7 are made in order: each fault code is given exactly when its check fails and the earlier ones
pass; an image that passes all is admitted, and the admitted configuration has every field as its bytes spell it. -/
def Obligations.ImageChecksInOrder : Prop :=
  ∀ img : List Byte,
    (checkImage img = .error .badCheck ↔ ¬ CheckRight img) ∧
    (checkImage img = .error .badRange ↔ CheckRight img ∧ ¬ FieldsInRange img) ∧
    (checkImage img = .error .badLaw ↔ CheckRight img ∧ FieldsInRange img ∧ ¬ LawsInOrder img) ∧
    (checkImage img = .error .badCurve ↔
      CheckRight img ∧ FieldsInRange img ∧ LawsInOrder img ∧ ¬ CurvesInOrder img) ∧
    (checkImage img = .error .badRamp ↔
      CheckRight img ∧ FieldsInRange img ∧ LawsInOrder img ∧ CurvesInOrder img ∧ ¬ RampsValid img) ∧
    (∀ cfg, checkImage img = .ok cfg ↔ CheckRight img ∧ FieldsInRange img ∧ LawsInOrder img ∧ CurvesInOrder img ∧
      RampsValid img ∧ cfg.ReadFrom img) ∧
    (CheckRight img → FieldsInRange img → LawsInOrder img → CurvesInOrder img → RampsValid img →
      ∃ cfg, checkImage img = .ok cfg)

/-! ### Audio ports -/

/-- While input audio is present, a frame sync that is not good and a gap of 62.5 µs are an audio loss: the NODE slot
rests at 1600, zeros are on the output, and one loss is counted unless the node is in DORMANT. That the frame sync that is not
good is the reference of the next one is the model's reading (log 11). -/
def Obligations.AudioLossMutesTheNode : Prop :=
  ∀ (s : State) (c : Instr), s.inReset = false → s.ports.presence = .present →
    ((∃ interval slots, c = .frameSync interval slots ∧
        ¬ (s.ports.syncSeen = true ∧ 20000 ≤ interval ∧ interval ≤ 21740)) ∨ c = .frameSyncGap) →
    ∃ t, exec c s = .next t ∧
      t = { s with ramp := t.ramp, ports := t.ports, stats := (s.countCache .audioLosses).stats } ∧
      t.ports = { s.ports with presence := .lost, goodFrames := 0, syncSeen := c != .frameSyncGap,
                               outFrame := Vector.replicate 8 0#32 } ∧
      t.slot .node = TermSlot.idleAt 1600 ∧ (∀ i, i ≠ .node → t.slot i = s.slot i) ∧
      t.ramp.profile = s.ramp.profile

/-- While input audio is lost, good frame syncs are counted, a sync that is not good and a gap start the count again,
and the 48th good one brings the audio back: the NODE target is formed anew and the block in progress is at its end. The
manual lets the target change or the NODE slot's step of that completion be first. The completion follows as a command of its
own (log 2), so where the step is first the slot takes it within the return, which a mark keeps for the completion (log 31).
That a frame sync that is not good is the reference of the next one is the model's reading (log 11). -/
def Obligations.GoodSyncsBringAudioBack : Prop :=
  ∀ (s : State) (interval : Nat) (slots : Vector SlotWord 16), s.inReset = false → s.ports.presence = .lost →
    (s.ports.syncSeen = true → 20000 ≤ interval → interval ≤ 21740 → s.ports.goodFrames < 47 →
      exec (.frameSync interval slots) s = .next { s with
        ports := { s.ports with goodFrames := s.ports.goodFrames + 1 } }) ∧
    (s.ports.syncSeen = true → 20000 ≤ interval → interval ≤ 21740 → s.ports.goodFrames = 47 →
      ∃ (early : Bool) (u : State),
        u = (if early = true then s.setSlot .node ((s.slot .node).step s.ramp.record) else s) ∧
        (s.paced = false ∨ s.ports.nodeStepped = true → early = false) ∧
        exec (.frameSync interval slots) s = .next
          { u.writeTarget .node (if s.node.state = .active then 0 else 1600) with
            ports := { s.ports with
              presence := .present, goodFrames := 0, blockDue := s.paced || s.ports.blockDue,
              nodeStepped := s.ports.nodeStepped || early, outFrame := Vector.replicate 8 0#32 }
            draws := s.draws + 1 }) ∧
    (¬ (s.ports.syncSeen = true ∧ 20000 ≤ interval ∧ interval ≤ 21740) →
      exec (.frameSync interval slots) s = .next { s with
        ports := { s.ports with goodFrames := 0, syncSeen := true } }) ∧
    exec .frameSyncGap s = .next { s with ports := { s.ports with goodFrames := 0, syncSeen := false } }

/-- A good frame while input audio is present passes through every channel that composes the block: its word through the
equaliser, whose states and overflow condition move on; the output slot carries the clamped sample in its upper 24 bits
while AMP_ON is on, the clip condition and the block peak follow, and the 48th frame brings the block to its end. -/
def Obligations.FrameSyncCarriesAFrame : Prop :=
  ∀ (s : State) (interval : Nat) (slots : Vector SlotWord 16), s.inReset = false → s.ports.presence = .present →
    s.node.state ≠ .start → s.ports.syncSeen = true → 20000 ≤ interval → interval ≤ 21740 →
    ∃ t, exec (.frameSync interval slots) s = .next t ∧
      t = { s with channels := t.channels, ports := t.ports } ∧
      t.ports = { s.ports with blockFrames := s.ports.blockFrames + 1,
                               blockDue := s.ports.blockDue || decide (48 ≤ s.ports.blockFrames + 1),
                               outFrame := t.ports.outFrame } ∧
      (s.node.ampOn = false → t.ports.outFrame = Vector.replicate 8 0#32) ∧
      (∀ c : Channel, (s.channel c).composed = none →
        t.channel c = s.channel c ∧ t.ports.outFrame[c] = 0#32) ∧
      (∀ (c : Channel) (held : Composed), (s.channel c).composed = some held →
        ∃ (y : ChannelState) (xeq : Int),
          s.Equalised (s.channel c) ((slots[(s.channel c).record.slot]).extractLsb' 8 24).toInt y xeq ∧
          t.channel c = { y with
            clip := (s.channel c).clip ||
              decide ((s.channel c).record.ceiling < (roundDiv (xeq * gain held.total) 8388608).natAbs),
            peak := max (s.channel c).peak (roundDiv (xeq * gain held.aPre) 8388608).natAbs } ∧
          (s.node.ampOn = true → t.ports.outFrame[c] = BitVec.ofInt 24
            (max (-((s.channel c).record.ceiling : Int))
              (min (s.channel c).record.ceiling (roundDiv (xeq * gain held.total) 8388608))) ++ 0#8))

/-- While input audio is lost, an output frame from the internal reference carries zeros, and the channels' filters run
on zero input, with the clip condition and the block peak formed from what they give. -/
def Obligations.OutputFrameTickCarriesZeros : Prop :=
  ∀ s : State, s.inReset = false → s.node.state ≠ .start → s.ports.presence = .lost →
    ∃ t, exec .outputFrameTick s = .next t ∧
      t = { s with channels := t.channels, ports := { s.ports with outFrame := Vector.replicate 8 0#32 } } ∧
      (∀ c : Channel, (s.channel c).composed = none → t.channel c = s.channel c) ∧
      (∀ (c : Channel) (held : Composed), (s.channel c).composed = some held →
        ∃ (y : ChannelState) (xeq : Int), s.Equalised (s.channel c) 0 y xeq ∧
          t.channel c = { y with
            clip := (s.channel c).clip ||
              decide ((s.channel c).record.ceiling < (roundDiv (xeq * gain held.total) 8388608).natAbs),
            peak := max (s.channel c).peak (roundDiv (xeq * gain held.aPre) 8388608).natAbs })

/-! ### Block completion -/

/-- A block completion that does not enter DORMANT: every slot steps, but the NODE slot where it has taken the step at an audio
return already (the model's form of that order, log 31), each limiter takes the overshoot of its block, the
own values are formed from the new reductions, and the next block starts on the new values. The LINK slot of a group whose
own value changes is also written the target that the new value asks for, after the step or before it, as the manual leaves
open, each group for itself (log 3). -/
def Obligations.BlockCompletionUpdates : Prop :=
  ∀ s : State, s.inReset = false → s.node.state ≠ .start → s.ports.blockDue = true →
    ¬ (s.node.state = .quiet ∧ (s.stepped .node).current = 1600) →
    ∃ t, exec .blockCompletion s = .next t ∧
      t = { s with ramp := t.ramp, channels := t.channels, emission := t.emission, library := t.library,
                   ports := { s.ports with blockDue := false, nodeStepped := false, blockFrames := 0 }, link := t.link, stats := t.stats,
                   draws := t.draws } ∧
      t.stats.link = s.stats.link ∧ t.ramp.profile = s.ramp.profile ∧
      (∀ i, (∀ g, i ≠ .link g) → i ≠ .node ∨ s.ports.nodeStepped = false → t.slot i = (s.slot i).step s.ramp.record) ∧
      (s.ports.nodeStepped = true → t.slot .node = s.slot .node) ∧
      (∀ g : Group, t.emission.own[g] = s.emission.own[g] →
        t.slot (.link g) = (s.slot (.link g)).step s.ramp.record) ∧
      (∀ g : Group, t.emission.own[g] ≠ s.emission.own[g] → ∃ u v, LinkTargetIs t.emission.own[g] s.table g v ∧
        u = s.setSlot (.link g) ((s.slot (.link g)).step s.ramp.record) ∧
        (t.slot (.link g) = (u.writeTarget (.link g) v).slot (.link g) ∨
          t.slot (.link g) = ((s.writeTarget (.link g) v).slot (.link g)).step s.ramp.record)) ∧
      (∀ c, (s.channel c).composed = none →
        (t.channel c).reduction = (s.channel c).reduction ∧ (t.channel c).holdCount = (s.channel c).holdCount) ∧
      (∀ c e, (s.channel c).composed.isSome → e = overshoot (s.channel c).peak (s.channel c).record.ceiling →
        ((s.channel c).reduction < e →
          (t.channel c).reduction = e ∧ (t.channel c).holdCount = (s.channel c).record.hold) ∧
        (e ≤ (s.channel c).reduction → 0 < (s.channel c).holdCount →
          (t.channel c).reduction = (s.channel c).reduction ∧ (t.channel c).holdCount = (s.channel c).holdCount - 1) ∧
        (e ≤ (s.channel c).reduction → (s.channel c).holdCount = 0 →
          (t.channel c).reduction = max e ((s.channel c).reduction - (s.channel c).record.release) ∧
          (t.channel c).holdCount = 0)) ∧
      (∀ g : Group, s.awake = false → t.emission.own[g] = s.emission.own[g]) ∧
      (∀ g : Group, s.awake = true →
        (∀ c, (t.channel c).record.enabled = true → (t.channel c).record.group = some g →
          (t.channel c).reduction ≤ t.emission.own[g]) ∧
        (t.emission.own[g] = 0 ∨ ∃ c, (t.channel c).record.enabled = true ∧ (t.channel c).record.group = some g ∧
          t.emission.own[g] = (t.channel c).reduction)) ∧
      (∀ c, (t.channel c).record = (s.channel c).record ∧
        (t.channel c).composed =
          (if s.composing = true ∧ (s.channel c).record.enabled = true then some (t.compose c) else none) ∧
        (t.channel c).peak = 0 ∧ (t.channel c).clip = false ∧ (t.channel c).overflow = false)

/-- NODE.current of 1600 handed over at a block completion in QUIET enters DORMANT at that completion: AMP_ON falls and
the output carries zeros. An incoming set becomes active at once; where a crossfade ends at the same completion, and the
entry is taken after that (log 4), the evaluation made there may bring one more incoming set, a VALID line of the wanted
key, and then that one does. The other slots step at that completion; the NODE slot does not where it has taken the step at an
audio return already, which `nodeStepped` marks (the model's form of that order, log 31). -/
def Obligations.BlockCompletionEntersDormant : Prop :=
  ∀ s : State, s.inReset = false → s.node.state = .quiet → s.ports.blockDue = true →
    (s.stepped .node).current = 1600 →
    ∃ t, exec .blockCompletion s = .next t ∧ s.DormantFrom t ∧
      t.ports = { s.ports with blockDue := false, nodeStepped := false, blockFrames := 0, outFrame := Vector.replicate 8 0#32 } ∧
      (∀ c, (s.channel c).incoming = none → (t.channel c).active = (s.channel c).active) ∧
      (∀ c inc, (s.channel c).incoming = some inc → (t.channel c).active = some inc.line ∨
        inc.running = true ∧ 8 ≤ inc.k ∧ ∃ l, (t.channel c).active = some l ∧
          (s.line l).state = .valid ∧ (s.line l).key = (s.channel c).wanted) ∧
      (∀ i, (∀ z k, i ≠ .dip z k) → (∀ g, i ≠ .link g) → i ≠ .node ∨ s.ports.nodeStepped = false →
        t.slot i = (s.slot i).step s.ramp.record) ∧
      (s.ports.nodeStepped = true → t.slot .node = s.slot .node)

/-- A headroom cue is handed over at a block completion exactly when the change is significant and spaced, or the
refresh or the presence report is due; on acceptance S takes the own values, the emission age becomes 0 and the content is
fixed from the values of that moment, in a new entry or anew in the queued one; on refusal both keep their values. Where the
entry replaced is the one being sent, the attempt goes on with its bits and is marked; any other attempt is as before. In HELD,
where the own values are 0, the presence report alone is due. That a replaced entry whose lateness expired under its attempt
is late no more (late := false) is the model's reading of R151 and R152 (log 14). -/
def Obligations.BlockCompletionDecidesEmission : Prop :=
  ∀ s : State, s.inReset = false → s.ports.blockDue = true →
    (s.awake = true ∨ s.node.state = .held ∧ ∀ g : Group, s.emission.own[g] = 0) →
    ¬ (s.node.state = .quiet ∧ (s.stepped .node).current = 1600) →
    ∃ t, exec .blockCompletion s = .next t ∧ (s.node.state = .held → ∀ g : Group, t.emission.own[g] = 0) ∧
      ∀ due : Prop,
        (due ↔
          (s.node.state ≠ .held ∧ 10 ≤ s.emission.age ∧ ∃ g : Group,
            ((t.emission.own[g] = 0 ∧ s.emission.sent[g] ≠ 0) ∨ (t.emission.own[g] ≠ 0 ∧ s.emission.sent[g] = 0) ∨
              s.emission.sent[g] + 8 ≤ t.emission.own[g] ∨ t.emission.own[g] + 8 ≤ s.emission.sent[g])) ∨
          (100 ≤ s.emission.age ∧ ∃ g : Group, t.emission.own[g] ≠ 0) ∨
          (500 ≤ s.emission.age ∧ ∀ g : Group, t.emission.own[g] = 0)) →
        (¬ due → t.emission.sent = s.emission.sent ∧ t.emission.age = s.emission.age ∧ t.link = s.link) ∧
        (due → 8 ≤ s.link.queue.length → (∀ e ∈ s.link.queue, e.kind ≠ .headroom) →
          t.emission.sent = s.emission.sent ∧ t.emission.age = s.emission.age ∧ t.link = s.link) ∧
        (due → s.link.queue.length < 8 → (∀ e ∈ s.link.queue, e.kind ≠ .headroom) →
          t.emission.sent = t.emission.own ∧ t.emission.age = 0 ∧
          ∃ payload, s.HeadroomContent t.emission.own payload ∧ t.link = { s.link with
            queue := s.link.queue ++ [{ kind := .headroom, payload := payload, age := 0, late := false }] }) ∧
        (due → (∃ e ∈ s.link.queue, e.kind = .headroom) →
          t.emission.sent = t.emission.own ∧ t.emission.age = 0 ∧
          (∃ payload, s.HeadroomContent t.emission.own payload ∧ t.link = { s.link with
            queue := s.link.queue.map fun e =>
              if e.kind = .headroom then { e with payload := payload, age := 0, late := false } else e,
            sending := t.link.sending }) ∧
          (s.link.sending = none → t.link.sending = none) ∧
          ∀ (a : Attempt) (e : TxEntry) (rest : List TxEntry), s.link.sending = some a → s.link.queue = e :: rest →
            t.link.sending = some (if a.gone = false ∧ e.kind = .headroom then { a with replaced := true } else a))

/-- An incoming set that has been taken begins to run at the next block start, with its k as it stands (log 25). A running
crossfade counts its blocks from 1 to 8; when the block with k = 8 completes, the incoming set is the active one,
with the states it has built up, the old active line is given up and the channel makes an evaluation. The channels take
their turns in some order, each on the cache the one before it leaves. -/
def Obligations.CrossfadeTakesEightBlocks : Prop :=
  ∀ (s : State) (c : Channel) (inc : Incoming), s.inReset = false → s.awake = true → s.ports.blockDue = true →
    ¬ (s.node.state = .quiet ∧ (s.stepped .node).current = 1600) →
    (s.channel c).incoming = some inc →
    ∃ (t u v : State) (ord : List Channel), exec .blockCompletion s = .next t ∧ ord.Nodup ∧ (∀ d, d ∈ ord) ∧
      u.node = s.node ∧ u.library = s.library ∧ u.stats.cacheAudio = s.stats.cacheAudio ∧
      (∀ d, u.channel d = { s.channel d with
        reduction := (t.channel d).reduction, holdCount := (t.channel d).holdCount }) ∧
      v = ord.foldl (fun x d => x.crossfadeTurn d) u ∧
      t.library = v.library ∧ t.stats = v.stats ∧
      (∀ d, t.channel d = { v.channel d with
        composed := (t.channel d).composed, peak := 0, clip := false, overflow := false,
        incoming := (v.channel d).incoming.map fun i => { i with running := i.running || (v.channel d).record.enabled } }) ∧
      (inc.running = false → (t.channel c).incoming = some { inc with running := (s.channel c).record.enabled } ∧
        (t.channel c).active = (s.channel c).active ∧
        (t.channel c).activeStates = (s.channel c).activeStates ∧
        (t.channel c).incomingStates = (s.channel c).incomingStates) ∧
      (inc.running = true → inc.k < 8 → (t.channel c).incoming = some { inc with k := inc.k + 1 } ∧
        (t.channel c).active = (s.channel c).active ∧
        (t.channel c).activeStates = (s.channel c).activeStates ∧
        (t.channel c).incomingStates = (s.channel c).incomingStates) ∧
      (inc.running = true → 8 ≤ inc.k → (t.channel c).active = some inc.line ∧
        (t.channel c).activeStates = (s.channel c).incomingStates ∧
        ∀ next, (t.channel c).incoming = some next → next.k = 1)

/-- What a block completion counts for a channel that composed the block: clip blocks, limiter-active blocks, exactly
one depth bin of a limiter-active block, EQ overflow blocks. A channel that did not compose counts nothing. -/
def Obligations.BlockCompletionCounts : Prop :=
  ∀ s : State, s.inReset = false → s.awake = true → s.ports.blockDue = true →
    ¬ (s.node.state = .quiet ∧ (s.stepped .node).current = 1600) →
    ∃ t, exec .blockCompletion s = .next t ∧
      (∀ c : Channel, (s.channel c).composed = none → t.stats.channel[c] = s.stats.channel[c]) ∧
      (∀ (c : Channel) (held : Composed) (i : Fin 7), (s.channel c).composed = some held →
        t.stats.channel[c][i] =
          if (i = 0 ∧ (s.channel c).clip = true) ∨ (i = 1 ∧ 1 ≤ held.rApp) ∨
            (i = 2 ∧ 1 ≤ held.rApp ∧ held.rApp ≤ 48) ∨ (i = 3 ∧ 49 ≤ held.rApp ∧ held.rApp ≤ 96) ∨
            (i = 4 ∧ 97 ≤ held.rApp ∧ held.rApp ≤ 192) ∨ (i = 5 ∧ 193 ≤ held.rApp) ∨
            (i = 6 ∧ (s.channel c).overflow = true)
          then (if s.stats.channel[c][i] < 65535 then s.stats.channel[c][i] + 1 else s.stats.channel[c][i])
          else s.stats.channel[c][i])


/-! ### Timers -/

/-- The settle expiry in WAKING enters ACTIVE; the NODE target becomes 0 if input audio is present. The link-silence
expiry in ACTIVE enters QUIET, and with NODE.current at 1600 DORMANT within the same event; in WAKING and in QUIET the
timer only stops. -/
def Obligations.NodeTimersExpire : Prop :=
  ∀ s : State, s.inReset = false →
    (s.node.settle = some 0 → s.node.state = .waking →
      exec .settleExpiry s = .next { s.writeTarget .node (if s.ports.presence = .present then 0 else 1600) with
        node := { s.node with state := .active, settle := none } }) ∧
    (s.node.linkSilence = some 0 →
      (s.node.state = .active → (s.slot .node).current ≠ 1600 →
        exec .linkSilenceExpiry s = .next { s.drawn.writeTarget .node 1600 with
          node := { s.node with state := .quiet, settle := none, linkSilence := none } }) ∧
      (s.node.state = .active → (s.slot .node).current = 1600 →
        ∃ t, exec .linkSilenceExpiry s = .next t ∧ (s.writeTarget .node 1600).FallsDormant t) ∧
      (s.node.state = .waking ∨ s.node.state = .quiet →
        exec .linkSilenceExpiry s = .next { s.drawn with node := { s.node with linkSilence := none } }))

/-- The expiry of a source's freshness time clears its valid flag and makes a selection. The channels' turns at a changed
band are the model's choice (log 35). -/
def Obligations.FreshnessExpirySelects : Prop :=
  ∀ (s : State) (w : Source), s.inReset = false → (s.pace.source w).valid = true → (s.pace.source w).freshness = 0 →
    ∃ t, exec (.freshnessExpiry w) s = .next t ∧
      State.SpeedTaken (s.pace.setSource w { s.pace.source w with valid := false, freshness := 0 }) s t

/-- The expiry of an entry's lifetime removes the entry, and the targets are recomputed. -/
def Obligations.LifetimeExpiryRemovesTheEntry : Prop :=
  ∀ (s : State) (before after : List Entry) (e : Entry), s.inReset = false → s.table = before ++ e :: after →
    (∀ x ∈ before ++ after, x.key ≠ e.key) → e.lifetime = some 0 →
    ∃ t, exec (.lifetimeExpiry e.key) s = .next t ∧
      t = { s with table := before ++ after, ramp := t.ramp } ∧ s.Retargeted t

/-- A silence expiry makes the station absent, and its absence is told to image handler, pace unit and reduction table, at
once; but where the next command is a cue of the station to one of the three, which has come with it, that one may take the
report only after the cue. A frame of the station that is taken before its due expiry restarts the age: it does what it does
with no expiry due, and no expiry occurs. That a recipient takes the cue before the report is the model's choice among the
orders the manual names (log 32), and so are the channels' turns at a changed band (log 35). -/
def Obligations.SilenceExpiryReportsAbsence : Prop :=
  ∀ (s : State) (st : Station), s.inReset = false → s.node.state ≠ .dormant →
    (s.link.stations[st].present = true → 2000 ≤ s.link.stations[st].age →
      ∃ t u : State, exec (.silenceExpiry st) s = .next t ∧
        u = { s with link := { s.link with stations := u.link.stations }, draws := u.draws } ∧
        (∀ i : Station, u.link.stations[i] =
          if i = st then { s.link.stations[st] with present := false } else s.link.stations[i]) ∧
        (State.ToldInTurn st [.image, .pace, .table] u t ∨
          ∃ (c : Instr) (rest : List Instr) (r : Recipient) (others : List Recipient) (v : State),
            s.pending = c :: rest ∧ frameOrigin c = some st ∧ st ≠ s.loader.station ∧ s.takesCues = true ∧
            cueRecipient c = some r ∧ others = [.image, .pace, .table].filter (· ≠ r) ∧
            State.ToldInTurn st others u v ∧ t = { v with link := { v.link with owed := some (st, r) } })) ∧
    ∀ c : Instr, frameOrigin c = some st → st ≠ s.loader.station →
      ((∀ r, cueRecipient c = some r → s.link.owed ≠ some (st, r)) →
        ∃ t, exec c s = .next t ∧ t.link.stations[st] = { present := true, age := 0 } ∧
          exec c { s with link := { s.link with
            stations := s.link.stations.set st { present := true, age := 0 } } } = .next t ∧
          exec (.silenceExpiry st) t = .next t.drawn) ∧
      ∀ r, cueRecipient c = some r → s.link.owed = some (st, r) → s.takesCues = true →
        ∃ (u t : State) (d : Nat), exec c { s with link := { s.link with owed := none } } = .next u ∧
          exec c s = .next t ∧ State.ToldAbsent st r { u with draws := d } t

/-- The lateness expiry discards the entry and counts a late discard; the entry of a sending attempt is only marked, and
is judged when the attempt ends. The SILENT expiry ends SILENT. -/
def Obligations.LinkTimersExpire : Prop :=
  ∀ s : State, s.inReset = false →
    (∀ (place : Nat) (e : TxEntry), s.link.queue[place]? = some e → 100 ≤ e.age → e.late = false →
      ((place = 0 → ∀ a, s.link.sending = some a → a.gone = true) →
        exec (.latenessExpiry place) s = .next { s.countLink .lateDiscards with
          link := { s.link with queue := s.link.queue.take place ++ s.link.queue.drop (place + 1) } }) ∧
      (∀ a rest, s.link.sending = some a → a.gone = false → s.link.queue = e :: rest →
        place = 0 → exec (.latenessExpiry place) s = .next { s with
          link := { s.link with queue := { e with late := true } :: rest } })) ∧
    (s.link.silent = some 0 → exec .silentExpiry s = .next { s with link := { s.link with silent := none } })

/-! ### Counters -/

/-- A counted event raises its counter by one unless it stands at 65,535; no other counter and nothing else changes. In
DORMANT nothing is counted. The counters of the item groups LINK, CHANNEL and CACHE/AUDIO have their places in the order in
which R162 names them, which is the order of R164's answers. -/
def Obligations.CountersStick : Prop :=
  [LinkCounter.framesHeard, .framesSent, .contentionLosses, .checkErrors, .formatErrors, .staleImageCues,
    .unexpectedPaceSources, .reductionsRefused, .lateDiscards, .transmitErrors, .clashes, .queriesRefused].map
      LinkCounter.index = List.finRange 12 ∧
  [ChannelCounter.clipBlocks, .limiterActive, .bin48, .bin96, .bin192, .bin384, .overflowBlocks].map
      ChannelCounter.index = List.finRange 7 ∧
  [CacheCounter.hits, .misses, .fillErrors, .noWayWaits, .audioLosses].map CacheCounter.index = List.finRange 5 ∧
  ∀ (s : State) (k : LinkCounter) (c : Channel) (ck : ChannelCounter) (a : CacheCounter),
    (s.node.state = .dormant → s.countLink k = s ∧ s.countChannel c ck = s ∧ s.countCache a = s) ∧
    (s.node.state ≠ .dormant →
      (∃ v : Vector Nat 12, s.countLink k = { s with stats := { s.stats with link := v } } ∧
        ∀ i : Fin 12, v[i] =
          if i = k.index ∧ s.stats.link[i] < 65535 then s.stats.link[i] + 1 else s.stats.link[i]) ∧
      (∃ v : Vector (Vector Nat 7) 8, s.countChannel c ck = { s with stats := { s.stats with channel := v } } ∧
        ∀ (d : Channel) (i : Fin 7), v[d][i] =
          if d = c ∧ i = ck.index ∧ s.stats.channel[d][i] < 65535 then s.stats.channel[d][i] + 1
          else s.stats.channel[d][i]) ∧
      (∃ v : Vector Nat 5, s.countCache a = { s with stats := { s.stats with cacheAudio := v } } ∧
        ∀ i : Fin 5, v[i] =
          if i = a.index ∧ s.stats.cacheAudio[i] < 65535 then s.stats.cacheAudio[i] + 1 else s.stats.cacheAudio[i]))

/-! ### Sending -/

/-- At idle the head entry's frame begins; a SILENT interface, one with an empty queue, one already sending and one within a
frame that it receives on after a lost contention or a transmit error do nothing. -/
def Obligations.SendingStartBeginsTheHeadFrame : Prop :=
  ∀ (s : State) (e : TxEntry) (rest : List TxEntry), s.inReset = false →
    (s.link.sending = none → s.link.inFrame = false → s.link.silent = none → s.link.queue = e :: rest →
      exec .sendingStart s = .next { s with link := { s.link with
        sending := some { bits := frameBits e.kind s.loader.station e.payload, replaced := false, gone := false } } }) ∧
    (s.link.silent ≠ none ∨ s.link.sending ≠ none ∨ s.link.inFrame = true ∨ s.link.queue = [] → exec .sendingStart s = .next s)

/-- A frame the node sends has 35 bits and eight for each payload byte, the start mark first, and a receiver that reads
the rest by its bit places has a valid frame of the node's station with the same payload: a headroom cue or a report. A
frame that is read is the command of its kind, each operand the bytes at its byte places, and one that fails a check is an
invalid frame. That a dip frame of five payload bytes is DIP_APPLY and one of a single byte DIP_RELEASE, whatever its operation,
is the model's choice (log 27). -/
def Obligations.SentFramesAreValid : Prop :=
  (∀ (kind : TxKind) (o : Station) (payload : List Byte),
    (kind = .headroom ∧ payload.length = 10) ∨ (kind = .report ∧ payload.length ∈ [5, 7, 9, 11]) →
    ∃ bits f, frameBits kind o payload = false :: bits ∧ bits.length = 34 + 8 * payload.length ∧ readFrame bits = f ∧
      bits = coveredBits f.priority (stationBits f.origin) f.kind f.length f.payload ++ halfBits f.check ++
        [true, true, true] ∧
      frameFailure f = none ∧ f.origin = o ∧ f.payload = payload ∧ f.length.toNat = payload.length ∧
      (kind = .headroom → f.kind = 4#4 ∧ f.priority = 2#3) ∧ (kind = .report → f.kind = 8#4 ∧ f.priority = 7#3)) ∧
  ∀ f : RawFrame,
    (frameFailure f ≠ none → frameCommand f = .invalidFrame f) ∧
    (frameFailure f = none →
      (f.kind = 1#4 → ∀ zone stamp flags fields, f.payload = zone :: stamp :: flags :: fields →
        frameCommand f = .imageCue f.origin zone stamp flags fields) ∧
      (f.kind = 2#4 → ∀ validity hi lo, f.payload = [validity, hi, lo] →
        frameCommand f = .paceCue f.origin validity (hi, lo)) ∧
      (f.kind = 3#4 → f.length = 5#4 → ∀ op masks hi lo hold, f.payload = [op, masks, hi, lo, hold] →
        frameCommand f = .dipApply f.origin op masks (hi, lo) hold) ∧
      (f.kind = 3#4 → f.length = 1#4 → ∀ op, f.payload = [op] → frameCommand f = .dipRelease f.origin op) ∧
      (f.kind = 4#4 → ∀ h0 l0 h1 l1 h2 l2 h3 l3 code flags,
        f.payload = [h0, l0, h1, l1, h2, l2, h3, l3, code, flags] →
        frameCommand f = .headroomCue f.origin (h0, l0) (h1, l1) (h2, l2) (h3, l3) code flags) ∧
      (f.kind = 5#4 → frameCommand f = .sleepCue f.origin) ∧
      (f.kind = 6#4 → frameCommand f = .wakeCue f.origin) ∧
      (f.kind = 7#4 → ∀ target group index flags, f.payload = [target, group, index, flags] →
        frameCommand f = .queryCue f.origin target group index flags) ∧
      (f.kind = 8#4 → frameCommand f = .reportFrame f.origin f.payload) ∧
      frameOrigin (frameCommand f) = some f.origin ∧
      (f.payload.length = f.length.toNat → (frameCommand f).wellFormed = true))

/-- A sending attempt ends: sent, lost to contention, or in a transmit error, of which the sixteenth in a row enters
SILENT. After a lost contention the interface is within the frame that it receives on. The entry goes with
the send, or as a late one; else it stays at the head. Three clauses are the model's reading:
an attempt whose entry was replaced meanwhile sends the content it began with and the entry stays with its new content, and
an attempt whose entry has gone leaves the queue as it is, unless its transmit error enters SILENT (log 14); at the
sixteenth error a late entry is discarded and counted before SILENT empties the queue (log 15). After a transmit
error it is left open whether the line carries a frame that the interface is then within (log 34). -/
def Obligations.SendingAttemptEnds : Prop :=
  ∀ (s : State) (a : Attempt), s.link.sending = some a →
    (∀ (e : TxEntry) (rest : List TxEntry), a.gone = false → s.link.queue = e :: rest →
      (a.replaced = false → exec .frameSent s = .next { s.countLink .framesSent with
        link := { s.link with sending := none, errors := 0, queue := rest } }) ∧
      (a.replaced = true → exec .frameSent s = .next { s.countLink .framesSent with
        link := { s.link with sending := none, errors := 0, queue := { e with late := false } :: rest } }) ∧
      (e.late = false →
        exec .contentionLost s = .next { s.countLink .contentionLosses with
          link := { s.link with sending := none, inFrame := true } } ∧
        (s.link.errors < 15 → ∃ b, exec .transmitError s = .next { s.countLink .transmitErrors with
          link := { s.link with sending := none, inFrame := b, errors := s.link.errors + 1 }
          draws := s.draws + 1 }) ∧
        (15 ≤ s.link.errors → ∃ b, exec .transmitError s = .next { s.countLink .transmitErrors with
          link := { s.link with sending := none, inFrame := b, errors := 0, queue := [], silent := some 1000 }
          draws := s.draws + 1 })) ∧
      (e.late = true →
        exec .contentionLost s = .next { (s.countLink .lateDiscards).countLink .contentionLosses with
          link := { s.link with sending := none, inFrame := true, queue := rest } } ∧
        (s.link.errors < 15 →
          ∃ b, exec .transmitError s = .next { (s.countLink .lateDiscards).countLink .transmitErrors with
            link := { s.link with sending := none, inFrame := b, queue := rest, errors := s.link.errors + 1 }
            draws := s.draws + 1 }) ∧
        (15 ≤ s.link.errors →
          ∃ b, exec .transmitError s = .next { (s.countLink .lateDiscards).countLink .transmitErrors with
            link := { s.link with sending := none, inFrame := b, errors := 0, queue := [], silent := some 1000 }
            draws := s.draws + 1 }))) ∧
    (a.gone = true →
      exec .frameSent s = .next { s.countLink .framesSent with
        link := { s.link with sending := none, errors := 0 } } ∧
      exec .contentionLost s = .next { s.countLink .contentionLosses with
        link := { s.link with sending := none, inFrame := true } } ∧
      (s.link.errors < 15 → ∃ b, exec .transmitError s = .next { s.countLink .transmitErrors with
        link := { s.link with sending := none, inFrame := b, errors := s.link.errors + 1 }
        draws := s.draws + 1 }) ∧
      (15 ≤ s.link.errors → ∃ b, exec .transmitError s = .next { s.countLink .transmitErrors with
        link := { s.link with sending := none, inFrame := b, errors := 0, queue := [], silent := some 1000 }
        draws := s.draws + 1 }))

/-- A headroom cue replaces the queued one in its place, or is queued, or is refused; an answer is queued whole or
refused. That a replaced entry whose lateness expired under its attempt is late no more (late := false) is the model's
reading of R151 and R152 (log 14). -/
def Obligations.TransmitQueueAccepts : Prop :=
  ∀ (l : LinkInterface) (payload : List Byte) (frames : List (List Byte)),
    (∀ before e after, l.queue = before ++ e :: after → e.kind = .headroom →
      (∀ x ∈ before ++ after, x.kind ≠ .headroom) →
      ∃ m, l.acceptHeadroom payload = some m ∧
        m.queue = before ++ { e with payload := payload, age := 0, late := false } :: after ∧
        m = { l with queue := m.queue, sending := m.sending } ∧
        (l.sending = none → m.sending = none) ∧
        ∀ a, l.sending = some a →
          m.sending = some (if before = [] ∧ a.gone = false then { a with replaced := true } else a)) ∧
    ((∀ x ∈ l.queue, x.kind ≠ .headroom) →
      (l.queue.length < 8 → l.acceptHeadroom payload = some { l with
        queue := l.queue ++ [{ kind := .headroom, payload := payload, age := 0, late := false }] }) ∧
      (8 ≤ l.queue.length → l.acceptHeadroom payload = none)) ∧
    (l.queue.length + frames.length ≤ 8 → l.acceptAnswer frames = some { l with
      queue := l.queue ++ frames.map fun p => { kind := .report, payload := p, age := 0, late := false } }) ∧
    (8 < l.queue.length + frames.length → l.acceptAnswer frames = none)

/-! ### Reception -/

/-- A received frame is checked in order and counted under the first check that fails: end mark, check value, kind with
its priority and length. The interface is within it no more. -/
def Obligations.InvalidFrameIsCountedOnce : Prop :=
  ∀ (s : State) (f : RawFrame) (l : LinkInterface), s.inReset = false → l = { s.link with inFrame := false } →
    (f.endMark = false → exec (.invalidFrame f) s = .next { s.countLink .formatErrors with link := l }) ∧
    (f.endMark = true →
      crc16 (coveredBits f.priority (stationBits f.origin) f.kind f.length f.payload) ≠ f.check →
      exec (.invalidFrame f) s = .next { s.countLink .checkErrors with link := l }) ∧
    (f.endMark = true →
      crc16 (coveredBits f.priority (stationBits f.origin) f.kind f.length f.payload) = f.check →
      (∀ row ∈ ([(1#4, 4#3, [3, 4, 5, 6, 7, 8]), (2#4, 3#3, [3]), (3#4, 1#3, [1, 5]), (4#4, 2#3, [10]),
          (5#4, 0#3, [0]), (6#4, 0#3, [0]), (7#4, 6#3, [4]), (8#4, 7#3, [5, 7, 9, 11])] :
            List (BitVec 4 × BitVec 3 × List Nat)),
        ¬ (f.kind = row.1 ∧ f.priority = row.2.1 ∧ f.length.toNat ∈ row.2.2)) →
      exec (.invalidFrame f) s = .next { s.countLink .formatErrors with link := l })

/-- A valid frame of another station is heard: the interface is within it no more, it is counted, its origin present with a
silence age of 0, the link-silence timer at 5000 ms in WAKING, ACTIVE and QUIET. A report frame has no other effect. -/
def Obligations.ReportFrameIsHeard : Prop :=
  ∀ (s : State) (o : Station) (payload : List Byte), s.inReset = false → s.node.state ≠ .dormant →
    o ≠ s.loader.station →
    ∃ t, exec (.reportFrame o payload) s = .next t ∧ t = s.heard o ∧
      t = { s with node := { s.node with linkSilence := t.node.linkSilence },
                   link := { s.link with inFrame := false, stations := t.link.stations },
                   stats := { s.stats with link := t.stats.link } } ∧
      t.node.linkSilence = (if s.node.state ∈ [.waking, .active, .quiet] then some 5000 else s.node.linkSilence) ∧
      (∀ i : Station, t.link.stations[i] = if i = o then { present := true, age := 0 } else s.link.stations[i]) ∧
      t.stats.link = (s.countLink .framesHeard).stats.link

/-- Frames that reach no block: none while a reset is held; in DORMANT all but a wake cue of another station, without a
trace but that they have ended on the line; a frame of the node's own origin is a clash; and in START the frame is only heard. -/
def Obligations.FramesNotDispatched : Prop :=
  ∀ (s : State) (c : Instr) (o : Station), frameOrigin c = some o →
    ∃ t u, exec c s = .next t ∧ t = { u with draws := t.draws } ∧
      (s.inReset = true → u = s) ∧
      (s.inReset = false → s.node.state = .dormant → (c ≠ .wakeCue o ∨ o = s.loader.station) →
        u = { s with link := { s.link with inFrame := false } }) ∧
      (s.inReset = false → s.node.state ≠ .dormant → o = s.loader.station →
        u = { s.countLink .clashes with link := { s.link with inFrame := false, clash := true } }) ∧
      (s.inReset = false → s.node.state = .start → o ≠ s.loader.station → u = s.heard o)

/-! ### Image cues -/

/-- An accepted image cue, its payload zone, stamp, presence flags and one byte per set flag in order: the origin's record
moves to the end with the new stamp, the present fields are clamped and applied, a changed volume, fade or balance writes
its target, and a changed preset goes to the zone's channels in turn, each by a key change. That a channel's change is whole
before the next channel's key changes is the model's choice (log 35). -/
def Obligations.ImageCueAccepted : Prop :=
  ∀ (s : State) (o : Station) (z : Zone) (stamp flags : Byte) (f : ImageFields) (im : ZoneImage) (fields : List Byte),
    s.TakesAt o .image → flags[0] = f.volume.isSome → flags[1] = f.step.isSome → flags[2] = f.fade.isSome →
    flags[3] = f.balance.isSome → flags[4] = f.preset.isSome →
    fields = [f.volume, f.step, f.fade, f.balance, f.preset].reduceOption → im = s.image[z] →
    (∀ r ∈ im.origins, r.origin = o → 1 ≤ (stamp - r.stamp).toNat ∧ (stamp - r.stamp).toNat ≤ 127) →
    ∃ t kept, exec (.imageCue o (BitVec.ofNat 8 z.val) stamp flags fields) s = .next t ∧
      t = { s.heard o with
        ramp := t.ramp, image := t.image, channels := t.channels, library := t.library, draws := t.draws,
        stats := { (s.heard o).stats with cacheAudio := t.stats.cacheAudio } } ∧
      (∀ y, y ≠ z → t.image[y] = s.image[y]) ∧ t.image[z].maxVolume = im.maxVolume ∧
      kept = im.origins.filter (fun r => r.origin ≠ o) ∧
      (kept.length < 4 → t.image[z].origins = kept ++ [{ origin := o, stamp := stamp }]) ∧
      (4 ≤ kept.length → t.image[z].origins = kept.tail ++ [{ origin := o, stamp := stamp }]) ∧
      (∀ v, f.volume = some v → t.image[z].volume = min v.toNat im.maxVolume) ∧
      (∀ d, f.volume = none → f.step = some d →
        (t.image[z].volume : Int) = max 0 (min (im.maxVolume : Int) ((im.volume : Int) + d.toInt))) ∧
      (f.volume = none → f.step = none → t.image[z].volume = im.volume) ∧
      (∀ b, f.fade = some b → t.image[z].fade = max (-32) (min 32 b.toInt)) ∧
      (f.fade = none → t.image[z].fade = im.fade) ∧
      (∀ b, f.balance = some b → t.image[z].balance = max (-32) (min 32 b.toInt)) ∧
      (f.balance = none → t.image[z].balance = im.balance) ∧
      (∀ b, f.preset = some b → b.toNat < 16 → t.image[z].preset.val = b.toNat) ∧
      (∀ b, f.preset = some b → 16 ≤ b.toNat → t.image[z].preset = im.preset) ∧
      (f.preset = none → t.image[z].preset = im.preset) ∧
      t.slot (.vol z) = (if t.image[z].volume = im.volume then s.slot (.vol z)
        else (s.writeTarget (.vol z)
          (if t.image[z].volume = 0 then 1600 else (120 - (t.image[z].volume : Int)) * 8)).slot (.vol z)) ∧
      t.slot (.fade z) = (if t.image[z].fade = im.fade then s.slot (.fade z)
        else (s.writeTarget (.fade z) (t.image[z].fade * 16)).slot (.fade z)) ∧
      t.slot (.bal z) = (if t.image[z].balance = im.balance then s.slot (.bal z)
        else (s.writeTarget (.bal z) (t.image[z].balance * 16)).slot (.bal z)) ∧
      (∀ i, i ≠ .vol z → i ≠ .fade z → i ≠ .bal z → t.slot i = s.slot i) ∧ t.ramp.profile = s.ramp.profile ∧
      (∀ c, (t.channel c).wanted =
        if (s.channel c).record.zone = z ∧ t.image[z].preset ≠ im.preset then
          { (s.channel c).wanted with preset := t.image[z].preset }
        else (s.channel c).wanted) ∧
      (t.image[z].preset = im.preset →
        t.channels = s.channels ∧ t.library = s.library ∧ t.stats.cacheAudio = s.stats.cacheAudio) ∧
      (t.image[z].preset ≠ im.preset → ∃ ord : List Channel, ord.Nodup ∧ (∀ c, c ∈ ord) ∧
        t = ord.foldl (fun x c =>
          if (x.channel c).record.zone = z then x.changeKey c { (x.channel c).wanted with preset := t.image[z].preset }
          else x) { s.heard o with ramp := t.ramp, image := t.image, draws := t.draws })

/-- An image cue that is not accepted changes no image: a wrong length or zone is a format error, the last accepted stamp
again is ignored, and a stamp 128 to 255 after it is stale. -/
def Obligations.ImageCueNotAccepted : Prop :=
  ∀ (s : State) (o : Station) (zone stamp flags : Byte) (fields : List Byte) (count : Nat), s.TakesAt o .image →
    count = (List.range 5).countP (fun i => flags.getLsbD i) →
    (fields.length ≠ count ∨ 4 ≤ zone.toNat →
      exec (.imageCue o zone stamp flags fields) s = .next ((s.drawn.heard o).countLink .formatErrors)) ∧
    (∀ (z : Zone) (before after : List OriginRecord) (r : OriginRecord), fields.length = count →
      zone.toNat = z.val → s.image[z].origins = before ++ r :: after → r.origin = o →
      (∀ x ∈ before, x.origin ≠ o) →
      (stamp = r.stamp →
        exec (.imageCue o zone stamp flags fields) s = .next (s.drawn.heard o)) ∧
      (128 ≤ (stamp - r.stamp).toNat →
        exec (.imageCue o zone stamp flags fields) s =
          .next ((s.drawn.heard o).countLink .staleImageCues)))

/-! ### Pace cues -/

/-- A pace cue of a configured source: VALID makes the source fresh with the speed heard, at most 600, UNAVAILABLE not
fresh; both make a selection. Any other validity is a format error, and a cue of no source is counted as unexpected. The
channels' turns at a changed band are the model's choice (log 35). -/
def Obligations.PaceCueSelects : Prop :=
  ∀ (s : State) (o : Station) (validity hi lo : Byte) (speed : Nat), s.TakesAt o .pace → speed = hi.toNat * 256 + lo.toNat →
    (∀ w, (w = .primary ∧ s.pace.primary.station = some o) ∨
        (w = .secondary ∧ s.pace.primary.station ≠ some o ∧ s.pace.secondary.station = some o) →
      (validity = 1#8 → ∃ t, exec (.paceCue o validity (hi, lo)) s = .next t ∧
        State.SpeedTaken (s.pace.setSource w
          { s.pace.source w with lastSpeed := min speed 600, valid := true, freshness := 250 }) (s.heard o) t) ∧
      (validity = 0#8 → ∃ t, exec (.paceCue o validity (hi, lo)) s = .next t ∧
        State.SpeedTaken (s.pace.setSource w { s.pace.source w with valid := false, freshness := 0 }) (s.heard o) t) ∧
      (validity ≠ 0#8 → validity ≠ 1#8 →
        exec (.paceCue o validity (hi, lo)) s = .next ((s.drawn.heard o).countLink .formatErrors))) ∧
    (s.pace.primary.station ≠ some o → s.pace.secondary.station ≠ some o →
      exec (.paceCue o validity (hi, lo)) s = .next ((s.drawn.heard o).countLink .unexpectedPaceSources))

/-- The boost of a curve with strictly increasing speeds: the first boost up to the first speed, the last from the last
speed on, each breakpoint's own boost at its speed, and in between a value between the neighbours' boosts. -/
def Obligations.BoostFollowsTheCurve : Prop :=
  ∀ (curve : Curve) (speed : Nat), (∀ j k : Fin 8, j < k → curve[j].speed < curve[k].speed) →
    (speed ≤ curve[0].speed → curveBoost curve speed = curve[0].boost) ∧
    (curve[7].speed ≤ speed → curveBoost curve speed = curve[7].boost) ∧
    (∀ k : Fin 8, curveBoost curve curve[k].speed = curve[k].boost) ∧
    (∀ (k j : Fin 8), j.val = k.val + 1 → curve[k].speed ≤ speed → speed < curve[j].speed →
      curveBoost curve speed = (curve[k].boost : Int) +
        (((curve[j].boost : Int) - curve[k].boost) * ((speed : Int) - curve[k].speed)).tdiv
          ((curve[j].speed : Int) - curve[k].speed) ∧
      min (curve[k].boost : Int) curve[j].boost ≤ curveBoost curve speed ∧
      curveBoost curve speed ≤ max (curve[k].boost : Int) curve[j].boost)

/-- A band moves by the two passes, and the result of one change is stable: the same speed again moves nothing. A speed
at or above the next breakpoint raises the band, up to the last breakpoint that the speed reaches; only a speed more than 10
below the band's own lowers it, band by band and no further than to the first band whose speed is not more than 10 above. -/
def Obligations.BandHasHysteresis : Prop :=
  ∀ (curve : Curve) (speed : Nat) (b d : Fin 8), (∀ j k : Fin 8, j < k → curve[j].speed < curve[k].speed) →
    d = newBand curve speed b →
    newBand curve speed d = d ∧
    (∀ j : Fin 8, j.val = d.val + 1 → speed < curve[j].speed) ∧
    (0 < d.val → curve[d].speed ≤ speed + 10) ∧
    (b < d ↔ ∃ j : Fin 8, j.val = b.val + 1 ∧ curve[j].speed ≤ speed) ∧
    (b < d → curve[d].speed ≤ speed) ∧
    (d < b ↔ 0 < b.val ∧ speed + 10 < curve[b].speed) ∧
    (d < b → ∀ j : Fin 8, j.val = d.val + 1 → speed + 10 < curve[j].speed)

/-! ### Reduction table cues -/

/-- A dip APPLY with a depth and both masks above 0 writes the entry of its origin and id, and the targets are recomputed;
with a depth or mask of 0 it removes the entry; another operation in five bytes is a format error. -/
def Obligations.DipApplyWritesTheEntry : Prop :=
  ∀ (s : State) (o : Station) (op masks hi lo hold : Byte) (depth : Nat) (id : Fin 8), s.TakesAt o .table →
    id.val = op.toNat % 8 → depth = hi.toNat * 256 + lo.toNat →
    (op.toNat / 16 = 1 → depth ≠ 0 → masks.extractLsb' 0 4 ≠ 0#4 → masks.extractLsb' 4 4 ≠ 0#4 →
      ∃ t refused, exec (.dipApply o op masks (hi, lo) hold) s = .next t ∧
        t = { (if refused = true then (s.heard o).countLink .reductionsRefused else s.heard o) with
          table := t.table, ramp := t.ramp } ∧
        EntryTaken { key := .dip o id, zones := masks.extractLsb' 0 4, classes := masks.extractLsb' 4 4,
                     depth := min depth 1600,
                     lifetime := if hold = 0#8 then none else some (hold.toNat * 100) } s.table t.table refused ∧
        s.Retargeted t) ∧
    (op.toNat / 16 = 1 → depth = 0 ∨ masks.extractLsb' 0 4 = 0#4 ∨ masks.extractLsb' 4 4 = 0#4 →
      exec (.dipApply o op masks (hi, lo) hold) s = .next ((s.heard o).releaseDip o id)) ∧
    (op.toNat / 16 ≠ 1 →
      exec (.dipApply o op masks (hi, lo) hold) s = .next ((s.heard o).countLink .formatErrors))

/-- A dip RELEASE removes the entry of its origin and id and the targets are recomputed; with no such entry it changes
nothing; another operation in one byte is a format error. -/
def Obligations.DipReleaseRemovesTheEntry : Prop :=
  ∀ (s : State) (o : Station) (op : Byte) (id : Fin 8), s.TakesAt o .table → id.val = op.toNat % 8 →
    (op.toNat / 16 = 2 → (∃ e ∈ s.table, e.key = .dip o id) →
      ∃ t, exec (.dipRelease o op) s = .next t ∧ t = (s.heard o).releaseDip o id ∧
        t = { s.heard o with table := s.table.filter fun e => e.key ≠ .dip o id, ramp := t.ramp } ∧ s.Retargeted t) ∧
    (op.toNat / 16 = 2 → (∀ e ∈ s.table, e.key ≠ .dip o id) →
      exec (.dipRelease o op) s = .next (s.heard o) ∧ (s.heard o).releaseDip o id = s.heard o) ∧
    (op.toNat / 16 ≠ 2 → exec (.dipRelease o op) s = .next ((s.heard o).countLink .formatErrors))

/-- A headroom cue gives its four group values to the table in group order, and then the targets are recomputed; each
refused value is counted. State code and flags play no part. -/
def Obligations.HeadroomCueWritesFourEntries : Prop :=
  ∀ (s : State) (o : Station) (h0 l0 h1 l1 h2 l2 h3 l3 code flags : Byte), s.TakesAt o .table →
    ∃ t t1 t2 t3 r0 r1 r2 r3, exec (.headroomCue o (h0, l0) (h1, l1) (h2, l2) (h3, l3) code flags) s = .next t ∧
      GroupTaken o 0 (h0.toNat * 256 + l0.toNat) s.table t1 r0 ∧ GroupTaken o 1 (h1.toNat * 256 + l1.toNat) t1 t2 r1 ∧
      GroupTaken o 2 (h2.toNat * 256 + l2.toNat) t2 t3 r2 ∧
      GroupTaken o 3 (h3.toNat * 256 + l3.toNat) t3 t.table r3 ∧
      s.Retargeted t ∧
      t = { s.heard o with table := t.table, ramp := t.ramp,
                           stats := { (s.heard o).stats with link := t.stats.link } } ∧
      (∀ i : Fin 12, i ≠ LinkCounter.reductionsRefused.index → t.stats.link[i] = (s.heard o).stats.link[i]) ∧
      (s.stats.link[7] ≤ 65535 → t.stats.link[7] =
        min 65535 (s.stats.link[7] + r0.toNat + r1.toNat + r2.toNat + r3.toNat))

/-! ### Sleep and wake -/

/-- A sleep cue in ACTIVE or WAKING enters QUIET, and with NODE.current at 1600 DORMANT within the same event; a wake cue
in QUIET enters ACTIVE with the NODE target formed anew. In the other states but DORMANT both are only heard. -/
def Obligations.SleepAndWakeCues : Prop :=
  ∀ (s : State) (o : Station), s.inReset = false → o ≠ s.loader.station →
    (s.node.state = .active ∨ s.node.state = .waking → (s.slot .node).current ≠ 1600 →
      exec (.sleepCue o) s = .next { (s.drawn.heard o).writeTarget .node 1600 with
        node := { (s.heard o).node with state := .quiet, settle := none } }) ∧
    (s.node.state = .active ∨ s.node.state = .waking → (s.slot .node).current = 1600 →
      ∃ t, exec (.sleepCue o) s = .next t ∧ ((s.heard o).writeTarget .node 1600).FallsDormant t) ∧
    (s.node.state = .start ∨ s.node.state = .held ∨ s.node.state = .quiet →
      exec (.sleepCue o) s = .next (s.drawn.heard o)) ∧
    (s.node.state = .quiet →
      exec (.wakeCue o) s = .next { (s.drawn.heard o).writeTarget .node
          (if s.ports.presence = .present then 0 else 1600) with
        node := { (s.heard o).node with state := .active, settle := none } }) ∧
    (s.node.state = .start ∨ s.node.state = .held ∨ s.node.state = .waking ∨ s.node.state = .active →
      exec (.wakeCue o) s = .next (s.drawn.heard o))

/-- A wake cue in DORMANT enters WAKING: AMP_ON rises, both timers start, every slot but NODE takes its target, the
silence ages of present stations start again, the emission age is 500, a pending power-down is cancelled or the flash
released, and every channel makes an evaluation, in turn. Nothing is counted on the link (log 13). -/
def Obligations.WakeCueEndsDormant : Prop :=
  ∀ (s : State) (o : Station), s.inReset = false → o ≠ s.loader.station → s.node.state = .dormant →
    ∃ t, exec (.wakeCue o) s = .next t ∧
      t = { s with
        node := { s.node with state := .waking, ampOn := true, settle := some 50, linkSilence := some 5000 },
        emission := { s.emission with age := 500 }, link := { s.link with inFrame := false, stations := t.link.stations },
        ramp := t.ramp, channels := t.channels, library := t.library,
        stats := { s.stats with cacheAudio := t.stats.cacheAudio }, draws := t.draws } ∧
      t.slot .node = s.slot .node ∧ (∀ i, i ≠ .node → t.slot i = TermSlot.idleAt (s.slot i).target) ∧
      t.ramp.profile = s.ramp.profile ∧
      t.link.stations[o] = { present := true, age := 0 } ∧
      (∀ i : Station, i ≠ o → t.link.stations[i] =
        if s.link.stations[i].present = true then { s.link.stations[i] with age := 0 } else s.link.stations[i]) ∧
      (s.library.downPending = true → t.library.downPending = false ∧ t.library.flash = s.library.flash ∧
        t.library.mosi = s.library.mosi) ∧
      (s.library.downPending = false → s.library.flash = .poweredDown →
        t.library.flash = .releasing ∧ t.library.mosi = [0xAB#8] ∧ t.library.downPending = false) ∧
      (s.library.downPending = false → s.library.flash ≠ .poweredDown →
        t.library.flash = s.library.flash ∧ t.library.mosi = s.library.mosi ∧ t.library.downPending = false) ∧
      (∀ c, (t.channel c).wanted = (s.channel c).wanted ∧ (t.channel c).reduction = (s.channel c).reduction ∧
        (t.channel c).composed = (s.channel c).composed) ∧
      ∃ u : State, u.EvaluatedInTurn t ∧ u = { t with
        channels := s.channels, stats := s.stats,
        library := { s.library with flash := t.library.flash, mosi := t.library.mosi, downPending := false } }

/-! ### Queries -/

/-- A query for this node is answered from the values of that moment: the answer is queued whole, with the counters it
reports cleared if CLEAR is set, or refused whole and counted. An item group or index outside the table is a format
error; a query for another station is only heard. -/
def Obligations.QueryCueIsAnswered : Prop :=
  ∀ (s : State) (o : Station) (target group index flags : Byte), s.Takes o →
    (target.toNat ≠ s.loader.station.val → exec (.queryCue o target group index flags) s = .next (s.heard o)) ∧
    (target.toNat = s.loader.station.val →
      ((s.heard o).answer group index = none →
        exec (.queryCue o target group index flags) s = .next ((s.heard o).countLink .formatErrors)) ∧
      (∀ frames, (s.heard o).answer group index = some frames →
        (8 < s.link.queue.length + frames.length →
          exec (.queryCue o target group index flags) s = .next ((s.heard o).countLink .queriesRefused)) ∧
        (s.link.queue.length + frames.length ≤ 8 →
          ∃ t, exec (.queryCue o target group index flags) s = .next t ∧
            t = { s.heard o with stats := t.stats, link := { (s.heard o).link with
              queue := s.link.queue ++ frames.map fun p =>
                { kind := .report, payload := p, age := 0, late := false } } } ∧
            (∀ i : Fin 12, t.stats.link[i] =
              if flags[0] = true ∧ group = 1#8 then 0 else (s.heard o).stats.link[i]) ∧
            (∀ (c : Channel) (i : Fin 7), t.stats.channel[c][i] =
              if flags[0] = true ∧ group = 2#8 ∧ index.toNat = c.val then 0 else s.stats.channel[c][i]) ∧
            (∀ i : Fin 5, t.stats.cacheAudio[i] =
              if flags[0] = true ∧ group = 3#8 then 0 else s.stats.cacheAudio[i]))))

/-- The item table: which queries have an answer, how many frames it has, and the values the frames carry in order, up to
four in each, as two bytes each in the encodings of the format; each frame is headed by group, index, its part number and
the part count. -/
def Obligations.AnswersFollowTheItemTable : Prop :=
  ∀ (s : State) (group index : Byte),
    (s.answer group index = none ↔
      ¬ ((group.toNat ∈ [0, 1, 3] ∧ index.toNat = 0) ∨ (group.toNat = 2 ∧ index.toNat < 8) ∨
        (group.toNat = 4 ∧ index.toNat < 24) ∨ (group.toNat = 5 ∧ index.toNat < 4))) ∧
    (∀ frames, s.answer group index = some frames →
      1 ≤ frames.length ∧ frames.length ≤ 4 ∧
      (group = 0#8 → (∃ values, s.StateReport values ∧ frames.flatMap (List.drop 3) = values.flatMap twoBytes) ∧
        frames.length = 2) ∧
      (group = 1#8 → frames.flatMap (List.drop 3) = s.stats.link.toList.flatMap twoBytes ∧ frames.length = 3) ∧
      (∀ c : Channel, group = 2#8 → index.toNat = c.val →
        frames.flatMap (List.drop 3) = s.stats.channel[c].toList.flatMap twoBytes ∧ frames.length = 2) ∧
      (group = 3#8 → frames.flatMap (List.drop 3) = s.stats.cacheAudio.toList.flatMap twoBytes ∧ frames.length = 2) ∧
      (group = 4#8 → index.toNat < s.table.length → frames.length = min 4 (s.table.length - index.toNat) ∧
        ∀ (i : Nat) (p : List Byte), frames[i]? = some p → ∃ e values, s.table[index.toNat + i]? = some e ∧
          e.Report values ∧ p.drop 3 = values.flatMap twoBytes) ∧
      (group = 4#8 → s.table.length ≤ index.toNat →
        frames.flatMap (List.drop 3) = twoBytes s.table.length ∧ frames.length = 1) ∧
      (∀ z : Zone, group = 5#8 → index.toNat = z.val →
        frames.flatMap (List.drop 3) = (s.zoneReport z).flatMap twoBytes ∧ frames.length = 2) ∧
      (∀ (i : Nat) (p : List Byte), frames[i]? = some p →
        p.take 3 = [group, index, BitVec.ofNat 8 (16 * (i + 1) + frames.length)] ∧
        p.length ∈ [5, 7, 9, 11] ∧ (i + 1 < frames.length → p.length = 11)))

/-! ### Coefficient cache and library port -/

/-- A record passes by its check value, key echo and section count, and brings the coefficients of its sections. A fill
that passes makes its line VALID with that set; each attached channel pins the line and takes it as incoming with k = 1;
the consecutive error count is 0. A line that no channel holds is then a way come free. -/
def Obligations.FillCompletionBringsTheLine : Prop :=
  (∀ (key : CoefKey) (record : List Byte),
    (recordPasses key record = true ↔ RecordPasses key record) ∧ recordCoefs record = recordSet record) ∧
  ∀ (s : State) (f : Fill) (record : List Byte), s.library.fill = some f → RecordPasses f.key record →
    ∃ u : State, u = { s with channels := u.channels, draws := u.draws, library := { s.library with
        sets := u.library.sets, fill := none, errors := 0, selected := false } } ∧
      (∀ c, u.channel c = if (s.channel c).request = .waitingFill f.line then
        { s.channel c with incoming := some { line := f.line, k := 1, running := false }, request := .idle,
                           incomingStates := SectionState.zeros } else s.channel c) ∧
      u.line f.line = { s.line f.line with
        state := .valid, coefs := recordSet record,
        pins := (s.line f.line).pins +
          (List.finRange 8).countP (fun c => (s.channel c).request == .waitingFill f.line) } ∧
      (∀ l, l ≠ f.line → u.line l = s.line l) ∧
      (∀ i : Fin 16, u.library.sets[i].pointer = s.library.sets[i].pointer) ∧
      (0 < (u.line f.line).pins → exec (.fillCompletion record) s = .next u) ∧
      ((u.line f.line).pins = 0 → exec (.fillCompletion record) s = .next (u.wayFree f.line.set))

/-- A fill that fails is counted, its line becomes INVALID, a way come free, and its attached channels record the failed
key; the third error in a row makes the library FAULTY: the fill queue is cleared, every FILLING line becomes INVALID and
no channel waits, while VALID lines and their pins are kept. -/
def Obligations.FillErrorsMakeTheLibraryFaulty : Prop :=
  ∀ (s : State) (f : Fill) (record : List Byte), s.library.fill = some f → ¬ RecordPasses f.key record →
    (s.library.errors < 2 →
      ∃ u : State, exec (.fillCompletion record) s = .next (u.wayFree f.line.set) ∧
        u = { s.countCache .fillErrors with channels := u.channels, draws := u.draws, library := { s.library with
          sets := u.library.sets, fill := none, errors := s.library.errors + 1, selected := false } } ∧
        (∀ c, u.channel c = if (s.channel c).request = .waitingFill f.line then
          { s.channel c with request := .idle, failed := some f.key } else s.channel c) ∧
        (u.line f.line).state = .invalid ∧ (u.line f.line).pins = (s.line f.line).pins ∧
        (∀ l, l ≠ f.line → u.line l = s.line l) ∧
        ∀ i : Fin 16, u.library.sets[i].pointer = s.library.sets[i].pointer) ∧
    (2 ≤ s.library.errors →
      ∃ t, exec (.fillCompletion record) s = .next t ∧
        t = { s.countCache .fillErrors with channels := t.channels, draws := t.draws, library := { s.library with
          sets := t.library.sets, fill := none, errors := s.library.errors + 1, selected := false, queue := [],
          state := .faulty } } ∧
        (∀ c, t.channel c = { s.channel c with
          request := .idle,
          failed := if (s.channel c).request = .waitingFill f.line then some f.key else (s.channel c).failed }) ∧
        (∀ l, (t.line l).pins = (s.line l).pins ∧ (t.line l).state =
          if l = f.line ∨ (s.line l).state = .filling then .invalid else (s.line l).state) ∧
        ∀ l, l ≠ f.line → (s.line l).state = .valid → t.line l = s.line l)

/-- An evaluation compares the wanted key with the context and asks the cache where needed; a hit is on the lowest way
that holds the key, VALID before FILLING; a miss is filled, queued without a line, or under FAULTY left alone. A key change
clears the failed key; it is acted on at once, the request dropped and an evaluation made, unless the channel is not
enabled or holds an incoming set. The set that a key is looked up and placed in is (profile + 3 × band + 5 × preset) mod 16. -/
def Obligations.EvaluationAsksTheCache : Prop :=
  (∀ key : CoefKey, key.set.val = (key.profile.val + 3 * key.band.val + 5 * key.preset.val) % 16) ∧
  (∀ (s u : State) (c : Channel) (key : CoefKey), u = s.setChannel c { s.channel c with wanted := key, failed := none } →
    (key = (s.channel c).wanted → s.changeKey c key = s) ∧
    (key ≠ (s.channel c).wanted →
      ((s.channel c).record.enabled = false ∨ (s.channel c).incoming ≠ none → s.changeKey c key = u) ∧
      ((s.channel c).record.enabled = true → (s.channel c).incoming = none →
        s.changeKey c key = (u.setChannel c { u.channel c with request := .idle }).evaluate c))) ∧
  ∀ (s : State) (c : Channel) (key : CoefKey) (set : CacheSet), (s.channel c).record.enabled = true →
    key = (s.channel c).wanted → set = s.library.sets[key.set] →
    (s.library.state = .absent → s.evaluate c = s) ∧
    (s.library.state ≠ .absent →
      (∃ a, (s.channel c).active = some a ∧ (s.line a).key = key) ∨ (s.channel c).failed = some key →
      s.evaluate c = s.setChannel c { s.channel c with request := .idle }) ∧
    (s.library.state ≠ .absent → (∀ a, (s.channel c).active = some a → (s.line a).key ≠ key) →
      (s.channel c).failed ≠ some key →
      (∀ (w : Fin 4) (l : LineRef), l = { set := key.set, way := w } → (s.line l).state = .valid → (s.line l).key = key →
        (∀ v, v < w → ¬ (set.ways[v].state = .valid ∧ set.ways[v].key = key)) →
        s.evaluate c = ((s.countCache .hits).setLine l { s.line l with pins := (s.line l).pins + 1 }).setChannel c
          { s.channel c with incoming := some { line := l, k := 1, running := false }, request := .idle,
                             incomingStates := SectionState.zeros }) ∧
      ((∀ v : Fin 4, ¬ (set.ways[v].state = .valid ∧ set.ways[v].key = key)) →
        (∀ (w : Fin 4), set.ways[w].state = .filling → set.ways[w].key = key →
          (∀ v, v < w → ¬ (set.ways[v].state = .filling ∧ set.ways[v].key = key)) →
          s.evaluate c = (s.countCache .hits).setChannel c
            { s.channel c with request := .waitingFill { set := key.set, way := w } }) ∧
        ((∀ v : Fin 4, ¬ (set.ways[v].state = .filling ∧ set.ways[v].key = key)) →
          (s.library.state = .faulty →
            s.evaluate c = (s.countCache .misses).setChannel c { s.channel c with request := .idle }) ∧
          (s.library.state = .ready → (∃ e ∈ s.library.queue, e.key = key) →
            s.evaluate c = (s.countCache .misses).setChannel c { s.channel c with request := .queued }) ∧
          (s.library.state = .ready → (∀ e ∈ s.library.queue, e.key ≠ key) → s.library.queue.length < 16 →
            (set.allocate key = none →
              s.evaluate c = (((s.countCache .misses).countCache .noWayWaits).setChannel c
                { s.channel c with request := .queued }).setQueue
                  (s.library.queue ++ [{ key := key, line := none }])) ∧
            (∀ w after, set.allocate key = some (w, after) →
              s.evaluate c = (((s.countCache .misses).setCacheSet key.set after).setChannel c
                { s.channel c with request := .waitingFill { set := key.set, way := w } }).setQueue
                  (s.library.queue ++ [{ key := key, line := some { set := key.set, way := w } }]))) ∧
          (s.library.state = .ready → (∀ e ∈ s.library.queue, e.key ≠ key) → 16 ≤ s.library.queue.length →
            (set.allocate key = none →
              s.evaluate c = (((s.countCache .misses).countCache .noWayWaits).setChannel c
                { s.channel c with request := .queued }).enqueueFill { key := key, line := none }) ∧
            (∀ w after, set.allocate key = some (w, after) →
              s.evaluate c = (((s.countCache .misses).setCacheSet key.set after).setChannel c
                { s.channel c with request := .waitingFill { set := key.set, way := w } }).enqueueFill
                  { key := key, line := some { set := key.set, way := w } })))))

/-- A way is chosen: the lowest INVALID one, else the first VALID unpinned one from the pointer, which then moves past
it, else none; a FILLING or pinned way is never taken. A way that comes free goes to the oldest waiting entry of its
set, and the channels queued on its key attach to the line. A reference given up lowers the pin count of its line, and at 0
the VALID line's way has come free. An entry for a full fill queue takes the place of the oldest
one whose key no enabled channel wants; the line that one had is then a way come free. What the manual leaves open in a line
that is not VALID is the model's choice (log 10): a FILLING line has an empty coefficient set, and the line that becomes
INVALID keeps its key and has its set emptied. -/
def Obligations.WaysGoToTheirTakers : Prop :=
  (∀ (set : CacheSet) (key : CoefKey) (filling : Line), filling = { key := key, state := .filling, pins := 0, coefs := [] } →
    (∀ w : Fin 4, set.ways[w].state = .invalid → (∀ v : Fin 4, v < w → set.ways[v].state ≠ .invalid) →
      set.allocate key = some (w, { set with ways := set.ways.set w filling })) ∧
    ((∀ v : Fin 4, set.ways[v].state ≠ .invalid) →
      (∀ (i : Fin 4) (w : Fin 4), w = set.pointer + i → set.ways[w].state = .valid → set.ways[w].pins = 0 →
        (∀ j : Fin 4, j < i → ∀ v : Fin 4, v = set.pointer + j →
          ¬ (set.ways[v].state = .valid ∧ set.ways[v].pins = 0)) →
        set.allocate key = some (w, { ways := set.ways.set w filling, pointer := w + 1 })) ∧
      ((∀ v : Fin 4, ¬ (set.ways[v].state = .valid ∧ set.ways[v].pins = 0)) → set.allocate key = none))) ∧
  (∀ (s : State) (i : Fin 16) (before after : List QueueEntry) (key : CoefKey),
    s.library.queue = before ++ { key := key, line := none } :: after → key.set = i →
    (∀ e ∈ before, e.line = none → e.key.set ≠ i) →
    (s.library.sets[i].allocate key = none → s.wayFree i = s) ∧
    (∀ w set l, s.library.sets[i].allocate key = some (w, set) → l = { set := i, way := w } →
      ∃ t, t = s.wayFree i ∧
        t = { s with channels := t.channels, library := { s.library with
          sets := s.library.sets.set i set, queue := before ++ { key := key, line := some l } :: after } } ∧
        ∀ c, t.channel c = if (s.channel c).request = .queued ∧ (s.channel c).wanted = key then
          { s.channel c with request := .waitingFill l } else s.channel c)) ∧
  (∀ (s : State) (i : Fin 16), (∀ e ∈ s.library.queue, e.line = none → e.key.set ≠ i) → s.wayFree i = s) ∧
  (∀ (s u : State) (l : LineRef), u = s.setLine l { s.line l with pins := (s.line l).pins - 1 } →
    ((s.line l).state = .valid → (s.line l).pins ≤ 1 → s.unpin l = u.wayFree l.set) ∧
    ((s.line l).state ≠ .valid ∨ 2 ≤ (s.line l).pins → s.unpin l = u)) ∧
  ∀ (s : State) (e : QueueEntry) (wanted : CoefKey → Prop),
    (∀ k, wanted k ↔ ∃ c, (s.channel c).record.enabled = true ∧ (s.channel c).wanted = k) →
    (s.library.queue.length < 16 → s.enqueueFill e = s.setQueue (s.library.queue ++ [e])) ∧
    (∀ before old after, 16 ≤ s.library.queue.length → s.library.queue = before ++ old :: after →
      (∀ x ∈ before, wanted x.key) → ¬ wanted old.key →
      (old.line = none → s.enqueueFill e = s.setQueue (before ++ after ++ [e])) ∧
      (∀ l, old.line = some l → s.enqueueFill e =
        ((s.setQueue (before ++ after ++ [e])).setLine l { s.line l with state := .invalid, coefs := [] }).wayFree l.set))

/-! ### Ramps, gain and limiting -/

/-- A written target meets its slot: the same target changes nothing, a target equal to the current value leaves the slot
idle, any other starts a movement under the ramp vector entry of its cause, and no other slot changes. The eleven causes have
their vector entries in the order in which R169 names them. -/
def Obligations.WrittenTargetMeetsItsSlot : Prop :=
  [Cause.volumeUp, .volumeDown, .mute, .fadeBalance, .pace, .dipOnset, .dipRelease, .linkAttack, .linkRelease, .nodeFadeOut,
    .nodeFadeIn].map Cause.index = List.finRange 11 ∧
  ∀ (s t : State) (id : SlotId) (v : Int) (k : Cause), t = s.writeTarget id v →
    ((∃ z, id = .vol z) → k = if v = 1600 then .mute else if v < (s.slot id).current then .volumeUp else .volumeDown) →
    ((∃ z, id = .fade z ∨ id = .bal z) → k = .fadeBalance) → ((∃ z, id = .pace z) → k = .pace) →
    ((∃ z c, id = .dip z c) → k = if (s.slot id).current < v then .dipOnset else .dipRelease) →
    ((∃ g, id = .link g) → k = if (s.slot id).current < v then .linkAttack else .linkRelease) →
    (id = .node → k = if v = 1600 then .nodeFadeOut else .nodeFadeIn) →
    (∀ i, i ≠ id → t.slot i = s.slot i) ∧ t = { s with ramp := t.ramp } ∧ t.ramp.profile = s.ramp.profile ∧
    (v = (s.slot id).target → t.slot id = s.slot id) ∧
    (v ≠ (s.slot id).target → v = (s.slot id).current → t.slot id = TermSlot.idleAt v) ∧
    (v ≠ (s.slot id).target → v ≠ (s.slot id).current →
      (s.ramp.profile = none →
        t.slot id = { current := (s.slot id).current, target := v, active := none, blocksLeft := 0 }) ∧
      (∀ p, s.ramp.profile = some p →
        (p.vector[k.index] = none →
          t.slot id = { current := (s.slot id).current, target := v, active := none, blocksLeft := 0 }) ∧
        (∀ r, p.vector[k.index] = some r → t.slot id =
          { current := (s.slot id).current, target := v, active := some r, blocksLeft := p.records[r].span })))

/-- A movement on one record of rate q reaches its target with the least whole number of steps that is at least |d| / q,
and a chained record of span s covers s × q units in s steps unless the target is reached sooner; a pending step takes
its whole distance, an idle slot stays. -/
def Obligations.MovementsTakeTheirSteps : Prop :=
  ∀ (record : Fin 32 → RampRecord) (t : TermSlot),
    (t.active = none → t.step record = TermSlot.idleAt t.target ∨ t.step record = t ∧ t.current = t.target) ∧
    (∀ r d q, t.active = some r → d = (t.target - t.current).natAbs → q = (record r).rate → 1 ≤ q → 1 ≤ d →
      ((record r).chain = none → ∀ n, ∃ x, x = (TermSlot.step record)^[n] t ∧ x.target = t.target ∧
        (x.current = t.target ↔ d ≤ n * q) ∧
        (d ≤ n * q → x = TermSlot.idleAt t.target) ∧
        (n * q < d → (t.target - x.current).natAbs = d - n * q ∧ x.active = some r ∧
          (t.current < t.target ↔ x.current < t.target))) ∧
      (∀ c, (record r).chain = some c → 1 ≤ t.blocksLeft → ∀ n, n ≤ t.blocksLeft →
        ∃ x, x = (TermSlot.step record)^[n] t ∧ x.target = t.target ∧
        (d ≤ n * q → x = TermSlot.idleAt t.target) ∧
        (n * q < d → (t.target - x.current).natAbs = d - n * q ∧
          (n < t.blocksLeft → x.active = some r ∧ x.blocksLeft = t.blocksLeft - n) ∧
          (n = t.blocksLeft → x.active = some c ∧ x.blocksLeft = (record c).span))))

/-- The composition of a channel: the boost is capped by the volume, the whole sum is limited once, the reduction is the
larger of the channel's own and its group's, and the total lies between the pre-limit attenuation and 384 above it. -/
def Obligations.CompositionLimitsOnce : Prop :=
  ∀ (s : State) (c : Channel) (z : Zone) (m : Composed) (boost sum : Int), s.RangeLaw → s.LimiterLaw →
    m = s.compose c → z = (s.channel c).record.zone →
    boost = min ((s.slot (.pace z)).current * (s.channel c).record.share / 16) (s.slot (.vol z)).current →
    sum = (s.slot (.vol z)).current
      + fadeAttenuation (s.laws.map (·.fade)) (s.channel c).record.row (s.slot (.fade z)).current
      + balanceAttenuation (s.laws.map (·.balance)) (s.channel c).record.side (s.slot (.bal z)).current
      + (s.channel c).record.trim - boost + (s.slot (.dip z (s.channel c).record.cls)).current
      + (s.slot .node).current →
    0 ≤ boost ∧ boost ≤ (s.slot (.vol z)).current ∧ 0 ≤ sum ∧ (m.aPre : Int) = min 1600 sum ∧
    ((s.channel c).record.group = none → m.rApp = (s.channel c).reduction) ∧
    (∀ g, (s.channel c).record.group = some g →
      (m.rApp : Int) = max ((s.channel c).reduction : Int) (s.slot (.link g)).current) ∧
    m.rApp ≤ 384 ∧ m.total = min 1600 (m.aPre + m.rApp) ∧ m.aPre ≤ m.total ∧ m.total ≤ 1600 ∧
    m.total ≤ m.aPre + 384 ∧
    ((s.slot .node).current = 1600 ∨ (s.slot (.dip z (s.channel c).record.cls)).current = 1600 →
      m.aPre = 1600 ∧ m.total = 1600) ∧
    (m.total = 1600 → ∀ x : Int, roundDiv (x * gain m.total) 8388608 = 0)

/-- The gain table is round(2^23 × 10^(−A/320)), ties upward, for A below 1600, and 0 at 1600; the overshoot is the least
n in 0..384 for which round(P × 10^(−n/320)), ties upward, is at most the ceiling. Both sides of each comparison are
raised to the 320th power. -/
def Obligations.DecibelArithmeticIsExact : Prop :=
  gain 1600 = 0 ∧
  (∀ a : Nat, a < 1600 →
    1 ≤ gain a ∧ (2 * gain a - 1) ^ 320 * 10 ^ a ≤ (2 ^ 24) ^ 320 ∧ (2 ^ 24) ^ 320 < (2 * gain a + 1) ^ 320 * 10 ^ a) ∧
  (∀ peak ceiling e : Nat, e = overshoot peak ceiling →
    e ≤ 384 ∧ (∀ n, n < e → (2 * ceiling + 1) ^ 320 * 10 ^ n ≤ (2 * peak) ^ 320) ∧
    (e < 384 → (2 * peak) ^ 320 < (2 * ceiling + 1) ^ 320 * 10 ^ e) ∧
    (peak ≤ ceiling → e = 0))

/-- The law value meets the table at its points, rises with the magnitude and never passes the last entry; fade acts on
the front row for a positive position and on the rear row for a negative one, balance likewise on left and right. -/
def Obligations.LawsInterpolate : Prop :=
  ∀ law : Vector Nat 33, (∀ i j : Fin 33, i ≤ j → law[i] ≤ law[j]) →
    (∀ i : Fin 33, lawValue law (16 * i.val) = law[i]) ∧
    (∀ x y : Nat, x ≤ y → y ≤ 512 → lawValue law x ≤ lawValue law y) ∧
    (∀ x : Nat, x ≤ 512 → lawValue law x ≤ law[32]) ∧
    (∀ i j : Fin 33, ∀ r : Nat, j.val = i.val + 1 → r < 16 →
      lawValue law (16 * i.val + r) = law[i] + (law[j] - law[i]) * r / 16) ∧
    ∀ p : Int,
      (0 < p → fadeAttenuation (some law) .front p = lawValue law p.toNat ∧ fadeAttenuation (some law) .rear p = 0 ∧
        balanceAttenuation (some law) .left p = lawValue law p.toNat ∧ balanceAttenuation (some law) .right p = 0) ∧
      (p < 0 → fadeAttenuation (some law) .rear p = lawValue law (-p).toNat ∧ fadeAttenuation (some law) .front p = 0 ∧
        balanceAttenuation (some law) .right p = lawValue law (-p).toNat ∧ balanceAttenuation (some law) .left p = 0) ∧
      (p = 0 → ∀ row side, fadeAttenuation (some law) row p = 0 ∧ balanceAttenuation (some law) side p = 0) ∧
      fadeAttenuation (some law) .neither p = 0 ∧ balanceAttenuation (some law) .neither p = 0

/-- Divisions are rounded to nearest, ties away from zero; a section's word saturates at ±(2^31 − 1), its states move on
by one frame, and positions above the section count pass the word and keep their states; the crossfade blend of block k is
(active × (8 − k) + incoming × k) / 8, rounded so, and lies between its two words. -/
def Obligations.EqualiserArithmetic : Prop :=
  (∀ (n : Int) (d : Nat), 1 ≤ d →
    2 * (roundDiv n d * d - n).natAbs ≤ d ∧
    (2 * (roundDiv n d * d - n).natAbs = d → n.natAbs ≤ (roundDiv n d).natAbs * d)) ∧
  (∀ (k : Coefs) (st : SectionState) (x sum : Int),
    sum = roundDiv (k.b0 * x + k.b1 * st.x1 + k.b2 * st.x2 - k.a1 * st.y1 - k.a2 * st.y2) (2 ^ 30) →
    sectionOut k st x = max (-(2 ^ 31 - 1)) (min (2 ^ 31 - 1) sum) ∧
    (sectionSaturated k st x = true ↔ 2 ^ 31 - 1 < sum.natAbs) ∧
    sectionNext k st x = { x1 := x, x2 := st.x1, y1 := sectionOut k st x, y2 := st.y1 }) ∧
  (∀ (sts : List SectionState) (x : Int), runSections [] sts x = { out := x, states := sts, saturated := false }) ∧
  (∀ (k : Coefs) (ks : List Coefs) (st : SectionState) (sts : List SectionState) (x : Int) (rest : SetResult),
    rest = runSections ks sts (sectionOut k st x) →
    runSections (k :: ks) (st :: sts) x =
      { out := rest.out, states := sectionNext k st x :: rest.states,
        saturated := sectionSaturated k st x || rest.saturated }) ∧
  (∀ (a b sum : Int) (k : Nat), k ≤ 8 → sum = a * (8 - (k : Int)) + b * (k : Int) →
    2 * (blend a b k * 8 - sum).natAbs ≤ 8 ∧ (2 * (blend a b k * 8 - sum).natAbs = 8 → sum.natAbs ≤ (blend a b k).natAbs * 8) ∧
    min a b ≤ blend a b k ∧ blend a b k ≤ max a b) ∧
  (∀ a b : Int, blend a b 0 = a ∧ blend a b 8 = b)

/-- An overshoot above the reduction is an attack, which gives the channel its own depth and the hold. After it, a channel
whose overshoot stays at e, at most r, holds r for the hold count and then falls by the release at each completion, down
to e; with e at 0 it reaches 0 at the (h + m)-th completion, m the least whole number at least r / q. -/
def Obligations.LimiterHoldsAndReleases : Prop :=
  ∀ x : ChannelState,
    (∀ e, x.reduction < e → ChannelState.limit x e = { x with reduction := e, holdCount := x.record.hold }) ∧
    (∀ e n : Nat, e ≤ x.reduction →
      ∃ y, y = (fun x => ChannelState.limit x e)^[n] x ∧
        y = { x with reduction := y.reduction, holdCount := y.holdCount } ∧
        (n ≤ x.holdCount → y.reduction = x.reduction ∧ y.holdCount = x.holdCount - n) ∧
        (x.holdCount ≤ n →
          y.reduction = max e (x.reduction - (n - x.holdCount) * x.record.release) ∧ y.holdCount = 0)) ∧
    (∀ m : Nat, 1 ≤ m → 1 ≤ x.reduction → x.reduction ≤ m * x.record.release → (m - 1) * x.record.release < x.reduction →
      ∀ n, n ≤ x.holdCount + m →
        (((fun x => ChannelState.limit x 0)^[n] x).reduction = 0 ↔ n = x.holdCount + m))

/-! ### Laws of the whole machine -/

/-- The laws of every block hold right after reset. -/
def Obligations.ResetMeetsTheLaws : Prop :=
  State.reset.NodeLaw ∧ State.reset.SlotLaw ∧ State.reset.CounterLaw ∧ State.reset.LimiterLaw ∧
    State.reset.QueueLaw ∧ State.reset.TableLaw ∧ State.reset.TargetLaw ∧ State.reset.ImageLaw ∧
    State.reset.PresenceLaw ∧ State.reset.RangeLaw ∧ State.reset.CacheLaw

/-- Every step keeps AMP_ON, the NODE target, the NODE slot and the output port as the node state and the input presence
want them. -/
def Obligations.StepKeepsNodeLaw : Prop :=
  ∀ s t : State, s.NodeLaw → step s = .next t → t.NodeLaw

/-- Every step keeps every term slot in one of its three conditions, every counter within 16 bits, the limiters, own
values and emission age in their ranges, and the transmit queue at 8 frames and one headroom cue at most, with fewer than
16 consecutive errors, and empty in DORMANT; no attempt of the node's own runs within a frame that it receives. -/
def Obligations.StepKeepsSlotsCountersAndQueues : Prop :=
  ∀ s t : State, s.SlotLaw → s.CounterLaw → s.LimiterLaw → s.QueueLaw → step s = .next t →
    t.SlotLaw ∧ t.CounterLaw ∧ t.LimiterLaw ∧ t.QueueLaw

/-- Every step keeps the reduction table in order, and the DIP and LINK targets those of its entries and own values. -/
def Obligations.StepKeepsTableLaw : Prop :=
  ∀ s t : State, s.TableLaw → s.TargetLaw → step s = .next t → t.TableLaw ∧ t.TargetLaw

/-- Every step keeps the zone images in their ranges with the targets they ask for, entries and origin records only of
present stations, never of the node's own, but while a report of a station's absence is on its way (the model's own state,
log 32), and every term slot in the value range of its kind. -/
def Obligations.StepKeepsImageAndRangeLaw : Prop :=
  ∀ s t : State, s.TableLaw → s.LimiterLaw → s.ImageLaw → s.PresenceLaw → s.RangeLaw → step s = .next t →
    t.ImageLaw ∧ t.PresenceLaw ∧ t.RangeLaw

/-- Every step keeps the pins equal to the references, the keys in their sets, the fill queue and the fill in flight
equal to the FILLING lines, and the channels' requests in accord with them. -/
def Obligations.StepKeepsCacheLaw : Prop :=
  ∀ s t : State, s.CacheLaw → step s = .next t → t.CacheLaw
end

