-- ==== Sys2Proof/Laws/State.lean ====
section
/-!
SUPPORT. What each update of a part of the state leaves of the other parts: one equation per part and update.
-/
namespace Sys2Proof.Machine

variable (s : State)

/-! ### drawn -/

@[simp] theorem State.drawn_node : (s.drawn).node = s.node := rfl
@[simp] theorem State.drawn_loader : (s.drawn).loader = s.loader := rfl
@[simp] theorem State.drawn_ramp : (s.drawn).ramp = s.ramp := rfl
@[simp] theorem State.drawn_image : (s.drawn).image = s.image := rfl
@[simp] theorem State.drawn_pace : (s.drawn).pace = s.pace := rfl
@[simp] theorem State.drawn_table : (s.drawn).table = s.table := rfl
@[simp] theorem State.drawn_laws : (s.drawn).laws = s.laws := rfl
@[simp] theorem State.drawn_channels : (s.drawn).channels = s.channels := rfl
@[simp] theorem State.drawn_emission : (s.drawn).emission = s.emission := rfl
@[simp] theorem State.drawn_library : (s.drawn).library = s.library := rfl
@[simp] theorem State.drawn_ports : (s.drawn).ports = s.ports := rfl
@[simp] theorem State.drawn_link : (s.drawn).link = s.link := rfl
@[simp] theorem State.drawn_stats : (s.drawn).stats = s.stats := rfl
@[simp] theorem State.drawn_draws :
    (s.drawn).draws = s.draws + 1 := rfl
@[simp] theorem State.drawn_pending : (s.drawn).pending = s.pending := rfl

/-! ### setChannel -/

@[simp] theorem State.setChannel_node (c : Channel) (x : ChannelState) : (s.setChannel c x).node = s.node := rfl
@[simp] theorem State.setChannel_loader (c : Channel) (x : ChannelState) : (s.setChannel c x).loader = s.loader := rfl
@[simp] theorem State.setChannel_ramp (c : Channel) (x : ChannelState) : (s.setChannel c x).ramp = s.ramp := rfl
@[simp] theorem State.setChannel_image (c : Channel) (x : ChannelState) : (s.setChannel c x).image = s.image := rfl
@[simp] theorem State.setChannel_pace (c : Channel) (x : ChannelState) : (s.setChannel c x).pace = s.pace := rfl
@[simp] theorem State.setChannel_table (c : Channel) (x : ChannelState) : (s.setChannel c x).table = s.table := rfl
@[simp] theorem State.setChannel_laws (c : Channel) (x : ChannelState) : (s.setChannel c x).laws = s.laws := rfl
@[simp] theorem State.setChannel_channels (c : Channel) (x : ChannelState) :
    (s.setChannel c x).channels = s.channels.set c x := rfl
@[simp] theorem State.setChannel_emission (c : Channel) (x : ChannelState) : (s.setChannel c x).emission = s.emission := rfl
@[simp] theorem State.setChannel_library (c : Channel) (x : ChannelState) : (s.setChannel c x).library = s.library := rfl
@[simp] theorem State.setChannel_ports (c : Channel) (x : ChannelState) : (s.setChannel c x).ports = s.ports := rfl
@[simp] theorem State.setChannel_link (c : Channel) (x : ChannelState) : (s.setChannel c x).link = s.link := rfl
@[simp] theorem State.setChannel_stats (c : Channel) (x : ChannelState) : (s.setChannel c x).stats = s.stats := rfl
@[simp] theorem State.setChannel_draws (c : Channel) (x : ChannelState) : (s.setChannel c x).draws = s.draws := rfl
@[simp] theorem State.setChannel_pending (c : Channel) (x : ChannelState) : (s.setChannel c x).pending = s.pending := rfl

/-! ### mapChannels -/

@[simp] theorem State.mapChannels_node (f : Channel → ChannelState → ChannelState) : (s.mapChannels f).node = s.node := by simp only [State.mapChannels]
@[simp] theorem State.mapChannels_loader (f : Channel → ChannelState → ChannelState) : (s.mapChannels f).loader = s.loader := by simp only [State.mapChannels]
@[simp] theorem State.mapChannels_ramp (f : Channel → ChannelState → ChannelState) : (s.mapChannels f).ramp = s.ramp := by simp only [State.mapChannels]
@[simp] theorem State.mapChannels_image (f : Channel → ChannelState → ChannelState) : (s.mapChannels f).image = s.image := by simp only [State.mapChannels]
@[simp] theorem State.mapChannels_pace (f : Channel → ChannelState → ChannelState) : (s.mapChannels f).pace = s.pace := by simp only [State.mapChannels]
@[simp] theorem State.mapChannels_table (f : Channel → ChannelState → ChannelState) : (s.mapChannels f).table = s.table := by simp only [State.mapChannels]
@[simp] theorem State.mapChannels_laws (f : Channel → ChannelState → ChannelState) : (s.mapChannels f).laws = s.laws := by simp only [State.mapChannels]
@[simp] theorem State.mapChannels_channels (f : Channel → ChannelState → ChannelState) :
    (s.mapChannels f).channels = Vector.ofFn fun c => f c s.channels[c] := rfl
@[simp] theorem State.mapChannels_emission (f : Channel → ChannelState → ChannelState) : (s.mapChannels f).emission = s.emission := by simp only [State.mapChannels]
@[simp] theorem State.mapChannels_library (f : Channel → ChannelState → ChannelState) : (s.mapChannels f).library = s.library := by simp only [State.mapChannels]
@[simp] theorem State.mapChannels_ports (f : Channel → ChannelState → ChannelState) : (s.mapChannels f).ports = s.ports := by simp only [State.mapChannels]
@[simp] theorem State.mapChannels_link (f : Channel → ChannelState → ChannelState) : (s.mapChannels f).link = s.link := by simp only [State.mapChannels]
@[simp] theorem State.mapChannels_stats (f : Channel → ChannelState → ChannelState) : (s.mapChannels f).stats = s.stats := by simp only [State.mapChannels]
@[simp] theorem State.mapChannels_draws (f : Channel → ChannelState → ChannelState) : (s.mapChannels f).draws = s.draws := by simp only [State.mapChannels]
@[simp] theorem State.mapChannels_pending (f : Channel → ChannelState → ChannelState) : (s.mapChannels f).pending = s.pending := by simp only [State.mapChannels]

/-! ### setLine -/

@[simp] theorem State.setLine_node (l : LineRef) (x : Line) : (s.setLine l x).node = s.node := rfl
@[simp] theorem State.setLine_loader (l : LineRef) (x : Line) : (s.setLine l x).loader = s.loader := rfl
@[simp] theorem State.setLine_ramp (l : LineRef) (x : Line) : (s.setLine l x).ramp = s.ramp := rfl
@[simp] theorem State.setLine_image (l : LineRef) (x : Line) : (s.setLine l x).image = s.image := rfl
@[simp] theorem State.setLine_pace (l : LineRef) (x : Line) : (s.setLine l x).pace = s.pace := rfl
@[simp] theorem State.setLine_table (l : LineRef) (x : Line) : (s.setLine l x).table = s.table := rfl
@[simp] theorem State.setLine_laws (l : LineRef) (x : Line) : (s.setLine l x).laws = s.laws := rfl
@[simp] theorem State.setLine_channels (l : LineRef) (x : Line) : (s.setLine l x).channels = s.channels := rfl
@[simp] theorem State.setLine_emission (l : LineRef) (x : Line) : (s.setLine l x).emission = s.emission := rfl
@[simp] theorem State.setLine_ports (l : LineRef) (x : Line) : (s.setLine l x).ports = s.ports := rfl
@[simp] theorem State.setLine_link (l : LineRef) (x : Line) : (s.setLine l x).link = s.link := rfl
@[simp] theorem State.setLine_stats (l : LineRef) (x : Line) : (s.setLine l x).stats = s.stats := rfl
@[simp] theorem State.setLine_draws (l : LineRef) (x : Line) : (s.setLine l x).draws = s.draws := rfl
@[simp] theorem State.setLine_pending (l : LineRef) (x : Line) : (s.setLine l x).pending = s.pending := rfl

/-! ### setCacheSet -/

@[simp] theorem State.setCacheSet_node (n : Fin 16) (x : CacheSet) : (s.setCacheSet n x).node = s.node := rfl
@[simp] theorem State.setCacheSet_loader (n : Fin 16) (x : CacheSet) : (s.setCacheSet n x).loader = s.loader := rfl
@[simp] theorem State.setCacheSet_ramp (n : Fin 16) (x : CacheSet) : (s.setCacheSet n x).ramp = s.ramp := rfl
@[simp] theorem State.setCacheSet_image (n : Fin 16) (x : CacheSet) : (s.setCacheSet n x).image = s.image := rfl
@[simp] theorem State.setCacheSet_pace (n : Fin 16) (x : CacheSet) : (s.setCacheSet n x).pace = s.pace := rfl
@[simp] theorem State.setCacheSet_table (n : Fin 16) (x : CacheSet) : (s.setCacheSet n x).table = s.table := rfl
@[simp] theorem State.setCacheSet_laws (n : Fin 16) (x : CacheSet) : (s.setCacheSet n x).laws = s.laws := rfl
@[simp] theorem State.setCacheSet_channels (n : Fin 16) (x : CacheSet) : (s.setCacheSet n x).channels = s.channels := rfl
@[simp] theorem State.setCacheSet_emission (n : Fin 16) (x : CacheSet) : (s.setCacheSet n x).emission = s.emission := rfl
@[simp] theorem State.setCacheSet_library (n : Fin 16) (x : CacheSet) :
    (s.setCacheSet n x).library = { s.library with sets := s.library.sets.set n x } := rfl
@[simp] theorem State.setCacheSet_ports (n : Fin 16) (x : CacheSet) : (s.setCacheSet n x).ports = s.ports := rfl
@[simp] theorem State.setCacheSet_link (n : Fin 16) (x : CacheSet) : (s.setCacheSet n x).link = s.link := rfl
@[simp] theorem State.setCacheSet_stats (n : Fin 16) (x : CacheSet) : (s.setCacheSet n x).stats = s.stats := rfl
@[simp] theorem State.setCacheSet_draws (n : Fin 16) (x : CacheSet) : (s.setCacheSet n x).draws = s.draws := rfl
@[simp] theorem State.setCacheSet_pending (n : Fin 16) (x : CacheSet) : (s.setCacheSet n x).pending = s.pending := rfl

/-! ### setQueue -/

@[simp] theorem State.setQueue_node (q : List QueueEntry) : (s.setQueue q).node = s.node := rfl
@[simp] theorem State.setQueue_loader (q : List QueueEntry) : (s.setQueue q).loader = s.loader := rfl
@[simp] theorem State.setQueue_ramp (q : List QueueEntry) : (s.setQueue q).ramp = s.ramp := rfl
@[simp] theorem State.setQueue_image (q : List QueueEntry) : (s.setQueue q).image = s.image := rfl
@[simp] theorem State.setQueue_pace (q : List QueueEntry) : (s.setQueue q).pace = s.pace := rfl
@[simp] theorem State.setQueue_table (q : List QueueEntry) : (s.setQueue q).table = s.table := rfl
@[simp] theorem State.setQueue_laws (q : List QueueEntry) : (s.setQueue q).laws = s.laws := rfl
@[simp] theorem State.setQueue_channels (q : List QueueEntry) : (s.setQueue q).channels = s.channels := rfl
@[simp] theorem State.setQueue_emission (q : List QueueEntry) : (s.setQueue q).emission = s.emission := rfl
@[simp] theorem State.setQueue_library (q : List QueueEntry) :
    (s.setQueue q).library = { s.library with queue := q } := rfl
@[simp] theorem State.setQueue_ports (q : List QueueEntry) : (s.setQueue q).ports = s.ports := rfl
@[simp] theorem State.setQueue_link (q : List QueueEntry) : (s.setQueue q).link = s.link := rfl
@[simp] theorem State.setQueue_stats (q : List QueueEntry) : (s.setQueue q).stats = s.stats := rfl
@[simp] theorem State.setQueue_draws (q : List QueueEntry) : (s.setQueue q).draws = s.draws := rfl
@[simp] theorem State.setQueue_pending (q : List QueueEntry) : (s.setQueue q).pending = s.pending := rfl

/-! ### setSlot -/

@[simp] theorem State.setSlot_node (id : SlotId) (x : TermSlot) : (s.setSlot id x).node = s.node := rfl
@[simp] theorem State.setSlot_loader (id : SlotId) (x : TermSlot) : (s.setSlot id x).loader = s.loader := rfl
@[simp] theorem State.setSlot_ramp (id : SlotId) (x : TermSlot) :
    (s.setSlot id x).ramp = { s.ramp with slots := s.ramp.slots.set id.index x } := rfl
@[simp] theorem State.setSlot_image (id : SlotId) (x : TermSlot) : (s.setSlot id x).image = s.image := rfl
@[simp] theorem State.setSlot_pace (id : SlotId) (x : TermSlot) : (s.setSlot id x).pace = s.pace := rfl
@[simp] theorem State.setSlot_table (id : SlotId) (x : TermSlot) : (s.setSlot id x).table = s.table := rfl
@[simp] theorem State.setSlot_laws (id : SlotId) (x : TermSlot) : (s.setSlot id x).laws = s.laws := rfl
@[simp] theorem State.setSlot_channels (id : SlotId) (x : TermSlot) : (s.setSlot id x).channels = s.channels := rfl
@[simp] theorem State.setSlot_emission (id : SlotId) (x : TermSlot) : (s.setSlot id x).emission = s.emission := rfl
@[simp] theorem State.setSlot_library (id : SlotId) (x : TermSlot) : (s.setSlot id x).library = s.library := rfl
@[simp] theorem State.setSlot_ports (id : SlotId) (x : TermSlot) : (s.setSlot id x).ports = s.ports := rfl
@[simp] theorem State.setSlot_link (id : SlotId) (x : TermSlot) : (s.setSlot id x).link = s.link := rfl
@[simp] theorem State.setSlot_stats (id : SlotId) (x : TermSlot) : (s.setSlot id x).stats = s.stats := rfl
@[simp] theorem State.setSlot_draws (id : SlotId) (x : TermSlot) : (s.setSlot id x).draws = s.draws := rfl
@[simp] theorem State.setSlot_pending (id : SlotId) (x : TermSlot) : (s.setSlot id x).pending = s.pending := rfl

/-! ### setImage -/

@[simp] theorem State.setImage_node (z : Zone) (x : ZoneImage) : (s.setImage z x).node = s.node := rfl
@[simp] theorem State.setImage_loader (z : Zone) (x : ZoneImage) : (s.setImage z x).loader = s.loader := rfl
@[simp] theorem State.setImage_ramp (z : Zone) (x : ZoneImage) : (s.setImage z x).ramp = s.ramp := rfl
@[simp] theorem State.setImage_image (z : Zone) (x : ZoneImage) :
    (s.setImage z x).image = s.image.set z x := rfl
@[simp] theorem State.setImage_pace (z : Zone) (x : ZoneImage) : (s.setImage z x).pace = s.pace := rfl
@[simp] theorem State.setImage_table (z : Zone) (x : ZoneImage) : (s.setImage z x).table = s.table := rfl
@[simp] theorem State.setImage_laws (z : Zone) (x : ZoneImage) : (s.setImage z x).laws = s.laws := rfl
@[simp] theorem State.setImage_channels (z : Zone) (x : ZoneImage) : (s.setImage z x).channels = s.channels := rfl
@[simp] theorem State.setImage_emission (z : Zone) (x : ZoneImage) : (s.setImage z x).emission = s.emission := rfl
@[simp] theorem State.setImage_library (z : Zone) (x : ZoneImage) : (s.setImage z x).library = s.library := rfl
@[simp] theorem State.setImage_ports (z : Zone) (x : ZoneImage) : (s.setImage z x).ports = s.ports := rfl
@[simp] theorem State.setImage_link (z : Zone) (x : ZoneImage) : (s.setImage z x).link = s.link := rfl
@[simp] theorem State.setImage_stats (z : Zone) (x : ZoneImage) : (s.setImage z x).stats = s.stats := rfl
@[simp] theorem State.setImage_draws (z : Zone) (x : ZoneImage) : (s.setImage z x).draws = s.draws := rfl
@[simp] theorem State.setImage_pending (z : Zone) (x : ZoneImage) : (s.setImage z x).pending = s.pending := rfl

/-! ### setPace -/

@[simp] theorem State.setPace_node (x : PaceUnit) : (s.setPace x).node = s.node := rfl
@[simp] theorem State.setPace_loader (x : PaceUnit) : (s.setPace x).loader = s.loader := rfl
@[simp] theorem State.setPace_ramp (x : PaceUnit) : (s.setPace x).ramp = s.ramp := rfl
@[simp] theorem State.setPace_image (x : PaceUnit) : (s.setPace x).image = s.image := rfl
@[simp] theorem State.setPace_pace (x : PaceUnit) :
    (s.setPace x).pace = x := rfl
@[simp] theorem State.setPace_table (x : PaceUnit) : (s.setPace x).table = s.table := rfl
@[simp] theorem State.setPace_laws (x : PaceUnit) : (s.setPace x).laws = s.laws := rfl
@[simp] theorem State.setPace_channels (x : PaceUnit) : (s.setPace x).channels = s.channels := rfl
@[simp] theorem State.setPace_emission (x : PaceUnit) : (s.setPace x).emission = s.emission := rfl
@[simp] theorem State.setPace_library (x : PaceUnit) : (s.setPace x).library = s.library := rfl
@[simp] theorem State.setPace_ports (x : PaceUnit) : (s.setPace x).ports = s.ports := rfl
@[simp] theorem State.setPace_link (x : PaceUnit) : (s.setPace x).link = s.link := rfl
@[simp] theorem State.setPace_stats (x : PaceUnit) : (s.setPace x).stats = s.stats := rfl
@[simp] theorem State.setPace_draws (x : PaceUnit) : (s.setPace x).draws = s.draws := rfl
@[simp] theorem State.setPace_pending (x : PaceUnit) : (s.setPace x).pending = s.pending := rfl

/-! ### setTable -/

@[simp] theorem State.setTable_node (x : List Entry) : (s.setTable x).node = s.node := rfl
@[simp] theorem State.setTable_loader (x : List Entry) : (s.setTable x).loader = s.loader := rfl
@[simp] theorem State.setTable_ramp (x : List Entry) : (s.setTable x).ramp = s.ramp := rfl
@[simp] theorem State.setTable_image (x : List Entry) : (s.setTable x).image = s.image := rfl
@[simp] theorem State.setTable_pace (x : List Entry) : (s.setTable x).pace = s.pace := rfl
@[simp] theorem State.setTable_table (x : List Entry) :
    (s.setTable x).table = x := rfl
@[simp] theorem State.setTable_laws (x : List Entry) : (s.setTable x).laws = s.laws := rfl
@[simp] theorem State.setTable_channels (x : List Entry) : (s.setTable x).channels = s.channels := rfl
@[simp] theorem State.setTable_emission (x : List Entry) : (s.setTable x).emission = s.emission := rfl
@[simp] theorem State.setTable_library (x : List Entry) : (s.setTable x).library = s.library := rfl
@[simp] theorem State.setTable_ports (x : List Entry) : (s.setTable x).ports = s.ports := rfl
@[simp] theorem State.setTable_link (x : List Entry) : (s.setTable x).link = s.link := rfl
@[simp] theorem State.setTable_stats (x : List Entry) : (s.setTable x).stats = s.stats := rfl
@[simp] theorem State.setTable_draws (x : List Entry) : (s.setTable x).draws = s.draws := rfl
@[simp] theorem State.setTable_pending (x : List Entry) : (s.setTable x).pending = s.pending := rfl

/-! ### setLink -/

@[simp] theorem State.setLink_node (x : LinkInterface) : (s.setLink x).node = s.node := rfl
@[simp] theorem State.setLink_loader (x : LinkInterface) : (s.setLink x).loader = s.loader := rfl
@[simp] theorem State.setLink_ramp (x : LinkInterface) : (s.setLink x).ramp = s.ramp := rfl
@[simp] theorem State.setLink_image (x : LinkInterface) : (s.setLink x).image = s.image := rfl
@[simp] theorem State.setLink_pace (x : LinkInterface) : (s.setLink x).pace = s.pace := rfl
@[simp] theorem State.setLink_table (x : LinkInterface) : (s.setLink x).table = s.table := rfl
@[simp] theorem State.setLink_laws (x : LinkInterface) : (s.setLink x).laws = s.laws := rfl
@[simp] theorem State.setLink_channels (x : LinkInterface) : (s.setLink x).channels = s.channels := rfl
@[simp] theorem State.setLink_emission (x : LinkInterface) : (s.setLink x).emission = s.emission := rfl
@[simp] theorem State.setLink_library (x : LinkInterface) : (s.setLink x).library = s.library := rfl
@[simp] theorem State.setLink_ports (x : LinkInterface) : (s.setLink x).ports = s.ports := rfl
@[simp] theorem State.setLink_link (x : LinkInterface) :
    (s.setLink x).link = x := rfl
@[simp] theorem State.setLink_stats (x : LinkInterface) : (s.setLink x).stats = s.stats := rfl
@[simp] theorem State.setLink_draws (x : LinkInterface) : (s.setLink x).draws = s.draws := rfl
@[simp] theorem State.setLink_pending (x : LinkInterface) : (s.setLink x).pending = s.pending := rfl

/-! ### setEmission -/

@[simp] theorem State.setEmission_node (x : Emission) : (s.setEmission x).node = s.node := rfl
@[simp] theorem State.setEmission_loader (x : Emission) : (s.setEmission x).loader = s.loader := rfl
@[simp] theorem State.setEmission_ramp (x : Emission) : (s.setEmission x).ramp = s.ramp := rfl
@[simp] theorem State.setEmission_image (x : Emission) : (s.setEmission x).image = s.image := rfl
@[simp] theorem State.setEmission_pace (x : Emission) : (s.setEmission x).pace = s.pace := rfl
@[simp] theorem State.setEmission_table (x : Emission) : (s.setEmission x).table = s.table := rfl
@[simp] theorem State.setEmission_laws (x : Emission) : (s.setEmission x).laws = s.laws := rfl
@[simp] theorem State.setEmission_channels (x : Emission) : (s.setEmission x).channels = s.channels := rfl
@[simp] theorem State.setEmission_emission (x : Emission) :
    (s.setEmission x).emission = x := rfl
@[simp] theorem State.setEmission_library (x : Emission) : (s.setEmission x).library = s.library := rfl
@[simp] theorem State.setEmission_ports (x : Emission) : (s.setEmission x).ports = s.ports := rfl
@[simp] theorem State.setEmission_link (x : Emission) : (s.setEmission x).link = s.link := rfl
@[simp] theorem State.setEmission_stats (x : Emission) : (s.setEmission x).stats = s.stats := rfl
@[simp] theorem State.setEmission_draws (x : Emission) : (s.setEmission x).draws = s.draws := rfl
@[simp] theorem State.setEmission_pending (x : Emission) : (s.setEmission x).pending = s.pending := rfl

/-! ### setNode -/

@[simp] theorem State.setNode_node (x : NodeControl) :
    (s.setNode x).node = x := rfl
@[simp] theorem State.setNode_loader (x : NodeControl) : (s.setNode x).loader = s.loader := rfl
@[simp] theorem State.setNode_ramp (x : NodeControl) : (s.setNode x).ramp = s.ramp := rfl
@[simp] theorem State.setNode_image (x : NodeControl) : (s.setNode x).image = s.image := rfl
@[simp] theorem State.setNode_pace (x : NodeControl) : (s.setNode x).pace = s.pace := rfl
@[simp] theorem State.setNode_table (x : NodeControl) : (s.setNode x).table = s.table := rfl
@[simp] theorem State.setNode_laws (x : NodeControl) : (s.setNode x).laws = s.laws := rfl
@[simp] theorem State.setNode_channels (x : NodeControl) : (s.setNode x).channels = s.channels := rfl
@[simp] theorem State.setNode_emission (x : NodeControl) : (s.setNode x).emission = s.emission := rfl
@[simp] theorem State.setNode_library (x : NodeControl) : (s.setNode x).library = s.library := rfl
@[simp] theorem State.setNode_ports (x : NodeControl) : (s.setNode x).ports = s.ports := rfl
@[simp] theorem State.setNode_link (x : NodeControl) : (s.setNode x).link = s.link := rfl
@[simp] theorem State.setNode_stats (x : NodeControl) : (s.setNode x).stats = s.stats := rfl
@[simp] theorem State.setNode_draws (x : NodeControl) : (s.setNode x).draws = s.draws := rfl
@[simp] theorem State.setNode_pending (x : NodeControl) : (s.setNode x).pending = s.pending := rfl

/-! ### setLibrary -/

@[simp] theorem State.setLibrary_node (x : Library) : (s.setLibrary x).node = s.node := rfl
@[simp] theorem State.setLibrary_loader (x : Library) : (s.setLibrary x).loader = s.loader := rfl
@[simp] theorem State.setLibrary_ramp (x : Library) : (s.setLibrary x).ramp = s.ramp := rfl
@[simp] theorem State.setLibrary_image (x : Library) : (s.setLibrary x).image = s.image := rfl
@[simp] theorem State.setLibrary_pace (x : Library) : (s.setLibrary x).pace = s.pace := rfl
@[simp] theorem State.setLibrary_table (x : Library) : (s.setLibrary x).table = s.table := rfl
@[simp] theorem State.setLibrary_laws (x : Library) : (s.setLibrary x).laws = s.laws := rfl
@[simp] theorem State.setLibrary_channels (x : Library) : (s.setLibrary x).channels = s.channels := rfl
@[simp] theorem State.setLibrary_emission (x : Library) : (s.setLibrary x).emission = s.emission := rfl
@[simp] theorem State.setLibrary_library (x : Library) :
    (s.setLibrary x).library = x := rfl
@[simp] theorem State.setLibrary_ports (x : Library) : (s.setLibrary x).ports = s.ports := rfl
@[simp] theorem State.setLibrary_link (x : Library) : (s.setLibrary x).link = s.link := rfl
@[simp] theorem State.setLibrary_stats (x : Library) : (s.setLibrary x).stats = s.stats := rfl
@[simp] theorem State.setLibrary_draws (x : Library) : (s.setLibrary x).draws = s.draws := rfl
@[simp] theorem State.setLibrary_pending (x : Library) : (s.setLibrary x).pending = s.pending := rfl

/-! ### setLoader -/

@[simp] theorem State.setLoader_node (x : Loader) : (s.setLoader x).node = s.node := rfl
@[simp] theorem State.setLoader_loader (x : Loader) :
    (s.setLoader x).loader = x := rfl
@[simp] theorem State.setLoader_ramp (x : Loader) : (s.setLoader x).ramp = s.ramp := rfl
@[simp] theorem State.setLoader_image (x : Loader) : (s.setLoader x).image = s.image := rfl
@[simp] theorem State.setLoader_pace (x : Loader) : (s.setLoader x).pace = s.pace := rfl
@[simp] theorem State.setLoader_table (x : Loader) : (s.setLoader x).table = s.table := rfl
@[simp] theorem State.setLoader_laws (x : Loader) : (s.setLoader x).laws = s.laws := rfl
@[simp] theorem State.setLoader_channels (x : Loader) : (s.setLoader x).channels = s.channels := rfl
@[simp] theorem State.setLoader_emission (x : Loader) : (s.setLoader x).emission = s.emission := rfl
@[simp] theorem State.setLoader_library (x : Loader) : (s.setLoader x).library = s.library := rfl
@[simp] theorem State.setLoader_ports (x : Loader) : (s.setLoader x).ports = s.ports := rfl
@[simp] theorem State.setLoader_link (x : Loader) : (s.setLoader x).link = s.link := rfl
@[simp] theorem State.setLoader_stats (x : Loader) : (s.setLoader x).stats = s.stats := rfl
@[simp] theorem State.setLoader_draws (x : Loader) : (s.setLoader x).draws = s.draws := rfl
@[simp] theorem State.setLoader_pending (x : Loader) : (s.setLoader x).pending = s.pending := rfl

/-! ### clearOutput -/

@[simp] theorem State.clearOutput_node : s.clearOutput.node = s.node := rfl
@[simp] theorem State.clearOutput_loader : s.clearOutput.loader = s.loader := rfl
@[simp] theorem State.clearOutput_ramp : s.clearOutput.ramp = s.ramp := rfl
@[simp] theorem State.clearOutput_image : s.clearOutput.image = s.image := rfl
@[simp] theorem State.clearOutput_pace : s.clearOutput.pace = s.pace := rfl
@[simp] theorem State.clearOutput_table : s.clearOutput.table = s.table := rfl
@[simp] theorem State.clearOutput_laws : s.clearOutput.laws = s.laws := rfl
@[simp] theorem State.clearOutput_channels : s.clearOutput.channels = s.channels := rfl
@[simp] theorem State.clearOutput_emission : s.clearOutput.emission = s.emission := rfl
@[simp] theorem State.clearOutput_library : s.clearOutput.library = s.library := rfl
@[simp] theorem State.clearOutput_link : s.clearOutput.link = s.link := rfl
@[simp] theorem State.clearOutput_stats : s.clearOutput.stats = s.stats := rfl
@[simp] theorem State.clearOutput_draws : s.clearOutput.draws = s.draws := rfl
@[simp] theorem State.clearOutput_pending : s.clearOutput.pending = s.pending := rfl
@[simp] theorem State.clearOutput_ports : s.clearOutput.ports = { s.ports with outFrame := Vector.replicate 8 0#32 } := rfl

/-! ### setPorts -/

@[simp] theorem State.setPorts_node (x : AudioPorts) : (s.setPorts x).node = s.node := rfl
@[simp] theorem State.setPorts_loader (x : AudioPorts) : (s.setPorts x).loader = s.loader := rfl
@[simp] theorem State.setPorts_ramp (x : AudioPorts) : (s.setPorts x).ramp = s.ramp := rfl
@[simp] theorem State.setPorts_image (x : AudioPorts) : (s.setPorts x).image = s.image := rfl
@[simp] theorem State.setPorts_pace (x : AudioPorts) : (s.setPorts x).pace = s.pace := rfl
@[simp] theorem State.setPorts_table (x : AudioPorts) : (s.setPorts x).table = s.table := rfl
@[simp] theorem State.setPorts_laws (x : AudioPorts) : (s.setPorts x).laws = s.laws := rfl
@[simp] theorem State.setPorts_channels (x : AudioPorts) : (s.setPorts x).channels = s.channels := rfl
@[simp] theorem State.setPorts_emission (x : AudioPorts) : (s.setPorts x).emission = s.emission := rfl
@[simp] theorem State.setPorts_library (x : AudioPorts) : (s.setPorts x).library = s.library := rfl
@[simp] theorem State.setPorts_ports (x : AudioPorts) :
    (s.setPorts x).ports = x := rfl
@[simp] theorem State.setPorts_link (x : AudioPorts) : (s.setPorts x).link = s.link := rfl
@[simp] theorem State.setPorts_stats (x : AudioPorts) : (s.setPorts x).stats = s.stats := rfl
@[simp] theorem State.setPorts_draws (x : AudioPorts) : (s.setPorts x).draws = s.draws := rfl
@[simp] theorem State.setPorts_pending (x : AudioPorts) : (s.setPorts x).pending = s.pending := rfl

/-! ### writeTarget -/

@[simp] theorem State.writeTarget_node (id : SlotId) (v : Int) : (s.writeTarget id v).node = s.node := rfl
@[simp] theorem State.writeTarget_loader (id : SlotId) (v : Int) : (s.writeTarget id v).loader = s.loader := rfl
@[simp] theorem State.writeTarget_image (id : SlotId) (v : Int) : (s.writeTarget id v).image = s.image := rfl
@[simp] theorem State.writeTarget_pace (id : SlotId) (v : Int) : (s.writeTarget id v).pace = s.pace := rfl
@[simp] theorem State.writeTarget_table (id : SlotId) (v : Int) : (s.writeTarget id v).table = s.table := rfl
@[simp] theorem State.writeTarget_laws (id : SlotId) (v : Int) : (s.writeTarget id v).laws = s.laws := rfl
@[simp] theorem State.writeTarget_channels (id : SlotId) (v : Int) : (s.writeTarget id v).channels = s.channels := rfl
@[simp] theorem State.writeTarget_emission (id : SlotId) (v : Int) : (s.writeTarget id v).emission = s.emission := rfl
@[simp] theorem State.writeTarget_library (id : SlotId) (v : Int) : (s.writeTarget id v).library = s.library := rfl
@[simp] theorem State.writeTarget_ports (id : SlotId) (v : Int) : (s.writeTarget id v).ports = s.ports := rfl
@[simp] theorem State.writeTarget_link (id : SlotId) (v : Int) : (s.writeTarget id v).link = s.link := rfl
@[simp] theorem State.writeTarget_stats (id : SlotId) (v : Int) : (s.writeTarget id v).stats = s.stats := rfl
@[simp] theorem State.writeTarget_draws (id : SlotId) (v : Int) : (s.writeTarget id v).draws = s.draws := rfl
@[simp] theorem State.writeTarget_pending (id : SlotId) (v : Int) : (s.writeTarget id v).pending = s.pending := rfl

/-! ### initialTarget -/

@[simp] theorem State.initialTarget_node (id : SlotId) (v : Int) : (s.initialTarget id v).node = s.node := rfl
@[simp] theorem State.initialTarget_loader (id : SlotId) (v : Int) : (s.initialTarget id v).loader = s.loader := rfl
@[simp] theorem State.initialTarget_image (id : SlotId) (v : Int) : (s.initialTarget id v).image = s.image := rfl
@[simp] theorem State.initialTarget_pace (id : SlotId) (v : Int) : (s.initialTarget id v).pace = s.pace := rfl
@[simp] theorem State.initialTarget_table (id : SlotId) (v : Int) : (s.initialTarget id v).table = s.table := rfl
@[simp] theorem State.initialTarget_laws (id : SlotId) (v : Int) : (s.initialTarget id v).laws = s.laws := rfl
@[simp] theorem State.initialTarget_channels (id : SlotId) (v : Int) : (s.initialTarget id v).channels = s.channels := rfl
@[simp] theorem State.initialTarget_emission (id : SlotId) (v : Int) : (s.initialTarget id v).emission = s.emission := rfl
@[simp] theorem State.initialTarget_library (id : SlotId) (v : Int) : (s.initialTarget id v).library = s.library := rfl
@[simp] theorem State.initialTarget_ports (id : SlotId) (v : Int) : (s.initialTarget id v).ports = s.ports := rfl
@[simp] theorem State.initialTarget_link (id : SlotId) (v : Int) : (s.initialTarget id v).link = s.link := rfl
@[simp] theorem State.initialTarget_stats (id : SlotId) (v : Int) : (s.initialTarget id v).stats = s.stats := rfl
@[simp] theorem State.initialTarget_draws (id : SlotId) (v : Int) : (s.initialTarget id v).draws = s.draws := rfl
@[simp] theorem State.initialTarget_pending (id : SlotId) (v : Int) : (s.initialTarget id v).pending = s.pending := rfl

/-! ### rampStep -/

@[simp] theorem State.rampStep_node : (s.rampStep).node = s.node := by simp only [State.rampStep]
@[simp] theorem State.rampStep_loader : (s.rampStep).loader = s.loader := by simp only [State.rampStep]
@[simp] theorem State.rampStep_image : (s.rampStep).image = s.image := by simp only [State.rampStep]
@[simp] theorem State.rampStep_pace : (s.rampStep).pace = s.pace := by simp only [State.rampStep]
@[simp] theorem State.rampStep_table : (s.rampStep).table = s.table := by simp only [State.rampStep]
@[simp] theorem State.rampStep_laws : (s.rampStep).laws = s.laws := by simp only [State.rampStep]
@[simp] theorem State.rampStep_channels : (s.rampStep).channels = s.channels := by simp only [State.rampStep]
@[simp] theorem State.rampStep_emission : (s.rampStep).emission = s.emission := by simp only [State.rampStep]
@[simp] theorem State.rampStep_library : (s.rampStep).library = s.library := by simp only [State.rampStep]
@[simp] theorem State.rampStep_ports : (s.rampStep).ports = s.ports := by simp only [State.rampStep]
@[simp] theorem State.rampStep_link : (s.rampStep).link = s.link := by simp only [State.rampStep]
@[simp] theorem State.rampStep_stats : (s.rampStep).stats = s.stats := by simp only [State.rampStep]
@[simp] theorem State.rampStep_draws : (s.rampStep).draws = s.draws := by simp only [State.rampStep]
@[simp] theorem State.rampStep_pending : (s.rampStep).pending = s.pending := by simp only [State.rampStep]

/-! ### forceNodeMute -/

@[simp] theorem State.forceNodeMute_node : (s.forceNodeMute).node = s.node := rfl
@[simp] theorem State.forceNodeMute_loader : (s.forceNodeMute).loader = s.loader := rfl
@[simp] theorem State.forceNodeMute_image : (s.forceNodeMute).image = s.image := rfl
@[simp] theorem State.forceNodeMute_pace : (s.forceNodeMute).pace = s.pace := rfl
@[simp] theorem State.forceNodeMute_table : (s.forceNodeMute).table = s.table := rfl
@[simp] theorem State.forceNodeMute_laws : (s.forceNodeMute).laws = s.laws := rfl
@[simp] theorem State.forceNodeMute_channels : (s.forceNodeMute).channels = s.channels := rfl
@[simp] theorem State.forceNodeMute_emission : (s.forceNodeMute).emission = s.emission := rfl
@[simp] theorem State.forceNodeMute_library : (s.forceNodeMute).library = s.library := rfl
@[simp] theorem State.forceNodeMute_ports : (s.forceNodeMute).ports = s.ports := rfl
@[simp] theorem State.forceNodeMute_link : (s.forceNodeMute).link = s.link := rfl
@[simp] theorem State.forceNodeMute_stats : (s.forceNodeMute).stats = s.stats := rfl
@[simp] theorem State.forceNodeMute_draws : (s.forceNodeMute).draws = s.draws := rfl
@[simp] theorem State.forceNodeMute_pending : (s.forceNodeMute).pending = s.pending := rfl

/-! ### settleSlots -/

@[simp] theorem State.settleSlots_node : (s.settleSlots).node = s.node := by simp only [State.settleSlots]
@[simp] theorem State.settleSlots_loader : (s.settleSlots).loader = s.loader := by simp only [State.settleSlots]
@[simp] theorem State.settleSlots_image : (s.settleSlots).image = s.image := by simp only [State.settleSlots]
@[simp] theorem State.settleSlots_pace : (s.settleSlots).pace = s.pace := by simp only [State.settleSlots]
@[simp] theorem State.settleSlots_table : (s.settleSlots).table = s.table := by simp only [State.settleSlots]
@[simp] theorem State.settleSlots_laws : (s.settleSlots).laws = s.laws := by simp only [State.settleSlots]
@[simp] theorem State.settleSlots_channels : (s.settleSlots).channels = s.channels := by simp only [State.settleSlots]
@[simp] theorem State.settleSlots_emission : (s.settleSlots).emission = s.emission := by simp only [State.settleSlots]
@[simp] theorem State.settleSlots_library : (s.settleSlots).library = s.library := by simp only [State.settleSlots]
@[simp] theorem State.settleSlots_ports : (s.settleSlots).ports = s.ports := by simp only [State.settleSlots]
@[simp] theorem State.settleSlots_link : (s.settleSlots).link = s.link := by simp only [State.settleSlots]
@[simp] theorem State.settleSlots_stats : (s.settleSlots).stats = s.stats := by simp only [State.settleSlots]
@[simp] theorem State.settleSlots_draws : (s.settleSlots).draws = s.draws := by simp only [State.settleSlots]
@[simp] theorem State.settleSlots_pending : (s.settleSlots).pending = s.pending := by simp only [State.settleSlots]

/-! ### formNodeTarget -/

@[simp] theorem State.formNodeTarget_node : (s.formNodeTarget).node = s.node := rfl
@[simp] theorem State.formNodeTarget_loader : (s.formNodeTarget).loader = s.loader := rfl
@[simp] theorem State.formNodeTarget_image : (s.formNodeTarget).image = s.image := rfl
@[simp] theorem State.formNodeTarget_pace : (s.formNodeTarget).pace = s.pace := rfl
@[simp] theorem State.formNodeTarget_table : (s.formNodeTarget).table = s.table := rfl
@[simp] theorem State.formNodeTarget_laws : (s.formNodeTarget).laws = s.laws := rfl
@[simp] theorem State.formNodeTarget_channels : (s.formNodeTarget).channels = s.channels := rfl
@[simp] theorem State.formNodeTarget_emission : (s.formNodeTarget).emission = s.emission := rfl
@[simp] theorem State.formNodeTarget_library : (s.formNodeTarget).library = s.library := rfl
@[simp] theorem State.formNodeTarget_ports : (s.formNodeTarget).ports = s.ports := rfl
@[simp] theorem State.formNodeTarget_link : (s.formNodeTarget).link = s.link := rfl
@[simp] theorem State.formNodeTarget_stats : (s.formNodeTarget).stats = s.stats := rfl
@[simp] theorem State.formNodeTarget_draws : (s.formNodeTarget).draws = s.draws := rfl
@[simp] theorem State.formNodeTarget_pending : (s.formNodeTarget).pending = s.pending := rfl

/-! ### setRequest -/

@[simp] theorem State.setRequest_node (c : Channel) (r : Request) : (s.setRequest c r).node = s.node := rfl
@[simp] theorem State.setRequest_loader (c : Channel) (r : Request) : (s.setRequest c r).loader = s.loader := rfl
@[simp] theorem State.setRequest_ramp (c : Channel) (r : Request) : (s.setRequest c r).ramp = s.ramp := rfl
@[simp] theorem State.setRequest_image (c : Channel) (r : Request) : (s.setRequest c r).image = s.image := rfl
@[simp] theorem State.setRequest_pace (c : Channel) (r : Request) : (s.setRequest c r).pace = s.pace := rfl
@[simp] theorem State.setRequest_table (c : Channel) (r : Request) : (s.setRequest c r).table = s.table := rfl
@[simp] theorem State.setRequest_laws (c : Channel) (r : Request) : (s.setRequest c r).laws = s.laws := rfl
@[simp] theorem State.setRequest_emission (c : Channel) (r : Request) : (s.setRequest c r).emission = s.emission := rfl
@[simp] theorem State.setRequest_library (c : Channel) (r : Request) : (s.setRequest c r).library = s.library := rfl
@[simp] theorem State.setRequest_ports (c : Channel) (r : Request) : (s.setRequest c r).ports = s.ports := rfl
@[simp] theorem State.setRequest_link (c : Channel) (r : Request) : (s.setRequest c r).link = s.link := rfl
@[simp] theorem State.setRequest_stats (c : Channel) (r : Request) : (s.setRequest c r).stats = s.stats := rfl
@[simp] theorem State.setRequest_draws (c : Channel) (r : Request) : (s.setRequest c r).draws = s.draws := rfl
@[simp] theorem State.setRequest_pending (c : Channel) (r : Request) : (s.setRequest c r).pending = s.pending := rfl

/-! ### invalidate -/

@[simp] theorem State.invalidate_node (l : LineRef) : (s.invalidate l).node = s.node := rfl
@[simp] theorem State.invalidate_loader (l : LineRef) : (s.invalidate l).loader = s.loader := rfl
@[simp] theorem State.invalidate_ramp (l : LineRef) : (s.invalidate l).ramp = s.ramp := rfl
@[simp] theorem State.invalidate_image (l : LineRef) : (s.invalidate l).image = s.image := rfl
@[simp] theorem State.invalidate_pace (l : LineRef) : (s.invalidate l).pace = s.pace := rfl
@[simp] theorem State.invalidate_table (l : LineRef) : (s.invalidate l).table = s.table := rfl
@[simp] theorem State.invalidate_laws (l : LineRef) : (s.invalidate l).laws = s.laws := rfl
@[simp] theorem State.invalidate_channels (l : LineRef) : (s.invalidate l).channels = s.channels := rfl
@[simp] theorem State.invalidate_emission (l : LineRef) : (s.invalidate l).emission = s.emission := rfl
@[simp] theorem State.invalidate_ports (l : LineRef) : (s.invalidate l).ports = s.ports := rfl
@[simp] theorem State.invalidate_link (l : LineRef) : (s.invalidate l).link = s.link := rfl
@[simp] theorem State.invalidate_stats (l : LineRef) : (s.invalidate l).stats = s.stats := rfl
@[simp] theorem State.invalidate_draws (l : LineRef) : (s.invalidate l).draws = s.draws := rfl
@[simp] theorem State.invalidate_pending (l : LineRef) : (s.invalidate l).pending = s.pending := rfl

/-! ### pin -/

@[simp] theorem State.pin_node (l : LineRef) : (s.pin l).node = s.node := rfl
@[simp] theorem State.pin_loader (l : LineRef) : (s.pin l).loader = s.loader := rfl
@[simp] theorem State.pin_ramp (l : LineRef) : (s.pin l).ramp = s.ramp := rfl
@[simp] theorem State.pin_image (l : LineRef) : (s.pin l).image = s.image := rfl
@[simp] theorem State.pin_pace (l : LineRef) : (s.pin l).pace = s.pace := rfl
@[simp] theorem State.pin_table (l : LineRef) : (s.pin l).table = s.table := rfl
@[simp] theorem State.pin_laws (l : LineRef) : (s.pin l).laws = s.laws := rfl
@[simp] theorem State.pin_channels (l : LineRef) : (s.pin l).channels = s.channels := rfl
@[simp] theorem State.pin_emission (l : LineRef) : (s.pin l).emission = s.emission := rfl
@[simp] theorem State.pin_ports (l : LineRef) : (s.pin l).ports = s.ports := rfl
@[simp] theorem State.pin_link (l : LineRef) : (s.pin l).link = s.link := rfl
@[simp] theorem State.pin_stats (l : LineRef) : (s.pin l).stats = s.stats := rfl
@[simp] theorem State.pin_draws (l : LineRef) : (s.pin l).draws = s.draws := rfl
@[simp] theorem State.pin_pending (l : LineRef) : (s.pin l).pending = s.pending := rfl

/-! ### setOwed -/

@[simp] theorem State.setOwed_node (o : Option (Station × Recipient)) : (s.setOwed o).node = s.node := rfl
@[simp] theorem State.setOwed_loader (o : Option (Station × Recipient)) : (s.setOwed o).loader = s.loader := rfl
@[simp] theorem State.setOwed_ramp (o : Option (Station × Recipient)) : (s.setOwed o).ramp = s.ramp := rfl
@[simp] theorem State.setOwed_image (o : Option (Station × Recipient)) : (s.setOwed o).image = s.image := rfl
@[simp] theorem State.setOwed_pace (o : Option (Station × Recipient)) : (s.setOwed o).pace = s.pace := rfl
@[simp] theorem State.setOwed_table (o : Option (Station × Recipient)) : (s.setOwed o).table = s.table := rfl
@[simp] theorem State.setOwed_laws (o : Option (Station × Recipient)) : (s.setOwed o).laws = s.laws := rfl
@[simp] theorem State.setOwed_channels (o : Option (Station × Recipient)) : (s.setOwed o).channels = s.channels := rfl
@[simp] theorem State.setOwed_emission (o : Option (Station × Recipient)) : (s.setOwed o).emission = s.emission := rfl
@[simp] theorem State.setOwed_library (o : Option (Station × Recipient)) : (s.setOwed o).library = s.library := rfl
@[simp] theorem State.setOwed_ports (o : Option (Station × Recipient)) : (s.setOwed o).ports = s.ports := rfl
@[simp] theorem State.setOwed_stats (o : Option (Station × Recipient)) : (s.setOwed o).stats = s.stats := rfl
@[simp] theorem State.setOwed_draws (o : Option (Station × Recipient)) : (s.setOwed o).draws = s.draws := rfl
@[simp] theorem State.setOwed_pending (o : Option (Station × Recipient)) : (s.setOwed o).pending = s.pending := rfl
@[simp] theorem State.setOwed_link (o : Option (Station × Recipient)) : (s.setOwed o).link = { s.link with owed := o } := rfl

/-! ### setPresence -/

@[simp] theorem State.setPresence_node (st : Station) (p : PresenceRecord) : (s.setPresence st p).node = s.node := rfl
@[simp] theorem State.setPresence_loader (st : Station) (p : PresenceRecord) : (s.setPresence st p).loader = s.loader := rfl
@[simp] theorem State.setPresence_ramp (st : Station) (p : PresenceRecord) : (s.setPresence st p).ramp = s.ramp := rfl
@[simp] theorem State.setPresence_image (st : Station) (p : PresenceRecord) : (s.setPresence st p).image = s.image := rfl
@[simp] theorem State.setPresence_pace (st : Station) (p : PresenceRecord) : (s.setPresence st p).pace = s.pace := rfl
@[simp] theorem State.setPresence_table (st : Station) (p : PresenceRecord) : (s.setPresence st p).table = s.table := rfl
@[simp] theorem State.setPresence_laws (st : Station) (p : PresenceRecord) : (s.setPresence st p).laws = s.laws := rfl
@[simp] theorem State.setPresence_channels (st : Station) (p : PresenceRecord) : (s.setPresence st p).channels = s.channels := rfl
@[simp] theorem State.setPresence_emission (st : Station) (p : PresenceRecord) : (s.setPresence st p).emission = s.emission := rfl
@[simp] theorem State.setPresence_library (st : Station) (p : PresenceRecord) : (s.setPresence st p).library = s.library := rfl
@[simp] theorem State.setPresence_ports (st : Station) (p : PresenceRecord) : (s.setPresence st p).ports = s.ports := rfl
@[simp] theorem State.setPresence_stats (st : Station) (p : PresenceRecord) : (s.setPresence st p).stats = s.stats := rfl
@[simp] theorem State.setPresence_draws (st : Station) (p : PresenceRecord) : (s.setPresence st p).draws = s.draws := rfl
@[simp] theorem State.setPresence_pending (st : Station) (p : PresenceRecord) : (s.setPresence st p).pending = s.pending := rfl

/-! ### markPresent -/

@[simp] theorem State.markPresent_node (st : Station) : (s.markPresent st).node = s.node := rfl
@[simp] theorem State.markPresent_loader (st : Station) : (s.markPresent st).loader = s.loader := rfl
@[simp] theorem State.markPresent_ramp (st : Station) : (s.markPresent st).ramp = s.ramp := rfl
@[simp] theorem State.markPresent_image (st : Station) : (s.markPresent st).image = s.image := rfl
@[simp] theorem State.markPresent_pace (st : Station) : (s.markPresent st).pace = s.pace := rfl
@[simp] theorem State.markPresent_table (st : Station) : (s.markPresent st).table = s.table := rfl
@[simp] theorem State.markPresent_laws (st : Station) : (s.markPresent st).laws = s.laws := rfl
@[simp] theorem State.markPresent_channels (st : Station) : (s.markPresent st).channels = s.channels := rfl
@[simp] theorem State.markPresent_emission (st : Station) : (s.markPresent st).emission = s.emission := rfl
@[simp] theorem State.markPresent_library (st : Station) : (s.markPresent st).library = s.library := rfl
@[simp] theorem State.markPresent_ports (st : Station) : (s.markPresent st).ports = s.ports := rfl
@[simp] theorem State.markPresent_stats (st : Station) : (s.markPresent st).stats = s.stats := rfl
@[simp] theorem State.markPresent_draws (st : Station) : (s.markPresent st).draws = s.draws := rfl
@[simp] theorem State.markPresent_pending (st : Station) : (s.markPresent st).pending = s.pending := rfl

/-! ### clearSource -/

@[simp] theorem State.clearSource_node (w : Source) : (s.clearSource w).node = s.node := rfl
@[simp] theorem State.clearSource_loader (w : Source) : (s.clearSource w).loader = s.loader := rfl
@[simp] theorem State.clearSource_ramp (w : Source) : (s.clearSource w).ramp = s.ramp := rfl
@[simp] theorem State.clearSource_image (w : Source) : (s.clearSource w).image = s.image := rfl
@[simp] theorem State.clearSource_table (w : Source) : (s.clearSource w).table = s.table := rfl
@[simp] theorem State.clearSource_laws (w : Source) : (s.clearSource w).laws = s.laws := rfl
@[simp] theorem State.clearSource_channels (w : Source) : (s.clearSource w).channels = s.channels := rfl
@[simp] theorem State.clearSource_emission (w : Source) : (s.clearSource w).emission = s.emission := rfl
@[simp] theorem State.clearSource_library (w : Source) : (s.clearSource w).library = s.library := rfl
@[simp] theorem State.clearSource_ports (w : Source) : (s.clearSource w).ports = s.ports := rfl
@[simp] theorem State.clearSource_link (w : Source) : (s.clearSource w).link = s.link := rfl
@[simp] theorem State.clearSource_stats (w : Source) : (s.clearSource w).stats = s.stats := rfl
@[simp] theorem State.clearSource_draws (w : Source) : (s.clearSource w).draws = s.draws := rfl
@[simp] theorem State.clearSource_pending (w : Source) : (s.clearSource w).pending = s.pending := rfl

/-! ### recordStamp -/

@[simp] theorem State.recordStamp_node (z : Zone) (o : Station) (b : Byte) : (s.recordStamp z o b).node = s.node := rfl
@[simp] theorem State.recordStamp_loader (z : Zone) (o : Station) (b : Byte) : (s.recordStamp z o b).loader = s.loader := rfl
@[simp] theorem State.recordStamp_ramp (z : Zone) (o : Station) (b : Byte) : (s.recordStamp z o b).ramp = s.ramp := rfl
@[simp] theorem State.recordStamp_pace (z : Zone) (o : Station) (b : Byte) : (s.recordStamp z o b).pace = s.pace := rfl
@[simp] theorem State.recordStamp_table (z : Zone) (o : Station) (b : Byte) : (s.recordStamp z o b).table = s.table := rfl
@[simp] theorem State.recordStamp_laws (z : Zone) (o : Station) (b : Byte) : (s.recordStamp z o b).laws = s.laws := rfl
@[simp] theorem State.recordStamp_channels (z : Zone) (o : Station) (b : Byte) : (s.recordStamp z o b).channels = s.channels := rfl
@[simp] theorem State.recordStamp_emission (z : Zone) (o : Station) (b : Byte) : (s.recordStamp z o b).emission = s.emission := rfl
@[simp] theorem State.recordStamp_library (z : Zone) (o : Station) (b : Byte) : (s.recordStamp z o b).library = s.library := rfl
@[simp] theorem State.recordStamp_ports (z : Zone) (o : Station) (b : Byte) : (s.recordStamp z o b).ports = s.ports := rfl
@[simp] theorem State.recordStamp_link (z : Zone) (o : Station) (b : Byte) : (s.recordStamp z o b).link = s.link := rfl
@[simp] theorem State.recordStamp_stats (z : Zone) (o : Station) (b : Byte) : (s.recordStamp z o b).stats = s.stats := rfl
@[simp] theorem State.recordStamp_draws (z : Zone) (o : Station) (b : Byte) : (s.recordStamp z o b).draws = s.draws := rfl
@[simp] theorem State.recordStamp_pending (z : Zone) (o : Station) (b : Byte) : (s.recordStamp z o b).pending = s.pending := rfl

/-! ### removeOrigins -/

@[simp] theorem State.removeOrigins_node (o : Station) : (s.removeOrigins o).node = s.node := by simp only [State.removeOrigins]
@[simp] theorem State.removeOrigins_loader (o : Station) : (s.removeOrigins o).loader = s.loader := by simp only [State.removeOrigins]
@[simp] theorem State.removeOrigins_ramp (o : Station) : (s.removeOrigins o).ramp = s.ramp := by simp only [State.removeOrigins]
@[simp] theorem State.removeOrigins_pace (o : Station) : (s.removeOrigins o).pace = s.pace := by simp only [State.removeOrigins]
@[simp] theorem State.removeOrigins_table (o : Station) : (s.removeOrigins o).table = s.table := by simp only [State.removeOrigins]
@[simp] theorem State.removeOrigins_laws (o : Station) : (s.removeOrigins o).laws = s.laws := by simp only [State.removeOrigins]
@[simp] theorem State.removeOrigins_channels (o : Station) : (s.removeOrigins o).channels = s.channels := by simp only [State.removeOrigins]
@[simp] theorem State.removeOrigins_emission (o : Station) : (s.removeOrigins o).emission = s.emission := by simp only [State.removeOrigins]
@[simp] theorem State.removeOrigins_library (o : Station) : (s.removeOrigins o).library = s.library := by simp only [State.removeOrigins]
@[simp] theorem State.removeOrigins_ports (o : Station) : (s.removeOrigins o).ports = s.ports := by simp only [State.removeOrigins]
@[simp] theorem State.removeOrigins_link (o : Station) : (s.removeOrigins o).link = s.link := by simp only [State.removeOrigins]
@[simp] theorem State.removeOrigins_stats (o : Station) : (s.removeOrigins o).stats = s.stats := by simp only [State.removeOrigins]
@[simp] theorem State.removeOrigins_draws (o : Station) : (s.removeOrigins o).draws = s.draws := by simp only [State.removeOrigins]
@[simp] theorem State.removeOrigins_pending (o : Station) : (s.removeOrigins o).pending = s.pending := by simp only [State.removeOrigins]

/-! ### emptyOrigins -/

@[simp] theorem State.emptyOrigins_node : (s.emptyOrigins).node = s.node := by simp only [State.emptyOrigins]
@[simp] theorem State.emptyOrigins_loader : (s.emptyOrigins).loader = s.loader := by simp only [State.emptyOrigins]
@[simp] theorem State.emptyOrigins_ramp : (s.emptyOrigins).ramp = s.ramp := by simp only [State.emptyOrigins]
@[simp] theorem State.emptyOrigins_pace : (s.emptyOrigins).pace = s.pace := by simp only [State.emptyOrigins]
@[simp] theorem State.emptyOrigins_table : (s.emptyOrigins).table = s.table := by simp only [State.emptyOrigins]
@[simp] theorem State.emptyOrigins_laws : (s.emptyOrigins).laws = s.laws := by simp only [State.emptyOrigins]
@[simp] theorem State.emptyOrigins_channels : (s.emptyOrigins).channels = s.channels := by simp only [State.emptyOrigins]
@[simp] theorem State.emptyOrigins_emission : (s.emptyOrigins).emission = s.emission := by simp only [State.emptyOrigins]
@[simp] theorem State.emptyOrigins_library : (s.emptyOrigins).library = s.library := by simp only [State.emptyOrigins]
@[simp] theorem State.emptyOrigins_ports : (s.emptyOrigins).ports = s.ports := by simp only [State.emptyOrigins]
@[simp] theorem State.emptyOrigins_link : (s.emptyOrigins).link = s.link := by simp only [State.emptyOrigins]
@[simp] theorem State.emptyOrigins_stats : (s.emptyOrigins).stats = s.stats := by simp only [State.emptyOrigins]
@[simp] theorem State.emptyOrigins_draws : (s.emptyOrigins).draws = s.draws := by simp only [State.emptyOrigins]
@[simp] theorem State.emptyOrigins_pending : (s.emptyOrigins).pending = s.pending := by simp only [State.emptyOrigins]

/-! ### sleepPace -/

@[simp] theorem State.sleepPace_node : (s.sleepPace).node = s.node := rfl
@[simp] theorem State.sleepPace_loader : (s.sleepPace).loader = s.loader := rfl
@[simp] theorem State.sleepPace_ramp : (s.sleepPace).ramp = s.ramp := rfl
@[simp] theorem State.sleepPace_image : (s.sleepPace).image = s.image := rfl
@[simp] theorem State.sleepPace_table : (s.sleepPace).table = s.table := rfl
@[simp] theorem State.sleepPace_laws : (s.sleepPace).laws = s.laws := rfl
@[simp] theorem State.sleepPace_channels : (s.sleepPace).channels = s.channels := rfl
@[simp] theorem State.sleepPace_emission : (s.sleepPace).emission = s.emission := rfl
@[simp] theorem State.sleepPace_library : (s.sleepPace).library = s.library := rfl
@[simp] theorem State.sleepPace_ports : (s.sleepPace).ports = s.ports := rfl
@[simp] theorem State.sleepPace_link : (s.sleepPace).link = s.link := rfl
@[simp] theorem State.sleepPace_stats : (s.sleepPace).stats = s.stats := rfl
@[simp] theorem State.sleepPace_draws : (s.sleepPace).draws = s.draws := rfl
@[simp] theorem State.sleepPace_pending : (s.sleepPace).pending = s.pending := rfl

/-! ### requestPowerDown -/

@[simp] theorem State.requestPowerDown_node : (s.requestPowerDown).node = s.node := rfl
@[simp] theorem State.requestPowerDown_loader : (s.requestPowerDown).loader = s.loader := rfl
@[simp] theorem State.requestPowerDown_ramp : (s.requestPowerDown).ramp = s.ramp := rfl
@[simp] theorem State.requestPowerDown_image : (s.requestPowerDown).image = s.image := rfl
@[simp] theorem State.requestPowerDown_pace : (s.requestPowerDown).pace = s.pace := rfl
@[simp] theorem State.requestPowerDown_table : (s.requestPowerDown).table = s.table := rfl
@[simp] theorem State.requestPowerDown_laws : (s.requestPowerDown).laws = s.laws := rfl
@[simp] theorem State.requestPowerDown_channels : (s.requestPowerDown).channels = s.channels := rfl
@[simp] theorem State.requestPowerDown_emission : (s.requestPowerDown).emission = s.emission := rfl
@[simp] theorem State.requestPowerDown_ports : (s.requestPowerDown).ports = s.ports := rfl
@[simp] theorem State.requestPowerDown_link : (s.requestPowerDown).link = s.link := rfl
@[simp] theorem State.requestPowerDown_stats : (s.requestPowerDown).stats = s.stats := rfl
@[simp] theorem State.requestPowerDown_draws : (s.requestPowerDown).draws = s.draws := rfl
@[simp] theorem State.requestPowerDown_pending : (s.requestPowerDown).pending = s.pending := rfl

/-! ### attachQueued -/

@[simp] theorem State.attachQueued_node (k : CoefKey) (l : LineRef) : (s.attachQueued k l).node = s.node := by simp only [State.attachQueued, State.mapChannels]
@[simp] theorem State.attachQueued_loader (k : CoefKey) (l : LineRef) : (s.attachQueued k l).loader = s.loader := by simp only [State.attachQueued, State.mapChannels]
@[simp] theorem State.attachQueued_ramp (k : CoefKey) (l : LineRef) : (s.attachQueued k l).ramp = s.ramp := by simp only [State.attachQueued, State.mapChannels]
@[simp] theorem State.attachQueued_image (k : CoefKey) (l : LineRef) : (s.attachQueued k l).image = s.image := by simp only [State.attachQueued, State.mapChannels]
@[simp] theorem State.attachQueued_pace (k : CoefKey) (l : LineRef) : (s.attachQueued k l).pace = s.pace := by simp only [State.attachQueued, State.mapChannels]
@[simp] theorem State.attachQueued_table (k : CoefKey) (l : LineRef) : (s.attachQueued k l).table = s.table := by simp only [State.attachQueued, State.mapChannels]
@[simp] theorem State.attachQueued_laws (k : CoefKey) (l : LineRef) : (s.attachQueued k l).laws = s.laws := by simp only [State.attachQueued, State.mapChannels]
@[simp] theorem State.attachQueued_emission (k : CoefKey) (l : LineRef) : (s.attachQueued k l).emission = s.emission := by simp only [State.attachQueued, State.mapChannels]
@[simp] theorem State.attachQueued_library (k : CoefKey) (l : LineRef) : (s.attachQueued k l).library = s.library := by simp only [State.attachQueued, State.mapChannels]
@[simp] theorem State.attachQueued_ports (k : CoefKey) (l : LineRef) : (s.attachQueued k l).ports = s.ports := by simp only [State.attachQueued, State.mapChannels]
@[simp] theorem State.attachQueued_link (k : CoefKey) (l : LineRef) : (s.attachQueued k l).link = s.link := by simp only [State.attachQueued, State.mapChannels]
@[simp] theorem State.attachQueued_stats (k : CoefKey) (l : LineRef) : (s.attachQueued k l).stats = s.stats := by simp only [State.attachQueued, State.mapChannels]
@[simp] theorem State.attachQueued_draws (k : CoefKey) (l : LineRef) : (s.attachQueued k l).draws = s.draws := by simp only [State.attachQueued, State.mapChannels]
@[simp] theorem State.attachQueued_pending (k : CoefKey) (l : LineRef) : (s.attachQueued k l).pending = s.pending := by simp only [State.attachQueued, State.mapChannels]

/-! ### writeLinkTarget -/

@[simp] theorem State.writeLinkTarget_node (g : Group) : (s.writeLinkTarget g).node = s.node := rfl
@[simp] theorem State.writeLinkTarget_loader (g : Group) : (s.writeLinkTarget g).loader = s.loader := rfl
@[simp] theorem State.writeLinkTarget_image (g : Group) : (s.writeLinkTarget g).image = s.image := rfl
@[simp] theorem State.writeLinkTarget_pace (g : Group) : (s.writeLinkTarget g).pace = s.pace := rfl
@[simp] theorem State.writeLinkTarget_table (g : Group) : (s.writeLinkTarget g).table = s.table := rfl
@[simp] theorem State.writeLinkTarget_laws (g : Group) : (s.writeLinkTarget g).laws = s.laws := rfl
@[simp] theorem State.writeLinkTarget_channels (g : Group) : (s.writeLinkTarget g).channels = s.channels := rfl
@[simp] theorem State.writeLinkTarget_emission (g : Group) : (s.writeLinkTarget g).emission = s.emission := rfl
@[simp] theorem State.writeLinkTarget_library (g : Group) : (s.writeLinkTarget g).library = s.library := rfl
@[simp] theorem State.writeLinkTarget_ports (g : Group) : (s.writeLinkTarget g).ports = s.ports := rfl
@[simp] theorem State.writeLinkTarget_link (g : Group) : (s.writeLinkTarget g).link = s.link := rfl
@[simp] theorem State.writeLinkTarget_stats (g : Group) : (s.writeLinkTarget g).stats = s.stats := rfl
@[simp] theorem State.writeLinkTarget_draws (g : Group) : (s.writeLinkTarget g).draws = s.draws := rfl
@[simp] theorem State.writeLinkTarget_pending (g : Group) : (s.writeLinkTarget g).pending = s.pending := rfl

/-! ### writeDipTarget -/

@[simp] theorem State.writeDipTarget_node (z : Zone) (k : ChannelClass) : (s.writeDipTarget z k).node = s.node := rfl
@[simp] theorem State.writeDipTarget_loader (z : Zone) (k : ChannelClass) : (s.writeDipTarget z k).loader = s.loader := rfl
@[simp] theorem State.writeDipTarget_image (z : Zone) (k : ChannelClass) : (s.writeDipTarget z k).image = s.image := rfl
@[simp] theorem State.writeDipTarget_pace (z : Zone) (k : ChannelClass) : (s.writeDipTarget z k).pace = s.pace := rfl
@[simp] theorem State.writeDipTarget_table (z : Zone) (k : ChannelClass) : (s.writeDipTarget z k).table = s.table := rfl
@[simp] theorem State.writeDipTarget_laws (z : Zone) (k : ChannelClass) : (s.writeDipTarget z k).laws = s.laws := rfl
@[simp] theorem State.writeDipTarget_channels (z : Zone) (k : ChannelClass) : (s.writeDipTarget z k).channels = s.channels := rfl
@[simp] theorem State.writeDipTarget_emission (z : Zone) (k : ChannelClass) : (s.writeDipTarget z k).emission = s.emission := rfl
@[simp] theorem State.writeDipTarget_library (z : Zone) (k : ChannelClass) : (s.writeDipTarget z k).library = s.library := rfl
@[simp] theorem State.writeDipTarget_ports (z : Zone) (k : ChannelClass) : (s.writeDipTarget z k).ports = s.ports := rfl
@[simp] theorem State.writeDipTarget_link (z : Zone) (k : ChannelClass) : (s.writeDipTarget z k).link = s.link := rfl
@[simp] theorem State.writeDipTarget_stats (z : Zone) (k : ChannelClass) : (s.writeDipTarget z k).stats = s.stats := rfl
@[simp] theorem State.writeDipTarget_draws (z : Zone) (k : ChannelClass) : (s.writeDipTarget z k).draws = s.draws := rfl
@[simp] theorem State.writeDipTarget_pending (z : Zone) (k : ChannelClass) : (s.writeDipTarget z k).pending = s.pending := rfl

/-! ### runFrame -/

@[simp] theorem State.runFrame_node (w : Channel → Int) : (s.runFrame w).node = s.node := by simp only [State.runFrame]
@[simp] theorem State.runFrame_loader (w : Channel → Int) : (s.runFrame w).loader = s.loader := by simp only [State.runFrame]
@[simp] theorem State.runFrame_ramp (w : Channel → Int) : (s.runFrame w).ramp = s.ramp := by simp only [State.runFrame]
@[simp] theorem State.runFrame_image (w : Channel → Int) : (s.runFrame w).image = s.image := by simp only [State.runFrame]
@[simp] theorem State.runFrame_pace (w : Channel → Int) : (s.runFrame w).pace = s.pace := by simp only [State.runFrame]
@[simp] theorem State.runFrame_table (w : Channel → Int) : (s.runFrame w).table = s.table := by simp only [State.runFrame]
@[simp] theorem State.runFrame_laws (w : Channel → Int) : (s.runFrame w).laws = s.laws := by simp only [State.runFrame]
@[simp] theorem State.runFrame_emission (w : Channel → Int) : (s.runFrame w).emission = s.emission := by simp only [State.runFrame]
@[simp] theorem State.runFrame_library (w : Channel → Int) : (s.runFrame w).library = s.library := by simp only [State.runFrame]
@[simp] theorem State.runFrame_ports (w : Channel → Int) : (s.runFrame w).ports = s.ports := by simp only [State.runFrame]
@[simp] theorem State.runFrame_link (w : Channel → Int) : (s.runFrame w).link = s.link := by simp only [State.runFrame]
@[simp] theorem State.runFrame_stats (w : Channel → Int) : (s.runFrame w).stats = s.stats := by simp only [State.runFrame]
@[simp] theorem State.runFrame_draws (w : Channel → Int) : (s.runFrame w).draws = s.draws := by simp only [State.runFrame]
@[simp] theorem State.runFrame_pending (w : Channel → Int) : (s.runFrame w).pending = s.pending := by simp only [State.runFrame]

/-! ### countLink -/

@[simp] theorem State.countLink_node (c : LinkCounter) : (s.countLink c).node = s.node := by
  unfold State.countLink; split <;> rfl
@[simp] theorem State.countLink_loader (c : LinkCounter) : (s.countLink c).loader = s.loader := by
  unfold State.countLink; split <;> rfl
@[simp] theorem State.countLink_ramp (c : LinkCounter) : (s.countLink c).ramp = s.ramp := by
  unfold State.countLink; split <;> rfl
@[simp] theorem State.countLink_image (c : LinkCounter) : (s.countLink c).image = s.image := by
  unfold State.countLink; split <;> rfl
@[simp] theorem State.countLink_pace (c : LinkCounter) : (s.countLink c).pace = s.pace := by
  unfold State.countLink; split <;> rfl
@[simp] theorem State.countLink_table (c : LinkCounter) : (s.countLink c).table = s.table := by
  unfold State.countLink; split <;> rfl
@[simp] theorem State.countLink_laws (c : LinkCounter) : (s.countLink c).laws = s.laws := by
  unfold State.countLink; split <;> rfl
@[simp] theorem State.countLink_channels (c : LinkCounter) : (s.countLink c).channels = s.channels := by
  unfold State.countLink; split <;> rfl
@[simp] theorem State.countLink_emission (c : LinkCounter) : (s.countLink c).emission = s.emission := by
  unfold State.countLink; split <;> rfl
@[simp] theorem State.countLink_library (c : LinkCounter) : (s.countLink c).library = s.library := by
  unfold State.countLink; split <;> rfl
@[simp] theorem State.countLink_ports (c : LinkCounter) : (s.countLink c).ports = s.ports := by
  unfold State.countLink; split <;> rfl
@[simp] theorem State.countLink_link (c : LinkCounter) : (s.countLink c).link = s.link := by
  unfold State.countLink; split <;> rfl
@[simp] theorem State.countLink_draws (c : LinkCounter) : (s.countLink c).draws = s.draws := by
  unfold State.countLink; split <;> rfl
@[simp] theorem State.countLink_pending (c : LinkCounter) : (s.countLink c).pending = s.pending := by
  unfold State.countLink; split <;> rfl

/-! ### countChannel -/

@[simp] theorem State.countChannel_node (ch : Channel) (c : ChannelCounter) : (s.countChannel ch c).node = s.node := by
  unfold State.countChannel; split <;> rfl
@[simp] theorem State.countChannel_loader (ch : Channel) (c : ChannelCounter) : (s.countChannel ch c).loader = s.loader := by
  unfold State.countChannel; split <;> rfl
@[simp] theorem State.countChannel_ramp (ch : Channel) (c : ChannelCounter) : (s.countChannel ch c).ramp = s.ramp := by
  unfold State.countChannel; split <;> rfl
@[simp] theorem State.countChannel_image (ch : Channel) (c : ChannelCounter) : (s.countChannel ch c).image = s.image := by
  unfold State.countChannel; split <;> rfl
@[simp] theorem State.countChannel_pace (ch : Channel) (c : ChannelCounter) : (s.countChannel ch c).pace = s.pace := by
  unfold State.countChannel; split <;> rfl
@[simp] theorem State.countChannel_table (ch : Channel) (c : ChannelCounter) : (s.countChannel ch c).table = s.table := by
  unfold State.countChannel; split <;> rfl
@[simp] theorem State.countChannel_laws (ch : Channel) (c : ChannelCounter) : (s.countChannel ch c).laws = s.laws := by
  unfold State.countChannel; split <;> rfl
@[simp] theorem State.countChannel_channels (ch : Channel) (c : ChannelCounter) : (s.countChannel ch c).channels = s.channels := by
  unfold State.countChannel; split <;> rfl
@[simp] theorem State.countChannel_emission (ch : Channel) (c : ChannelCounter) : (s.countChannel ch c).emission = s.emission := by
  unfold State.countChannel; split <;> rfl
@[simp] theorem State.countChannel_library (ch : Channel) (c : ChannelCounter) : (s.countChannel ch c).library = s.library := by
  unfold State.countChannel; split <;> rfl
@[simp] theorem State.countChannel_ports (ch : Channel) (c : ChannelCounter) : (s.countChannel ch c).ports = s.ports := by
  unfold State.countChannel; split <;> rfl
@[simp] theorem State.countChannel_link (ch : Channel) (c : ChannelCounter) : (s.countChannel ch c).link = s.link := by
  unfold State.countChannel; split <;> rfl
@[simp] theorem State.countChannel_draws (ch : Channel) (c : ChannelCounter) : (s.countChannel ch c).draws = s.draws := by
  unfold State.countChannel; split <;> rfl
@[simp] theorem State.countChannel_pending (ch : Channel) (c : ChannelCounter) : (s.countChannel ch c).pending = s.pending := by
  unfold State.countChannel; split <;> rfl

/-! ### countCache -/

@[simp] theorem State.countCache_node (c : CacheCounter) : (s.countCache c).node = s.node := by
  unfold State.countCache; split <;> rfl
@[simp] theorem State.countCache_loader (c : CacheCounter) : (s.countCache c).loader = s.loader := by
  unfold State.countCache; split <;> rfl
@[simp] theorem State.countCache_ramp (c : CacheCounter) : (s.countCache c).ramp = s.ramp := by
  unfold State.countCache; split <;> rfl
@[simp] theorem State.countCache_image (c : CacheCounter) : (s.countCache c).image = s.image := by
  unfold State.countCache; split <;> rfl
@[simp] theorem State.countCache_pace (c : CacheCounter) : (s.countCache c).pace = s.pace := by
  unfold State.countCache; split <;> rfl
@[simp] theorem State.countCache_table (c : CacheCounter) : (s.countCache c).table = s.table := by
  unfold State.countCache; split <;> rfl
@[simp] theorem State.countCache_laws (c : CacheCounter) : (s.countCache c).laws = s.laws := by
  unfold State.countCache; split <;> rfl
@[simp] theorem State.countCache_channels (c : CacheCounter) : (s.countCache c).channels = s.channels := by
  unfold State.countCache; split <;> rfl
@[simp] theorem State.countCache_emission (c : CacheCounter) : (s.countCache c).emission = s.emission := by
  unfold State.countCache; split <;> rfl
@[simp] theorem State.countCache_library (c : CacheCounter) : (s.countCache c).library = s.library := by
  unfold State.countCache; split <;> rfl
@[simp] theorem State.countCache_ports (c : CacheCounter) : (s.countCache c).ports = s.ports := by
  unfold State.countCache; split <;> rfl
@[simp] theorem State.countCache_link (c : CacheCounter) : (s.countCache c).link = s.link := by
  unfold State.countCache; split <;> rfl
@[simp] theorem State.countCache_draws (c : CacheCounter) : (s.countCache c).draws = s.draws := by
  unfold State.countCache; split <;> rfl
@[simp] theorem State.countCache_pending (c : CacheCounter) : (s.countCache c).pending = s.pending := by
  unfold State.countCache; split <;> rfl

/-! ### Conditions -/

@[simp] theorem State.drawn_inReset : (s.drawn).inReset = s.inReset := rfl
@[simp] theorem State.drawn_dormant : (s.drawn).dormant = s.dormant := rfl
@[simp] theorem State.drawn_takesCues : (s.drawn).takesCues = s.takesCues := rfl
@[simp] theorem State.drawn_awake : (s.drawn).awake = s.awake := rfl
@[simp] theorem State.drawn_paced : (s.drawn).paced = s.paced := rfl
@[simp] theorem State.setChannel_inReset (c : Channel) (x : ChannelState) : (s.setChannel c x).inReset = s.inReset := rfl
@[simp] theorem State.setChannel_dormant (c : Channel) (x : ChannelState) : (s.setChannel c x).dormant = s.dormant := rfl
@[simp] theorem State.setChannel_takesCues (c : Channel) (x : ChannelState) : (s.setChannel c x).takesCues = s.takesCues := rfl
@[simp] theorem State.setChannel_awake (c : Channel) (x : ChannelState) : (s.setChannel c x).awake = s.awake := rfl
@[simp] theorem State.setChannel_paced (c : Channel) (x : ChannelState) : (s.setChannel c x).paced = s.paced := rfl
@[simp] theorem State.mapChannels_inReset (f : Channel → ChannelState → ChannelState) : (s.mapChannels f).inReset = s.inReset := by simp only [State.inReset, State.mapChannels]
@[simp] theorem State.mapChannels_dormant (f : Channel → ChannelState → ChannelState) : (s.mapChannels f).dormant = s.dormant := by simp only [State.dormant, State.mapChannels]
@[simp] theorem State.mapChannels_takesCues (f : Channel → ChannelState → ChannelState) : (s.mapChannels f).takesCues = s.takesCues := by simp only [State.takesCues, State.mapChannels]
@[simp] theorem State.mapChannels_awake (f : Channel → ChannelState → ChannelState) : (s.mapChannels f).awake = s.awake := by simp only [State.awake, State.mapChannels]
@[simp] theorem State.mapChannels_paced (f : Channel → ChannelState → ChannelState) : (s.mapChannels f).paced = s.paced := by simp only [State.paced, State.inReset, State.mapChannels]
@[simp] theorem State.setLine_inReset (l : LineRef) (x : Line) : (s.setLine l x).inReset = s.inReset := rfl
@[simp] theorem State.setLine_dormant (l : LineRef) (x : Line) : (s.setLine l x).dormant = s.dormant := rfl
@[simp] theorem State.setLine_takesCues (l : LineRef) (x : Line) : (s.setLine l x).takesCues = s.takesCues := rfl
@[simp] theorem State.setLine_awake (l : LineRef) (x : Line) : (s.setLine l x).awake = s.awake := rfl
@[simp] theorem State.setLine_paced (l : LineRef) (x : Line) : (s.setLine l x).paced = s.paced := rfl
@[simp] theorem State.setCacheSet_inReset (n : Fin 16) (x : CacheSet) : (s.setCacheSet n x).inReset = s.inReset := rfl
@[simp] theorem State.setCacheSet_dormant (n : Fin 16) (x : CacheSet) : (s.setCacheSet n x).dormant = s.dormant := rfl
@[simp] theorem State.setCacheSet_takesCues (n : Fin 16) (x : CacheSet) : (s.setCacheSet n x).takesCues = s.takesCues := rfl
@[simp] theorem State.setCacheSet_awake (n : Fin 16) (x : CacheSet) : (s.setCacheSet n x).awake = s.awake := rfl
@[simp] theorem State.setCacheSet_paced (n : Fin 16) (x : CacheSet) : (s.setCacheSet n x).paced = s.paced := rfl
@[simp] theorem State.setQueue_inReset (q : List QueueEntry) : (s.setQueue q).inReset = s.inReset := rfl
@[simp] theorem State.setQueue_dormant (q : List QueueEntry) : (s.setQueue q).dormant = s.dormant := rfl
@[simp] theorem State.setQueue_takesCues (q : List QueueEntry) : (s.setQueue q).takesCues = s.takesCues := rfl
@[simp] theorem State.setQueue_awake (q : List QueueEntry) : (s.setQueue q).awake = s.awake := rfl
@[simp] theorem State.setQueue_paced (q : List QueueEntry) : (s.setQueue q).paced = s.paced := rfl
@[simp] theorem State.setSlot_inReset (id : SlotId) (x : TermSlot) : (s.setSlot id x).inReset = s.inReset := rfl
@[simp] theorem State.setSlot_dormant (id : SlotId) (x : TermSlot) : (s.setSlot id x).dormant = s.dormant := rfl
@[simp] theorem State.setSlot_takesCues (id : SlotId) (x : TermSlot) : (s.setSlot id x).takesCues = s.takesCues := rfl
@[simp] theorem State.setSlot_awake (id : SlotId) (x : TermSlot) : (s.setSlot id x).awake = s.awake := rfl
@[simp] theorem State.setSlot_paced (id : SlotId) (x : TermSlot) : (s.setSlot id x).paced = s.paced := rfl
@[simp] theorem State.setImage_inReset (z : Zone) (x : ZoneImage) : (s.setImage z x).inReset = s.inReset := rfl
@[simp] theorem State.setImage_dormant (z : Zone) (x : ZoneImage) : (s.setImage z x).dormant = s.dormant := rfl
@[simp] theorem State.setImage_takesCues (z : Zone) (x : ZoneImage) : (s.setImage z x).takesCues = s.takesCues := rfl
@[simp] theorem State.setImage_awake (z : Zone) (x : ZoneImage) : (s.setImage z x).awake = s.awake := rfl
@[simp] theorem State.setImage_paced (z : Zone) (x : ZoneImage) : (s.setImage z x).paced = s.paced := rfl
@[simp] theorem State.setPace_inReset (x : PaceUnit) : (s.setPace x).inReset = s.inReset := rfl
@[simp] theorem State.setPace_dormant (x : PaceUnit) : (s.setPace x).dormant = s.dormant := rfl
@[simp] theorem State.setPace_takesCues (x : PaceUnit) : (s.setPace x).takesCues = s.takesCues := rfl
@[simp] theorem State.setPace_awake (x : PaceUnit) : (s.setPace x).awake = s.awake := rfl
@[simp] theorem State.setPace_paced (x : PaceUnit) : (s.setPace x).paced = s.paced := rfl
@[simp] theorem State.setTable_inReset (x : List Entry) : (s.setTable x).inReset = s.inReset := rfl
@[simp] theorem State.setTable_dormant (x : List Entry) : (s.setTable x).dormant = s.dormant := rfl
@[simp] theorem State.setTable_takesCues (x : List Entry) : (s.setTable x).takesCues = s.takesCues := rfl
@[simp] theorem State.setTable_awake (x : List Entry) : (s.setTable x).awake = s.awake := rfl
@[simp] theorem State.setTable_paced (x : List Entry) : (s.setTable x).paced = s.paced := rfl
@[simp] theorem State.setLink_inReset (x : LinkInterface) : (s.setLink x).inReset = s.inReset := rfl
@[simp] theorem State.setLink_dormant (x : LinkInterface) : (s.setLink x).dormant = s.dormant := rfl
@[simp] theorem State.setLink_takesCues (x : LinkInterface) : (s.setLink x).takesCues = s.takesCues := rfl
@[simp] theorem State.setLink_awake (x : LinkInterface) : (s.setLink x).awake = s.awake := rfl
@[simp] theorem State.setLink_paced (x : LinkInterface) : (s.setLink x).paced = s.paced := rfl
@[simp] theorem State.setEmission_inReset (x : Emission) : (s.setEmission x).inReset = s.inReset := rfl
@[simp] theorem State.setEmission_dormant (x : Emission) : (s.setEmission x).dormant = s.dormant := rfl
@[simp] theorem State.setEmission_takesCues (x : Emission) : (s.setEmission x).takesCues = s.takesCues := rfl
@[simp] theorem State.setEmission_awake (x : Emission) : (s.setEmission x).awake = s.awake := rfl
@[simp] theorem State.setEmission_paced (x : Emission) : (s.setEmission x).paced = s.paced := rfl
@[simp] theorem State.setLibrary_inReset (x : Library) : (s.setLibrary x).inReset = s.inReset := rfl
@[simp] theorem State.setLibrary_dormant (x : Library) : (s.setLibrary x).dormant = s.dormant := rfl
@[simp] theorem State.setLibrary_takesCues (x : Library) : (s.setLibrary x).takesCues = s.takesCues := rfl
@[simp] theorem State.setLibrary_awake (x : Library) : (s.setLibrary x).awake = s.awake := rfl
@[simp] theorem State.setLibrary_paced (x : Library) : (s.setLibrary x).paced = s.paced := rfl
@[simp] theorem State.setLoader_inReset (x : Loader) : (s.setLoader x).inReset = s.inReset := rfl
@[simp] theorem State.setLoader_dormant (x : Loader) : (s.setLoader x).dormant = s.dormant := rfl
@[simp] theorem State.setLoader_takesCues (x : Loader) : (s.setLoader x).takesCues = s.takesCues := rfl
@[simp] theorem State.setLoader_awake (x : Loader) : (s.setLoader x).awake = s.awake := rfl
@[simp] theorem State.setLoader_paced (x : Loader) : (s.setLoader x).paced = s.paced := rfl
@[simp] theorem State.setPorts_inReset (x : AudioPorts) : (s.setPorts x).inReset = s.inReset := rfl
@[simp] theorem State.setPorts_dormant (x : AudioPorts) : (s.setPorts x).dormant = s.dormant := rfl
@[simp] theorem State.setPorts_takesCues (x : AudioPorts) : (s.setPorts x).takesCues = s.takesCues := rfl
@[simp] theorem State.setPorts_awake (x : AudioPorts) : (s.setPorts x).awake = s.awake := rfl
@[simp] theorem State.setPorts_paced (x : AudioPorts) : (s.setPorts x).paced = s.paced := rfl
@[simp] theorem State.writeTarget_inReset (id : SlotId) (v : Int) : (s.writeTarget id v).inReset = s.inReset := rfl
@[simp] theorem State.writeTarget_dormant (id : SlotId) (v : Int) : (s.writeTarget id v).dormant = s.dormant := rfl
@[simp] theorem State.writeTarget_takesCues (id : SlotId) (v : Int) : (s.writeTarget id v).takesCues = s.takesCues := rfl
@[simp] theorem State.writeTarget_awake (id : SlotId) (v : Int) : (s.writeTarget id v).awake = s.awake := rfl
@[simp] theorem State.writeTarget_paced (id : SlotId) (v : Int) : (s.writeTarget id v).paced = s.paced := rfl
@[simp] theorem State.initialTarget_inReset (id : SlotId) (v : Int) : (s.initialTarget id v).inReset = s.inReset := rfl
@[simp] theorem State.initialTarget_dormant (id : SlotId) (v : Int) : (s.initialTarget id v).dormant = s.dormant := rfl
@[simp] theorem State.initialTarget_takesCues (id : SlotId) (v : Int) : (s.initialTarget id v).takesCues = s.takesCues := rfl
@[simp] theorem State.initialTarget_awake (id : SlotId) (v : Int) : (s.initialTarget id v).awake = s.awake := rfl
@[simp] theorem State.initialTarget_paced (id : SlotId) (v : Int) : (s.initialTarget id v).paced = s.paced := rfl
@[simp] theorem State.rampStep_inReset : (s.rampStep).inReset = s.inReset := by simp only [State.inReset, State.rampStep]
@[simp] theorem State.rampStep_dormant : (s.rampStep).dormant = s.dormant := by simp only [State.dormant, State.rampStep]
@[simp] theorem State.rampStep_takesCues : (s.rampStep).takesCues = s.takesCues := by simp only [State.takesCues, State.rampStep]
@[simp] theorem State.rampStep_awake : (s.rampStep).awake = s.awake := by simp only [State.awake, State.rampStep]
@[simp] theorem State.rampStep_paced : (s.rampStep).paced = s.paced := by simp only [State.paced, State.inReset, State.rampStep]
@[simp] theorem State.forceNodeMute_inReset : (s.forceNodeMute).inReset = s.inReset := rfl
@[simp] theorem State.forceNodeMute_dormant : (s.forceNodeMute).dormant = s.dormant := rfl
@[simp] theorem State.forceNodeMute_takesCues : (s.forceNodeMute).takesCues = s.takesCues := rfl
@[simp] theorem State.forceNodeMute_awake : (s.forceNodeMute).awake = s.awake := rfl
@[simp] theorem State.forceNodeMute_paced : (s.forceNodeMute).paced = s.paced := rfl
@[simp] theorem State.settleSlots_inReset : (s.settleSlots).inReset = s.inReset := by simp only [State.inReset, State.settleSlots]
@[simp] theorem State.settleSlots_dormant : (s.settleSlots).dormant = s.dormant := by simp only [State.dormant, State.settleSlots]
@[simp] theorem State.settleSlots_takesCues : (s.settleSlots).takesCues = s.takesCues := by simp only [State.takesCues, State.settleSlots]
@[simp] theorem State.settleSlots_awake : (s.settleSlots).awake = s.awake := by simp only [State.awake, State.settleSlots]
@[simp] theorem State.settleSlots_paced : (s.settleSlots).paced = s.paced := by simp only [State.paced, State.inReset, State.settleSlots]
@[simp] theorem State.formNodeTarget_inReset : (s.formNodeTarget).inReset = s.inReset := rfl
@[simp] theorem State.formNodeTarget_dormant : (s.formNodeTarget).dormant = s.dormant := rfl
@[simp] theorem State.formNodeTarget_takesCues : (s.formNodeTarget).takesCues = s.takesCues := rfl
@[simp] theorem State.formNodeTarget_awake : (s.formNodeTarget).awake = s.awake := rfl
@[simp] theorem State.formNodeTarget_paced : (s.formNodeTarget).paced = s.paced := rfl
@[simp] theorem State.setRequest_inReset (c : Channel) (r : Request) : (s.setRequest c r).inReset = s.inReset := rfl
@[simp] theorem State.setRequest_dormant (c : Channel) (r : Request) : (s.setRequest c r).dormant = s.dormant := rfl
@[simp] theorem State.setRequest_takesCues (c : Channel) (r : Request) : (s.setRequest c r).takesCues = s.takesCues := rfl
@[simp] theorem State.setRequest_awake (c : Channel) (r : Request) : (s.setRequest c r).awake = s.awake := rfl
@[simp] theorem State.setRequest_paced (c : Channel) (r : Request) : (s.setRequest c r).paced = s.paced := rfl
@[simp] theorem State.invalidate_inReset (l : LineRef) : (s.invalidate l).inReset = s.inReset := rfl
@[simp] theorem State.invalidate_dormant (l : LineRef) : (s.invalidate l).dormant = s.dormant := rfl
@[simp] theorem State.invalidate_takesCues (l : LineRef) : (s.invalidate l).takesCues = s.takesCues := rfl
@[simp] theorem State.invalidate_awake (l : LineRef) : (s.invalidate l).awake = s.awake := rfl
@[simp] theorem State.invalidate_paced (l : LineRef) : (s.invalidate l).paced = s.paced := rfl
@[simp] theorem State.pin_inReset (l : LineRef) : (s.pin l).inReset = s.inReset := rfl
@[simp] theorem State.pin_dormant (l : LineRef) : (s.pin l).dormant = s.dormant := rfl
@[simp] theorem State.pin_takesCues (l : LineRef) : (s.pin l).takesCues = s.takesCues := rfl
@[simp] theorem State.pin_awake (l : LineRef) : (s.pin l).awake = s.awake := rfl
@[simp] theorem State.pin_paced (l : LineRef) : (s.pin l).paced = s.paced := rfl
@[simp] theorem State.setPresence_inReset (st : Station) (p : PresenceRecord) : (s.setPresence st p).inReset = s.inReset := rfl
@[simp] theorem State.setPresence_dormant (st : Station) (p : PresenceRecord) : (s.setPresence st p).dormant = s.dormant := rfl
@[simp] theorem State.setPresence_takesCues (st : Station) (p : PresenceRecord) : (s.setPresence st p).takesCues = s.takesCues := rfl
@[simp] theorem State.setPresence_awake (st : Station) (p : PresenceRecord) : (s.setPresence st p).awake = s.awake := rfl
@[simp] theorem State.setPresence_paced (st : Station) (p : PresenceRecord) : (s.setPresence st p).paced = s.paced := rfl
@[simp] theorem State.markPresent_inReset (st : Station) : (s.markPresent st).inReset = s.inReset := rfl
@[simp] theorem State.markPresent_dormant (st : Station) : (s.markPresent st).dormant = s.dormant := rfl
@[simp] theorem State.markPresent_takesCues (st : Station) : (s.markPresent st).takesCues = s.takesCues := rfl
@[simp] theorem State.markPresent_awake (st : Station) : (s.markPresent st).awake = s.awake := rfl
@[simp] theorem State.markPresent_paced (st : Station) : (s.markPresent st).paced = s.paced := rfl
@[simp] theorem State.clearSource_inReset (w : Source) : (s.clearSource w).inReset = s.inReset := rfl
@[simp] theorem State.clearSource_dormant (w : Source) : (s.clearSource w).dormant = s.dormant := rfl
@[simp] theorem State.clearSource_takesCues (w : Source) : (s.clearSource w).takesCues = s.takesCues := rfl
@[simp] theorem State.clearSource_awake (w : Source) : (s.clearSource w).awake = s.awake := rfl
@[simp] theorem State.clearSource_paced (w : Source) : (s.clearSource w).paced = s.paced := rfl
@[simp] theorem State.recordStamp_inReset (z : Zone) (o : Station) (b : Byte) : (s.recordStamp z o b).inReset = s.inReset := rfl
@[simp] theorem State.recordStamp_dormant (z : Zone) (o : Station) (b : Byte) : (s.recordStamp z o b).dormant = s.dormant := rfl
@[simp] theorem State.recordStamp_takesCues (z : Zone) (o : Station) (b : Byte) : (s.recordStamp z o b).takesCues = s.takesCues := rfl
@[simp] theorem State.recordStamp_awake (z : Zone) (o : Station) (b : Byte) : (s.recordStamp z o b).awake = s.awake := rfl
@[simp] theorem State.recordStamp_paced (z : Zone) (o : Station) (b : Byte) : (s.recordStamp z o b).paced = s.paced := rfl
@[simp] theorem State.removeOrigins_inReset (o : Station) : (s.removeOrigins o).inReset = s.inReset := by simp only [State.inReset, State.removeOrigins]
@[simp] theorem State.removeOrigins_dormant (o : Station) : (s.removeOrigins o).dormant = s.dormant := by simp only [State.dormant, State.removeOrigins]
@[simp] theorem State.removeOrigins_takesCues (o : Station) : (s.removeOrigins o).takesCues = s.takesCues := by simp only [State.takesCues, State.removeOrigins]
@[simp] theorem State.removeOrigins_awake (o : Station) : (s.removeOrigins o).awake = s.awake := by simp only [State.awake, State.removeOrigins]
@[simp] theorem State.removeOrigins_paced (o : Station) : (s.removeOrigins o).paced = s.paced := by simp only [State.paced, State.inReset, State.removeOrigins]
@[simp] theorem State.emptyOrigins_inReset : (s.emptyOrigins).inReset = s.inReset := by simp only [State.inReset, State.emptyOrigins]
@[simp] theorem State.emptyOrigins_dormant : (s.emptyOrigins).dormant = s.dormant := by simp only [State.dormant, State.emptyOrigins]
@[simp] theorem State.emptyOrigins_takesCues : (s.emptyOrigins).takesCues = s.takesCues := by simp only [State.takesCues, State.emptyOrigins]
@[simp] theorem State.emptyOrigins_awake : (s.emptyOrigins).awake = s.awake := by simp only [State.awake, State.emptyOrigins]
@[simp] theorem State.emptyOrigins_paced : (s.emptyOrigins).paced = s.paced := by simp only [State.paced, State.inReset, State.emptyOrigins]
@[simp] theorem State.sleepPace_inReset : (s.sleepPace).inReset = s.inReset := rfl
@[simp] theorem State.sleepPace_dormant : (s.sleepPace).dormant = s.dormant := rfl
@[simp] theorem State.sleepPace_takesCues : (s.sleepPace).takesCues = s.takesCues := rfl
@[simp] theorem State.sleepPace_awake : (s.sleepPace).awake = s.awake := rfl
@[simp] theorem State.sleepPace_paced : (s.sleepPace).paced = s.paced := rfl
@[simp] theorem State.requestPowerDown_inReset : (s.requestPowerDown).inReset = s.inReset := rfl
@[simp] theorem State.requestPowerDown_dormant : (s.requestPowerDown).dormant = s.dormant := rfl
@[simp] theorem State.requestPowerDown_takesCues : (s.requestPowerDown).takesCues = s.takesCues := rfl
@[simp] theorem State.requestPowerDown_awake : (s.requestPowerDown).awake = s.awake := rfl
@[simp] theorem State.requestPowerDown_paced : (s.requestPowerDown).paced = s.paced := rfl
@[simp] theorem State.attachQueued_inReset (k : CoefKey) (l : LineRef) : (s.attachQueued k l).inReset = s.inReset := by simp only [State.inReset, State.attachQueued, State.mapChannels]
@[simp] theorem State.attachQueued_dormant (k : CoefKey) (l : LineRef) : (s.attachQueued k l).dormant = s.dormant := by simp only [State.dormant, State.attachQueued, State.mapChannels]
@[simp] theorem State.attachQueued_takesCues (k : CoefKey) (l : LineRef) : (s.attachQueued k l).takesCues = s.takesCues := by simp only [State.takesCues, State.attachQueued, State.mapChannels]
@[simp] theorem State.attachQueued_awake (k : CoefKey) (l : LineRef) : (s.attachQueued k l).awake = s.awake := by simp only [State.awake, State.attachQueued, State.mapChannels]
@[simp] theorem State.attachQueued_paced (k : CoefKey) (l : LineRef) : (s.attachQueued k l).paced = s.paced := by simp only [State.paced, State.inReset, State.attachQueued, State.mapChannels]
@[simp] theorem State.writeLinkTarget_inReset (g : Group) : (s.writeLinkTarget g).inReset = s.inReset := rfl
@[simp] theorem State.writeLinkTarget_dormant (g : Group) : (s.writeLinkTarget g).dormant = s.dormant := rfl
@[simp] theorem State.writeLinkTarget_takesCues (g : Group) : (s.writeLinkTarget g).takesCues = s.takesCues := rfl
@[simp] theorem State.writeLinkTarget_awake (g : Group) : (s.writeLinkTarget g).awake = s.awake := rfl
@[simp] theorem State.writeLinkTarget_paced (g : Group) : (s.writeLinkTarget g).paced = s.paced := rfl
@[simp] theorem State.writeDipTarget_inReset (z : Zone) (k : ChannelClass) : (s.writeDipTarget z k).inReset = s.inReset := rfl
@[simp] theorem State.writeDipTarget_dormant (z : Zone) (k : ChannelClass) : (s.writeDipTarget z k).dormant = s.dormant := rfl
@[simp] theorem State.writeDipTarget_takesCues (z : Zone) (k : ChannelClass) : (s.writeDipTarget z k).takesCues = s.takesCues := rfl
@[simp] theorem State.writeDipTarget_awake (z : Zone) (k : ChannelClass) : (s.writeDipTarget z k).awake = s.awake := rfl
@[simp] theorem State.writeDipTarget_paced (z : Zone) (k : ChannelClass) : (s.writeDipTarget z k).paced = s.paced := rfl
@[simp] theorem State.runFrame_inReset (w : Channel → Int) : (s.runFrame w).inReset = s.inReset := by simp only [State.inReset, State.runFrame]
@[simp] theorem State.runFrame_dormant (w : Channel → Int) : (s.runFrame w).dormant = s.dormant := by simp only [State.dormant, State.runFrame]
@[simp] theorem State.runFrame_takesCues (w : Channel → Int) : (s.runFrame w).takesCues = s.takesCues := by simp only [State.takesCues, State.runFrame]
@[simp] theorem State.runFrame_awake (w : Channel → Int) : (s.runFrame w).awake = s.awake := by simp only [State.awake, State.runFrame]
@[simp] theorem State.runFrame_paced (w : Channel → Int) : (s.runFrame w).paced = s.paced := by simp only [State.paced, State.inReset, State.runFrame]
@[simp] theorem State.countLink_inReset (c : LinkCounter) : (s.countLink c).inReset = s.inReset := by
  unfold State.countLink; split <;> rfl
@[simp] theorem State.countLink_dormant (c : LinkCounter) : (s.countLink c).dormant = s.dormant := by
  unfold State.countLink; split <;> rfl
@[simp] theorem State.countLink_takesCues (c : LinkCounter) : (s.countLink c).takesCues = s.takesCues := by
  unfold State.countLink; split <;> rfl
@[simp] theorem State.countLink_awake (c : LinkCounter) : (s.countLink c).awake = s.awake := by
  unfold State.countLink; split <;> rfl
@[simp] theorem State.countLink_paced (c : LinkCounter) : (s.countLink c).paced = s.paced := by
  unfold State.countLink; split <;> rfl
@[simp] theorem State.countChannel_inReset (ch : Channel) (c : ChannelCounter) : (s.countChannel ch c).inReset = s.inReset := by
  unfold State.countChannel; split <;> rfl
@[simp] theorem State.countChannel_dormant (ch : Channel) (c : ChannelCounter) : (s.countChannel ch c).dormant = s.dormant := by
  unfold State.countChannel; split <;> rfl
@[simp] theorem State.countChannel_takesCues (ch : Channel) (c : ChannelCounter) : (s.countChannel ch c).takesCues = s.takesCues := by
  unfold State.countChannel; split <;> rfl
@[simp] theorem State.countChannel_awake (ch : Channel) (c : ChannelCounter) : (s.countChannel ch c).awake = s.awake := by
  unfold State.countChannel; split <;> rfl
@[simp] theorem State.countChannel_paced (ch : Channel) (c : ChannelCounter) : (s.countChannel ch c).paced = s.paced := by
  unfold State.countChannel; split <;> rfl
@[simp] theorem State.countCache_inReset (c : CacheCounter) : (s.countCache c).inReset = s.inReset := by
  unfold State.countCache; split <;> rfl
@[simp] theorem State.countCache_dormant (c : CacheCounter) : (s.countCache c).dormant = s.dormant := by
  unfold State.countCache; split <;> rfl
@[simp] theorem State.countCache_takesCues (c : CacheCounter) : (s.countCache c).takesCues = s.takesCues := by
  unfold State.countCache; split <;> rfl
@[simp] theorem State.countCache_awake (c : CacheCounter) : (s.countCache c).awake = s.awake := by
  unfold State.countCache; split <;> rfl
@[simp] theorem State.countCache_paced (c : CacheCounter) : (s.countCache c).paced = s.paced := by
  unfold State.countCache; split <;> rfl

/-! ### Slots, lines and channels read after updates of other parts -/

@[simp] theorem State.drawn_slot (i : SlotId) : (s.drawn).slot i = s.slot i := rfl
@[simp] theorem State.drawn_line (m : LineRef) : (s.drawn).line m = s.line m := rfl
@[simp] theorem State.drawn_channel (d : Channel) : (s.drawn).channel d = s.channel d := rfl
@[simp] theorem State.setChannel_slot (c : Channel) (x : ChannelState) (i : SlotId) : (s.setChannel c x).slot i = s.slot i := rfl
@[simp] theorem State.setChannel_line (c : Channel) (x : ChannelState) (m : LineRef) : (s.setChannel c x).line m = s.line m := rfl
@[simp] theorem State.mapChannels_slot (f : Channel → ChannelState → ChannelState) (i : SlotId) : (s.mapChannels f).slot i = s.slot i := by simp only [State.slot, State.mapChannels]
@[simp] theorem State.mapChannels_line (f : Channel → ChannelState → ChannelState) (m : LineRef) : (s.mapChannels f).line m = s.line m := by simp only [State.line, State.mapChannels]
@[simp] theorem State.setLine_slot (l : LineRef) (x : Line) (i : SlotId) : (s.setLine l x).slot i = s.slot i := rfl
@[simp] theorem State.setLine_channel (l : LineRef) (x : Line) (d : Channel) : (s.setLine l x).channel d = s.channel d := rfl
@[simp] theorem State.setCacheSet_slot (n : Fin 16) (x : CacheSet) (i : SlotId) : (s.setCacheSet n x).slot i = s.slot i := rfl
@[simp] theorem State.setCacheSet_channel (n : Fin 16) (x : CacheSet) (d : Channel) : (s.setCacheSet n x).channel d = s.channel d := rfl
@[simp] theorem State.setQueue_slot (q : List QueueEntry) (i : SlotId) : (s.setQueue q).slot i = s.slot i := rfl
@[simp] theorem State.setQueue_channel (q : List QueueEntry) (d : Channel) : (s.setQueue q).channel d = s.channel d := rfl
@[simp] theorem State.setSlot_line (id : SlotId) (x : TermSlot) (m : LineRef) : (s.setSlot id x).line m = s.line m := rfl
@[simp] theorem State.setSlot_channel (id : SlotId) (x : TermSlot) (d : Channel) : (s.setSlot id x).channel d = s.channel d := rfl
@[simp] theorem State.setImage_slot (z : Zone) (x : ZoneImage) (i : SlotId) : (s.setImage z x).slot i = s.slot i := rfl
@[simp] theorem State.setImage_line (z : Zone) (x : ZoneImage) (m : LineRef) : (s.setImage z x).line m = s.line m := rfl
@[simp] theorem State.setImage_channel (z : Zone) (x : ZoneImage) (d : Channel) : (s.setImage z x).channel d = s.channel d := rfl
@[simp] theorem State.setPace_slot (x : PaceUnit) (i : SlotId) : (s.setPace x).slot i = s.slot i := rfl
@[simp] theorem State.setPace_line (x : PaceUnit) (m : LineRef) : (s.setPace x).line m = s.line m := rfl
@[simp] theorem State.setPace_channel (x : PaceUnit) (d : Channel) : (s.setPace x).channel d = s.channel d := rfl
@[simp] theorem State.setTable_slot (x : List Entry) (i : SlotId) : (s.setTable x).slot i = s.slot i := rfl
@[simp] theorem State.setTable_line (x : List Entry) (m : LineRef) : (s.setTable x).line m = s.line m := rfl
@[simp] theorem State.setTable_channel (x : List Entry) (d : Channel) : (s.setTable x).channel d = s.channel d := rfl
@[simp] theorem State.setLink_slot (x : LinkInterface) (i : SlotId) : (s.setLink x).slot i = s.slot i := rfl
@[simp] theorem State.setLink_line (x : LinkInterface) (m : LineRef) : (s.setLink x).line m = s.line m := rfl
@[simp] theorem State.setLink_channel (x : LinkInterface) (d : Channel) : (s.setLink x).channel d = s.channel d := rfl
@[simp] theorem State.setEmission_slot (x : Emission) (i : SlotId) : (s.setEmission x).slot i = s.slot i := rfl
@[simp] theorem State.setEmission_line (x : Emission) (m : LineRef) : (s.setEmission x).line m = s.line m := rfl
@[simp] theorem State.setEmission_channel (x : Emission) (d : Channel) : (s.setEmission x).channel d = s.channel d := rfl
@[simp] theorem State.setNode_slot (x : NodeControl) (i : SlotId) : (s.setNode x).slot i = s.slot i := rfl
@[simp] theorem State.setNode_line (x : NodeControl) (m : LineRef) : (s.setNode x).line m = s.line m := rfl
@[simp] theorem State.setNode_channel (x : NodeControl) (d : Channel) : (s.setNode x).channel d = s.channel d := rfl
@[simp] theorem State.setLibrary_slot (x : Library) (i : SlotId) : (s.setLibrary x).slot i = s.slot i := rfl
@[simp] theorem State.setLibrary_channel (x : Library) (d : Channel) : (s.setLibrary x).channel d = s.channel d := rfl
@[simp] theorem State.setLoader_slot (x : Loader) (i : SlotId) : (s.setLoader x).slot i = s.slot i := rfl
@[simp] theorem State.setLoader_line (x : Loader) (m : LineRef) : (s.setLoader x).line m = s.line m := rfl
@[simp] theorem State.setLoader_channel (x : Loader) (d : Channel) : (s.setLoader x).channel d = s.channel d := rfl
@[simp] theorem State.setPorts_slot (x : AudioPorts) (i : SlotId) : (s.setPorts x).slot i = s.slot i := rfl
@[simp] theorem State.setPorts_line (x : AudioPorts) (m : LineRef) : (s.setPorts x).line m = s.line m := rfl
@[simp] theorem State.setPorts_channel (x : AudioPorts) (d : Channel) : (s.setPorts x).channel d = s.channel d := rfl
@[simp] theorem State.writeTarget_line (id : SlotId) (v : Int) (m : LineRef) : (s.writeTarget id v).line m = s.line m := rfl
@[simp] theorem State.writeTarget_channel (id : SlotId) (v : Int) (d : Channel) : (s.writeTarget id v).channel d = s.channel d := rfl
@[simp] theorem State.initialTarget_line (id : SlotId) (v : Int) (m : LineRef) : (s.initialTarget id v).line m = s.line m := rfl
@[simp] theorem State.initialTarget_channel (id : SlotId) (v : Int) (d : Channel) : (s.initialTarget id v).channel d = s.channel d := rfl
@[simp] theorem State.rampStep_line (m : LineRef) : (s.rampStep).line m = s.line m := by simp only [State.line, State.rampStep]
@[simp] theorem State.rampStep_channel (d : Channel) : (s.rampStep).channel d = s.channel d := by simp only [State.channel, State.rampStep]
@[simp] theorem State.forceNodeMute_line (m : LineRef) : (s.forceNodeMute).line m = s.line m := rfl
@[simp] theorem State.forceNodeMute_channel (d : Channel) : (s.forceNodeMute).channel d = s.channel d := rfl
@[simp] theorem State.settleSlots_line (m : LineRef) : (s.settleSlots).line m = s.line m := by simp only [State.line, State.settleSlots]
@[simp] theorem State.settleSlots_channel (d : Channel) : (s.settleSlots).channel d = s.channel d := by simp only [State.channel, State.settleSlots]
@[simp] theorem State.formNodeTarget_line (m : LineRef) : (s.formNodeTarget).line m = s.line m := rfl
@[simp] theorem State.formNodeTarget_channel (d : Channel) : (s.formNodeTarget).channel d = s.channel d := rfl
@[simp] theorem State.setRequest_slot (c : Channel) (r : Request) (i : SlotId) : (s.setRequest c r).slot i = s.slot i := rfl
@[simp] theorem State.setRequest_line (c : Channel) (r : Request) (m : LineRef) : (s.setRequest c r).line m = s.line m := rfl
@[simp] theorem State.invalidate_slot (l : LineRef) (i : SlotId) : (s.invalidate l).slot i = s.slot i := rfl
@[simp] theorem State.invalidate_channel (l : LineRef) (d : Channel) : (s.invalidate l).channel d = s.channel d := rfl
@[simp] theorem State.pin_slot (l : LineRef) (i : SlotId) : (s.pin l).slot i = s.slot i := rfl
@[simp] theorem State.pin_channel (l : LineRef) (d : Channel) : (s.pin l).channel d = s.channel d := rfl
@[simp] theorem State.setPresence_slot (st : Station) (p : PresenceRecord) (i : SlotId) : (s.setPresence st p).slot i = s.slot i := rfl
@[simp] theorem State.setPresence_line (st : Station) (p : PresenceRecord) (m : LineRef) : (s.setPresence st p).line m = s.line m := rfl
@[simp] theorem State.setPresence_channel (st : Station) (p : PresenceRecord) (d : Channel) : (s.setPresence st p).channel d = s.channel d := rfl
@[simp] theorem State.markPresent_slot (st : Station) (i : SlotId) : (s.markPresent st).slot i = s.slot i := rfl
@[simp] theorem State.markPresent_line (st : Station) (m : LineRef) : (s.markPresent st).line m = s.line m := rfl
@[simp] theorem State.markPresent_channel (st : Station) (d : Channel) : (s.markPresent st).channel d = s.channel d := rfl
@[simp] theorem State.clearSource_slot (w : Source) (i : SlotId) : (s.clearSource w).slot i = s.slot i := rfl
@[simp] theorem State.clearSource_line (w : Source) (m : LineRef) : (s.clearSource w).line m = s.line m := rfl
@[simp] theorem State.clearSource_channel (w : Source) (d : Channel) : (s.clearSource w).channel d = s.channel d := rfl
@[simp] theorem State.recordStamp_slot (z : Zone) (o : Station) (b : Byte) (i : SlotId) : (s.recordStamp z o b).slot i = s.slot i := rfl
@[simp] theorem State.recordStamp_line (z : Zone) (o : Station) (b : Byte) (m : LineRef) : (s.recordStamp z o b).line m = s.line m := rfl
@[simp] theorem State.recordStamp_channel (z : Zone) (o : Station) (b : Byte) (d : Channel) : (s.recordStamp z o b).channel d = s.channel d := rfl
@[simp] theorem State.removeOrigins_slot (o : Station) (i : SlotId) : (s.removeOrigins o).slot i = s.slot i := by simp only [State.slot, State.removeOrigins]
@[simp] theorem State.removeOrigins_line (o : Station) (m : LineRef) : (s.removeOrigins o).line m = s.line m := by simp only [State.line, State.removeOrigins]
@[simp] theorem State.removeOrigins_channel (o : Station) (d : Channel) : (s.removeOrigins o).channel d = s.channel d := by simp only [State.channel, State.removeOrigins]
@[simp] theorem State.emptyOrigins_slot (i : SlotId) : (s.emptyOrigins).slot i = s.slot i := by simp only [State.slot, State.emptyOrigins]
@[simp] theorem State.emptyOrigins_line (m : LineRef) : (s.emptyOrigins).line m = s.line m := by simp only [State.line, State.emptyOrigins]
@[simp] theorem State.emptyOrigins_channel (d : Channel) : (s.emptyOrigins).channel d = s.channel d := by simp only [State.channel, State.emptyOrigins]
@[simp] theorem State.sleepPace_slot (i : SlotId) : (s.sleepPace).slot i = s.slot i := rfl
@[simp] theorem State.sleepPace_line (m : LineRef) : (s.sleepPace).line m = s.line m := rfl
@[simp] theorem State.sleepPace_channel (d : Channel) : (s.sleepPace).channel d = s.channel d := rfl
@[simp] theorem State.requestPowerDown_slot (i : SlotId) : (s.requestPowerDown).slot i = s.slot i := rfl
@[simp] theorem State.requestPowerDown_channel (d : Channel) : (s.requestPowerDown).channel d = s.channel d := rfl
@[simp] theorem State.attachQueued_slot (k : CoefKey) (l : LineRef) (i : SlotId) : (s.attachQueued k l).slot i = s.slot i := by simp only [State.slot, State.attachQueued, State.mapChannels]
@[simp] theorem State.attachQueued_line (k : CoefKey) (l : LineRef) (m : LineRef) : (s.attachQueued k l).line m = s.line m := by simp only [State.line, State.attachQueued, State.mapChannels]
@[simp] theorem State.writeLinkTarget_line (g : Group) (m : LineRef) : (s.writeLinkTarget g).line m = s.line m := rfl
@[simp] theorem State.writeLinkTarget_channel (g : Group) (d : Channel) : (s.writeLinkTarget g).channel d = s.channel d := rfl
@[simp] theorem State.writeDipTarget_line (z : Zone) (k : ChannelClass) (m : LineRef) : (s.writeDipTarget z k).line m = s.line m := rfl
@[simp] theorem State.writeDipTarget_channel (z : Zone) (k : ChannelClass) (d : Channel) : (s.writeDipTarget z k).channel d = s.channel d := rfl
@[simp] theorem State.runFrame_slot (w : Channel → Int) (i : SlotId) : (s.runFrame w).slot i = s.slot i := by simp only [State.slot, State.runFrame]
@[simp] theorem State.runFrame_line (w : Channel → Int) (m : LineRef) : (s.runFrame w).line m = s.line m := by simp only [State.line, State.runFrame]
@[simp] theorem State.countLink_slot (c : LinkCounter) (i : SlotId) : (s.countLink c).slot i = s.slot i := by
  unfold State.countLink; split <;> rfl
@[simp] theorem State.countLink_line (c : LinkCounter) (m : LineRef) : (s.countLink c).line m = s.line m := by
  unfold State.countLink; split <;> rfl
@[simp] theorem State.countLink_channel (c : LinkCounter) (d : Channel) : (s.countLink c).channel d = s.channel d := by
  unfold State.countLink; split <;> rfl
@[simp] theorem State.countChannel_slot (ch : Channel) (c : ChannelCounter) (i : SlotId) : (s.countChannel ch c).slot i = s.slot i := by
  unfold State.countChannel; split <;> rfl
@[simp] theorem State.countChannel_line (ch : Channel) (c : ChannelCounter) (m : LineRef) : (s.countChannel ch c).line m = s.line m := by
  unfold State.countChannel; split <;> rfl
@[simp] theorem State.countChannel_channel (ch : Channel) (c : ChannelCounter) (d : Channel) : (s.countChannel ch c).channel d = s.channel d := by
  unfold State.countChannel; split <;> rfl
@[simp] theorem State.countCache_slot (c : CacheCounter) (i : SlotId) : (s.countCache c).slot i = s.slot i := by
  unfold State.countCache; split <;> rfl
@[simp] theorem State.countCache_line (c : CacheCounter) (m : LineRef) : (s.countCache c).line m = s.line m := by
  unfold State.countCache; split <;> rfl
@[simp] theorem State.countCache_channel (c : CacheCounter) (d : Channel) : (s.countCache c).channel d = s.channel d := by
  unfold State.countCache; split <;> rfl

end Sys2Proof.Machine
end

