-- ==== Sys2Proof/Laws/Ramp.lean ====
section
/-!
SUPPORT. Lemmas about the ramp engine: slots read after writes; what a written target, a step and a forced value do to a
slot; that each keeps a slot in one of the three conditions of R18.
-/
namespace Sys2Proof.Machine

/-! ### Slots -/

theorem SlotId.index_injective : Function.Injective SlotId.index := by
  intro a b h
  have h' := congrArg Fin.val h
  cases a <;> cases b <;> simp only [SlotId.index] at h' <;>
    first
      | rfl
      | (exfalso; revert h'; simp; omega)
      | (congr 1; ext; omega)
  · rename_i z k z' k'
    have hz : z = z' := by ext; omega
    have hk : k = k' := by ext; omega
    subst hz hk
    rfl

theorem SlotId.index_eq_iff {a b : SlotId} : a.index = b.index ↔ a = b := SlotId.index_injective.eq_iff

theorem State.slot_setSlot (s : State) (i j : SlotId) (t : TermSlot) :
    (s.setSlot i t).slot j = if i = j then t else s.slot j := by
  by_cases h : i = j
  · subst h; simp [State.slot, State.setSlot]
  · have h' : (i.index : Nat) ≠ j.index := fun e => h (SlotId.index_eq_iff.mp (Fin.ext e))
    simp [State.slot, State.setSlot, h, h']

@[simp] theorem State.slot_setSlot_same (s : State) (i : SlotId) (t : TermSlot) : (s.setSlot i t).slot i = t := by
  simp [State.slot_setSlot]

theorem State.slot_setSlot_other (s : State) {i j : SlotId} (h : i ≠ j) (t : TermSlot) :
    (s.setSlot i t).slot j = s.slot j := by simp [State.slot_setSlot, h]

theorem State.slot_writeTarget_same (s : State) (i : SlotId) (v : Int) :
    (s.writeTarget i v).slot i = (s.slot i).write (s.ramp.entry (causeOf i (s.slot i).current v))
      (fun r => (s.ramp.record r).span) v := by simp [State.writeTarget]

theorem State.slot_writeTarget_other (s : State) {i j : SlotId} (h : i ≠ j) (v : Int) :
    (s.writeTarget i v).slot j = s.slot j := by simp [State.writeTarget, State.slot_setSlot, h]

@[simp] theorem State.setSlot_profile (s : State) (i : SlotId) (t : TermSlot) :
    (s.setSlot i t).ramp.profile = s.ramp.profile := rfl

@[simp] theorem State.writeTarget_profile (s : State) (i : SlotId) (v : Int) :
    (s.writeTarget i v).ramp.profile = s.ramp.profile := rfl

theorem State.slot_rampStep (s : State) (i : SlotId) : s.rampStep.slot i = s.stepped i := by
  simp [State.slot, State.rampStep, State.stepped, SlotId.index_eq_iff]

/-- A slot other than NODE takes its step at every block completion. -/
theorem State.stepped_other (s : State) {i : SlotId} (h : i ≠ .node) : s.stepped i = (s.slot i).step s.ramp.record :=
  if_neg fun c => h c.1

@[simp] theorem State.stepped_link (s : State) (g : Group) : s.stepped (.link g) = (s.slot (.link g)).step s.ramp.record :=
  s.stepped_other nofun

/-- The step of a slot depends on the slot, the profile and, of the NODE slot, the mark of its step. -/
theorem State.stepped_congr {s t : State} {i : SlotId} (hs : s.slot i = t.slot i) (hr : s.ramp.record = t.ramp.record)
    (hp : s.ports.nodeStepped = t.ports.nodeStepped) : s.stepped i = t.stepped i := by
  simp only [State.stepped, hs, hr, hp]

theorem State.slot_settleSlots (s : State) (i : SlotId) :
    s.settleSlots.slot i = if i = .node then s.slot i else TermSlot.idleAt (s.slot i).target := by
  simp [State.slot, State.settleSlots, SlotId.index_eq_iff]

theorem State.slot_initialTarget (s : State) (i j : SlotId) (v : Int) :
    (s.initialTarget i v).slot j = if i = j then TermSlot.idleAt v else s.slot j := by
  simp [State.initialTarget, State.slot_setSlot]

/-! ### A written target -/

@[simp] theorem TermSlot.idleAt_current (v : Int) : (TermSlot.idleAt v).current = v := rfl
@[simp] theorem TermSlot.idleAt_target (v : Int) : (TermSlot.idleAt v).target = v := rfl
@[simp] theorem TermSlot.idleAt_active (v : Int) : (TermSlot.idleAt v).active = none := rfl
@[simp] theorem TermSlot.idleAt_blocksLeft (v : Int) : (TermSlot.idleAt v).blocksLeft = 0 := rfl

/-- Whatever the slot did, its target is then the written value (R22). -/
@[simp] theorem TermSlot.write_target (e : Option (Fin 32)) (f : Fin 32 → Nat) (v : Int) (t : TermSlot) :
    (t.write e f v).target = v := by
  unfold TermSlot.write
  split
  · simp_all
  · split
    · rfl
    · split <;> rfl

/-- A written target never moves the current value (R22). -/
@[simp] theorem TermSlot.write_current (e : Option (Fin 32)) (f : Fin 32 → Nat) (v : Int) (t : TermSlot) :
    (t.write e f v).current = t.current := by
  unfold TermSlot.write
  split
  · rfl
  · split
    · simp_all
    · split <;> rfl

theorem TermSlot.write_same (e : Option (Fin 32)) (f : Fin 32 → Nat) (t : TermSlot) : t.write e f t.target = t := by
  simp [TermSlot.write]

theorem State.writeTarget_same (s : State) (i : SlotId) : s.writeTarget i (s.slot i).target = s := by
  simp only [State.writeTarget, TermSlot.write_same]
  simp [State.setSlot, State.slot]

theorem TermSlot.idleAt_sound (v : Int) : (TermSlot.idleAt v).Sound := by simp [TermSlot.Sound]

theorem TermSlot.write_sound {t : TermSlot} (h : t.Sound) (e : Option (Fin 32)) (f : Fin 32 → Nat) (v : Int) :
    (t.write e f v).Sound := by
  unfold TermSlot.write
  split
  · exact h
  · split
    · exact TermSlot.idleAt_sound v
    · rename_i _ hc
      split
      · exact ⟨fun _ e => hc e.symm, by simp⟩
      · exact ⟨by simp, by simp⟩

/-! ### A step -/

@[simp] theorem TermSlot.step_target (r : Fin 32 → RampRecord) (t : TermSlot) : (t.step r).target = t.target := by
  unfold TermSlot.step
  split
  · split <;> rfl
  · split
    · rfl
    · split
      · rfl
      · split <;> rfl

/-- A slot at rest stays as it is (R24). -/
theorem TermSlot.step_idleAt (r : Fin 32 → RampRecord) (v : Int) : (TermSlot.idleAt v).step r = TermSlot.idleAt v := by
  simp [TermSlot.step]

theorem moveToward_ne {c t : Int} {q : Nat} (h : ¬ (t - c).natAbs ≤ q) : moveToward c t q ≠ t := by
  unfold moveToward; split <;> omega

theorem TermSlot.step_sound {t : TermSlot} (h : t.Sound) (r : Fin 32 → RampRecord) : (t.step r).Sound := by
  unfold TermSlot.step
  split
  · split
    · exact h
    · exact TermSlot.idleAt_sound _
  · rename_i i hi
    split
    · exact TermSlot.idleAt_sound _
    · rename_i hd
      have hm := moveToward_ne hd
      split
      · exact ⟨fun _ => hm, by simp [hi]⟩
      · split
        · exact ⟨fun _ => hm, by simp⟩
        · exact ⟨fun _ => hm, by simp [hi]⟩

/-! ### A forced value -/

@[simp] theorem TermSlot.force_target (v : Int) (t : TermSlot) : (t.force v).target = t.target := by
  unfold TermSlot.force
  split
  · rename_i h; exact h
  · split <;> rfl

theorem TermSlot.force_target_value (t : TermSlot) : t.force t.target = TermSlot.idleAt t.target := by
  simp [TermSlot.force]

theorem TermSlot.force_sound (t : TermSlot) (v : Int) : (t.force v).Sound := by
  unfold TermSlot.force
  split
  · exact TermSlot.idleAt_sound v
  · rename_i hv
    split
    · rename_i hi; exact ⟨fun _ => hv, by simp [hi]⟩
    · exact ⟨by simp_all, by simp⟩

/-! ### All slots -/

theorem State.SlotLaw.setSlot {s : State} (h : s.SlotLaw) (i : SlotId) {t : TermSlot} (ht : t.Sound) :
    (s.setSlot i t).SlotLaw := by
  intro j
  rw [State.slot_setSlot]
  split
  · exact ht
  · exact h j

theorem State.SlotLaw.writeTarget {s : State} (h : s.SlotLaw) (i : SlotId) (v : Int) : (s.writeTarget i v).SlotLaw :=
  h.setSlot i (TermSlot.write_sound (h i) _ _ _)

theorem State.SlotLaw.rampStep {s : State} (h : s.SlotLaw) : s.rampStep.SlotLaw := by
  intro i
  rw [State.slot_rampStep, State.stepped]
  split
  · exact h i
  · exact TermSlot.step_sound (h i) _

theorem State.SlotLaw.settleSlots {s : State} (h : s.SlotLaw) : s.settleSlots.SlotLaw := by
  intro i
  rw [State.slot_settleSlots]
  split
  · exact h i
  · exact TermSlot.idleAt_sound _

end Sys2Proof.Machine
end

