-- ==== Sys2Proof/Laws/Targets.lean ====
section
/-!
SUPPORT. Several targets written one after the other: what every slot then holds. Used for the recomputation of the
reduction table (R80), the own values (R90) and the pace unit (R60).
-/
namespace Sys2Proof.Machine

/-- What a slot becomes when its target is written. -/
def State.written (s : State) (i : SlotId) (v : Int) : TermSlot :=
  (s.slot i).write (s.ramp.entry (causeOf i (s.slot i).current v)) (fun r => (s.ramp.record r).span) v

theorem State.slot_writeTarget (s : State) (i j : SlotId) (v : Int) :
    (s.writeTarget i v).slot j = if i = j then s.written i v else s.slot j := by
  simp [State.writeTarget, State.slot_setSlot, State.written]

@[simp] theorem State.written_target (s : State) (i : SlotId) (v : Int) : (s.written i v).target = v := by
  simp [State.written]

@[simp] theorem State.written_current (s : State) (i : SlotId) (v : Int) :
    (s.written i v).current = (s.slot i).current := by simp [State.written]

theorem RampEngine.entry_setSlots (r : RampEngine) (x : Vector TermSlot 37) (c : Cause) :
    RampEngine.entry { r with slots := x } c = r.entry c := rfl

theorem RampEngine.record_setSlots (r : RampEngine) (x : Vector TermSlot 37) (i : Fin 32) :
    RampEngine.record { r with slots := x } i = r.record i := rfl

theorem State.written_writeTarget (s : State) {i j : SlotId} (h : i ≠ j) (v w : Int) :
    (s.writeTarget i v).written j w = s.written j w := by
  simp only [State.written, State.slot_writeTarget, if_neg h]
  rfl

/-- Targets written in the order of a list. -/
def State.writeAll (s : State) (v : SlotId → Int) (ids : List SlotId) : State :=
  ids.foldl (fun s i => s.writeTarget i (v i)) s

@[simp] theorem State.writeAll_nil (s : State) (v : SlotId → Int) : s.writeAll v [] = s := rfl

@[simp] theorem State.writeAll_cons (s : State) (v : SlotId → Int) (i : SlotId) (ids : List SlotId) :
    s.writeAll v (i :: ids) = (s.writeTarget i (v i)).writeAll v ids := rfl

/-- Writes of distinct slots do not meet: each listed slot is written once, no other slot changes. -/
theorem State.slot_writeAll (s : State) (v : SlotId → Int) (ids : List SlotId) (h : ids.Nodup) (j : SlotId) :
    (s.writeAll v ids).slot j = if j ∈ ids then s.written j (v j) else s.slot j := by
  induction ids generalizing s with
  | nil => simp
  | cons i ids ih =>
    rw [List.nodup_cons] at h
    rw [State.writeAll_cons, ih _ h.2]
    by_cases hj : j ∈ ids
    · have hij : i ≠ j := fun e => h.1 (e ▸ hj)
      simp [hj, State.written_writeTarget s hij]
    · by_cases hij : i = j
      · subst hij; simp [hj, State.slot_writeTarget]
      · have : ¬ j = i := fun e => hij e.symm
        simp [hj, State.slot_writeTarget, hij, this]

/-- Writing targets changes the slots alone. -/
theorem State.writeAll_rest (s : State) (v : SlotId → Int) (ids : List SlotId) :
    s.writeAll v ids = { s with ramp := { s.ramp with slots := (s.writeAll v ids).ramp.slots } } := by
  induction ids generalizing s with
  | nil => rfl
  | cons i ids ih => rw [State.writeAll_cons, ih]; rfl

theorem State.SlotLaw.writeAll {s : State} (h : s.SlotLaw) (v : SlotId → Int) (ids : List SlotId) :
    (s.writeAll v ids).SlotLaw := by
  induction ids generalizing s with
  | nil => exact h
  | cons i ids ih => exact ih (h.writeTarget i (v i))

/-! ### The largest depths (R78, R79) -/

/-- A running maximum is its start or some element's value, and at least all of them. -/
theorem foldl_max_spec {α : Type} (f : α → Nat) (l : List α) (b : Nat) :
    b ≤ l.foldl (fun m e => max m (f e)) b ∧ (∀ e ∈ l, f e ≤ l.foldl (fun m e => max m (f e)) b) ∧
      (l.foldl (fun m e => max m (f e)) b = b ∨ ∃ e ∈ l, l.foldl (fun m e => max m (f e)) b = f e) := by
  induction l generalizing b with
  | nil => simp
  | cons a l ih =>
    obtain ⟨h1, h2, h3⟩ := ih (max b (f a))
    refine ⟨(Nat.le_max_left _ _).trans h1, ?_, ?_⟩
    · intro e he
      rcases List.mem_cons.mp he with rfl | he
      · exact (Nat.le_max_right _ _).trans h1
      · exact h2 e he
    · rcases h3 with h3 | ⟨e, he, h3⟩
      · rcases Nat.le_total (f a) b with h | h
        · exact .inl (h3.trans (Nat.max_eq_left h))
        · exact .inr ⟨a, List.mem_cons_self, h3.trans (Nat.max_eq_right h)⟩
      · exact .inr ⟨e, List.mem_cons_of_mem _ he, h3⟩

theorem dipDepth_covers {e : Entry} {z : Zone} {k : ChannelClass} (h : e.Covers z k) : dipDepth z k e = e.depth := by
  obtain ⟨⟨o, i, hk⟩, hz, hc⟩ := h
  simp only [dipDepth, hk, hz, hc, Bool.and_self, if_true]

theorem dipDepth_zero {e : Entry} {z : Zone} {k : ChannelClass} (h : ¬ e.Covers z k) : dipDepth z k e = 0 := by
  unfold dipDepth
  split
  · rename_i o i hk
    rw [if_neg]
    intro hm
    rw [Bool.and_eq_true] at hm
    exact h ⟨⟨o, i, hk⟩, hm.1, hm.2⟩
  · rfl

/-- The DIP target is the largest depth among the covering entries, or 0 (R78). -/
theorem dipTarget_is (table : List Entry) (z : Zone) (k : ChannelClass) : DipTargetIs table z k (dipTarget table z k) := by
  obtain ⟨-, h2, h3⟩ := foldl_max_spec (dipDepth z k) table 0
  refine ⟨⟨Int.natCast_nonneg _, fun e he hc => ?_⟩, ?_⟩
  · have := h2 e he; rw [dipDepth_covers hc] at this; exact Int.ofNat_le.mpr this
  · rcases h3 with h3 | ⟨e, he, h3⟩
    · exact .inl (by unfold dipTarget; exact_mod_cast h3)
    · by_cases hc : e.Covers z k
      · exact .inr ⟨e, he, hc, by unfold dipTarget; rw [h3, dipDepth_covers hc]⟩
      · exact .inl (by unfold dipTarget; rw [h3, dipDepth_zero hc]; rfl)

theorem linkDepth_of_key {e : Entry} {o : Station} {g : Group} (h : e.key = .link o g) : linkDepth g e = e.depth := by
  simp [linkDepth, h]

theorem linkDepth_zero {e : Entry} {g : Group} (h : ¬ ∃ o, e.key = .link o g) : linkDepth g e = 0 := by
  unfold linkDepth
  split
  · rename_i o g' hk
    rw [if_neg]
    rintro rfl
    exact h ⟨o, hk⟩
  · rfl

/-- The LINK target is the largest among the own value and the depths of the group's entries (R79). -/
theorem linkTarget_is (own : Nat) (table : List Entry) (g : Group) :
    LinkTargetIs own table g (linkTarget own table g) := by
  obtain ⟨h1, h2, h3⟩ := foldl_max_spec (linkDepth g) table own
  refine ⟨⟨Int.ofNat_le.mpr h1, ?_⟩, ?_⟩
  · rintro e he ⟨o, hk⟩
    have := h2 e he; rw [linkDepth_of_key hk] at this; exact Int.ofNat_le.mpr this
  · rcases h3 with h3 | ⟨e, he, h3⟩
    · exact .inl (by unfold linkTarget; exact_mod_cast h3)
    · by_cases hk : ∃ o, e.key = .link o g
      · obtain ⟨o, hk⟩ := hk
        exact .inr ⟨e, he, ⟨o, hk⟩, by unfold linkTarget; rw [h3, linkDepth_of_key hk]⟩
      · rw [linkDepth_zero hk] at h3
        refine .inl ?_
        have : linkTarget own table g = 0 := h3
        have h1' : own ≤ linkTarget own table g := h1
        omega

/-! ### The slots of the reduction table -/

/-- The DIP and LINK slots, in the order in which they are written. -/
def tableSlots : List SlotId :=
  [.dip 0 0, .dip 0 1, .dip 0 2, .dip 0 3, .dip 1 0, .dip 1 1, .dip 1 2, .dip 1 3, .dip 2 0, .dip 2 1, .dip 2 2,
    .dip 2 3, .dip 3 0, .dip 3 1, .dip 3 2, .dip 3 3, .link 0, .link 1, .link 2, .link 3]

theorem tableSlots_nodup : tableSlots.Nodup := by decide

theorem mem_tableSlots_dip (z : Zone) (k : ChannelClass) : SlotId.dip z k ∈ tableSlots := by
  revert z k; decide

theorem mem_tableSlots_link (g : Group) : SlotId.link g ∈ tableSlots := by revert g; decide

theorem not_mem_tableSlots {i : SlotId} (hd : ∀ z k, i ≠ .dip z k) (hl : ∀ g, i ≠ .link g) : i ∉ tableSlots := by
  cases i with
  | dip z k => exact absurd rfl (hd z k)
  | link g => exact absurd rfl (hl g)
  | _ => simp [tableSlots]

/-- The target the reduction table gives a slot (R78, R79). -/
def State.tableTarget (s : State) : SlotId → Int
  | .dip z k => dipTarget s.table z k
  | .link g => linkTarget s.emission.own[g] s.table g
  | _ => 0

theorem State.writeDipTarget_eq (s : State) (z : Zone) (k : ChannelClass) :
    s.writeDipTarget z k = s.writeTarget (.dip z k) (s.tableTarget (.dip z k)) := rfl

theorem State.writeLinkTarget_eq (s : State) (g : Group) :
    s.writeLinkTarget g = s.writeTarget (.link g) (s.tableTarget (.link g)) := rfl

theorem State.tableTarget_writeTarget (s : State) (i : SlotId) (v : Int) :
    (s.writeTarget i v).tableTarget = s.tableTarget := by
  funext j; cases j <;> rfl

theorem State.recomputeTargets_eq (s : State) : s.recomputeTargets = s.writeAll s.tableTarget tableSlots := by
  simp only [State.recomputeTargets, State.writeAll, tableSlots, List.foldl_cons, List.foldl_nil,
    State.writeDipTarget_eq, State.writeLinkTarget_eq, State.tableTarget_writeTarget]

/-- The recomputation changes the slots alone (R80). -/
theorem State.recomputeTargets_rest (s : State) :
    s.recomputeTargets = { s with ramp := { s.ramp with slots := s.recomputeTargets.ramp.slots } } := by
  rw [State.recomputeTargets_eq]; exact State.writeAll_rest _ _ _

theorem State.slot_recomputeTargets (s : State) (i : SlotId) :
    s.recomputeTargets.slot i = if i ∈ tableSlots then s.written i (s.tableTarget i) else s.slot i := by
  rw [State.recomputeTargets_eq]; exact State.slot_writeAll _ _ _ tableSlots_nodup _

theorem State.recomputeTargets_dip (s : State) (z : Zone) (k : ChannelClass) :
    (s.recomputeTargets.slot (.dip z k)).target = dipTarget s.table z k := by
  rw [State.slot_recomputeTargets, if_pos (mem_tableSlots_dip z k), State.written_target]; rfl

theorem State.recomputeTargets_link (s : State) (g : Group) :
    (s.recomputeTargets.slot (.link g)).target = linkTarget s.emission.own[g] s.table g := by
  rw [State.slot_recomputeTargets, if_pos (mem_tableSlots_link g), State.written_target]; rfl

theorem State.recomputeTargets_other (s : State) {i : SlotId} (hd : ∀ z k, i ≠ .dip z k) (hl : ∀ g, i ≠ .link g) :
    s.recomputeTargets.slot i = s.slot i := by
  rw [State.slot_recomputeTargets, if_neg (not_mem_tableSlots hd hl)]

theorem State.SlotLaw.recomputeTargets {s : State} (h : s.SlotLaw) : s.recomputeTargets.SlotLaw := by
  rw [State.recomputeTargets_eq]; exact h.writeAll _ _

end Sys2Proof.Machine
end

