-- ==== Sys2Proof/Laws/Cache.lean ====
section
/-!
SUPPORT. What lookups, evaluations, key changes, crossfade ends and way placements leave alone: everything but the
channels' coefficient contexts, the cache sets, the fill queue and the CACHE/AUDIO counters.
-/
namespace Sys2Proof.Machine

/-- Two states that differ in coefficient contexts, cache sets, fill queue and CACHE/AUDIO counters only. -/
structure State.CacheStep (s t : State) : Prop where
  rest : t = { s with channels := t.channels, library := t.library,
                      stats := { s.stats with cacheAudio := t.stats.cacheAudio } }
  channel : ∀ c, t.channel c = { s.channel c with
    active := (t.channel c).active, incoming := (t.channel c).incoming, wanted := (t.channel c).wanted,
    request := (t.channel c).request, failed := (t.channel c).failed,
    activeStates := (t.channel c).activeStates, incomingStates := (t.channel c).incomingStates }
  port : t.library = { s.library with sets := t.library.sets, queue := t.library.queue }

namespace State.CacheStep

theorem refl (s : State) : s.CacheStep s := ⟨rfl, fun _ => rfl, rfl⟩

theorem trans {s t u : State} (h : s.CacheStep t) (k : t.CacheStep u) : s.CacheStep u := by
  refine ⟨?_, fun c => ?_, ?_⟩
  · rw [k.rest, h.rest]
  · rw [k.channel c, h.channel c]
  · rw [k.port, h.port]

theorem node {s t : State} (h : s.CacheStep t) : t.node = s.node := by
  have := congrArg State.node h.rest; exact this

theorem loader {s t : State} (h : s.CacheStep t) : t.loader = s.loader := by
  have := congrArg State.loader h.rest; exact this

theorem ramp {s t : State} (h : s.CacheStep t) : t.ramp = s.ramp := by
  have := congrArg State.ramp h.rest; exact this

theorem image {s t : State} (h : s.CacheStep t) : t.image = s.image := by
  have := congrArg State.image h.rest; exact this

theorem pace {s t : State} (h : s.CacheStep t) : t.pace = s.pace := by
  have := congrArg State.pace h.rest; exact this

theorem table {s t : State} (h : s.CacheStep t) : t.table = s.table := by
  have := congrArg State.table h.rest; exact this

theorem laws {s t : State} (h : s.CacheStep t) : t.laws = s.laws := by
  have := congrArg State.laws h.rest; exact this

theorem emission {s t : State} (h : s.CacheStep t) : t.emission = s.emission := by
  have := congrArg State.emission h.rest; exact this

theorem ports {s t : State} (h : s.CacheStep t) : t.ports = s.ports := by
  have := congrArg State.ports h.rest; exact this

theorem link {s t : State} (h : s.CacheStep t) : t.link = s.link := by
  have := congrArg State.link h.rest; exact this

theorem draws {s t : State} (h : s.CacheStep t) : t.draws = s.draws := by
  have := congrArg State.draws h.rest; exact this

theorem pending {s t : State} (h : s.CacheStep t) : t.pending = s.pending := by
  have := congrArg State.pending h.rest; exact this

theorem linkCounters {s t : State} (h : s.CacheStep t) : t.stats.link = s.stats.link := by
  have := congrArg (fun x : State => x.stats.link) h.rest; exact this

theorem channelCounters {s t : State} (h : s.CacheStep t) : t.stats.channel = s.stats.channel := by
  have := congrArg (fun x : State => x.stats.channel) h.rest; exact this

theorem inReset {s t : State} (h : s.CacheStep t) : t.inReset = s.inReset := by simp only [State.inReset, h.node]

theorem dormant {s t : State} (h : s.CacheStep t) : t.dormant = s.dormant := by simp only [State.dormant, h.node]

theorem takesCues {s t : State} (h : s.CacheStep t) : t.takesCues = s.takesCues := by simp only [State.takesCues, h.node]

theorem awake {s t : State} (h : s.CacheStep t) : t.awake = s.awake := by simp only [State.awake, h.node]

theorem paced {s t : State} (h : s.CacheStep t) : t.paced = s.paced := by simp only [State.paced, State.inReset, h.node]

theorem slot {s t : State} (h : s.CacheStep t) (i : SlotId) : t.slot i = s.slot i := by
  simp only [State.slot, h.ramp]

theorem record {s t : State} (h : s.CacheStep t) (c : Channel) : (t.channel c).record = (s.channel c).record := by
  have := congrArg ChannelState.record (h.channel c); exact this

theorem reduction {s t : State} (h : s.CacheStep t) (c : Channel) : (t.channel c).reduction = (s.channel c).reduction := by
  have := congrArg ChannelState.reduction (h.channel c); exact this

theorem holdCount {s t : State} (h : s.CacheStep t) (c : Channel) : (t.channel c).holdCount = (s.channel c).holdCount := by
  have := congrArg ChannelState.holdCount (h.channel c); exact this

theorem composed {s t : State} (h : s.CacheStep t) (c : Channel) : (t.channel c).composed = (s.channel c).composed := by
  have := congrArg ChannelState.composed (h.channel c); exact this

theorem peak {s t : State} (h : s.CacheStep t) (c : Channel) : (t.channel c).peak = (s.channel c).peak := by
  have := congrArg ChannelState.peak (h.channel c); exact this

theorem clip {s t : State} (h : s.CacheStep t) (c : Channel) : (t.channel c).clip = (s.channel c).clip := by
  have := congrArg ChannelState.clip (h.channel c); exact this

theorem overflow {s t : State} (h : s.CacheStep t) (c : Channel) : (t.channel c).overflow = (s.channel c).overflow := by
  have := congrArg ChannelState.overflow (h.channel c); exact this

theorem library_fill {s t : State} (h : s.CacheStep t) : t.library.fill = s.library.fill := by
  have := congrArg Library.fill h.port; exact this

theorem library_errors {s t : State} (h : s.CacheStep t) : t.library.errors = s.library.errors := by
  have := congrArg Library.errors h.port; exact this

theorem library_state {s t : State} (h : s.CacheStep t) : t.library.state = s.library.state := by
  have := congrArg Library.state h.port; exact this

theorem library_flash {s t : State} (h : s.CacheStep t) : t.library.flash = s.library.flash := by
  have := congrArg Library.flash h.port; exact this

theorem library_downPending {s t : State} (h : s.CacheStep t) : t.library.downPending = s.library.downPending := by
  have := congrArg Library.downPending h.port; exact this

theorem library_selected {s t : State} (h : s.CacheStep t) : t.library.selected = s.library.selected := by
  have := congrArg Library.selected h.port; exact this

theorem library_mosi {s t : State} (h : s.CacheStep t) : t.library.mosi = s.library.mosi := by
  have := congrArg Library.mosi h.port; exact this

theorem setChannel (s : State) (c : Channel) (x : ChannelState)
    (h : x = { s.channel c with
      active := x.active, incoming := x.incoming, wanted := x.wanted, request := x.request, failed := x.failed,
      activeStates := x.activeStates, incomingStates := x.incomingStates }) : s.CacheStep (s.setChannel c x) := by
  refine ⟨rfl, fun d => ?_, rfl⟩
  by_cases hd : c = d
  · subst hd
    have : (s.setChannel c x).channel c = x := by simp [State.channel]
    rw [this]; exact h
  · have : (s.setChannel c x).channel d = s.channel d := by
      have hv : (c : Nat) ≠ d := fun e => hd (Fin.ext e)
      simp [State.channel, hv]
    rw [this]

theorem mapChannels (s : State) (f : Channel → ChannelState → ChannelState)
    (h : ∀ c x, f c x = { x with
      active := (f c x).active, incoming := (f c x).incoming, wanted := (f c x).wanted, request := (f c x).request,
      failed := (f c x).failed, activeStates := (f c x).activeStates,
      incomingStates := (f c x).incomingStates }) : s.CacheStep (s.mapChannels f) := by
  refine ⟨by simp only [State.mapChannels], fun c => ?_, by simp only [State.mapChannels]⟩
  have : (s.mapChannels f).channel c = f c (s.channel c) := by simp [State.channel]
  rw [this]; exact h c _

theorem setLine (s : State) (l : LineRef) (x : Line) : s.CacheStep (s.setLine l x) := ⟨rfl, fun _ => rfl, rfl⟩

theorem setCacheSet (s : State) (i : Fin 16) (x : CacheSet) : s.CacheStep (s.setCacheSet i x) :=
  ⟨rfl, fun _ => rfl, rfl⟩

theorem setQueue (s : State) (q : List QueueEntry) : s.CacheStep (s.setQueue q) := ⟨rfl, fun _ => rfl, rfl⟩

theorem countCache (s : State) (k : CacheCounter) : s.CacheStep (s.countCache k) := by
  unfold State.countCache
  split
  · exact refl s
  · exact ⟨rfl, fun _ => rfl, rfl⟩

theorem invalidate (s : State) (l : LineRef) : s.CacheStep (s.invalidate l) := setLine s l _

theorem pin (s : State) (l : LineRef) : s.CacheStep (s.pin l) := setLine s l _

theorem allocate (s : State) (k : CoefKey) : s.CacheStep (s.allocate k).2 := by
  unfold State.allocate
  split
  · exact setCacheSet s _ _
  · exact refl s

theorem attachQueued (s : State) (k : CoefKey) (l : LineRef) : s.CacheStep (s.attachQueued k l) := by
  unfold State.attachQueued
  refine mapChannels s _ fun c x => ?_
  split <;> rfl

theorem wayFree (s : State) (i : Fin 16) : s.CacheStep (s.wayFree i) := by
  unfold State.wayFree
  split
  · exact refl s
  · rename_i e _
    have h := allocate s e.key
    revert h
    generalize s.allocate e.key = r
    intro h
    obtain ⟨_ | l, s'⟩ := r
    · exact refl s
    · exact h.trans ((setQueue s' _).trans (attachQueued _ _ _))

theorem unpin (s : State) (l : LineRef) : s.CacheStep (s.unpin l) := by
  unfold State.unpin
  dsimp only
  split
  · exact (setLine s l _).trans (wayFree _ _)
  · exact setLine s l _

theorem unpinActive (s : State) (l : Option LineRef) : s.CacheStep (s.unpinActive l) := by
  cases l with
  | none => exact refl s
  | some l => exact unpin s l

theorem setRequest (s : State) (c : Channel) (r : Request) : s.CacheStep (s.setRequest c r) := setChannel s c _ rfl

theorem takeIncoming (s : State) (c : Channel) (l : LineRef) : s.CacheStep (s.takeIncoming c l) := by
  unfold State.takeIncoming
  exact (pin s l).trans (setChannel _ c _ rfl)

theorem enqueueFill (s : State) (e : QueueEntry) : s.CacheStep (s.enqueueFill e) := by
  unfold State.enqueueFill
  split
  · exact setQueue s _
  · split
    · exact setQueue s _
    · split
      · exact setQueue s _
      · exact (setQueue s _).trans ((invalidate _ _).trans (wayFree _ _))

theorem missReady (s : State) (c : Channel) (k : CoefKey) : s.CacheStep (s.missReady c k) := by
  unfold State.missReady
  split
  · exact setRequest s c _
  · have h := allocate s k
    revert h
    generalize s.allocate k = r
    intro h
    obtain ⟨_ | l, s'⟩ := r
    · exact (countCache s _).trans ((setRequest _ c _).trans (enqueueFill _ _))
    · exact h.trans ((setRequest _ c _).trans (enqueueFill _ _))

theorem lookup (s : State) (c : Channel) (k : CoefKey) : s.CacheStep (s.lookup c k) := by
  unfold State.lookup
  split
  · exact (countCache s _).trans (takeIncoming _ c _)
  · split
    · exact (countCache s _).trans (setRequest _ c _)
    · split
      · exact (countCache s _).trans (missReady _ c k)
      · exact (countCache s _).trans (setRequest _ c _)

theorem evaluate (s : State) (c : Channel) : s.CacheStep (s.evaluate c) := by
  unfold State.evaluate
  split
  · exact refl s
  · split
    · exact refl s
    · split
      · exact setRequest s c _
      · split
        · exact setRequest s c _
        · exact lookup s c _

theorem changeKey (s : State) (c : Channel) (k : CoefKey) : s.CacheStep (s.changeKey c k) := by
  unfold State.changeKey
  split
  · exact refl s
  · dsimp only
    have h := setChannel s c { s.channel c with wanted := k, failed := none } rfl
    split
    · exact h
    · split
      · exact h
      · exact h.trans ((setRequest _ c _).trans (evaluate _ c))

theorem inTurn {f : Channel → State → State} (h : ∀ c s, State.CacheStep s (f c s)) (ord : List Channel) (s : State) :
    s.CacheStep (s.inTurn f ord) := by
  unfold State.inTurn
  induction ord generalizing s with
  | nil => exact refl s
  | cons c cs ih => exact (h c s).trans (ih _)

theorem handPreset (s : State) (ord : List Channel) (z : Zone) (p : Fin 16) : s.CacheStep (s.handPreset ord z p) := by
  unfold State.handPreset
  refine inTurn (fun c s => ?_) ord s
  split
  · exact changeKey s c _
  · exact refl s

theorem handBands (s : State) (ord : List Channel) (b a : Vector (Fin 8) 4) : s.CacheStep (s.handBands ord b a) := by
  unfold State.handBands
  refine inTurn (fun c s => ?_) ord s
  dsimp only
  split
  · exact refl s
  · exact changeKey s c _

theorem endCrossfade (s : State) (c : Channel) (inc : Incoming) : s.CacheStep (s.endCrossfade c inc) := by
  unfold State.endCrossfade
  dsimp only
  exact (setChannel s c _ rfl).trans ((unpinActive _ _).trans (evaluate _ c))

theorem advanceCrossfade (s : State) (c : Channel) : s.CacheStep (s.advanceCrossfade c) := by
  unfold State.advanceCrossfade
  split
  · exact refl s
  · split
    · exact setChannel s c _ rfl
    · exact endCrossfade s c _

theorem takeIfAttached (s : State) (l : LineRef) (c : Channel) : s.CacheStep (s.takeIfAttached l c) := by
  unfold State.takeIfAttached
  split
  · exact takeIncoming s c l
  · exact refl s

theorem sleepChannel (s : State) (c : Channel) : s.CacheStep (s.sleepChannel c) := by
  unfold State.sleepChannel
  dsimp only
  split
  · exact setChannel s c _ rfl
  · exact (setChannel s c _ rfl).trans (unpinActive _ _)

theorem clearFillQueue (s : State) : s.CacheStep s.clearFillQueue := by
  unfold State.clearFillQueue
  dsimp only
  refine trans ?_ (setQueue _ _)
  generalize s.library.queue = q
  induction q generalizing s with
  | nil => exact refl s
  | cons e es ih =>
    refine trans ?_ (ih _)
    dsimp only
    split
    · exact refl s
    · exact invalidate s _

theorem sleepCache (s : State) (ord : List Channel) (b : Bool) : s.CacheStep (s.sleepCache ord b) := by
  unfold State.sleepCache
  split
  · exact (clearFillQueue s).trans (inTurn (fun c s => sleepChannel s c) ord _)
  · exact (inTurn (fun c s => sleepChannel s c) ord s).trans (clearFillQueue _)

end State.CacheStep

end Sys2Proof.Machine
end

