-- ==== Sys2Proof/Laws/Turns.lean ====
section
/-!
SUPPORT. What a channel's turn in the cache leaves of the channels: the other channels may move from QUEUED to a line,
and nothing else of them changes.
-/
namespace Sys2Proof.Machine

/-! ### Single channels -/

theorem State.channel_setChannel (s : State) (c d : Channel) (x : ChannelState) :
    (s.setChannel c x).channel d = if c = d then x else s.channel d := by
  by_cases hd : c = d
  · subst hd; simp [State.channel]
  · have hv : (c : Nat) ≠ d := fun e => hd (Fin.ext e)
    simp [State.channel, hv, hd]

@[simp] theorem State.channel_setChannel_same (s : State) (c : Channel) (x : ChannelState) :
    (s.setChannel c x).channel c = x := by simp [State.channel_setChannel]

theorem State.channel_setChannel_other (s : State) {c d : Channel} (h : c ≠ d) (x : ChannelState) :
    (s.setChannel c x).channel d = s.channel d := by simp [State.channel_setChannel, h]

@[simp] theorem State.channel_mapChannels (s : State) (f : Channel → ChannelState → ChannelState) (c : Channel) :
    (s.mapChannels f).channel c = f c (s.channel c) := by simp [State.channel]

@[simp] theorem State.channel_countCache (s : State) (k : CacheCounter) (c : Channel) :
    (s.countCache k).channel c = s.channel c := by
  unfold State.countCache; split <;> rfl

@[simp] theorem State.channel_setLine (s : State) (l : LineRef) (x : Line) (c : Channel) :
    (s.setLine l x).channel c = s.channel c := rfl

@[simp] theorem State.channel_setQueue (s : State) (q : List QueueEntry) (c : Channel) :
    (s.setQueue q).channel c = s.channel c := rfl

/-! ### Requests of others -/

/-- From s to t nothing of any channel changes but its request. -/
def State.RequestStep (s t : State) : Prop :=
  ∀ d, t.channel d = { s.channel d with request := (t.channel d).request }

namespace State.RequestStep

theorem refl (s : State) : s.RequestStep s := fun _ => rfl

theorem of_eq {s t : State} (h : ∀ d, t.channel d = s.channel d) : s.RequestStep t := fun d => by rw [h d]

theorem trans {s t u : State} (h : s.RequestStep t) (k : t.RequestStep u) : s.RequestStep u := fun d => by
  rw [k d, h d]

theorem allocate (s : State) (k : CoefKey) : s.RequestStep (s.allocate k).2 := by
  unfold State.allocate
  split
  · exact fun _ => rfl
  · exact refl s

theorem attachQueued (s : State) (k : CoefKey) (l : LineRef) : s.RequestStep (s.attachQueued k l) := by
  intro d
  unfold State.attachQueued
  rw [State.channel_mapChannels]
  split <;> rfl

theorem wayFree (s : State) (i : Fin 16) : s.RequestStep (s.wayFree i) := by
  unfold State.wayFree
  split
  · exact refl s
  · rename_i e _
    have h := allocate s e.key
    revert h
    generalize s.allocate e.key = r
    intro h
    obtain ⟨_ | l, s'⟩ := r
    · exact refl s
    · exact h.trans (trans (t := s'.setQueue (giveLine e.key l s'.library.queue)) (fun _ => rfl) (attachQueued _ _ _))

theorem unpin (s : State) (l : LineRef) : s.RequestStep (s.unpin l) := by
  unfold State.unpin
  dsimp only
  split
  · exact wayFree _ _
  · exact fun _ => rfl

theorem unpinActive (s : State) (l : Option LineRef) : s.RequestStep (s.unpinActive l) := by
  cases l with
  | none => exact refl s
  | some l => exact unpin s l

theorem setRequest (s : State) (c : Channel) (r : Request) : s.RequestStep (s.setRequest c r) := by
  intro d
  unfold State.setRequest
  by_cases h : c = d
  · subst h; simp
  · simp [State.channel_setChannel, h]

theorem invalidate (s : State) (l : LineRef) : s.RequestStep (s.invalidate l) := fun _ => rfl

theorem enqueueFill (s : State) (e : QueueEntry) : s.RequestStep (s.enqueueFill e) := by
  unfold State.enqueueFill
  split
  · exact fun _ => rfl
  · split
    · exact fun _ => rfl
    · split
      · exact fun _ => rfl
      · exact trans (fun _ => rfl) (wayFree _ _)

theorem missReady (s : State) (c : Channel) (k : CoefKey) : s.RequestStep (s.missReady c k) := by
  unfold State.missReady
  split
  · exact setRequest s c _
  · have h := allocate s k
    revert h
    generalize s.allocate k = r
    intro h
    obtain ⟨_ | l, s'⟩ := r
    · exact trans (of_eq fun d => State.channel_countCache s _ d) ((setRequest _ c _).trans (enqueueFill _ _))
    · exact h.trans ((setRequest _ c _).trans (enqueueFill _ _))

end State.RequestStep

/-! ### Turns -/

/-- In channel c's turn of a search the other channels change in their requests alone, and channel c in its request and
its incoming set. -/
structure State.SearchStep (c : Channel) (s t : State) : Prop where
  others : ∀ d, d ≠ c → t.channel d = { s.channel d with request := (t.channel d).request }
  own    : t.channel c = { s.channel c with
    request := (t.channel c).request, incoming := (t.channel c).incoming,
    incomingStates := (t.channel c).incomingStates }

namespace State.SearchStep

theorem of_request {c : Channel} {s t : State} (h : s.RequestStep t) : s.SearchStep c t :=
  ⟨fun d _ => h d, by rw [h c]⟩

theorem refl (c : Channel) (s : State) : s.SearchStep c s := of_request (.refl s)

theorem trans {c : Channel} {s t u : State} (h : s.SearchStep c t) (k : t.SearchStep c u) : s.SearchStep c u := by
  refine ⟨fun d hd => ?_, ?_⟩
  · rw [k.others d hd, h.others d hd]
  · rw [k.own, h.own]

theorem takeIncoming (s : State) (c : Channel) (l : LineRef) : s.SearchStep c (s.takeIncoming c l) := by
  unfold State.takeIncoming
  refine ⟨fun d hd => ?_, ?_⟩
  · dsimp only
    rw [State.channel_setChannel_other _ (Ne.symm hd)]
    rfl
  · dsimp only
    rw [State.channel_setChannel_same]
    rfl

theorem lookup (s : State) (c : Channel) (k : CoefKey) : s.SearchStep c (s.lookup c k) := by
  have hc : ∀ k, s.SearchStep c (s.countCache k) := fun k => of_request (.of_eq fun d => State.channel_countCache s k d)
  unfold State.lookup
  split
  · exact (hc _).trans (takeIncoming _ c _)
  · split
    · exact (hc _).trans (of_request (.setRequest _ c _))
    · split
      · exact (hc _).trans (of_request (.missReady _ c k))
      · exact (hc _).trans (of_request (.setRequest _ c _))

theorem evaluate (s : State) (c : Channel) : s.SearchStep c (s.evaluate c) := by
  unfold State.evaluate
  split
  · exact refl c s
  · split
    · exact refl c s
    · split
      · exact of_request (.setRequest s c _)
      · split
        · exact of_request (.setRequest s c _)
        · exact lookup s c _

end State.SearchStep

/-- In channel c's turn the other channels change in their requests alone. -/
def State.TurnStep (c : Channel) (s t : State) : Prop :=
  ∀ d, d ≠ c → t.channel d = { s.channel d with request := (t.channel d).request }

namespace State.TurnStep

theorem refl (c : Channel) (s : State) : s.TurnStep c s := fun _ _ => rfl

theorem trans {c : Channel} {s t u : State} (h : s.TurnStep c t) (k : t.TurnStep c u) : s.TurnStep c u :=
  fun d hd => by rw [k d hd, h d hd]

theorem of_request {c : Channel} {s t : State} (h : s.RequestStep t) : s.TurnStep c t := fun d _ => h d

theorem of_search {c : Channel} {s t : State} (h : s.SearchStep c t) : s.TurnStep c t := h.others

theorem setChannel (c : Channel) (s : State) (x : ChannelState) : s.TurnStep c (s.setChannel c x) :=
  fun d hd => by rw [State.channel_setChannel_other _ (Ne.symm hd)]

theorem changeKey (s : State) (c : Channel) (k : CoefKey) : s.TurnStep c (s.changeKey c k) := by
  unfold State.changeKey
  split
  · exact refl c s
  · dsimp only
    split
    · exact setChannel c s _
    · split
      · exact setChannel c s _
      · exact (setChannel c s _).trans ((of_request (.setRequest _ c _)).trans (of_search (.evaluate _ c)))

theorem endCrossfade (s : State) (c : Channel) (inc : Incoming) : s.TurnStep c (s.endCrossfade c inc) := by
  unfold State.endCrossfade
  dsimp only
  exact (setChannel c s _).trans ((of_request (.unpinActive _ _)).trans (of_search (.evaluate _ c)))

theorem advanceCrossfade (s : State) (c : Channel) : s.TurnStep c (s.advanceCrossfade c) := by
  unfold State.advanceCrossfade
  split
  · exact refl c s
  · split
    · exact setChannel c s _
    · exact endCrossfade s c _

theorem takeIfAttached (s : State) (l : LineRef) (c : Channel) : s.TurnStep c (s.takeIfAttached l c) := by
  unfold State.takeIfAttached
  split
  · exact of_search (.takeIncoming s c l)
  · exact refl c s

theorem sleepChannel (s : State) (c : Channel) : s.TurnStep c (s.sleepChannel c) := by
  unfold State.sleepChannel
  dsimp only
  split
  · exact setChannel c s _
  · exact (setChannel c s _).trans (of_request (.unpinActive _ _))

end State.TurnStep

/-! ### The order of turns -/

theorem channelOrder_perm (n : Nat) : (channelOrder n).Perm (List.finRange 8) := List.perm_insertionSort _ _

theorem channelOrder_nodup (n : Nat) : (channelOrder n).Nodup :=
  (channelOrder_perm n).nodup_iff.mpr (List.nodup_finRange 8)

theorem mem_channelOrder (n : Nat) (c : Channel) : c ∈ channelOrder n :=
  (channelOrder_perm n).mem_iff.mpr (List.mem_finRange c)

@[simp] theorem State.inTurn_nil (f : Channel → State → State) (s : State) : s.inTurn f [] = s := rfl

@[simp] theorem State.inTurn_cons (f : Channel → State → State) (c : Channel) (cs : List Channel) (s : State) :
    s.inTurn f (c :: cs) = (f c s).inTurn f cs := rfl

theorem State.inTurn_append (f : Channel → State → State) (l m : List Channel) (s : State) :
    s.inTurn f (l ++ m) = (s.inTurn f l).inTurn f m := List.foldl_append

/-- A channel that has no turn changes in its request alone. -/
theorem State.inTurn_others {f : Channel → State → State} (hf : ∀ c s, State.TurnStep c s (f c s)) (ord : List Channel)
    {c : Channel} (hc : c ∉ ord) (s : State) :
    (s.inTurn f ord).channel c = { s.channel c with request := ((s.inTurn f ord).channel c).request } := by
  induction ord generalizing s with
  | nil => rfl
  | cons d ds ih =>
    rw [List.mem_cons, not_or] at hc
    rw [State.inTurn_cons, ih hc.2, hf d s c hc.1]

/-- Where each channel has one turn, channel c finds itself as it was but for its request, and only its request changes
after its turn. -/
theorem State.inTurn_own {f : Channel → State → State} (hf : ∀ c s, State.TurnStep c s (f c s)) {ord : List Channel}
    (hn : ord.Nodup) {c : Channel} (hc : c ∈ ord) (s : State) :
    ∃ u, (∃ pre, u = s.inTurn f pre) ∧ u.channel c = { s.channel c with request := (u.channel c).request } ∧
      (s.inTurn f ord).channel c = { (f c u).channel c with request := ((s.inTurn f ord).channel c).request } := by
  obtain ⟨pre, post, rfl⟩ := List.append_of_mem hc
  have hpre : c ∉ pre := fun h => by
    rw [List.nodup_append] at hn
    exact hn.2.2 c h c (by simp) rfl
  have hpost : c ∉ post := by
    rw [List.nodup_append, List.nodup_cons] at hn
    exact hn.2.1.1
  refine ⟨s.inTurn f pre, ⟨pre, rfl⟩, State.inTurn_others hf pre hpre s, ?_⟩
  rw [State.inTurn_append, State.inTurn_cons]
  exact State.inTurn_others hf post hpost _

end Sys2Proof.Machine
end

