-- ==== Sys2Proof/Laws/Completion.lean ====
section
/-!
SUPPORT. What the parts of a block completion leave alone, and what they do to channels, slots and own values.
-/
namespace Sys2Proof.Machine

/-! ### Counting -/

theorem State.countChannel_rest (s : State) (c : Channel) (k : ChannelCounter) :
    s.countChannel c k = { s with stats := { s.stats with channel := (s.countChannel c k).stats.channel } } := by
  unfold State.countChannel; split <;> rfl

theorem State.countIf_rest (s : State) (b : Bool) (c : Channel) (k : ChannelCounter) :
    s.countIf b c k = { s with stats := { s.stats with channel := (s.countIf b c k).stats.channel } } := by
  unfold State.countIf
  split
  · exact State.countChannel_rest s c k
  · rfl

theorem State.countBlock_rest (s : State) (c : Channel) :
    s.countBlock c = { s with stats := { s.stats with channel := (s.countBlock c).stats.channel } } := by
  unfold State.countBlock
  split
  · rfl
  · rw [State.countIf_rest, State.countIf_rest, State.countIf_rest, State.countIf_rest]

theorem State.countBlocks_rest (s : State) (cs : List Channel) :
    cs.foldl State.countBlock s =
      { s with stats := { s.stats with channel := (cs.foldl State.countBlock s).stats.channel } } := by
  induction cs generalizing s with
  | nil => rfl
  | cons c cs ih => rw [List.foldl_cons, ih, State.countBlock_rest]

/-! ### Limiter updates and own values -/

/-- A channel after its limiter update at a block completion (R86). -/
def ChannelState.limited (x : ChannelState) : ChannelState :=
  if x.composed.isSome then x.limit x.blockOvershoot else x

theorem State.updateLimiters_rest (s : State) :
    s.updateLimiters = { s with
      channels := Vector.ofFn fun c => s.channels[c].limited,
      stats := { s.stats with channel := (allChannels.foldl State.countBlock s).stats.channel } } := by
  unfold State.updateLimiters
  rw [State.countBlocks_rest]
  rfl

theorem State.channel_updateLimiters (s : State) (c : Channel) :
    s.updateLimiters.channel c = (s.channel c).limited := by
  rw [State.updateLimiters_rest]; simp [State.channel]

theorem ChannelState.limit_record (x : ChannelState) (e : Nat) : (x.limit e).record = x.record := by
  unfold ChannelState.limit; split
  · rfl
  · split <;> rfl

theorem ChannelState.limited_rest (x : ChannelState) :
    x.limited = { x with reduction := x.limited.reduction, holdCount := x.limited.holdCount } := by
  unfold ChannelState.limited
  generalize x.blockOvershoot = e
  unfold ChannelState.limit
  split
  · split
    · rfl
    · split <;> rfl
  · rfl

theorem State.setOwn_eq (s : State) (own : Vector Nat 4) :
    s.setOwn own = (s.holdOwn own).handOwn s.emission.own own allGroups := rfl

theorem State.writeLinkTarget_rest (s : State) (g : Group) : s.writeLinkTarget g = { s with ramp := (s.writeLinkTarget g).ramp } := rfl

theorem foldl_ramp_rest {α : Type} (f : State → α → State) (hf : ∀ s a, f s a = { s with ramp := (f s a).ramp }) (l : List α)
    (s : State) : l.foldl f s = { s with ramp := (l.foldl f s).ramp } := by
  induction l generalizing s with
  | nil => rfl
  | cons a l ih =>
    rw [List.foldl_cons, ih, hf]

theorem State.handOwn_rest (s : State) (before own : Vector Nat 4) (gs : List Group) :
    s.handOwn before own gs = { s with ramp := (s.handOwn before own gs).ramp } :=
  foldl_ramp_rest _ (fun t g => by
    split
    · rfl
    · exact State.writeLinkTarget_rest t g) gs s

theorem State.setOwn_rest (s : State) (own : Vector Nat 4) :
    s.setOwn own = { s with ramp := (s.setOwn own).ramp, emission := { s.emission with own := own } } := by
  rw [State.setOwn_eq, State.handOwn_rest]; rfl

theorem foldl_slot_other {α : Type} (f : State → α → State) (i : SlotId) (hf : ∀ s a, (f s a).slot i = s.slot i) (l : List α)
    (s : State) : (l.foldl f s).slot i = s.slot i := by
  induction l generalizing s with
  | nil => rfl
  | cons a l ih => rw [List.foldl_cons, ih, hf]

theorem foldl_profile {α : Type} (f : State → α → State) (hf : ∀ s a, (f s a).ramp.profile = s.ramp.profile) (l : List α)
    (s : State) : (l.foldl f s).ramp.profile = s.ramp.profile := by
  induction l generalizing s with
  | nil => rfl
  | cons a l ih => rw [List.foldl_cons, ih, hf]

theorem State.handOwn_slot_other (s : State) (before own : Vector Nat 4) (gs : List Group) {i : SlotId}
    (h : ∀ g, i ≠ .link g) : (s.handOwn before own gs).slot i = s.slot i :=
  foldl_slot_other _ i (fun t g => by
    split
    · rfl
    · rw [State.writeLinkTarget, State.slot_writeTarget, if_neg (Ne.symm (h g))]) gs s

theorem State.handOwn_profile (s : State) (before own : Vector Nat 4) (gs : List Group) :
    (s.handOwn before own gs).ramp.profile = s.ramp.profile :=
  foldl_profile _ (fun t g => by
    split
    · rfl
    · rw [State.writeLinkTarget, State.writeTarget_profile]) gs s

/-- Own values handed over: the LINK slot of each listed group with a new value is written its target (R90). -/
theorem State.handOwn_slot_link (s : State) (before own : Vector Nat 4) (gs : List Group) (h : gs.Nodup) (g : Group) :
    (s.handOwn before own gs).slot (.link g) =
      if g ∈ gs ∧ own[g] ≠ before[g] then s.written (.link g) (s.tableTarget (.link g)) else s.slot (.link g) := by
  unfold State.handOwn
  induction gs generalizing s with
  | nil => simp
  | cons a gs ih =>
    rw [List.nodup_cons] at h
    rw [List.foldl_cons, ih _ h.2]
    by_cases ha : own[a] = before[a]
    · rw [if_pos ha]
      by_cases hg : g = a
      · subst hg; simp [ha]
      · simp [hg]
    · rw [if_neg ha, State.writeLinkTarget_eq, State.tableTarget_writeTarget, State.slot_writeTarget]
      by_cases hg : g = a
      · subst hg; simpa [h.1] using fun e => absurd e ha
      · have hne : SlotId.link a ≠ .link g := fun e => hg (SlotId.link.inj e).symm
        rw [State.written_writeTarget _ hne, if_neg hne]
        simp [hg]

theorem allGroups_nodup : allGroups.Nodup := by decide
theorem mem_allGroups (g : Group) : g ∈ allGroups := by revert g; decide

theorem State.setOwn_slot_other (s : State) (own : Vector Nat 4) {i : SlotId} (h : ∀ g, i ≠ .link g) :
    (s.setOwn own).slot i = s.slot i := by
  rw [State.setOwn_eq, State.handOwn_slot_other _ _ _ _ h]; rfl

/-- A LINK slot is written the target of its group's new own value, if that is another one (R90). -/
theorem State.setOwn_slot_link (s : State) (own : Vector Nat 4) (g : Group) :
    (s.setOwn own).slot (.link g) = if own[g] = s.emission.own[g] then s.slot (.link g)
      else s.written (.link g) (linkTarget own[g] s.table g) := by
  rw [State.setOwn_eq, State.handOwn_slot_link _ _ _ _ allGroups_nodup]
  by_cases h : own[g] = s.emission.own[g]
  · rw [if_neg fun c => c.2 h, if_pos h]; rfl
  · rw [if_pos ⟨mem_allGroups g, h⟩, if_neg h]; rfl

theorem State.setOwn_profile (s : State) (own : Vector Nat 4) : (s.setOwn own).ramp.profile = s.ramp.profile := by
  rw [State.setOwn_eq, State.handOwn_profile]; rfl

/-! ### Emission -/

theorem State.handHeadroom_rest (s : State) :
    s.handHeadroom = { s with
      link := { s.link with queue := s.handHeadroom.link.queue, sending := s.handHeadroom.link.sending },
      emission := { s.emission with sent := s.handHeadroom.emission.sent, age := s.handHeadroom.emission.age } } := by
  unfold State.handHeadroom
  split
  · rfl
  · rename_i l h
    unfold LinkInterface.acceptHeadroom at h
    split at h
    · cases h; rfl
    · split at h
      · cases h; rfl
      · cases h

theorem State.emit_rest (s : State) :
    s.emit = { s with
      link := { s.link with queue := s.emit.link.queue, sending := s.emit.link.sending },
      emission := { s.emission with sent := s.emit.emission.sent, age := s.emit.emission.age } } := by
  unfold State.emit
  split
  · exact State.handHeadroom_rest s
  · rfl

/-! ### The step and the update in either order -/

theorem State.rampStep_rest (s : State) : s.rampStep = { s with ramp := s.rampStep.ramp } := by
  simp only [State.rampStep]

theorem State.rampStep_profile (s : State) : s.rampStep.ramp.profile = s.ramp.profile := by
  simp only [State.rampStep]

/-- What limiter updates and ramp steps do together (R27): channels, counters and own values; every slot after its step, and
the LINK slot of each changed own value written, after its step or before it. -/
structure State.StepUpdated (s t : State) : Prop where
  rest    : t = { s with
    ramp := t.ramp, channels := Vector.ofFn fun c => s.channels[c].limited,
    emission := { s.emission with own := t.emission.own },
    stats := { s.stats with channel := (allChannels.foldl State.countBlock s).stats.channel } }
  own     : ∀ g : Group, t.emission.own[g] =
    if s.awake then ownValue (Vector.ofFn fun c => s.channels[c].limited) g else s.emission.own[g]
  slots   : ∀ i, (∀ g, i ≠ .link g) → t.slot i = s.stepped i
  links   : ∀ g : Group,
    (t.emission.own[g] = s.emission.own[g] → t.slot (.link g) = (s.slot (.link g)).step s.ramp.record) ∧
    (t.emission.own[g] ≠ s.emission.own[g] →
      t.slot (.link g) = s.rampStep.written (.link g) (linkTarget t.emission.own[g] s.table g) ∨
      t.slot (.link g) = (s.written (.link g) (linkTarget t.emission.own[g] s.table g)).step s.ramp.record)
  profile : t.ramp.profile = s.ramp.profile

/-- A slot's write depends on the slot and the profile alone. -/
theorem State.written_congr {s t : State} {i : SlotId} (hs : s.slot i = t.slot i)
    (hp : s.ramp.profile = t.ramp.profile) (v : Int) : s.written i v = t.written i v := by
  have he : s.ramp.entry = t.ramp.entry := by funext c; simp only [RampEngine.entry, hp]
  have hr : s.ramp.record = t.ramp.record := by funext r; simp only [RampEngine.record, hp]
  simp only [State.written, hs, he, hr]

theorem State.ownValues_updateLimiters (s : State) (g : Group) : s.updateLimiters.ownValues[g] =
    if s.awake then ownValue (Vector.ofFn fun c => s.channels[c].limited) g else s.emission.own[g] := by
  have ha : s.updateLimiters.awake = s.awake := by rw [State.updateLimiters_rest]; rfl
  unfold State.ownValues
  rw [ha, State.updateLimiters_rest]
  split <;> simp

theorem State.stepAndUpdate_spec (s : State) (b : Group → Bool) : s.StepUpdated (s.stepAndUpdate b) := by
  let u := s.updateLimiters.holdOwn s.updateLimiters.ownValues
  let early := u.handOwn s.emission.own s.updateLimiters.ownValues (allGroups.filter fun g => !b g)
  have ht : s.stepAndUpdate b =
      early.rampStep.handOwn s.emission.own s.updateLimiters.ownValues (allGroups.filter b) := rfl
  have hu : u = { s with
      channels := Vector.ofFn fun c => s.channels[c].limited,
      emission := { s.emission with own := s.updateLimiters.ownValues },
      stats := { s.stats with channel := (allChannels.foldl State.countBlock s).stats.channel } } := by
    show s.updateLimiters.holdOwn _ = _
    rw [State.holdOwn, State.setEmission, State.updateLimiters_rest]
  have hearly : early = { u with ramp := early.ramp } := State.handOwn_rest _ _ _ _
  have hrest : s.stepAndUpdate b = { u with ramp := (s.stepAndUpdate b).ramp } := by
    rw [ht, State.handOwn_rest, State.rampStep_rest, hearly]
  have hown : (s.stepAndUpdate b).emission.own = s.updateLimiters.ownValues := by rw [hrest, hu]
  have hprof : early.ramp.profile = s.ramp.profile := (State.handOwn_profile _ _ _ _).trans (by rw [hu])
  have hrec : early.ramp.record = s.ramp.record := by funext r; simp only [RampEngine.record, hprof]
  have hslot : ∀ i, u.slot i = s.slot i := fun i => by simp only [State.slot, hu]
  refine ⟨?_, fun g => ?_, fun i hi => ?_, fun g => ?_, ?_⟩
  · rw [hown]; exact hrest.trans (by rw [hu])
  · rw [hown]; exact State.ownValues_updateLimiters s g
  · rw [ht, State.handOwn_slot_other _ _ _ _ hi, State.slot_rampStep]
    exact State.stepped_congr ((State.handOwn_slot_other _ _ _ _ hi).trans (hslot i)) hrec (by rw [hearly, hu])
  · have hn : ∀ p : Group → Bool, (allGroups.filter p).Nodup := fun p => allGroups_nodup.filter p
    have hm : ∀ p : Group → Bool, g ∈ allGroups.filter p ↔ p g = true := fun p => by simp [mem_allGroups]
    have htarget : ∀ v : State, v.table = s.table → v.emission.own = s.updateLimiters.ownValues →
        v.tableTarget (.link g) = linkTarget s.updateLimiters.ownValues[g] s.table g := by
      intro v h1 h2; simp only [State.tableTarget, h1, h2]
    have h1 : early.slot (.link g) = if b g = false ∧ s.updateLimiters.ownValues[g] ≠ s.emission.own[g] then
        s.written (.link g) (linkTarget s.updateLimiters.ownValues[g] s.table g) else s.slot (.link g) := by
      rw [State.handOwn_slot_link _ _ _ _ (hn _), htarget u (by rw [hu]) (by rw [hu]), hslot,
        State.written_congr (hslot _) (by rw [hu])]
      simp only [hm, Bool.not_eq_true']
    have h2 : (s.stepAndUpdate b).slot (.link g) = if b g = true ∧ s.updateLimiters.ownValues[g] ≠ s.emission.own[g] then
        early.rampStep.written (.link g) (linkTarget s.updateLimiters.ownValues[g] s.table g)
        else (early.slot (.link g)).step s.ramp.record := by
      rw [ht, State.handOwn_slot_link _ _ _ _ (hn _), htarget early.rampStep (by rw [State.rampStep_table, hearly, hu])
        (by rw [State.rampStep_emission, hearly, hu]), State.slot_rampStep, State.stepped_link, hrec]
      simp only [hm]
    rw [hown, h2]
    refine ⟨fun he => ?_, fun he => ?_⟩
    · rw [if_neg fun c => c.2 he, h1, if_neg fun c => c.2 he]
    · cases hb : b g
      · right
        rw [if_neg (by simp), h1, if_pos ⟨hb, he⟩]
      · left
        rw [if_pos ⟨rfl, he⟩]
        refine State.written_congr ?_ ?_ _
        · rw [State.slot_rampStep, State.slot_rampStep, State.stepped_link, State.stepped_link, hrec, h1, if_neg (by simp [hb])]
        · rw [State.rampStep_profile, State.rampStep_profile, hprof]
  · rw [ht, State.handOwn_profile, State.rampStep_profile, hprof]

end Sys2Proof.Machine
end

