-- ==== Sys2Proof/Laws/Sleep.lean ====
section
/-!
SUPPORT. The entry to DORMANT: what it does to every block.
-/
namespace Sys2Proof.Machine

/-! ### A way come free -/

theorem State.allocate_stats (s : State) (k : CoefKey) : (s.allocate k).2.stats = s.stats := by
  unfold State.allocate; split <;> rfl

theorem State.wayFree_stats (s : State) (i : Fin 16) : (s.wayFree i).stats = s.stats := by
  unfold State.wayFree
  split
  · rfl
  · rename_i e _
    have h := s.allocate_stats e.key
    revert h
    generalize s.allocate e.key = r
    intro h
    obtain ⟨_ | l, s'⟩ := r
    · rfl
    · dsimp only [State.attachQueued]
      rw [State.mapChannels_stats]; exact h

theorem State.unpinActive_stats (s : State) (l : Option LineRef) : (s.unpinActive l).stats = s.stats := by
  cases l with
  | none => rfl
  | some l =>
    unfold State.unpinActive State.unpin
    dsimp only
    split
    · rw [State.wayFree_stats]; rfl
    · rfl

theorem State.channel_allocate (s : State) (k : CoefKey) (d : Channel) : (s.allocate k).2.channel d = s.channel d := by
  unfold State.allocate; split <;> rfl

/-- A way given away wakes QUEUED channels alone. -/
theorem State.wayFree_idle (s : State) (i : Fin 16) (d : Channel) (h : (s.channel d).request = .idle) :
    ((s.wayFree i).channel d).request = .idle := by
  unfold State.wayFree
  split
  · exact h
  · rename_i e _
    have hc := s.channel_allocate e.key d
    revert hc
    generalize s.allocate e.key = r
    intro hc
    obtain ⟨_ | l, s'⟩ := r
    · exact h
    · dsimp only [State.attachQueued]
      rw [State.channel_mapChannels]
      have h' : (s'.channel d).request = .idle := by rw [hc]; exact h
      simp [h']

theorem State.unpinActive_idle (s : State) (l : Option LineRef) (d : Channel) (h : (s.channel d).request = .idle) :
    ((s.unpinActive l).channel d).request = .idle := by
  cases l with
  | none => exact h
  | some l =>
    unfold State.unpinActive State.unpin
    dsimp only
    split
    · exact State.wayFree_idle _ _ d h
    · exact h

/-! ### The channels at the entry -/

/-- A channel after its turn at the entry to DORMANT (R113). -/
def ChannelState.slept (x : ChannelState) : ChannelState :=
  { x with
    request := .idle, incoming := none, activeStates := SectionState.zeros, incomingStates := SectionState.zeros,
    active := match x.incoming with
      | some inc => some inc.line
      | none => x.active }

theorem State.sleepChannel_own (s : State) (c : Channel) : (s.sleepChannel c).channel c = (s.channel c).slept := by
  unfold State.sleepChannel ChannelState.slept
  dsimp only
  split
  · rename_i h; rw [State.channel_setChannel_same, h]
  · rename_i inc h
    have hr := State.RequestStep.unpinActive (s.setChannel c { s.channel c with
      request := .idle, incoming := none, activeStates := SectionState.zeros, incomingStates := SectionState.zeros,
      active := some inc.line }) (s.channel c).active c
    have hi := State.unpinActive_idle (s.setChannel c { s.channel c with
      request := .idle, incoming := none, activeStates := SectionState.zeros, incomingStates := SectionState.zeros,
      active := some inc.line }) (s.channel c).active c (by rw [State.channel_setChannel_same])
    rw [hr, hi, State.channel_setChannel_same, h]

theorem State.sleepChannel_idle (s : State) (c d : Channel) (h : (s.channel d).request = .idle) :
    ((s.sleepChannel c).channel d).request = .idle := by
  by_cases hd : c = d
  · subst hd; rw [State.sleepChannel_own]; rfl
  · unfold State.sleepChannel
    dsimp only
    split
    · rw [State.channel_setChannel_other _ hd]; exact h
    · exact State.unpinActive_idle _ _ d (by rw [State.channel_setChannel_other _ hd]; exact h)

theorem State.sleepChannel_stats (s : State) (c : Channel) : (s.sleepChannel c).stats = s.stats := by
  unfold State.sleepChannel
  dsimp only
  split
  · rfl
  · rw [State.unpinActive_stats]; rfl

theorem State.sleepTurns_idle (ord : List Channel) (s : State) (d : Channel) (h : (s.channel d).request = .idle) :
    ((s.inTurn State.sleepChannel ord).channel d).request = .idle := by
  induction ord generalizing s with
  | nil => exact h
  | cons c cs ih => exact ih _ (s.sleepChannel_idle c d h)

theorem State.sleepTurns_stats (ord : List Channel) (s : State) : (s.inTurn State.sleepChannel ord).stats = s.stats := by
  induction ord generalizing s with
  | nil => rfl
  | cons c cs ih => exact (ih _).trans (s.sleepChannel_stats c)

theorem State.sleepTurns_channel {ord : List Channel} (hn : ord.Nodup) (hm : ∀ c, c ∈ ord) (s : State) (c : Channel) :
    (s.inTurn State.sleepChannel ord).channel c = (s.channel c).slept := by
  obtain ⟨pre, post, rfl⟩ := List.append_of_mem (hm c)
  have hpre : c ∉ pre := fun h => by
    rw [List.nodup_append] at hn
    exact hn.2.2 c h c (by simp) rfl
  have hpost : c ∉ post := by
    rw [List.nodup_append, List.nodup_cons] at hn
    exact hn.2.1.1
  have hT : ∀ c s, State.TurnStep c s (State.sleepChannel c s) := fun c s => .sleepChannel s c
  rw [State.inTurn_append, State.inTurn_cons, State.inTurn_others hT post hpost,
    State.sleepTurns_idle post _ c (by rw [State.sleepChannel_own]; rfl), State.sleepChannel_own,
    State.inTurn_others hT pre hpre]
  rfl

theorem State.clearFillQueue_channel (s : State) (c : Channel) : s.clearFillQueue.channel c = s.channel c := by
  unfold State.clearFillQueue
  dsimp only
  rw [State.channel_setQueue]
  generalize s.library.queue = q
  induction q generalizing s with
  | nil => rfl
  | cons e es ih =>
    rw [List.foldl_cons, ih]
    split <;> rfl

theorem State.clearFillQueue_stats (s : State) : s.clearFillQueue.stats = s.stats := by
  unfold State.clearFillQueue
  dsimp only
  show (List.foldl _ s s.library.queue).stats = s.stats
  generalize s.library.queue = q
  induction q generalizing s with
  | nil => rfl
  | cons e es ih =>
    rw [List.foldl_cons, ih]
    split <;> rfl

theorem State.clearFillQueue_queue (s : State) : s.clearFillQueue.library.queue = [] := rfl

/-- With an empty queue a way come free is given to no one. -/
theorem State.wayFree_empty (s : State) (i : Fin 16) (h : s.library.queue = []) : s.wayFree i = s := by
  unfold State.wayFree; rw [h]; rfl

theorem State.sleepChannel_empty (s : State) (c : Channel) (h : s.library.queue = []) :
    (s.sleepChannel c).library.queue = [] := by
  unfold State.sleepChannel
  dsimp only
  split
  · exact h
  · cases (s.channel c).active with
    | none => exact h
    | some l =>
      unfold State.unpinActive State.unpin
      dsimp only
      split
      · rw [State.wayFree_empty]
        · exact h
        · exact h
      · exact h

theorem State.sleepTurns_empty (ord : List Channel) (s : State) (h : s.library.queue = []) :
    (s.inTurn State.sleepChannel ord).library.queue = [] := by
  induction ord generalizing s with
  | nil => exact h
  | cons c cs ih => exact ih _ (s.sleepChannel_empty c h)

theorem State.sleepCache_queue (s : State) (ord : List Channel) (b : Bool) : (s.sleepCache ord b).library.queue = [] := by
  unfold State.sleepCache
  split
  · exact State.sleepTurns_empty ord _ s.clearFillQueue_queue
  · rfl

theorem State.sleepCache_channel {ord : List Channel} (hn : ord.Nodup) (hm : ∀ c, c ∈ ord) (s : State) (b : Bool)
    (c : Channel) : (s.sleepCache ord b).channel c = (s.channel c).slept := by
  unfold State.sleepCache
  split
  · rw [State.sleepTurns_channel hn hm, State.clearFillQueue_channel]
  · rw [State.clearFillQueue_channel, State.sleepTurns_channel hn hm]

theorem State.sleepCache_stats (s : State) (ord : List Channel) (b : Bool) : (s.sleepCache ord b).stats = s.stats := by
  unfold State.sleepCache
  split
  · rw [State.sleepTurns_stats, State.clearFillQueue_stats]
  · rw [State.clearFillQueue_stats, State.sleepTurns_stats]

/-! ### The whole entry -/

theorem dipTarget_nil (z : Zone) (k : ChannelClass) : dipTarget [] z k = 0 := rfl

theorem linkTarget_nil (own : Nat) (g : Group) : linkTarget own [] g = own := rfl

/-- The parts of the entry before the channels and the cache. -/
def State.beforeSleep (s : State) : State :=
  let s1 := s.setNode { s.node with state := .dormant, ampOn := false, settle := none, linkSilence := none }
  let s2 := ((s1.mapChannels fun _ x => x.stop).setOwn (Vector.replicate 4 0))
  let s3 := s2.setEmission { s2.emission with sent := Vector.replicate 4 0 }
  let s4 := (s3.setTable []).recomputeTargets
  ((s4.emptyOrigins.sleepPace).setLink s4.link.flush).clearOutput

theorem State.enterDormant_eq (s : State) (ord : List Channel) (b : Bool) :
    s.enterDormant ord b = (s.beforeSleep.sleepCache ord b).requestPowerDown := rfl

theorem State.beforeSleep_rest (s : State) :
    s.beforeSleep = { s with
      node := { s.node with state := .dormant, ampOn := false, settle := none, linkSilence := none },
      channels := Vector.ofFn fun c => s.channels[c].stop,
      emission := { s.emission with own := Vector.replicate 4 0, sent := Vector.replicate 4 0 },
      table := [],
      image := Vector.ofFn fun z => { s.image[z] with origins := [] },
      pace := { s.pace with
        primary := s.pace.primary.unfresh, secondary := s.pace.secondary.unfresh,
        speedState := sleepSpeedState s.pace.speedState },
      link := s.link.flush, ports := { s.ports with outFrame := Vector.replicate 8 0#32 },
      ramp := s.beforeSleep.ramp } := by
  simp only [State.beforeSleep, State.emptyOrigins, State.sleepPace, State.setPace, State.setLink, State.clearOutput,
    zeroFrame]
  rw [State.recomputeTargets_rest]
  simp only [State.setTable, State.setEmission]
  rw [State.setOwn_rest]
  simp only [State.mapChannels, State.setNode]

/-- The state whose targets are recomputed at the entry. -/
def State.silenced (s : State) : State :=
  let s1 := s.setNode { s.node with state := .dormant, ampOn := false, settle := none, linkSilence := none }
  let s2 := ((s1.mapChannels fun _ x => x.stop).setOwn (Vector.replicate 4 0))
  (s2.setEmission { s2.emission with sent := Vector.replicate 4 0 }).setTable []

theorem State.beforeSleep_ramp (s : State) : s.beforeSleep.ramp = s.silenced.recomputeTargets.ramp := rfl

theorem State.silenced_own (s : State) : s.silenced.emission.own = Vector.replicate 4 0 := by
  simp only [State.silenced, State.setTable, State.setEmission]
  rw [State.setOwn_rest]

/-- The entry to DORMANT with the own values at 0. -/
def State.unowned (s : State) : State :=
  ((s.setNode { s.node with state := .dormant, ampOn := false, settle := none, linkSilence := none }).mapChannels
    fun _ x => x.stop).setOwn (Vector.replicate 4 0)

theorem State.silenced_ramp (s : State) : s.silenced.ramp = s.unowned.ramp := rfl

theorem State.silenced_slot (s : State) {i : SlotId} (h : ∀ g, i ≠ .link g) : s.silenced.slot i = s.slot i := by
  have : s.silenced.slot i = s.unowned.slot i := by simp only [State.slot, State.silenced_ramp]
  rw [this, State.unowned, State.setOwn_slot_other _ _ h]
  simp only [State.slot, State.mapChannels, State.setNode]

theorem State.silenced_profile (s : State) : s.silenced.ramp.profile = s.ramp.profile := by
  rw [State.silenced_ramp, State.unowned, State.setOwn_profile]
  simp only [State.mapChannels, State.setNode]

theorem State.beforeSleep_slot (s : State) (i : SlotId) : s.beforeSleep.slot i = s.silenced.recomputeTargets.slot i := by
  simp only [State.slot, State.beforeSleep_ramp]

/-- The entry to DORMANT gives every block its DORMANT values and touches nothing else. -/
theorem State.enterDormant_falls (s : State) {ord : List Channel} (hn : ord.Nodup) (hm : ∀ c, c ∈ ord) (b : Bool) :
    s.FallsDormant (s.enterDormant ord b) := by
  have hc := State.CacheStep.sleepCache s.beforeSleep ord b
  have hch : ∀ c, (s.enterDormant ord b).channel c = ((s.channel c).stop).slept := by
    intro c
    have : (s.enterDormant ord b).channel c = (s.beforeSleep.sleepCache ord b).channel c := by
      rw [State.enterDormant_eq]; rfl
    rw [this, State.sleepCache_channel hn hm]
    have : s.beforeSleep.channel c = (s.channel c).stop := by
      rw [State.channel, State.beforeSleep_rest]; simp [State.channel]
    rw [this]
  have hslot : ∀ i, (s.enterDormant ord b).slot i = s.silenced.recomputeTargets.slot i := by
    intro i
    have : (s.enterDormant ord b).slot i = (s.beforeSleep.sleepCache ord b).slot i := by
      rw [State.enterDormant_eq]; rfl
    rw [this, hc.slot, State.beforeSleep_slot]
  have hnode : (s.enterDormant ord b).node = s.beforeSleep.node := by rw [State.enterDormant_eq]; exact hc.node
  have hrest := s.beforeSleep_rest
  have f : ∀ {α : Type} (g : State → α), g s.beforeSleep = g { s with
      node := { s.node with state := .dormant, ampOn := false, settle := none, linkSilence := none },
      channels := Vector.ofFn fun c => s.channels[c].stop,
      emission := { s.emission with own := Vector.replicate 4 0, sent := Vector.replicate 4 0 },
      table := [],
      image := Vector.ofFn fun z => { s.image[z] with origins := [] },
      pace := { s.pace with
        primary := s.pace.primary.unfresh, secondary := s.pace.secondary.unfresh,
        speedState := sleepSpeedState s.pace.speedState },
      link := s.link.flush, ports := { s.ports with outFrame := Vector.replicate 8 0#32 },
      ramp := s.beforeSleep.ramp } := fun g => congrArg g hrest
  refine ⟨⟨?_, ?_, ?_, ?_, ⟨?_, ?_⟩, ?_, ?_, ?_, ?_, ?_⟩, ?_, ?_, ?_⟩
  · rw [hnode]; exact f State.node
  · intro z
    have h : (s.enterDormant ord b).image = s.beforeSleep.image := by rw [State.enterDormant_eq]; exact hc.image
    rw [h, f State.image]; simp
  · have h : (s.enterDormant ord b).pace = s.beforeSleep.pace := by rw [State.enterDormant_eq]; exact hc.pace
    rw [h, f State.pace]
    cases hs : s.pace.speedState <;> simp [SpeedSource.unfresh, sleepSpeedState]
  · have h : (s.enterDormant ord b).table = s.beforeSleep.table := by rw [State.enterDormant_eq]; exact hc.table
    rw [h, f State.table]
  · intro z k
    rw [hslot, State.recomputeTargets_dip]; rfl
  · intro g
    rw [hslot, State.recomputeTargets_link, State.silenced_own]
    simp [State.silenced, State.setTable, linkTarget_nil]
  · intro c
    rw [hch]
    exact ⟨rfl, rfl, rfl, rfl, rfl, rfl, rfl, rfl, rfl, rfl, rfl, rfl⟩
  · intro g
    have h : (s.enterDormant ord b).emission = s.beforeSleep.emission := by rw [State.enterDormant_eq]; exact hc.emission
    rw [h, f State.emission]; simp
  · have hl : (s.enterDormant ord b).library = { (s.beforeSleep.sleepCache ord b).library with downPending := true } := rfl
    have hb : s.beforeSleep.library = s.library := f State.library
    refine ⟨?_, by rw [hl], ?_, ?_, ?_, ?_⟩
    · rw [hl]; exact State.sleepCache_queue _ _ _
    · rw [hl]; exact hc.library_fill.trans (congrArg Library.fill hb)
    · rw [hl]; exact hc.library_errors.trans (congrArg Library.errors hb)
    · rw [hl]; exact hc.library_state.trans (congrArg Library.state hb)
    · rw [hl]; exact hc.library_flash.trans (congrArg Library.flash hb)
  · have h : (s.enterDormant ord b).link = s.link.flush := by rw [State.enterDormant_eq]; exact hc.link.trans (f State.link)
    rw [h]
    refine ⟨rfl, ?_, ?_, rfl, rfl, rfl, rfl, rfl, rfl⟩
    · intro a ha
      simp only [LinkInterface.flush, Option.map_eq_some_iff] at ha
      obtain ⟨x, _, rfl⟩ := ha; rfl
    · simp [LinkInterface.flush]
  · refine ⟨?_, ?_, ?_, ?_, ?_⟩
    · rw [State.enterDormant_eq]; exact hc.loader.trans (f State.loader)
    · rw [State.enterDormant_eq]; exact hc.laws.trans (f State.laws)
    · rw [State.enterDormant_eq]; exact hc.linkCounters.trans (f fun s => s.stats.link)
    · rw [State.enterDormant_eq]; exact hc.pending.trans (f State.pending)
    · have : (s.enterDormant ord b).ramp = s.beforeSleep.ramp := by rw [State.enterDormant_eq]; exact hc.ramp
      rw [this, State.beforeSleep_ramp, State.recomputeTargets_rest]
      exact s.silenced_profile
  · intro i hd hl
    rw [hslot, State.recomputeTargets_other _ hd hl, State.silenced_slot _ hl]
  · intro c
    rw [hch]
    cases h : (s.channel c).incoming <;> simp [ChannelState.slept, ChannelState.stop, ChannelState.clearLimiter, h]
  · refine ⟨?_, ?_, ?_, ?_⟩
    · rw [State.enterDormant_eq]; exact hc.ports.trans (f State.ports)
    · rw [State.enterDormant_eq]; exact (State.sleepCache_stats _ _ _).trans (f State.stats)
    · have h : (s.enterDormant ord b).emission = s.beforeSleep.emission := by rw [State.enterDormant_eq]; exact hc.emission
      rw [h, f State.emission]
    · have hl : (s.enterDormant ord b).library = { (s.beforeSleep.sleepCache ord b).library with downPending := true } := rfl
      rw [hl]; exact hc.library_mosi.trans (congrArg Library.mosi (f State.library))

end Sys2Proof.Machine
end

