-- ==== Sys2Proof/Laws/Blocks.lean ====
section
/-!
SUPPORT. Block completions and block starts as wholes: the parts of a completion that enters DORMANT or does not, what a
channel holds at a block start, own values as the largest reductions.
-/
namespace Sys2Proof.Machine

/-- A block completion that does not enter DORMANT: steps and updates, emission, crossfades in turn, the next block
start. -/
theorem State.completion_spec {s : State} (hr : s.inReset = false) (hst : s.node.state ≠ .start) (hd : s.ports.blockDue = true)
    (hq : ¬ (s.node.state = .quiet ∧ (s.stepped .node).current = 1600)) :
    ∃ (u v : State) (ord : List Channel), ord.Nodup ∧ (∀ c, c ∈ ord) ∧ 
      State.StepUpdated ({ s with ports := { s.ports with blockDue := false }, draws := s.draws + 1 }) u ∧
      v = u.emit.inTurn State.advanceCrossfade ord ∧
      exec .blockCompletion s = .next v.blockStart := by
  let s0 : State := { s with ports := { s.ports with blockDue := false }, draws := s.draws + 1 }
  have hp : s.drawn.paced = true := by
    simp only [State.paced, State.inReset] at hr ⊢
    simp [hr, hst]
  have hu := State.stepAndUpdate_spec s0 (Config.stepFirst s.draws)
  refine ⟨s0.stepAndUpdate (Config.stepFirst s.draws), _, channelOrder s.draws, channelOrder_nodup _, mem_channelOrder _, hu, rfl, ?_⟩
  simp only [exec, execBlockCompletion, State.takeCompletion]
  have hb : (s.drawn.paced && s.drawn.ports.blockDue) = true := by rw [hp]; exact hd
  rw [if_pos hb]
  have h0 : (s.drawn.setPorts { s.drawn.ports with blockDue := false }) = s0 := rfl
  rw [h0]
  simp only [State.completeBlock]
  have hf : s0.rampStep.fadedOut = false := by
    rw [← Bool.not_eq_true]
    intro h
    simp only [State.fadedOut, Bool.and_eq_true, beq_iff_eq, State.rampStep_node, State.slot_rampStep] at h
    exact hq h
  have hem := State.emit_rest (s0.stepAndUpdate (Config.stepFirst s.draws))
  have hcs := State.CacheStep.inTurn (f := State.advanceCrossfade) (fun c s => .advanceCrossfade s c) (channelOrder s.draws) (s0.stepAndUpdate (Config.stepFirst s.draws)).emit
  have hf2 : (((s0.stepAndUpdate (Config.stepFirst s.draws)).emit).inTurn State.advanceCrossfade (channelOrder s.draws)).fadedOut = false := by
    rw [← Bool.not_eq_true]
    intro h
    simp only [State.fadedOut, Bool.and_eq_true, beq_iff_eq] at h
    rw [hcs.node, hcs.slot] at h
    have e1 : (s0.stepAndUpdate (Config.stepFirst s.draws)).emit.node = s.node := by rw [hem, hu.rest]
    have e2 : (s0.stepAndUpdate (Config.stepFirst s.draws)).emit.slot .node = s.stepped .node := by
      have := hu.slots .node (by simp)
      rw [← show s0.stepped .node = s.stepped .node from rfl, ← this, State.slot, hem]; rfl
    rw [e1, e2] at h
    exact hq h
  rw [hf, Bool.and_false, if_neg (by simp), State.dormantIfFaded, hf2, if_neg (by simp)]

/-- An audio return: the NODE slot takes the coming completion's step or leaves it to the completion, and then the NODE target
is written (R27, R135). -/
theorem State.audioReturn_spec (s : State) (stepFirst : Bool) : ∃ (early : Bool) (u : State),
    early = (stepFirst && s.paced && !s.ports.nodeStepped) ∧
    u = (if early = true then s.setSlot .node ((s.slot .node).step s.ramp.record) else s) ∧
    s.audioReturn stepFirst = { u.writeTarget .node (nodeTarget s.node.state .present) with
      ports := { s.ports with
        presence := .present, goodFrames := 0, blockDue := s.paced || s.ports.blockDue,
        nodeStepped := s.ports.nodeStepped || early, outFrame := zeroFrame }
      draws := s.draws + 1 } := by
  refine ⟨_, _, rfl, rfl, ?_⟩
  unfold State.audioReturn
  dsimp only
  cases stepFirst && s.paced && !s.ports.nodeStepped <;> rfl

/-- A channel's turn at a completion, in the terms of the statements (R110, R111). -/
theorem State.advanceCrossfade_eq (x : State) (c : Channel) : State.advanceCrossfade c x = x.crossfadeTurn c := by
  unfold State.advanceCrossfade State.crossfadeTurn ChannelState.runningIncoming
  cases (x.channel c).incoming with
  | none => rfl
  | some inc =>
    cases hr : inc.running with
    | false => simp [hr]
    | true =>
      simp only [hr, if_true, Bool.true_eq_false, if_false]
      split
      · rfl
      · unfold State.endCrossfade State.unpinActive
        dsimp only
        cases (x.channel c).active <;> rfl

theorem State.blockStart_rest (s : State) : s.blockStart = { s with channels := s.blockStart.channels, ports := { s.ports with blockFrames := 0, nodeStepped := false } } := by
  simp only [State.blockStart, State.mapChannels]

theorem State.channel_blockStart (s : State) (c : Channel) : s.blockStart.channel c =
   (s.channel c).startBlock (if s.composing && (s.channel c).record.enabled then some (s.compose c) else none) := by
  simp only [State.blockStart, State.mapChannels, State.channel]; simp

theorem State.compose_congr {s t : State} (hr : t.ramp.slots = s.ramp.slots) (hl : t.laws = s.laws) (c : Channel) (h1 : (t.channel c).record = (s.channel c).record) (h2 : (t.channel c).reduction = (s.channel c).reduction) :
   t.compose c = s.compose c := by
  simp only [State.compose, State.slot, hr, hl, h1, h2]

theorem ownValue_spec (v : Vector ChannelState 8) (g : Group) :
   (∀ c : Channel, v[c].record.enabled = true → v[c].record.group = some g → v[c].reduction ≤ ownValue v g) ∧
   (ownValue v g = 0 ∨ ∃ c : Channel, v[c].record.enabled = true ∧ v[c].record.group = some g ∧ ownValue v g = v[c].reduction) := by
  unfold ownValue
  refine ⟨?_, ?_⟩
  · intro c h1 h2
    have h := (foldl_max_spec (fun x : ChannelState => x.share g) v.toList 0).2.1 v[c] (by simp)
    have hs : v[c].share g = v[c].reduction := by simp only [ChannelState.share, h1, h2, and_self, if_true]
    rw [hs] at h
    exact h
  · rcases (foldl_max_spec (fun x : ChannelState => x.share g) v.toList 0).2.2 with h | ⟨x, hx, h⟩
    · exact .inl h
    · rw [h]
      by_cases hs : x.record.enabled = true ∧ x.record.group = some g
      · right
        obtain ⟨i, hi, rfl⟩ := List.getElem_of_mem hx
        have hi' : i < 8 := by simpa using hi
        refine ⟨⟨i, hi'⟩, ?_⟩
        simp only [ChannelState.share, if_pos hs]
        simpa using hs
      · left; simp only [ChannelState.share, if_neg hs]

end Sys2Proof.Machine
end

