-- ==== Sys2Proof/Laws/Equaliser.lean ====
section
/-!
SUPPORT. The equaliser: what a frame does to a channel and gives, in the terms of the statements (R99 to R101, R110).
-/
namespace Sys2Proof.Machine

theorem runSections_length (ks : List Coefs) (sts : List SectionState) (x : Int) :
    (runSections ks sts x).states.length = sts.length := by
  induction ks generalizing sts x with
  | nil => rfl
  | cons k ks ih =>
    cases sts with
    | nil => rfl
    | cons st sts => simp [runSections, ih]

theorem sixStates_toList (l : List SectionState) (h : l.length = 6) : (sixStates l).toList = l := by
  apply List.ext_getElem
  · simp [h]
  · intro i h1 h2
    simp [sixStates, List.getElem?_eq_getElem h2]

theorem sixStates_runSections (ks : List Coefs) (v : Vector SectionState 6) (x : Int) :
    (sixStates (runSections ks v.toList x).states).toList = (runSections ks v.toList x).states :=
  sixStates_toList _ (by rw [runSections_length]; simp)

theorem ChannelState.runningIncoming_eq_none {x : ChannelState} (h : x.runningIncoming = none) {inc : Incoming}
    (hi : x.incoming = some inc) : inc.running = false := by
  unfold ChannelState.runningIncoming at h
  rw [hi] at h; simpa using h

theorem ChannelState.runningIncoming_eq_some {x : ChannelState} {inc : Incoming} (h : x.runningIncoming = some inc) :
    x.incoming = some inc ∧ inc.running = true := by
  unfold ChannelState.runningIncoming at h
  cases hi : x.incoming with
  | none => rw [hi] at h; cases h
  | some j =>
    rw [hi] at h
    simp only at h
    split at h
    · rename_i hr; cases h; exact ⟨rfl, hr⟩
    · cases h

/-- The equaliser runs the sets of the channel on the word. -/
theorem State.equalise_spec (s : State) (x : ChannelState) (word : Int) :
    s.Equalised x word (s.equalise x word).1 (s.equalise x word).2 := by
  unfold State.equalise
  cases hr : x.runningIncoming with
  | none =>
    refine ⟨rfl, runSections (s.coefsOf x.active) x.activeStates.toList word, sixStates_runSections _ _ _,
      fun h => by rw [h]; rfl, fun l h => by rw [h]; rfl, fun _ => ⟨rfl, rfl, rfl⟩, ?_⟩
    intro inc b hi h
    rw [x.runningIncoming_eq_none hr hi] at h; cases h
  | some inc =>
    obtain ⟨hi, hrun⟩ := x.runningIncoming_eq_some hr
    refine ⟨rfl, runSections (s.coefsOf x.active) x.activeStates.toList word, sixStates_runSections _ _ _,
      fun h => by rw [h]; rfl, fun l h => by rw [h]; rfl, ?_, ?_⟩
    · intro h; have := h inc hi; rw [hrun] at this; cases this
    · intro inc' b h1 _ hb
      rw [hi] at h1; cases h1; subst hb
      exact ⟨rfl, sixStates_runSections _ _ _, rfl⟩

/-- A frame of a composing channel: the equaliser, then the clip condition and the block peak from its word
(R12, R13, R14). -/
theorem State.channelFrame_spec (s : State) (word : Channel → Int) (c : Channel) (held : Composed)
    (hc : (s.channel c).composed = some held) :
    ∃ (y : ChannelState) (xeq : Int), s.Equalised (s.channel c) (word c) y xeq ∧
      s.channelFrame word c = ({ y with
        clip := (s.channel c).clip || clipped (s.channel c).record.ceiling (scaled xeq (gain held.total)),
        peak := max (s.channel c).peak (scaled xeq (gain held.aPre)).natAbs },
        clampSample (s.channel c).record.ceiling (scaled xeq (gain held.total))) := by
  have h := s.equalise_spec (s.channel c) (word c)
  refine ⟨_, _, h, ?_⟩
  have hy := h.1
  simp only [State.channelFrame, hc, State.frame]
  generalize s.equalise (s.channel c) (word c) = p at hy
  obtain ⟨y, xeq⟩ := p
  simp only at hy ⊢
  rw [hy]

end Sys2Proof.Machine
end

