-- ==== Sys2Proof/Laws/Formats.lean ====
section
/-!
SUPPORT. Reading bytes: the fields of frames, records and the configuration image as numbers at byte places.
-/
namespace Sys2Proof.Machine

/-! ### Numbers in bytes -/

theorem append_toNat {m n : Nat} (a : BitVec m) (b : BitVec n) : (a ++ b).toNat = 2 ^ n * a.toNat + b.toNat := by
  rw [BitVec.toNat_append, ← Nat.shiftLeft_add_eq_or_of_lt b.isLt, Nat.shiftLeft_eq, Nat.mul_comm]

theorem byteAt_toNat (bytes : List Byte) (i : Nat) : (byteAt bytes i).toNat = unsignedAt bytes i 1 := by
  simp [unsignedAt, byteAt, List.range_succ]

theorem halfAt_toNat (bytes : List Byte) (i : Nat) : (halfAt bytes i).toNat = unsignedAt bytes i 2 := by
  rw [halfAt, append_toNat, byteAt_toNat, byteAt_toNat]
  simp [unsignedAt, List.range_succ]

theorem wordAt_toNat (bytes : List Byte) (i : Nat) : (wordAt bytes i).toNat = unsignedAt bytes i 4 := by
  simp only [wordAt, append_toNat, halfAt_toNat, unsignedAt, List.range_succ, List.range_zero, List.nil_append,
    List.foldl_append, List.foldl_cons, List.foldl_nil]
  ring_nf

theorem byteAt_toInt (bytes : List Byte) (i : Nat) : (byteAt bytes i).toInt = signedAt bytes i 1 := by
  have h := byteAt_toNat bytes i
  rw [BitVec.toInt_eq_toNat_cond, signedAt, ← h]
  have := (byteAt bytes i).isLt
  split <;> split <;> omega

theorem wordAt_toInt (bytes : List Byte) (i : Nat) : (wordAt bytes i).toInt = signedAt bytes i 4 := by
  have h := wordAt_toNat bytes i
  rw [BitVec.toInt_eq_toNat_cond, signedAt, ← h]
  have := (wordAt bytes i).isLt
  split <;> split <;> omega

theorem halfBytes_ofNat (v : Nat) : halfBytes (BitVec.ofNat 16 v) = twoBytes v := by
  simp only [halfBytes, twoBytes, List.cons.injEq, and_true]
  constructor <;> apply BitVec.eq_of_toNat_eq <;> simp [BitVec.extractLsb'_toNat, Nat.shiftRight_eq_div_pow]
  omega

/-! ### Single fields -/

theorem byte_eq_iff (bytes : List Byte) (i : Nat) (b : Byte) : byteAt bytes i = b ↔ unsignedAt bytes i 1 = b.toNat := by
  rw [← byteAt_toNat, BitVec.toNat_eq]

theorem byte_lt (bytes : List Byte) (i : Nat) : unsignedAt bytes i 1 < 256 := by
  rw [← byteAt_toNat]; exact (byteAt bytes i).isLt

theorem finField_some {n : Nat} (bytes : List Byte) (i : Nat) (x : Fin n) :
    finField n (byteAt bytes i) = some x ↔ x.val = unsignedAt bytes i 1 := by
  unfold finField
  rw [← byteAt_toNat]
  split
  · simp [Fin.ext_iff, eq_comm]
  · rename_i h
    simp only [reduceCtorEq, false_iff]
    exact fun e => h (e ▸ x.isLt)

theorem finField_isSome {n : Nat} (bytes : List Byte) (i : Nat) :
    (finField n (byteAt bytes i)).isSome = true ↔ unsignedAt bytes i 1 < n := by
  unfold finField
  rw [← byteAt_toNat]
  split <;> simp_all

theorem optionField_some {n : Nat} (hn : n ≤ 255) (bytes : List Byte) (i : Nat) (x : Option (Fin n)) :
    optionField n (byteAt bytes i) = some x ↔ (x.map (·.val)).getD 0xFF = unsignedAt bytes i 1 := by
  unfold optionField
  by_cases h : byteAt bytes i = 0xFF#8
  · rw [if_pos h]
    rw [byte_eq_iff] at h
    rw [h]
    cases x with
    | none => simp
    | some x => have := x.isLt; simp; omega
  · rw [if_neg h]
    rw [byte_eq_iff] at h
    cases x with
    | none =>
      simp only [Option.map_eq_some_iff, reduceCtorEq, and_false, exists_false, Option.map_none, Option.getD_none,
        false_iff]
      exact fun e => h e.symm
    | some x =>
      simp only [Option.map_eq_some_iff, Option.some.injEq, exists_eq_right, finField_some, Option.map_some,
        Option.getD_some]

theorem optionField_isSome {n : Nat} (bytes : List Byte) (i : Nat) :
    (optionField n (byteAt bytes i)).isSome = true ↔ unsignedAt bytes i 1 < n ∨ unsignedAt bytes i 1 = 0xFF := by
  unfold optionField
  by_cases h : byteAt bytes i = 0xFF#8
  · rw [if_pos h]; rw [byte_eq_iff] at h; simp [h]
  · rw [if_neg h]; rw [byte_eq_iff] at h
    simp only [Option.isSome_map, finField_isSome]
    exact ⟨.inl, fun e => e.resolve_right h⟩

theorem ranged_some (lo hi v x : Nat) : ranged lo hi v = some x ↔ x = v ∧ lo ≤ v ∧ v ≤ hi := by
  unfold ranged
  split
  · rename_i h; simp [h, eq_comm]
  · rename_i h; simp only [reduceCtorEq, false_iff]; exact fun e => h e.2

theorem ranged_isSome (lo hi v : Nat) : (ranged lo hi v).isSome = true ↔ lo ≤ v ∧ v ≤ hi := by
  unfold ranged; split <;> simp_all

theorem stepField_some (bytes : List Byte) (i : Nat) (x : Int) : stepField (byteAt bytes i) = some x ↔
    x = signedAt bytes i 1 ∧ -32 ≤ signedAt bytes i 1 ∧ signedAt bytes i 1 ≤ 32 := by
  unfold stepField
  rw [byteAt_toInt]
  split
  · rename_i h; simp [h, eq_comm]
  · rename_i h; simp only [reduceCtorEq, false_iff]; exact fun e => h e.2

theorem stepField_isSome (bytes : List Byte) (i : Nat) : (stepField (byteAt bytes i)).isSome = true ↔
    -32 ≤ signedAt bytes i 1 ∧ signedAt bytes i 1 ≤ 32 := by
  unfold stepField
  rw [byteAt_toInt]; split <;> simp_all

theorem flagField_some (bytes : List Byte) (i : Nat) (x : Bool) :
    flagField (byteAt bytes i) = some x ↔ (x, unsignedAt bytes i 1) ∈ [(false, 0), (true, 1)] := by
  unfold flagField
  simp only [byte_eq_iff]
  cases x <;> (split <;> [skip; split]) <;> simp_all

theorem flagField_isSome (bytes : List Byte) (i : Nat) :
    (flagField (byteAt bytes i)).isSome = true ↔ unsignedAt bytes i 1 ≤ 1 := by
  unfold flagField
  simp only [byte_eq_iff]
  (split <;> [skip; split]) <;> simp_all
  omega

theorem rowField_some (bytes : List Byte) (i : Nat) (x : Row) : rowField (byteAt bytes i) = some x ↔
    (x, unsignedAt bytes i 1) ∈ ([(.front, 0), (.rear, 1), (.neither, 2)] : List (Row × Nat)) := by
  unfold rowField
  simp only [byte_eq_iff]
  cases x <;> (split <;> [skip; (split <;> [skip; split])]) <;> simp_all

theorem rowField_isSome (bytes : List Byte) (i : Nat) :
    (rowField (byteAt bytes i)).isSome = true ↔ unsignedAt bytes i 1 ≤ 2 := by
  unfold rowField
  simp only [byte_eq_iff]
  (split <;> [skip; (split <;> [skip; split])]) <;> simp_all
  omega

theorem sideField_some (bytes : List Byte) (i : Nat) (x : Side) : sideField (byteAt bytes i) = some x ↔
    (x, unsignedAt bytes i 1) ∈ ([(.left, 0), (.right, 1), (.neither, 2)] : List (Side × Nat)) := by
  unfold sideField
  simp only [byte_eq_iff]
  cases x <;> (split <;> [skip; (split <;> [skip; split])]) <;> simp_all

theorem sideField_isSome (bytes : List Byte) (i : Nat) :
    (sideField (byteAt bytes i)).isSome = true ↔ unsignedAt bytes i 1 ≤ 2 := by
  unfold sideField
  simp only [byte_eq_iff]
  (split <;> [skip; (split <;> [skip; split])]) <;> simp_all
  omega

theorem gather_some {α : Type} {n : Nat} (d : α) (f : Fin n → Option α) (v : Vector α n) :
    gather d f = some v ↔ ∀ i : Fin n, f i = some v[i] := by
  unfold gather
  split
  · rename_i h
    rw [List.all_eq_true] at h
    constructor
    · intro e i
      rw [Option.some.injEq] at e
      subst e
      have := h i (List.mem_finRange i)
      cases hf : f i <;> simp_all
    · intro e
      congr 1
      ext i hi
      simp [e ⟨i, hi⟩]
  · rename_i h
    simp only [reduceCtorEq, false_iff]
    intro e
    exact h (by rw [List.all_eq_true]; intro i _; simp [e i])

theorem gather_isSome {α : Type} {n : Nat} (d : α) (f : Fin n → Option α) :
    (gather d f).isSome = true ↔ ∀ i : Fin n, (f i).isSome = true := by
  unfold gather
  split
  · rename_i h
    rw [List.all_eq_true] at h
    simp only [Option.isSome_some, true_iff]
    exact fun i => h i (List.mem_finRange i)
  · rename_i h
    simp only [Option.isSome_none, Bool.false_eq_true, false_iff]
    exact fun e => h (by rw [List.all_eq_true]; exact fun i _ => e i)

/-! ### Records of the configuration image (R159, R169) -/

theorem channelRecord_some (img : List Byte) (c : Nat) (r : ChannelRecord) : channelRecord img c = some r ↔
    ChannelInRange img (12 + 20 * c) ∧ r.ReadAt img (12 + 20 * c) := by
  unfold channelRecord
  dsimp only
  constructor
  · intro h
    split at h
    · rename_i e1 e2 e3 e4 e5 e6 e7 e8
      split at h
      · rename_i e9 e10 e11 e12
        cases h
        rw [ranged_some, halfAt_toNat] at e9
        rw [ranged_some, byteAt_toNat] at e10 e11
        rw [ranged_some, wordAt_toNat] at e12
        have i1 := (flagField_isSome img _).1 (by rw [e1]; rfl)
        have i2 := (finField_isSome img _).1 (by rw [e2]; rfl)
        have i3 := (rowField_isSome img _).1 (by rw [e3]; rfl)
        have i4 := (sideField_isSome img _).1 (by rw [e4]; rfl)
        have i5 := (finField_isSome img _).1 (by rw [e5]; rfl)
        have i6 := (optionField_isSome img _).1 (by rw [e6]; rfl)
        have i7 := (finField_isSome img _).1 (by rw [e7]; rfl)
        have i8 := (finField_isSome img _).1 (by rw [e8]; rfl)
        rw [flagField_some] at e1
        rw [finField_some] at e2 e5 e7 e8
        rw [rowField_some] at e3
        rw [sideField_some] at e4
        rw [optionField_some (by omega)] at e6
        exact ⟨⟨i1, ⟨by omega, i3, i4⟩, ⟨by omega, by omega⟩, ⟨by omega, by omega⟩, ⟨e9.2.2, e10.2.2⟩, e11.2, e12.2⟩,
          ⟨e1, e2, e3, e4, e5, e6, e7, e8, e9.1, e10.1, e11.1, byteAt_toNat _ _, e12.1⟩⟩
      · cases h
    · cases h
  · rintro ⟨⟨i1, ⟨i2, i3, i4⟩, ⟨i5, i6⟩, ⟨i7, i8⟩, ⟨i9, i10⟩, i11, i12⟩, ⟨e1, e2, e3, e4, e5, e6, e7, e8, e9, e10,
      e11, e12, e13⟩⟩
    rw [← flagField_some] at e1
    rw [← finField_some] at e2 e5 e7 e8
    rw [← rowField_some] at e3
    rw [← sideField_some] at e4
    rw [← optionField_some (by omega)] at e6
    have f9 := (ranged_some 0 480 _ _).2 ⟨e9, Nat.zero_le _, i9⟩
    have f10 := (ranged_some 0 16 _ _).2 ⟨e10, Nat.zero_le _, i10⟩
    have f11 := (ranged_some 1 16 _ _).2 ⟨e11, i11⟩
    have f13 := (ranged_some 1 8388607 _ _).2 ⟨e13, i12⟩
    rw [e1, e2, e3, e4, e5, e6, e7, e8]
    dsimp only
    rw [halfAt_toNat, byteAt_toNat, byteAt_toNat, wordAt_toNat, f9, f10, f11, f13]
    dsimp only
    rw [byteAt_toNat, ← e12]

theorem channelRecord_isSome (img : List Byte) (c : Nat) : (channelRecord img c).isSome = true ↔
    ChannelInRange img (12 + 20 * c) := by
  constructor
  · intro h
    obtain ⟨r, hr⟩ := Option.isSome_iff_exists.1 h
    exact ((channelRecord_some img c r).1 hr).1
  · rintro ⟨i1, ⟨i2, i3, i4⟩, ⟨i5, i6⟩, ⟨i7, i8⟩, ⟨i9, i10⟩, i11, i12⟩
    unfold channelRecord
    dsimp only
    obtain ⟨_, e1⟩ := Option.isSome_iff_exists.1 ((flagField_isSome img _).2 i1)
    obtain ⟨_, e2⟩ := Option.isSome_iff_exists.1 ((finField_isSome (n := 4) img (12 + 20 * c + 1)).2 (by omega))
    obtain ⟨_, e3⟩ := Option.isSome_iff_exists.1 ((rowField_isSome img _).2 i3)
    obtain ⟨_, e4⟩ := Option.isSome_iff_exists.1 ((sideField_isSome img _).2 i4)
    obtain ⟨_, e5⟩ := Option.isSome_iff_exists.1 ((finField_isSome (n := 4) img (12 + 20 * c + 4)).2 (by omega))
    obtain ⟨_, e6⟩ := Option.isSome_iff_exists.1 ((optionField_isSome (n := 4) img (12 + 20 * c + 5)).2 (by omega))
    obtain ⟨_, e7⟩ := Option.isSome_iff_exists.1 ((finField_isSome (n := 32) img (12 + 20 * c + 6)).2 (by omega))
    obtain ⟨_, e8⟩ := Option.isSome_iff_exists.1 ((finField_isSome (n := 16) img (12 + 20 * c + 7)).2 (by omega))
    have f9 := (ranged_some 0 480 _ _).2 ⟨rfl, Nat.zero_le _, i9⟩
    have f10 := (ranged_some 0 16 _ _).2 ⟨rfl, Nat.zero_le _, i10⟩
    have f11 := (ranged_some 1 16 _ _).2 ⟨rfl, i11⟩
    have f13 := (ranged_some 1 8388607 _ _).2 ⟨rfl, i12⟩
    rw [e1, e2, e3, e4, e5, e6, e7, e8]
    dsimp only
    rw [halfAt_toNat, byteAt_toNat, byteAt_toNat, wordAt_toNat, f9, f10, f11, f13]
    rfl

theorem breakpoint_some (img : List Byte) (o : Nat) (b : Breakpoint) : breakpoint img o = some b ↔
    (unsignedAt img o 2 ≤ 600 ∧ unsignedAt img (o + 2) 2 ≤ 192) ∧ b.speed = unsignedAt img o 2 ∧
      b.boost = unsignedAt img (o + 2) 2 := by
  unfold breakpoint
  rw [halfAt_toNat, halfAt_toNat]
  constructor
  · intro h
    split at h
    · rename_i e1 e2
      cases h
      rw [ranged_some] at e1 e2
      exact ⟨⟨e1.2.2, e2.2.2⟩, e1.1, e2.1⟩
    · cases h
  · rintro ⟨⟨h1, h2⟩, h3, h4⟩
    rw [(ranged_some 0 600 _ _).2 ⟨h3, Nat.zero_le _, h1⟩, (ranged_some 0 192 _ _).2 ⟨h4, Nat.zero_le _, h2⟩]

theorem breakpoint_isSome (img : List Byte) (o : Nat) : (breakpoint img o).isSome = true ↔
    (unsignedAt img o 2 ≤ 600 ∧ unsignedAt img (o + 2) 2 ≤ 192) := by
  constructor
  · intro h
    obtain ⟨r, hr⟩ := Option.isSome_iff_exists.1 h
    exact ((breakpoint_some img o r).1 hr).1
  · intro h
    rw [(breakpoint_some img o ⟨_, _⟩).2 ⟨h, rfl, rfl⟩]; rfl

theorem zoneRecord_some (img : List Byte) (z : Nat) (r : ZoneConfig) : zoneRecord img z = some r ↔
    ZoneInRange img (172 + 40 * z) ∧ r.ReadAt img (172 + 40 * z) := by
  have hpt : ∀ (k : Fin 8) (b : Breakpoint), breakpoint img (172 + 40 * z + 8 + 4 * k.val) = some b ↔
      (unsignedAt img (172 + 40 * z + 8 + 4 * k.val) 2 ≤ 600 ∧ unsignedAt img (172 + 40 * z + 10 + 4 * k.val) 2 ≤ 192) ∧
      b.speed = unsignedAt img (172 + 40 * z + 8 + 4 * k.val) 2 ∧
        b.boost = unsignedAt img (172 + 40 * z + 10 + 4 * k.val) 2 := by
    intro k b
    rw [breakpoint_some, show 172 + 40 * z + 8 + 4 * k.val + 2 = 172 + 40 * z + 10 + 4 * k.val by omega]
  unfold zoneRecord
  dsimp only
  constructor
  · intro h
    split at h
    · rename_i e1 e2 e3 e4 e5
      split at h
      · rename_i e6
        cases h
        rw [ranged_some, byteAt_toNat] at e1
        rw [e1.1, ranged_some, byteAt_toNat] at e6
        have i4 := (finField_isSome img _).1 (by rw [e4]; rfl)
        rw [stepField_some] at e2 e3
        rw [finField_some] at e4
        rw [gather_some] at e5
        have e5 := fun k => (hpt k _).1 (e5 k)
        exact ⟨⟨⟨e1.2.2, e6.2.2⟩, e2.2, e3.2, by omega, fun k => (e5 k).1⟩,
          ⟨e1.1, e6.1, e2.1, e3.1, e4, fun k => (e5 k).2.1, fun k => (e5 k).2.2⟩⟩
      · cases h
    · cases h
  · rintro ⟨⟨⟨i1, i2⟩, i3, i4, i5, i6⟩, ⟨e1, e2, e3, e4, e5, e6, e7⟩⟩
    rw [byteAt_toNat, (ranged_some 0 120 _ _).2 ⟨e1, Nat.zero_le _, i1⟩, (stepField_some img _ _).2 ⟨e3, i3⟩,
      (stepField_some img _ _).2 ⟨e4, i4⟩,
      (finField_some img _ _).2 e5, (gather_some _ _ r.curve).2 (fun k => (hpt k _).2 ⟨i6 k, e6 k, e7 k⟩)]
    dsimp only
    rw [byteAt_toNat, (ranged_some 0 _ _ _).2 ⟨e2, Nat.zero_le _, by rw [e1]; exact i2⟩]

theorem zoneRecord_isSome (img : List Byte) (z : Nat) : (zoneRecord img z).isSome = true ↔
    ZoneInRange img (172 + 40 * z) := by
  constructor
  · intro h
    obtain ⟨r, hr⟩ := Option.isSome_iff_exists.1 h
    exact ((zoneRecord_some img z r).1 hr).1
  · intro h
    have hp : ∃ p : Fin 16, p.val = unsignedAt img (172 + 40 * z + 4) 1 :=
      ⟨⟨unsignedAt img (172 + 40 * z + 4) 1, by have := h.preset; omega⟩, rfl⟩
    obtain ⟨p, hp⟩ := hp
    rw [(zoneRecord_some img z
      { maxVolume := unsignedAt img (172 + 40 * z) 1
        volume := unsignedAt img (172 + 40 * z + 1) 1
        fade := signedAt img (172 + 40 * z + 2) 1
        balance := signedAt img (172 + 40 * z + 3) 1
        preset := p
        curve := Vector.ofFn fun k =>
          ⟨unsignedAt img (172 + 40 * z + 8 + 4 * k.val) 2, unsignedAt img (172 + 40 * z + 10 + 4 * k.val) 2⟩ }).2
      ⟨h, rfl, rfl, rfl, rfl, hp, fun k => by simp, fun k => by simp⟩]
    rfl

theorem rampRange_some (img : List Byte) (r : Nat) (x : Nat × Nat) : rampRange img r = some x ↔
    (1 ≤ unsignedAt img (464 + 4 * r) 1 ∧ unsignedAt img (466 + 4 * r) 2 ≤ 4095) ∧
    x = (unsignedAt img (464 + 4 * r) 1, unsignedAt img (466 + 4 * r) 2) := by
  unfold rampRange
  dsimp only
  rw [halfAt_toNat, byteAt_toNat, show 464 + 4 * r + 2 = 466 + 4 * r by omega]
  have hb := byte_lt img (464 + 4 * r)
  constructor
  · intro h
    split at h
    · rename_i e1 e2
      cases h
      rw [ranged_some] at e1 e2
      exact ⟨⟨e1.2.1, e2.2.2⟩, by rw [e1.1, e2.1]⟩
    · cases h
  · rintro ⟨⟨h1, h2⟩, rfl⟩
    rw [(ranged_some 1 255 _ _).2 ⟨rfl, h1, by omega⟩, (ranged_some 0 4095 _ _).2 ⟨rfl, Nat.zero_le _, h2⟩]

theorem rampRange_isSome (img : List Byte) (r : Nat) : (rampRange img r).isSome = true ↔
    (1 ≤ unsignedAt img (464 + 4 * r) 1 ∧ unsignedAt img (466 + 4 * r) 2 ≤ 4095) := by
  constructor
  · intro h
    obtain ⟨x, hx⟩ := Option.isSome_iff_exists.1 h
    exact ((rampRange_some img r x).1 hx).1
  · intro h
    rw [(rampRange_some img r _).2 ⟨h, rfl⟩]; rfl

theorem lawOk_iff (img : List Byte) (o : Nat) : lawOk (lawTable img o) = true ↔ unsignedAt img o 2 = 0 ∧
    (∀ i, i < 33 → unsignedAt img (o + 2 * i) 2 ≤ 1600) ∧
    ∀ i, i < 32 → unsignedAt img (o + 2 * i) 2 ≤ unsignedAt img (o + 2 * (i + 1)) 2 := by
  have nd : ∀ l : List Nat, nondecreasing l = true ↔ ∀ i, (h : i + 1 < l.length) → l[i] ≤ l[i + 1] := by
    intro l
    induction l with
    | nil => simp [nondecreasing]
    | cons a l ih =>
      cases l with
      | nil => simp [nondecreasing]
      | cons b l =>
        simp only [nondecreasing, Bool.and_eq_true, decide_eq_true_eq, ih]
        constructor
        · rintro ⟨h1, h2⟩ i hi
          cases i with
          | zero => exact h1
          | succ i => exact h2 i (by simpa using hi)
        · intro h
          exact ⟨h 0 (by simp), fun i hi => h (i + 1) (by simpa using hi)⟩
  have hl : ∀ i : Nat, (h : i < 33) → (lawTable img o)[i] = unsignedAt img (o + 2 * i) 2 := by
    intro i h; simp [lawTable, halfAt_toNat]
  unfold lawOk
  rw [Bool.and_eq_true, Bool.and_eq_true, beq_iff_eq, List.all_eq_true, nd, hl 0 (by omega), and_assoc]
  refine and_congr (by simp) (and_congr ?_ ?_)
  · constructor
    · intro h i hi
      have := h (unsignedAt img (o + 2 * i) 2) (by rw [Vector.mem_toList_iff, ← hl i hi]; exact Vector.getElem_mem hi)
      simpa using this
    · intro h x hx
      rw [Vector.mem_toList_iff, Vector.mem_iff_getElem] at hx
      obtain ⟨i, hi, rfl⟩ := hx
      rw [hl i hi]; simpa using h i hi
  · constructor
    · intro h i hi
      have := h i (by simp; omega)
      simpa [hl, hi, show i < 33 by omega, show i + 1 < 33 by omega] using this
    · intro h i hi
      have hi' : i < 32 := by simp at hi; omega
      have := h i hi'
      simpa [hl, show i < 33 by omega, show i + 1 < 33 by omega] using this

theorem curveOk_iff (cv : Curve) : curveOk cv = true ↔ ∀ k, (h : k + 1 < 8) → cv[k].speed < cv[k + 1].speed := by
  have nd : ∀ l : List Nat, increasing l = true ↔ ∀ i, (h : i + 1 < l.length) → l[i] < l[i + 1] := by
    intro l
    induction l with
    | nil => simp [increasing]
    | cons a l ih =>
      cases l with
      | nil => simp [increasing]
      | cons b l =>
        simp only [increasing, Bool.and_eq_true, decide_eq_true_eq, ih]
        constructor
        · rintro ⟨h1, h2⟩ i hi
          cases i with
          | zero => exact h1
          | succ i => exact h2 i (by simpa using hi)
        · intro h
          exact ⟨h 0 (by simp), fun i hi => h (i + 1) (by simpa using hi)⟩
  unfold curveOk
  rw [nd]
  simp

theorem rampRecord_some (img : List Byte) (r : Nat) (x : RampRecord) : rampRecord img r = some x ↔
    ((1 ≤ unsignedAt img (464 + 4 * r) 1 ∧ unsignedAt img (466 + 4 * r) 2 ≤ 4095) ∧
     (unsignedAt img (465 + 4 * r) 1 = 0xFF ∨ (unsignedAt img (465 + 4 * r) 1 ≤ 31 ∧
       1 ≤ unsignedAt img (466 + 4 * r) 2))) ∧
    x.rate = unsignedAt img (464 + 4 * r) 1 ∧ (x.chain.map (·.val)).getD 0xFF = unsignedAt img (465 + 4 * r) 1 ∧
      x.span = unsignedAt img (466 + 4 * r) 2 := by
  unfold rampRecord
  rw [show 464 + 4 * r + 1 = 465 + 4 * r by omega]
  constructor
  · intro h
    split at h
    · rename_i e1 e2
      rw [rampRange_some] at e1
      obtain ⟨e0, e1⟩ := e1
      cases e1
      have i2 := (optionField_isSome img _).1 (by rw [e2]; rfl)
      rw [optionField_some (by omega)] at e2
      split at h
      · cases h
      · rename_i hc
        cases h
        refine ⟨⟨e0, ?_⟩, rfl, e2, rfl⟩
        rename_i chain
        cases chain with
        | none => left; simpa using e2.symm
        | some c =>
          right
          have := c.isLt
          simp at e2 hc
          omega
    · cases h
  · rintro ⟨⟨h0, h1⟩, h2, h3, h4⟩
    rw [(rampRange_some img r _).2 ⟨h0, rfl⟩, (optionField_some (by omega) img _ x.chain).2 h3]
    dsimp only
    rw [if_neg, ← h2, ← h4]
    rintro ⟨hc, hs⟩
    cases hx : x.chain with
    | none => simp [hx] at hc
    | some c => rw [hx] at h3; simp at h3; have := c.isLt; omega

theorem rampRecord_isSome (img : List Byte) (r : Nat) : (rampRecord img r).isSome = true ↔
    ((1 ≤ unsignedAt img (464 + 4 * r) 1 ∧ unsignedAt img (466 + 4 * r) 2 ≤ 4095) ∧
     (unsignedAt img (465 + 4 * r) 1 = 0xFF ∨ (unsignedAt img (465 + 4 * r) 1 ≤ 31 ∧
       1 ≤ unsignedAt img (466 + 4 * r) 2))) := by
  constructor
  · intro h
    obtain ⟨x, hx⟩ := Option.isSome_iff_exists.1 h
    exact ((rampRecord_some img r x).1 hx).1
  · intro h
    have hc := (optionField_isSome (n := 32) img (465 + 4 * r)).2 (by omega)
    obtain ⟨c, hc⟩ := Option.isSome_iff_exists.1 hc
    rw [optionField_some (by omega)] at hc
    rw [(rampRecord_some img r ⟨_, _, c⟩).2 ⟨h, rfl, hc, rfl⟩]; rfl

theorem vectorField_some (img : List Byte) (i : Nat) (x : Option (Fin 32)) : vectorField img i = some x ↔
    (x.map (·.val)).getD 0xFE = unsignedAt img (592 + i) 1 := by
  unfold vectorField
  by_cases h : byteAt img (592 + i) = 0xFE#8
  · rw [if_pos h]
    rw [byte_eq_iff] at h
    rw [h]
    cases x with
    | none => simp
    | some x => have := x.isLt; simp; omega
  · rw [if_neg h]
    rw [byte_eq_iff] at h
    cases x with
    | none =>
      simp only [Option.map_eq_some_iff, reduceCtorEq, and_false, exists_false, Option.map_none, Option.getD_none,
        false_iff]
      exact fun e => h e.symm
    | some x =>
      simp only [Option.map_eq_some_iff, Option.some.injEq, exists_eq_right, finField_some, Option.map_some,
        Option.getD_some]

theorem vectorField_isSome (img : List Byte) (i : Nat) : (vectorField img i).isSome = true ↔
    unsignedAt img (592 + i) 1 ≤ 31 ∨ unsignedAt img (592 + i) 1 = 0xFE := by
  unfold vectorField
  by_cases h : byteAt img (592 + i) = 0xFE#8
  · rw [if_pos h]; rw [byte_eq_iff] at h; simp [h]
  · rw [if_neg h]; rw [byte_eq_iff] at h
    simp only [Option.isSome_map, finField_isSome]
    constructor
    · omega
    · rintro (e | e)
      · omega
      · exact absurd e h

/-! ### Library records -/

theorem recordKey_iff (record : List Byte) (key : CoefKey) : recordKey record = key ↔
    key.preset.val = unsignedAt record 0 2 / 256 % 16 ∧ key.band.val = unsignedAt record 0 2 / 32 % 8 ∧
      key.profile.val = unsignedAt record 0 2 % 32 := by
  rw [← halfAt_toNat]
  have h : ∀ a b : CoefKey, a = b ↔ b.preset.val = a.preset.val ∧ b.band.val = a.band.val ∧
      b.profile.val = a.profile.val := by
    intro a b
    cases a; cases b
    simp only [CoefKey.mk.injEq, Fin.ext_iff]
    omega
  rw [h]
  simp only [recordKey, BitVec.extractLsb'_toNat, Nat.shiftRight_eq_div_pow]
  simp

/-! ### Reading a frame bit by bit -/

theorem bitsNat_byte (b : Byte) : bitsNat (byteBits b) = b.toNat := by revert b; decide +kernel
theorem bitsNat_nibble (b : BitVec 4) : bitsNat (nibbleBits b) = b.toNat := by revert b; decide +kernel
theorem bitsNat_priority (b : BitVec 3) : bitsNat [b.getMsbD 0, b.getMsbD 1, b.getMsbD 2] = b.toNat := by
  revert b; decide +kernel

theorem bitsNat_append (a b : List Bool) : bitsNat (a ++ b) = 2 ^ b.length * bitsNat a + bitsNat b := by
  have : ∀ (l : List Bool) (n : Nat), l.foldl (fun n b => 2 * n + b.toNat) n = 2 ^ l.length * n + bitsNat l := by
    intro l
    induction l with
    | nil => intro n; simp [bitsNat]
    | cons x l ih =>
      intro n
      rw [bitsNat, List.foldl_cons, List.foldl_cons, ih, ih, List.length_cons, pow_succ]
      ring
  rw [bitsNat, List.foldl_append, this]; rfl

theorem bitsNat_half (h : Half) : bitsNat (halfBits h) = h.toNat := by
  rw [halfBits, bitsNat_append, bitsNat_byte, bitsNat_byte]
  have := h.isLt
  simp [byteBits, BitVec.extractLsb'_toNat, Nat.shiftRight_eq_div_pow]
  omega

theorem readBytes_spec (p : List Byte) (rest : List Bool) : readBytes p.length (p.flatMap byteBits ++ rest) = p := by
  induction p with
  | nil => rfl
  | cons b p ih =>
    rw [List.length_cons, readBytes, List.flatMap_cons, List.append_assoc]
    have h1 : (byteBits b ++ (p.flatMap byteBits ++ rest)).take 8 = byteBits b := by simp [byteBits]
    have h2 : (byteBits b ++ (p.flatMap byteBits ++ rest)).drop 8 = p.flatMap byteBits ++ rest := by simp [byteBits]
    rw [h1, h2, ih, bitsNat_byte]; simp

theorem flatMap_byteBits_length (p : List Byte) : (p.flatMap byteBits).length = 8 * p.length := by
  induction p with
  | nil => rfl
  | cons b p ih => rw [List.flatMap_cons, List.length_append, ih, List.length_cons]; simp [byteBits]; omega

/-- A frame written bit by bit is read back. -/
theorem readFrame_spec (f : RawFrame) (hl : f.payload.length = f.length.toNat) (he : f.endMark = true) :
    readFrame (coveredBits f.priority (stationBits f.origin) f.kind f.length f.payload ++ halfBits f.check ++
      [true, true, true]) = f := by
  obtain ⟨pr, o, k, n, p, c, e⟩ := f
  dsimp only at *
  subst he
  set bits := coveredBits pr (stationBits o) k n p ++ halfBits c ++ [true, true, true] with hbits
  have hn : fieldAt bits 11 4 = n.toNat := by
    rw [← bitsNat_nibble]; rfl
  have h15 : bits.drop 15 = p.flatMap byteBits ++ (halfBits c ++ [true, true, true]) := by
    rw [hbits, List.append_assoc]; rfl
  unfold readFrame
  dsimp only
  rw [hn, h15, ← hl, readBytes_spec]
  have hc : fieldAt bits (15 + 8 * p.length) 16 = c.toNat := by
    unfold fieldAt
    rw [← List.drop_drop, h15, List.drop_left' (flatMap_byteBits_length p),
      List.take_left' (by simp [halfBits, byteBits]), bitsNat_half]
  have hee : (bits.drop (31 + 8 * p.length)).take 3 = [true, true, true] := by
    rw [show 31 + 8 * p.length = 15 + (8 * p.length + 16) by omega, ← List.drop_drop, h15, ← List.drop_drop,
      List.drop_left' (flatMap_byteBits_length p), List.drop_left' (by simp [halfBits, byteBits])]
    rfl
  have hp : fieldAt bits 0 3 = pr.toNat := by
    rw [← bitsNat_priority]; rfl
  have ho : fieldAt bits 3 4 = o.val := by
    have : fieldAt bits 3 4 = (stationBits o).toNat := by rw [← bitsNat_nibble]; rfl
    rw [this]; simp [stationBits]
  have hk : fieldAt bits 7 4 = k.toNat := by
    rw [← bitsNat_nibble]; rfl
  rw [hc, hee, hp, ho, hk, hl]
  simp

end Sys2Proof.Machine
end

