-- ==== Sys2Proof/Laws/Reception.lean ====
section
/-!
SUPPORT. Reception: what a heard frame changes, and how a taken frame reaches its block.
-/
namespace Sys2Proof.Machine

theorem State.countLink_rest (s : State) (k : LinkCounter) :
    s.countLink k = { s with stats := { s.stats with link := (s.countLink k).stats.link } } := by
  unfold State.countLink; split <;> rfl

theorem State.countLink_drawn (s : State) (k : LinkCounter) :
    s.drawn.countLink k = { s.countLink k with draws := s.draws + 1 } := by
  unfold State.countLink
  rw [State.drawn_dormant]
  split <;> rfl

/-- A heard frame changes the LINK counters, the presence table, the link-silence timer and the mark of a frame received
alone. -/
theorem State.heard_rest (s : State) (o : Station) :
    s.heard o = { s with
      node := { s.node with linkSilence := (s.heard o).node.linkSilence },
      link := { s.link with inFrame := false, stations := s.link.stations.set o { present := true, age := 0 } },
      stats := { s.stats with link := (s.countLink .framesHeard).stats.link } } := by
  unfold State.heard State.restartLinkSilence
  rw [State.countLink_rest]
  split <;> rfl

theorem State.heard_linkSilence (s : State) (o : Station) :
    (s.heard o).node.linkSilence = if s.awake then some 5000 else s.node.linkSilence := by
  unfold State.heard State.restartLinkSilence
  rw [State.countLink_rest]
  have : State.awake (({ s with stats := { s.stats with link := (s.countLink .framesHeard).stats.link } } : State).endFrame.markPresent
    o) = s.awake := rfl
  rw [this]
  split <;> rfl

theorem State.heard_state (s : State) (o : Station) : (s.heard o).node.state = s.node.state := by
  rw [State.heard_rest]

theorem State.heard_drawn (s : State) (o : Station) : s.drawn.heard o = { s.heard o with draws := s.draws + 1 } := by
  rw [State.heard_rest s.drawn, State.heard_rest s, State.heard_linkSilence, State.heard_linkSilence,
    State.countLink_drawn]
  rfl

@[simp] theorem State.heard_loader (s : State) (o : Station) : (s.heard o).loader = s.loader := by rw [State.heard_rest]
@[simp] theorem State.heard_ramp (s : State) (o : Station) : (s.heard o).ramp = s.ramp := by rw [State.heard_rest]
@[simp] theorem State.heard_image (s : State) (o : Station) : (s.heard o).image = s.image := by rw [State.heard_rest]
@[simp] theorem State.heard_pace (s : State) (o : Station) : (s.heard o).pace = s.pace := by rw [State.heard_rest]
@[simp] theorem State.heard_table (s : State) (o : Station) : (s.heard o).table = s.table := by rw [State.heard_rest]
@[simp] theorem State.heard_laws (s : State) (o : Station) : (s.heard o).laws = s.laws := by rw [State.heard_rest]
@[simp] theorem State.heard_channels (s : State) (o : Station) : (s.heard o).channels = s.channels := by
  rw [State.heard_rest]
@[simp] theorem State.heard_emission (s : State) (o : Station) : (s.heard o).emission = s.emission := by
  rw [State.heard_rest]
@[simp] theorem State.heard_library (s : State) (o : Station) : (s.heard o).library = s.library := by
  rw [State.heard_rest]
@[simp] theorem State.heard_ports (s : State) (o : Station) : (s.heard o).ports = s.ports := by rw [State.heard_rest]
@[simp] theorem State.heard_queue (s : State) (o : Station) : (s.heard o).link.queue = s.link.queue := by
  rw [State.heard_rest]
@[simp] theorem State.heard_draws (s : State) (o : Station) : (s.heard o).draws = s.draws := by rw [State.heard_rest]
@[simp] theorem State.heard_pending (s : State) (o : Station) : (s.heard o).pending = s.pending := by
  rw [State.heard_rest]
@[simp] theorem State.heard_channelCounters (s : State) (o : Station) : (s.heard o).stats.channel = s.stats.channel := by
  rw [State.heard_rest]
@[simp] theorem State.heard_cacheCounters (s : State) (o : Station) :
    (s.heard o).stats.cacheAudio = s.stats.cacheAudio := by rw [State.heard_rest]

@[simp] theorem State.heard_slot (s : State) (o : Station) (i : SlotId) : (s.heard o).slot i = s.slot i := by
  simp only [State.slot, State.heard_ramp]

@[simp] theorem State.heard_channel (s : State) (o : Station) (c : Channel) : (s.heard o).channel c = s.channel c := by
  simp only [State.channel, State.heard_channels]

@[simp] theorem State.heard_takesCues (s : State) (o : Station) : (s.heard o).takesCues = s.takesCues := by
  simp only [State.takesCues, State.heard_state]

@[simp] theorem State.heard_dormant (s : State) (o : Station) : (s.heard o).dormant = s.dormant := by
  simp only [State.dormant, State.heard_state]

@[simp] theorem State.heard_written (s : State) (o : Station) (i : SlotId) (v : Int) :
    (s.heard o).written i v = s.written i v := by simp only [State.written, State.heard_slot, State.heard_ramp]

theorem State.heard_stations (s : State) (o i : Station) :
    (s.heard o).link.stations[i] = if i = o then { present := true, age := 0 } else s.link.stations[i] := by
  rw [State.heard_rest]
  by_cases h : i = o
  · subst h; simp
  · have : (o : Nat) ≠ i := fun e => h (Fin.ext e.symm)
    simp [h, this]

/-! ### Taken frames -/

@[simp] theorem State.heard_owed (s : State) (o : Station) : (s.heard o).link.owed = s.link.owed := by
  rw [State.heard_rest]

theorem State.heard_setOwed (s : State) (o : Station) (p : Option (Station × Recipient)) :
    (s.heard o).setOwed p = (s.setOwed p).heard o := by
  have hc : (s.setOwed p).countLink .framesHeard = (s.countLink .framesHeard).setOwed p := by
    unfold State.countLink
    rw [show (s.setOwed p).dormant = s.dormant from rfl]
    split <;> rfl
  rw [State.heard_rest s, State.heard_rest (s.setOwed p), State.heard_linkSilence, State.heard_linkSilence, hc]
  rfl

/-- A cue reaches its recipient alone, where the recipient is to take no absence report of its origin after it. -/
theorem State.takeCue_noneOwed {s : State} {o : Station} {r : Recipient} (h : s.link.owed ≠ some (o, r))
    (f : State → State) : s.takeCue r o f = f s := if_neg h

/-- Where it is to take one, the recipient takes the cue and then the report. -/
theorem State.takeCue_owed {s : State} {o : Station} {r : Recipient} (h : s.link.owed = some (o, r))
    (f : State → State) : s.takeCue r o f =
      (f (s.setOwed none)).drawn.tellAbsence (channelOrder (f (s.setOwed none)).draws) o r := if_pos h

/-- A frame of another station reaches `f` in a state that takes cues. -/
theorem State.receive_taken {s : State} {o : Station} (h : s.Takes o) (b : Bool) (f : State → State) :
    s.receive o b (State.whenTaken f) = f (s.heard o) := by
  have hd : s.dormant = false := by
    have := h.state
    unfold State.takesCues at this
    rw [State.dormant]
    cases hs : s.node.state <;> simp_all
  unfold State.receive State.reception
  simp only [h.released, hd, h.other, Bool.false_eq_true, if_false]
  rw [State.whenTaken, State.heard_takesCues, h.state, if_pos rfl]

/-- A cue of another station reaches its recipient's handler. -/
theorem State.receive_cue {s : State} {o : Station} {r : Recipient} (h : s.TakesAt o r) (b : Bool) (f : State → State) :
    s.receive o b (State.whenTaken (State.takeCue r o f)) = f (s.heard o) := by
  rw [State.receive_taken h.toTakes, State.takeCue_noneOwed (by rw [State.heard_owed]; exact h.noneOwed)]

/-- Where the recipient is to take a report of the origin's absence after the cue, it does. -/
theorem State.receive_owed {s : State} {o : Station} {r : Recipient} (h : s.Takes o) (ho : s.link.owed = some (o, r))
    (b : Bool) (f : State → State) : s.receive o b (State.whenTaken (State.takeCue r o f)) =
      (f ((s.setOwed none).heard o)).drawn.tellAbsence (channelOrder (f ((s.setOwed none).heard o)).draws) o r := by
  rw [State.receive_taken h, State.takeCue_owed (by rw [State.heard_owed]; exact ho), State.heard_setOwed]

/-- A frame of another station is heard and reaches its handler outside DORMANT. -/
theorem State.receive_heard {s : State} {o : Station} (hr : s.inReset = false) (hd : s.node.state ≠ .dormant)
    (ho : o ≠ s.loader.station) (b : Bool) (f : State → State) : s.receive o b f = f (s.heard o) := by
  have hd' : s.dormant = false := by simp [State.dormant, hd]
  unfold State.receive State.reception
  simp only [hr, hd', ho, Bool.false_eq_true, if_false]

theorem State.Takes.drawn {s : State} {o : Station} (h : s.Takes o) : s.drawn.Takes o := ⟨h.1, h.2, h.3⟩

theorem State.TakesAt.drawn {s : State} {o : Station} {r : Recipient} (h : s.TakesAt o r) : s.drawn.TakesAt o r :=
  ⟨h.toTakes.drawn, h.noneOwed⟩

end Sys2Proof.Machine
end

