-- ==== Sys2Proof/Laws/Table.lean ====
section
/-!
SUPPORT. The reduction table: an entry written, a group value applied, a recomputation, in the terms of the statements.
-/
namespace Sys2Proof.Machine

theorem State.recomputeTargets_ramp (s : State) : s.recomputeTargets = { s with ramp := s.recomputeTargets.ramp } := by
  have h := s.recomputeTargets_rest
  generalize s.recomputeTargets = t at h
  rw [h]

/-- A recomputation from the slots of s retargets s (R80). -/
theorem State.recomputeTargets_retargets {s u : State} (hr : u.ramp = s.ramp) : s.Retargeted u.recomputeTargets := by
  have h1 := u.recomputeTargets_rest
  have ht : u.recomputeTargets.table = u.table := by rw [h1]
  have ho : u.recomputeTargets.emission = u.emission := by rw [h1]
  have hw : ∀ i v, u.written i v = s.written i v := by intro i v; simp only [State.written, State.slot, hr]
  refine ⟨?_, ?_, ?_, ?_⟩
  · intro z k
    refine ⟨_, dipTarget_is _ z k, ?_⟩
    rw [State.slot_recomputeTargets, if_pos (mem_tableSlots_dip z k), State.slot_writeTarget, if_pos rfl, hw, ht]; rfl
  · intro g
    refine ⟨_, linkTarget_is _ _ g, ?_⟩
    rw [State.slot_recomputeTargets, if_pos (mem_tableSlots_link g), State.slot_writeTarget, if_pos rfl, hw]
    simp only [ht, ho]; rfl
  · intro i hd hl
    rw [State.recomputeTargets_other _ hd hl]; simp only [State.slot, hr]
  · rw [h1, hr]

theorem leastDepth_spec (l : List Entry) (b : Nat) : leastDepth b l ≤ b ∧ (∀ x ∈ l, leastDepth b l ≤ x.depth) ∧ (leastDepth b l < b → ∃ x ∈ l, x.depth = leastDepth b l) := by
  unfold leastDepth
  induction l generalizing b with
  | nil => simp
  | cons a l ih =>
    rw [List.foldl_cons]
    obtain ⟨h1, h2, h3⟩ := ih (min b a.depth)
    refine ⟨by omega, ?_, ?_⟩
    · intro x hx
      rcases List.mem_cons.mp hx with rfl | hx
      · omega
      · exact h2 x hx
    · intro h
      by_cases h' : l.foldl (fun m e => min m e.depth) (min b a.depth) < min b a.depth
      · obtain ⟨x, hx, he⟩ := h3 h'
        exact ⟨x, by simp [hx], he⟩
      · refine ⟨a, by simp, ?_⟩
        clear ih h2 h3
        generalize l.foldl (fun m e => min m e.depth) (min b a.depth) = m at *
        omega

theorem removeFirstDepth_spec (l : List Entry) (d : Nat) (h : ∃ x ∈ l, x.depth = d) : ∃ a v b, l = a ++ v :: b ∧ v.depth = d ∧ (∀ x ∈ a, x.depth ≠ d) ∧ removeFirstDepth d l = a ++ b := by
  induction l with
  | nil => simp at h
  | cons e l ih =>
    by_cases he : e.depth = d
    · exact ⟨[], e, l, by simp, he, by simp, by simp [removeFirstDepth, he]⟩
    · have h' : ∃ x ∈ l, x.depth = d := by
        obtain ⟨x, hx, hd⟩ := h
        rcases List.mem_cons.mp hx with rfl | hx
        · exact absurd hd he
        · exact ⟨x, hx, hd⟩
      obtain ⟨a, v, b, h1, h2, h3, h4⟩ := ih h'
      refine ⟨e :: a, v, b, by simp [h1], h2, ?_, by simp [removeFirstDepth, he, h4]⟩
      intro x hx
      rcases List.mem_cons.mp hx with rfl | hx
      · exact he
      · exact h3 x hx

/-- An entry written to the table, and what is counted (R67, R68). -/
theorem State.putEntry_spec (e : Entry) (s : State) : ∃ refused, EntryTaken e s.table (s.putEntry e).table refused ∧
   s.putEntry e = { (if refused = true then s.countLink .reductionsRefused else s) with table := (s.putEntry e).table } := by
  unfold State.putEntry
  cases hf : findEntry e.key s.table with
  | some x =>
    have hx : ∃ x ∈ s.table, x.key = e.key := by
      unfold findEntry at hf
      have := List.find?_some hf
      exact ⟨x, List.mem_of_find?_eq_some hf, by simpa using this⟩
    refine ⟨false, ⟨fun _ => ⟨rfl, rfl⟩, ?_, ?_, ?_⟩, rfl⟩
    · intro h; obtain ⟨x, hx, hk⟩ := hx; exact absurd hk (h x hx)
    · intro h; obtain ⟨x, hx, hk⟩ := hx; exact absurd hk (h x hx)
    · intro h; obtain ⟨x, hx, hk⟩ := hx; exact absurd hk (h x hx)
  | none =>
    have hx : ∀ x ∈ s.table, x.key ≠ e.key := by
      unfold findEntry at hf
      rw [List.find?_eq_none] at hf
      intro x hx; simpa using hf x hx
    have hupd : (∃ x ∈ s.table, x.key = e.key) → False := fun ⟨x, h1, h2⟩ => hx x h1 h2
    obtain ⟨l1, l2, l3⟩ := leastDepth_spec s.table e.depth
    dsimp only
    unfold admitEntry
    by_cases h24 : s.table.length < 24
    · rw [if_pos h24]
      refine ⟨false, ⟨fun h => (hupd h).elim, fun _ _ => ⟨rfl, rfl⟩, fun _ h => by omega, fun _ h => by omega⟩, rfl⟩
    · rw [if_neg h24]
      by_cases hd : leastDepth e.depth s.table < e.depth
      · rw [if_pos hd]
        refine ⟨false, ⟨fun h => (hupd h).elim, fun _ h => absurd h h24, fun _ _ _ => ⟨rfl, ?_⟩, ?_⟩, rfl⟩
        · obtain ⟨a, v, b, h1, h2, h3, h4⟩ := removeFirstDepth_spec s.table _ (l3 hd)
          refine ⟨a, v, b, h1, ?_, ?_, ?_⟩
          · intro x hx; rw [h2]; exact l2 x hx
          · intro x hx
            have := l2 x (by rw [h1]; simp [hx])
            have := h3 x hx
            omega
          · show removeFirstDepth _ _ ++ [e] = _
            rw [h4]
        · intro _ _ h
          obtain ⟨x, hx, he⟩ := l3 hd
          have := h x hx; omega
      · rw [if_neg hd]
        refine ⟨true, ⟨fun h => (hupd h).elim, fun _ h => absurd h h24, fun _ _ h => ?_, fun _ _ _ => ⟨rfl, ?_⟩⟩, ?_⟩
        · obtain ⟨x, hx, hlt⟩ := h
          have := l2 x hx; omega
        · rw [State.countLink_rest]
        · simp only [if_true]

theorem dipOp_iff (op : Byte) (n : Nat) : dipOp op = n ↔ op.toNat / 16 = n := by
  have : dipOp op = op.toNat / 16 := by
    have := op.isLt
    simp only [dipOp, BitVec.extractLsb'_toNat, Nat.shiftRight_eq_div_pow]; omega
  rw [this]

theorem dipId_eq (op : Byte) (i : Fin 8) (h : i.val = op.toNat % 8) : dipId op = i := by
  apply Fin.ext; rw [h]; simp [dipId, BitVec.extractLsb'_toNat]

/-- A group value of a headroom cue at the table (R73). -/
theorem State.applyGroup_spec (o : Station) (g : Group) (v : Nat) (s : State) : ∃ r, GroupTaken o g v s.table (s.applyGroup o g v).table r ∧
   s.applyGroup o g v = { (if r = true then s.countLink .reductionsRefused else s) with table := (s.applyGroup o g v).table } := by
  unfold State.applyGroup
  by_cases h : v = 0
  · rw [if_pos h]; exact ⟨false, ⟨fun _ => ⟨rfl, by simp [State.setTable, removeEntry]; rfl⟩, fun h' => absurd h h'⟩, rfl⟩
  · rw [if_neg h]
    obtain ⟨r, h1, h2⟩ := State.putEntry_spec { key := .link o g, zones := 0#4, classes := 0#4, depth := min v 384, lifetime := some 300 } s
    exact ⟨r, ⟨fun h' => absurd h' h, fun _ => h1⟩, h2⟩

end Sys2Proof.Machine
end

