-- ==== Sys2Proof/Laws/Speed.lean ====
section
/-!
SUPPORT. Wanted keys handed to channels, and a selection of the pace unit and an absence report in the terms of the statements.
-/
namespace Sys2Proof.Machine

/-! ### Wanted keys -/

theorem State.changeKey_wanted (s : State) (c : Channel) (k : CoefKey) : ((s.changeKey c k).channel c).wanted = k := by
  unfold State.changeKey
  split
  · rename_i h; exact h.symm
  · dsimp only
    split
    · rw [State.channel_setChannel_same]
    · split
      · rw [State.channel_setChannel_same]
      · rw [(State.SearchStep.evaluate _ c).own, (State.RequestStep.setRequest _ c _) c, State.channel_setChannel_same]

theorem State.TurnStep.handIf (s : State) (c : Channel) (b : Bool) (k : CoefKey) :
    s.TurnStep c (if b then s.changeKey c k else s) := by
  split
  · exact .changeKey s c k
  · exact .refl c s

/-- Keys handed in turn: each channel that is given a key wants it, the others keep theirs. -/
theorem State.inTurn_wanted {f : Channel → State → State} (hf : ∀ c s, State.TurnStep c s (f c s)) {ord : List Channel}
    (hn : ord.Nodup) (hm : ∀ c, c ∈ ord) (s : State) (c : Channel) (key : CoefKey)
    (hk : ∀ u : State, u.channel c = { s.channel c with request := (u.channel c).request } →
      ((f c u).channel c).wanted = key) : ((s.inTurn f ord).channel c).wanted = key := by
  obtain ⟨u, _, h1, h2⟩ := State.inTurn_own hf hn (hm c) s
  rw [h2]
  exact hk u h1

theorem State.handPreset_wanted {ord : List Channel} (hn : ord.Nodup) (hm : ∀ c, c ∈ ord) (s : State) (z : Zone)
    (p : Fin 16) (c : Channel) : ((s.handPreset ord z p).channel c).wanted =
      if (s.channel c).record.zone = z then { (s.channel c).wanted with preset := p } else (s.channel c).wanted := by
  unfold State.handPreset
  refine State.inTurn_wanted ?_ hn hm s c _ ?_
  · intro c s
    split
    · exact .changeKey s c _
    · exact .refl c s
  · intro u hu
    have h1 : (u.channel c).record = (s.channel c).record := by rw [hu]
    have h2 : (u.channel c).wanted = (s.channel c).wanted := by rw [hu]
    rw [h1]
    split
    · rw [State.changeKey_wanted, h2]
    · exact h2

theorem State.handBands_wanted {ord : List Channel} (hn : ord.Nodup) (hm : ∀ c, c ∈ ord) (s : State)
    (before after : Vector (Fin 8) 4) (c : Channel) : ((s.handBands ord before after).channel c).wanted =
      if after[(s.channel c).record.zone] = before[(s.channel c).record.zone] then (s.channel c).wanted
      else { (s.channel c).wanted with band := after[(s.channel c).record.zone] } := by
  unfold State.handBands
  refine State.inTurn_wanted ?_ hn hm s c _ ?_
  · intro c s
    dsimp only
    split
    · exact .refl c s
    · exact .changeKey s c _
  · intro u hu
    have h1 : (u.channel c).record = (s.channel c).record := by rw [hu]
    have h2 : (u.channel c).wanted = (s.channel c).wanted := by rw [hu]
    simp only [h1]
    split
    · exact h2
    · rw [State.changeKey_wanted, h2]

/-! ### PACE targets -/

/-- The four PACE slots. -/
def paceSlots : List SlotId := [.pace 0, .pace 1, .pace 2, .pace 3]

theorem paceSlots_nodup : paceSlots.Nodup := by decide

theorem mem_paceSlots (z : Zone) : SlotId.pace z ∈ paceSlots := by revert z; decide

theorem not_mem_paceSlots {i : SlotId} (h : ∀ z, i ≠ .pace z) : i ∉ paceSlots := by
  simp [paceSlots, h]

/-- The PACE target of a slot at a speed. -/
def paceTarget (curves : Vector Curve 4) (speed : Nat) : SlotId → Int
  | .pace z => curveBoost curves[z] speed
  | _ => 0

theorem State.writePaceTargets_eq (s : State) (curves : Vector Curve 4) (speed : Nat) :
    s.writePaceTargets curves speed = s.writeAll (paceTarget curves speed) paceSlots := rfl

theorem State.writePaceTargets_rest (s : State) (curves : Vector Curve 4) (speed : Nat) :
    s.writePaceTargets curves speed =
      { s with ramp := { s.ramp with slots := (s.writePaceTargets curves speed).ramp.slots } } := by
  rw [State.writePaceTargets_eq]; exact State.writeAll_rest _ _ _

theorem State.writePaceTargets_pace (s : State) (curves : Vector Curve 4) (speed : Nat) (z : Zone) :
    (s.writePaceTargets curves speed).slot (.pace z) = s.written (.pace z) (curveBoost curves[z] speed) := by
  rw [State.writePaceTargets_eq, State.slot_writeAll _ _ _ paceSlots_nodup, if_pos (mem_paceSlots z)]
  rfl

theorem State.writePaceTargets_other (s : State) (curves : Vector Curve 4) (speed : Nat) {i : SlotId}
    (h : ∀ z, i ≠ .pace z) : (s.writePaceTargets curves speed).slot i = s.slot i := by
  rw [State.writePaceTargets_eq, State.slot_writeAll _ _ _ paceSlots_nodup, if_neg (not_mem_paceSlots h)]

/-! ### Selections -/

theorem State.Selects_select (p : PaceUnit) :
    p.Selects { p with speedState := selectState p.primary.valid p.secondary.valid p.speedState,
                       usedSpeed := selectSpeed p } := by
  refine ⟨⟨rfl, rfl⟩, rfl, ?_, ?_, ?_⟩
  · intro h; simp [selectState, selectSpeed, h]
  · intro h1 h2; simp [selectState, selectSpeed, h1, h2]
  · intro h1 h2
    cases h : p.speedState <;> simp [selectState, selectSpeed, h1, h2]

/-- A selection made on the source records of p by a state that is s but for its pace unit (R57, R60 to R62). -/
theorem State.select_spec {ord : List Channel} (hn : ord.Nodup) (hm : ∀ c, c ∈ ord) (s : State) (p : PaceUnit) (n : Nat) :
    State.SpeedTaken p s (State.select ord { s with pace := p, draws := n }) := by
  let q : PaceUnit := { p with
    speedState := selectState p.primary.valid p.secondary.valid p.speedState, usedSpeed := selectSpeed p }
  let t0 : State := { s with pace := q, draws := n }
  have hsel : State.select ord { s with pace := p, draws := n } =
      if selectSpeed p = p.usedSpeed then t0 else t0.formPace ord := rfl
  rw [hsel]
  have hq := State.Selects_select p
  by_cases hs : selectSpeed p = p.usedSpeed
  · rw [if_pos hs]
    refine ⟨hq, rfl, fun _ => ⟨rfl, rfl, rfl, rfl⟩, fun h => absurd hs h, fun h => absurd hs h, ⟨fun _ _ => rfl, rfl⟩,
      fun h => absurd hs h, fun c => ?_⟩
    rw [if_pos rfl]; rfl
  · rw [if_neg hs]
    unfold State.formPace
    cases hc : t0.pace.curves with
    | none =>
      have hc' : p.curves = none := hc
      refine ⟨hq, rfl, fun _ => ⟨rfl, rfl, rfl, rfl⟩, ?_, ?_, ⟨fun _ _ => rfl, rfl⟩, fun _ h => absurd hc' h,
        fun c => ?_⟩
      · intro _ cs h; rw [hc'] at h; cases h
      · intro _ cs h; rw [hc'] at h; cases h
      · rw [if_pos rfl]; rfl
    | some cs =>
      have hc' : p.curves = some cs := hc
      dsimp only
      let after : Vector (Fin 8) 4 := Vector.ofFn fun z => newBand cs[z] t0.pace.usedSpeed t0.pace.bands[z]
      let w : State := (t0.writePaceTargets cs t0.pace.usedSpeed).setPace { q with bands := after }
      have hw : w = { s with
          pace := { q with bands := after }, draws := n,
          ramp := { s.ramp with slots := (t0.writePaceTargets cs t0.pace.usedSpeed).ramp.slots } } := by
        have h := State.writePaceTargets_rest t0 cs t0.pace.usedSpeed
        show ({ t0.writePaceTargets cs t0.pace.usedSpeed with pace := { q with bands := after } } : State) = _
        rw [h]
      have hcs := State.CacheStep.handBands w ord t0.pace.bands after
      have hwant := State.handBands_wanted hn hm w t0.pace.bands after
      show State.SpeedTaken p s (w.handBands ord t0.pace.bands after)
      have htake : w.handBands ord t0.pace.bands after = ord.foldl (fun x c =>
          if after[(x.channel c).record.zone] = t0.pace.bands[(x.channel c).record.zone] then x
          else x.changeKey c { (x.channel c).wanted with band := after[(x.channel c).record.zone] }) w := rfl
      generalize w.handBands ord t0.pace.bands after = t at hcs hwant htake
      have hpace : t.pace = { q with bands := after } := by rw [hcs.pace, hw]
      have hslot : ∀ i, t.slot i = (t0.writePaceTargets cs t0.pace.usedSpeed).slot i := by
        intro i; rw [hcs.slot, hw]; rfl
      refine ⟨?_, ?_, ?_, ?_, ?_, ⟨?_, ?_⟩, ?_, ?_⟩
      · rw [hpace]; exact ⟨hq.1, hq.2, hq.3, hq.4, hq.5⟩
      · have h := hcs.rest
        rw [hpace, hcs.ramp, hcs.draws]
        rw [hw] at h ⊢
        exact h
      · intro h; rw [hpace] at h; exact absurd h hs
      · intro _ cs' h z
        rw [hc'] at h; cases h
        rw [hslot, State.writePaceTargets_pace, State.slot_writeTarget, if_pos rfl, hpace]; rfl
      · intro _ cs' h z
        rw [hc'] at h; cases h
        simp only [hpace, after]; simp [t0, q]
      · intro i hi
        rw [hslot, State.writePaceTargets_other _ _ _ hi]; rfl
      · rw [hcs.ramp, hw]
      · intro _ _
        refine ⟨ord, hn, hm, ?_⟩
        have hwt : w = { s with pace := t.pace, ramp := t.ramp, draws := t.draws } := by
          rw [hpace, hcs.ramp, hcs.draws, hw]
        rw [← hwt, hpace]
        exact htake
      · intro c
        have hx : w.channel c = s.channel c := by rw [hw]; rfl
        have h := hwant c
        simp only [hx] at h
        simp only [hpace]
        exact h

/-! ### Absence reports -/

theorem State.sourceAbsent_none (s : State) (ord : List Channel) (st : Station) (w : Source)
    (h : (s.pace.source w).station = some st → (s.pace.source w).valid = false) : s.sourceAbsent ord st w = s := by
  unfold State.sourceAbsent
  rw [if_neg]; rintro ⟨a, b⟩; rw [h a] at b; cases b

theorem State.select_sources (s : State) {ord : List Channel} (hn : ord.Nodup) (hm : ∀ c, c ∈ ord) :
    (s.select ord).pace.primary = s.pace.primary ∧ (s.select ord).pace.secondary = s.pace.secondary :=
  (State.select_spec hn hm s s.pace s.draws).selects.sources

/-- An absence told to one recipient, in the terms of the statements (R49, R58, R77). -/
theorem State.tellAbsence_spec {ord : List Channel} (hn : ord.Nodup) (hm : ∀ c, c ∈ ord) (st : Station) (s : State)
    (r : Recipient) : State.ToldAbsent st r s (s.tellAbsence ord st r) := by
  cases r with
  | image =>
    refine ⟨rfl, fun z => ?_⟩
    show (s.removeOrigins st).image[z] = _
    simp only [State.removeOrigins, removeOrigin, Fin.getElem_fin, Vector.getElem_ofFn]
    congr 1
    apply List.filter_congr
    intro x _
    by_cases h : x.origin = st <;> simp [h]
  | pace =>
    refine ⟨fun h => ?_, fun w w' hw hs hv hw' => ?_⟩
    · show (s.sourceAbsent ord st .primary).sourceAbsent ord st .secondary = s
      rw [State.sourceAbsent_none s ord st .primary (h .primary), State.sourceAbsent_none s ord st .secondary (h .secondary)]
    · have key : s.sourceAbsent ord st w = (s.clearSource w).select ord := by
        unfold State.sourceAbsent
        rw [if_pos ⟨hs, hv⟩]
      have sp : State.SpeedTaken (s.pace.setSource w { s.pace.source w with valid := false, freshness := 0 }) s
          ((s.clearSource w).select ord) := State.select_spec hn hm s _ s.draws
      show State.SpeedTaken _ s ((s.sourceAbsent ord st .primary).sourceAbsent ord st .secondary)
      cases w
      · have : w' = .secondary := by cases w' <;> simp_all
        subst this
        rw [key, State.sourceAbsent_none _ ord st .secondary]
        · exact sp
        · intro a
          have e := (State.select_sources (s.clearSource .primary) hn hm).2
          simp only [PaceUnit.source] at a ⊢
          rw [e] at a ⊢
          exact hw' a
      · have : w' = .primary := by cases w' <;> simp_all
        subst this
        rw [State.sourceAbsent_none s ord st .primary hw', key]
        exact sp
  | table =>
    have hf : (s.table.filter fun e => entryOrigin e.key != st) =
        s.table.filter fun e => decide (entryOrigin e.key ≠ st) := by
      apply List.filter_congr; intro x _; by_cases h : entryOrigin x.key = st <;> simp [h]
    constructor
    · show s.purgeStation st = _
      have hr : (State.tellAbsence ord st s .table).ramp = (s.purgeStation st).ramp := rfl
      rw [hr]
      unfold State.purgeStation
      rw [State.recomputeTargets_ramp, hf]
      rfl
    · show s.Retargeted (s.purgeStation st)
      exact State.recomputeTargets_retargets rfl

/-- An absence told to some recipients at once. -/
theorem State.tellAll_spec {ord : List Channel} (hn : ord.Nodup) (hm : ∀ c, c ∈ ord) (st : Station) (rs : List Recipient)
    (s : State) : State.ToldInTurn st rs s (s.tellAll ord st rs) := by
  induction rs generalizing s with
  | nil => exact rfl
  | cons r rs ih => exact ⟨_, State.tellAbsence_spec hn hm st s r, ih _⟩

end Sys2Proof.Machine
end

