-- ==== Sys2Proof/Tests/Slice0.lean ====
section
/-!
SUPPORT. Tests. The expected values of the first parts are the manual's own examples and tables, named by rule; the last
part shows for each statement with hypotheses states and operands that meet them, clause by clause.
-/
namespace Sys2Proof.Tests
open Sys2Proof.Machine
set_option Elab.async false

/-! ### Ill-formed commands are refused -/

theorem test_wf_header_short : (Instr.imageHeaderRead (List.replicate 7 0#8)).wellFormed = false := by decide
theorem test_wf_header : (Instr.imageHeaderRead (List.replicate 8 0#8)).wellFormed = true := by decide
theorem test_wf_image_short : (Instr.imageRead (List.replicate 597 0#8)).wellFormed = false := by decide +kernel
theorem test_wf_place : (Instr.latenessExpiry 8).wellFormed = false ∧ (Instr.latenessExpiry 7).wellFormed = true := by decide
theorem test_wf_invalid_frame : (Instr.invalidFrame
    { priority := 0, origin := 0, kind := 0, length := 2, payload := [0#8], check := 0, endMark := true }).wellFormed =
      false := by decide
theorem test_wf_image_cue : (Instr.imageCue 0 0 0 0 (List.replicate 6 0#8)).wellFormed = false ∧
    (Instr.imageCue 0 0 0 0 (List.replicate 5 0#8)).wellFormed = true := by decide
theorem test_wf_report : (Instr.reportFrame 0 (List.replicate 6 0#8)).wellFormed = false ∧
    (Instr.reportFrame 0 (List.replicate 7 0#8)).wellFormed = true := by decide
theorem test_wf_record_short : (Instr.fillCompletion (List.replicate 127 0#8)).wellFormed = false := by decide +kernel

/-- The table gives no row any bits. -/
theorem test_no_word_is_a_command : decodeTableWord 8 0x31 = none := by decide

/-! ### Examples of the manual: numbers -/

/-- R166: the CRC over the characters 1 to 9 is 0x29B1. -/
theorem test_crc_check : crcBytes [0x31#8, 0x32#8, 0x33#8, 0x34#8, 0x35#8, 0x36#8, 0x37#8, 0x38#8, 0x39#8] = 0x29B1#16 := by
  decide +kernel

/-- R11: the table of gains. -/
theorem test_gain_table : [0, 160, 286, 320, 480, 640, 800].map gain =
    [8388608, 2652711, 1071371, 838861, 265271, 83886, 26527] := by decide +kernel
theorem test_gain_low : [960, 1120, 1280, 1408, 1440, 1599, 1600].map gain = [8389, 2653, 839, 334, 265, 84, 0] := by
  decide +kernel

/-- R12: products of −2^22 and +2^22 round to −1 and +1. -/
theorem test_scaled_ties : scaled (-1) 4194304 = -1 ∧ scaled 1 4194304 = 1 := by decide

/-- R110: the eight blocks from 1000 to 2000, and the two ties. -/
theorem test_blend : [1, 2, 3, 4, 5, 6, 7, 8].map (blend 1000 2000) =
    [1125, 1250, 1375, 1500, 1625, 1750, 1875, 2000] ∧ blend 3 0 4 = 2 ∧ blend (-3) 0 4 = -2 := by decide

/-- R59: the first six lines of the table of boosts, on its curve. -/
def curve59 : Curve :=
  #v[⟨0, 0⟩, ⟨100, 0⟩, ⟨200, 32⟩, ⟨300, 64⟩, ⟨400, 96⟩, ⟨500, 112⟩, ⟨550, 128⟩, ⟨600, 128⟩]
theorem test_boosts : [0, 60, 189, 240, 560, 600].map (curveBoost curve59) = [0, 0, 28, 44, 128, 128] := by decide +kernel
/-- R59: the falling segment, 150 − 12. -/
theorem test_boost_falls : interpolateBoost ⟨520, 150⟩ ⟨600, 110⟩ 545 = 138 := by decide
/-- R61: the table of bands. -/
theorem test_bands : newBand curve59 240 0 = 2 ∧ newBand curve59 195 2 = 2 ∧ newBand curve59 189 2 = 1 ∧
    newBand curve59 199 1 = 1 ∧ newBand curve59 560 1 = 6 ∧ newBand curve59 80 6 = 0 := by decide +kernel

/-- R116: the table of sets. -/
theorem test_sets : [(CoefKey.mk 0 0 8).set, (CoefKey.mk 2 3 5).set, (CoefKey.mk 2 4 5).set, (CoefKey.mk 6 3 5).set,
    (CoefKey.mk 6 4 5).set, (CoefKey.mk 15 7 31).set] = [8, 8, 11, 12, 15, 15] := by decide
/-- R123: the table of record addresses. -/
theorem test_addresses : [CoefKey.mk 0 0 0, CoefKey.mk 0 2 2, CoefKey.mk 2 3 5, CoefKey.mk 6 4 5,
    CoefKey.mk 15 7 31].map recordAddress = [0x010000, 0x012100, 0x023280, 0x044280, 0x08FF80] := by decide
/-- R168: the key (2, 3, 5) echoes as 0x0265. -/
theorem test_key_echo : recordKey [0x02#8, 0x65#8] = CoefKey.mk 2 3 5 := by decide

/-- R166: a frame of 10 payload bytes spans 115 bit times, one of 11 spans 123. -/
theorem test_frame_lengths : (frameBits .headroom 5 (List.replicate 10 0#8)).length = 115 ∧
    (frameBits .report 5 (List.replicate 11 0#8)).length = 123 := by decide +kernel
/-- R148, R166: the first 16 bits of a headroom frame of station 5: start mark, 010, 0101, 0100, 1010. -/
theorem test_frame_head : (frameBits .headroom 5 (List.replicate 10 0#8)).take 16 =
    [false, false, true, false, false, true, false, true, false, true, false, false, true, false, true, false] := by
  decide +kernel

/-- The bits of bytes, most significant first; the end mark; the frame of station 5 with a payload, written from the bit
places of R166: priority, origin, kind, length, payload, check value. -/
def bitsOf (n v : Nat) : List Bool := (List.range n).map fun i => v.testBit (n - 1 - i)
def frameOf (priority kind length : Nat) (payload : List Nat) (check : Nat) : List Bool :=
  bitsOf 3 priority ++ bitsOf 4 5 ++ bitsOf 4 kind ++ bitsOf 4 length ++ payload.flatMap (bitsOf 8) ++ bitsOf 16 check ++
    [true, true, true]
/-- R148, R166, R167: each kind number with its priority and length is its command; a wrong check value is none. -/
theorem test_frame_commands :
    frameCommand (readFrame (frameOf 3 2 3 [1, 0, 240] 21378)) = .paceCue 5 1#8 (0#8, 240#8) ∧
    frameCommand (readFrame (frameOf 1 3 1 [0x23] 60536)) = .dipRelease 5 0x23#8 ∧
    frameCommand (readFrame (frameOf 0 6 0 [] 5572)) = .wakeCue 5 ∧
    frameFailure (readFrame (frameOf 0 6 0 [] 0)) = some .checkErrors := by decide +kernel

/-! ### States for the tests -/

/-- Reset's state with another node state, the flash awake and input audio present or lost. -/
def at_ (st : NodeState) (p : Presence := .present) : State :=
  { State.reset with
    node := { State.reset.node with state := st, ampOn := st == .waking || st == .active || st == .quiet }
    library := { State.reset.library with flash := .awake, state := .ready }
    ports := { State.reset.ports with presence := p, syncSeen := true, outRunning := st != .start } }

/-- The NODE slot at a value. -/
def State.nodeAt (s : State) (v : Int) : State := s.setSlot .node (TermSlot.idleAt v)

/-- The block in progress at its end. -/
def due (s : State) : State := { s with ports := { s.ports with blockDue := true } }

/-- The next state of a command, where there is one. -/
def after (c : Instr) (s : State) : State :=
  match exec c s with
  | .next t => t
  | _ => s

/-- Some states of the tests. -/
def playing : State := State.nodeAt (at_ .active) 0
def fading : State := State.nodeAt (at_ .quiet) 700

/-! ### Examples of the manual: commands -/

/-- R138: both causes recorded as POWER_ON when both hold the reset. -/
theorem test_reset_both : (after (.resetRelease 0xA#4) (after (.resetAssert .pin) (after (.resetAssert .powerOn)
    State.reset))).node.cause = .powerOn := by decide +kernel
/-- R157: STN3 is the most significant bit of the station number. -/
theorem test_reset_straps : (after (.resetRelease 0xA#4) (after (.resetAssert .pin) State.reset)).loader.station = 10 := by
  decide +kernel
/-- R128, R158: 50 µs after the release command the identification is read. -/
theorem test_release_wait : (after .releaseWaitEnd State.reset).library.mosi = [0x9F#8] := by decide +kernel
/-- R129: three bytes of 0xFF give NO_MEMORY and HELD. -/
theorem test_no_memory : (after (.identificationRead 0xFF#8 0xFF#8 0xFF#8)
    (after .releaseWaitEnd State.reset)).loader.fault = .noMemory := by decide +kernel

/-- R45: the first six lines of the table of volume indices. -/
def fieldsOf (v st : Option Byte) : ImageFields := { volume := v, step := st, fade := none, balance := none, preset := none }
def imageOf (i m : Nat) : ZoneImage := { volume := i, fade := 0, balance := 0, preset := 0, maxVolume := m, origins := [] }
theorem test_volume_index : newVolume (fieldsOf none (some 100#8)) (imageOf 60 120) = 120 ∧
    newVolume (fieldsOf (some 200#8) none) (imageOf 60 110) = 110 ∧
    newVolume (fieldsOf (some 115#8) none) (imageOf 60 110) = 110 ∧
    newVolume (fieldsOf none (some 0xF7#8)) (imageOf 5 120) = 0 ∧
    newVolume (fieldsOf none (some 5#8)) (imageOf 0 120) = 5 ∧
    newVolume (fieldsOf (some 40#8) (some 10#8)) (imageOf 70 120) = 40 := by decide
/-- R46: the VOL targets of the same table. -/
theorem test_volume_target : [120, 110, 0, 5, 40].map volumeTarget = [0, 80, 1600, 920, 640] := by decide
/-- R37, R46: an absolute index of 40 and a fade step of −32 in one cue write VOL 640 and FADE −512. -/
theorem test_image_cue :
    let t := after (.imageCue 3 2#8 9#8 0x05#8 [40#8, 0xE0#8]) playing
    (t.slot (.vol 2)).target = 640 ∧ (t.slot (.fade 2)).target = -512 ∧ t.image[2].origins = [⟨3, 9#8⟩] := by
  decide +kernel
/-- R42: the same stamp again is ignored. -/
theorem test_image_repeat :
    let t := after (.imageCue 3 2#8 9#8 0x01#8 [40#8]) playing
    (after (.imageCue 3 2#8 9#8 0x01#8 [50#8]) t).image = t.image := by decide +kernel
/-- R55: a pace cue of no configured source is counted as unexpected. -/
theorem test_pace_unexpected : (after (.paceCue 3 1#8 (0x00#8, 0xF0#8)) playing).stats.link[6] = 1 := by decide +kernel
/-- R71, R78: a dip of depth 320 on zones 0 and 1, class 2, for 500 ms. -/
theorem test_dip_apply :
    let t := after (.dipApply 4 0x13#8 0x43#8 (0x01#8, 0x40#8) 5#8) playing
    (t.slot (.dip 1 2)).target = 320 ∧ (t.slot (.dip 2 2)).target = 0 ∧ t.table.map (·.lifetime) = [some 500] := by
  decide +kernel
/-- R72: its release brings the target back to 0. -/
theorem test_dip_release :
    ((after (.dipRelease 4 0x23#8) (after (.dipApply 4 0x13#8 0x43#8 (0x01#8, 0x40#8) 5#8) playing)).slot (.dip 1 2)).target = 0 := by
  decide +kernel
/-- R73, R79: a group value of 500 is taken as 384. -/
theorem test_headroom : ((after (.headroomCue 4 (0#8, 0#8) (0x01#8, 0xF4#8) (0#8, 0#8) (0#8, 0#8) 3#8 0#8) playing).slot (.link 1)).target = 384 := by
  decide +kernel
/-- R143: a sleep cue with NODE.current at 1600 enters DORMANT within the same event, and AMP_ON falls. -/
theorem test_sleep : ((at_ .active).takeSleep allChannels true).node.state = .dormant ∧
    ((at_ .active).takeSleep allChannels true).node.ampOn = false ∧
    (after (.sleepCue 4) playing).node.state = .quiet := by decide +kernel
/-- R141: a wake cue in DORMANT enters WAKING with the settle timer at 50 ms. -/
theorem test_wake : ((at_ .dormant).takeWake allChannels).node.settle = some 50 := by decide +kernel
/-- R154: a frame of the node's own origin is a clash. -/
theorem test_clash : (after (.reportFrame 0 []) playing).link.clash = true := by decide +kernel
/-- R163, R164: an answer of item group LINK is three frames; one of group 6 is a format error. -/
theorem test_query : (after (.queryCue 4 0#8 1#8 0#8 0#8) playing).link.queue.length = 3 ∧
    (after (.queryCue 4 0#8 6#8 0#8 0#8) playing).stats.link[4] = 1 := by decide +kernel
/-- R154: a frame heard restarts the link-silence timer. -/
theorem test_report : (after (.reportFrame 7 []) playing).node.linkSilence = some 5000 := by decide +kernel
/-- R133, R134: an interval of 20.0 µs is good, one of 21.75 µs is an audio loss. -/
theorem test_frame_sync : (after (.frameSync 20000 (Vector.replicate 16 0#32)) playing).ports.blockFrames = 1 ∧
    (after (.frameSync 21750 (Vector.replicate 16 0#32)) playing).ports.presence = .lost := by decide +kernel
/-- R134: a gap of 62.5 µs is an audio loss. -/
theorem test_gap : ((after .frameSyncGap playing).slot .node).current = 1600 := by decide +kernel
/-- R134: an output frame of zeros in DORMANT leaves the node as it is. -/
theorem test_output_tick : (after .outputFrameTick (at_ .dormant .lost)).ports.outFrame = Vector.replicate 8 0#32 := by
  decide +kernel
/-- R141: the settle expiry enters ACTIVE. -/
theorem test_settle : (after .settleExpiry { at_ .waking with node := { (at_ .waking).node with settle := some 0 } }).node.state =
    .active := by decide +kernel
/-- R150: the SILENT expiry ends SILENT. -/
theorem test_silent : (after .silentExpiry { playing with link := { playing.link with silent := some 0 } }).link.silent =
    none := by decide +kernel

/-- R153: a frame without its end mark is a format error, one with a wrong check value a check error. -/
def badEnd : RawFrame :=
  { priority := 0, origin := 4, kind := 5, length := 0, payload := [], check := 0, endMark := false }
theorem test_invalid_frame : (after (.invalidFrame badEnd) playing).stats.link[4] = 1 ∧
    (after (.invalidFrame { badEnd with endMark := true }) playing).stats.link[3] = 1 := by decide +kernel

/-- A node with a report frame queued, and with it being sent. -/
def queued : State :=
  { playing with link := { playing.link with
    queue := [{ kind := .report, payload := List.replicate 5 0#8, age := 100, late := false }] } }
def sending : State :=
  { queued with link := { queued.link with sending := some { bits := [], replaced := false, gone := false } } }
/-- R147: the head entry's frame begins, with 35 + 8 × 5 bits. -/
theorem test_sending_start : (after .sendingStart queued).link.sending.map (·.bits.length) = some 75 := by decide +kernel
/-- R149: a frame sent leaves the queue. -/
theorem test_frame_sent : (after .frameSent sending).link.queue = [] := by decide +kernel
/-- R149: after a lost contention the entry stays at the head. -/
theorem test_contention_lost : (after .contentionLost sending).link.queue = sending.link.queue := by decide +kernel
/-- R147, R149: after a lost contention nothing begins until the frame received on is complete, valid or not. -/
theorem test_within_frame :
    let t := after .contentionLost sending
    (after .sendingStart t).link.sending = none ∧
      (after .sendingStart (after (.reportFrame 9 []) t)).link.sending.isSome = true ∧
      (after .sendingStart (after (.invalidFrame badEnd) t)).link.sending.isSome = true := by decide +kernel
/-- R150: the sixteenth consecutive transmit error enters SILENT for 1000 ms and empties the queue. -/
theorem test_transmit_error :
    let t := after .transmitError { sending with link := { sending.link with errors := 15 } }
    t.link.silent = some 1000 ∧ t.link.queue = [] ∧ t.link.errors = 0 := by decide +kernel
/-- R152: an entry 100 ms old is discarded and counted late, but not while it is being sent. -/
theorem test_lateness : (after (.latenessExpiry 0) queued).stats.link[8] = 1 ∧
    (after (.latenessExpiry 0) sending).link.queue.length = 1 := by decide +kernel

/-- A node with one entry in its table whose lifetime is up, and the depth it holds. -/
def dipped : State :=
  { playing with table := [{ key := .dip 4 3, zones := 1#4, classes := 1#4, depth := 320, lifetime := some 0 }] }
/-- R75: a lifetime expiry removes the entry. -/
theorem test_lifetime : (after (.lifetimeExpiry (.dip 4 3)) dipped).table = [] := by decide +kernel

/-- A node with a fill queued on a FILLING line, and with that fill in flight. -/
def line0 : LineRef := { set := 8, way := 0 }
def filling : State :=
  { playing with library := { (playing.setLine line0 (Line.fillingFor (CoefKey.mk 2 3 5))).library with
    queue := [{ key := CoefKey.mk 2 3 5, line := some line0 }] } }
def flying : State :=
  { filling with library := { filling.library with
    queue := [], fill := some { line := line0, key := CoefKey.mk 2 3 5, address := 0x023280 } } }
/-- R123, R128: the read of the record of (2, 3, 5) begins with 0x03 and its address. -/
theorem test_fill_start : (after .fillStart filling).library.mosi = [0x03#8, 0x02#8, 0x32#8, 0x80#8] := by decide +kernel
/-- R125: a record of zeros fails its checks: the line is INVALID, the consecutive error count 1. -/
theorem test_fill_error : recordPasses (CoefKey.mk 2 3 5) (List.replicate 128 0#8) = false ∧
    (flying.fillFails { line := line0, key := CoefKey.mk 2 3 5, address := 0x023280 }).library.errors = 1 := by
  decide +kernel
/-- R130: the pending deep power-down is sent. -/
theorem test_power_down :
    (after .deepPowerDown { playing with library := { playing.library with downPending := true } }).library.flash =
      .poweredDown := by decide +kernel
/-- R136: after a block completion the next block has no frames yet. -/
theorem test_block_completion :
    ((due playing).completeBlock (fun _ => true) true true allChannels).ports.blockFrames = 0 := by decide +kernel
/-- R155: a silence age of 2000 ms makes a station absent. -/
def quietStation : State :=
  { playing with link := { playing.link with stations := playing.link.stations.set 3 { present := true, age := 2000 } } }
theorem test_silence : (quietStation.silenceExpires allChannels true 3).link.stations[3].present = false := by decide +kernel
/-- R56: a freshness time at 0 clears the valid flag; the last speed is kept. -/
def stale : State :=
  { playing with pace := { playing.pace with primary := { station := some 2, lastSpeed := 90, valid := true, freshness := 0 } } }
theorem test_freshness : (stale.freshnessExpires allChannels .primary).pace.primary =
    { station := some 2, lastSpeed := 90, valid := false, freshness := 0 } := by decide +kernel
/-- R142: the link-silence expiry in ACTIVE enters QUIET. -/
def silentLink : State := { playing with node := { playing.node with linkSilence := some 0 } }
theorem test_link_silence : (silentLink.linkSilenceExpires allChannels true).node.state = .quiet := by decide +kernel

/-! ### Witnesses: states and operands that meet the hypotheses of the statements, clause by clause -/

def identifying : State := after .releaseWaitEnd State.reset

theorem takes (s : State) (o : Station) (h : s.inReset = false ∧ s.takesCues = true ∧ o ≠ s.loader.station) :
    s.Takes o := ⟨h.1, h.2.1, h.2.2⟩
theorem takesAt (s : State) (o : Station) (r : Recipient) (h : s.inReset = false ∧ s.takesCues = true ∧
    o ≠ s.loader.station ∧ s.link.owed ≠ some (o, r)) : s.TakesAt o r := ⟨takes s o ⟨h.1, h.2.1, h.2.2.1⟩, h.2.2.2⟩
/-- A cue of a station whose silence expiry is due is taken too. -/
theorem quietStation_takes : quietStation.TakesAt 3 .image ∧ quietStation.link.stations[3].present = true :=
  ⟨takesAt _ _ _ (by decide +kernel), by decide +kernel⟩

theorem witness_StepRunsTheFrontCommand :
    { playing with pending := [.sendingStart, .frameSyncGap] }.pending = .sendingStart :: [.frameSyncGap] := rfl

/-- A node with every timer of an idle millisecond running, ages one short of and at their ends. -/
def ticking : State :=
  { playing with
    node := { playing.node with settle := some 1, linkSilence := some 1 }
    pace := { playing.pace with primary := { station := some 2, lastSpeed := 9, valid := true, freshness := 1 } }
    table := [{ key := .dip 4 3, zones := 1#4, classes := 1#4, depth := 320, lifetime := some 1 },
              { key := .dip 4 4, zones := 1#4, classes := 1#4, depth := 320, lifetime := none }]
    emission := { playing.emission with age := 500 }
    link := { playing.link with
      silent := some 1, queue := [{ kind := .report, payload := [], age := 99, late := false }],
      stations := playing.link.stations.set 4 { present := true, age := 1999 } }
    ports := { playing.ports with presence := .lost } }
theorem witness_IdleStepPassesOneMillisecond : ticking.pending = [] ∧ ticking.inReset = false ∧ ticking.ownEvents = [] ∧
    (at_ .dormant).pending = [] ∧ (at_ .dormant).inReset = false ∧ (at_ .dormant).ownEvents = [] := by decide +kernel

theorem witness_ResetReleaseGivesResetValues : (after (.resetAssert .pin) playing).inReset = true ∧
    (after (.resetAssert .powerOn) playing).inReset = true := by decide +kernel

theorem witness_LibraryPortCommands :
    (let s := { playing with library := { playing.library with flash := .releasing } }
     s.inReset = false ∧ s.library.flash = .releasing ∧ ¬ (s.node.state = .start ∧ s.loader.stage = .releaseWait)) ∧
    (State.reset.inReset = false ∧ State.reset.library.flash = .releasing ∧ State.reset.node.state = .start ∧
      State.reset.loader.stage = .releaseWait ∧ State.reset.library.flash ≠ .awake) ∧
    (filling.inReset = false ∧ filling.library.fill = none ∧ filling.library.flash = .awake ∧
      filling.library.state = .ready ∧
      filling.library.queue = [] ++ { key := CoefKey.mk 2 3 5, line := some line0 } :: []) ∧
    (let s := { playing with library := { playing.library with downPending := true } }
     s.inReset = false ∧ s.library.downPending = true ∧ s.library.fill = none ∧ s.library.flash = .awake) ∧
    (flying.inReset = false ∧ flying.library.fill.isSome) := by decide +kernel

theorem witness_StartUpReadsDecide :
    (identifying.inReset = false ∧ identifying.node.state = .start ∧ identifying.loader.stage = .identification) ∧
    (let s := after (.identificationRead 0x00#8 0x00#8 0x01#8) identifying
     s.inReset = false ∧ s.node.state = .start ∧ s.loader.stage = .header) ∧
    ¬ ((0x00#8 = 0x00#8 ∧ 0x00#8 = 0x00#8 ∧ 0x01#8 = 0x00#8) ∨ (0x00#8 = 0xFF#8 ∧ 0x00#8 = 0xFF#8 ∧ 0x01#8 = 0xFF#8)) ∧
    ¬ (0x48#8 = 0x48#8 ∧ 0x5A#8 = 0x5A#8 ∧ 0x4E#8 = 0x4E#8 ∧ 0x38#8 = 0x38#8 ∧ 2#8 = 1#8) ∧
    (0x02#8).toNat * 256 + (0x5D#8).toNat ≠ 606 ∧ (0x02#8).toNat * 256 + (0x5E#8).toNat = 606 := by decide +kernel

theorem witness_AudioLossMutesTheNode : playing.inReset = false ∧ playing.ports.presence = .present ∧
    ¬ (playing.ports.syncSeen = true ∧ 20000 ≤ 19999 ∧ 19999 ≤ 21740) ∧
    ¬ (playing.ports.syncSeen = true ∧ 20000 ≤ 21741 ∧ 21741 ≤ 21740) := by decide +kernel

/-- A node in ACTIVE without input audio, with n good frames counted. -/
def waitingAudio (n : Nat) : State :=
  { at_ .active .lost with ports := { (at_ .active .lost).ports with goodFrames := n } }
theorem witness_GoodSyncsBringAudioBack :
    (waitingAudio 46).inReset = false ∧ (waitingAudio 46).ports.presence = .lost ∧ (waitingAudio 46).ports.syncSeen = true ∧
    (waitingAudio 46).ports.goodFrames < 47 ∧ (waitingAudio 47).ports.goodFrames = 47 ∧
    ¬ ((waitingAudio 47).ports.syncSeen = true ∧ 20000 ≤ 19999 ∧ 19999 ≤ 21740) ∧ 20000 ≤ 20000 ∧ 21740 ≤ 21740 := by
  decide +kernel

/-- Every channel composes, on a reduction of its own: the bounds of the depth bins; the peaks stand above the ceiling
of channel 0 alone. -/
def reductionOf (c : Channel) : Nat := #v[0, 1, 48, 49, 96, 97, 192, 193][c]
def sounding : State :=
  { due playing with channels := Vector.ofFn fun c =>
      { playing.channels[c] with
        record := { playing.channels[c].record with ceiling := if c = 0 then 4194304 else 8388607, group := some 0 }
        reduction := reductionOf c, holdCount := if c.val < 4 then 1 else 0, peak := 6000000, clip := c = 0,
        overflow := c = 1, composed := some { aPre := 0, rApp := reductionOf c, total := reductionOf c } } }

theorem witness_FrameSyncCarriesAFrame :
    (sounding.inReset = false ∧ sounding.ports.presence = .present ∧ sounding.node.state ≠ .start ∧
      sounding.ports.syncSeen = true ∧ sounding.node.ampOn = true ∧
      (sounding.channel 7).composed = some { aPre := 0, rApp := 193, total := 193 }) ∧
    ((at_ .held).inReset = false ∧ (at_ .held).ports.presence = .present ∧ (at_ .held).node.state ≠ .start ∧
      (at_ .held).ports.syncSeen = true ∧ (at_ .held).node.ampOn = false ∧ ((at_ .held).channel 0).composed = none) := by
  decide +kernel

/-- Block 4 of a crossfade from FLAT to a set of one section that doubles its input: channel 2's word of 1000 is 1500. -/
def mixing : State :=
  let s := sounding.setLine line0 { key := CoefKey.mk 0 0 8, state := .valid, pins := 1, coefs := [⟨2 ^ 31, 0, 0, 0, 0⟩] }
  s.setChannel 2 { s.channel 2 with incoming := some { line := line0, k := 4, running := true } }
theorem witness_FrameSyncCarriesAFrame_crossfade : (mixing.channel 2).composed.isSome = true ∧
    (mixing.channel 2).incoming = some { line := line0, k := 4, running := true } ∧
    (mixing.channel 2).active = none ∧ (sounding.channel 2).incoming = none ∧
    (mixing.equalise (mixing.channel 2) 1000).2 = 1500 ∧ (sounding.equalise (sounding.channel 2) 1000).2 = 1000 := by
  decide +kernel

/-- The sounding node with its input audio lost. -/
def soundless : State := { sounding with ports := { sounding.ports with presence := .lost } }
theorem witness_OutputFrameTickCarriesZeros :
    (soundless.inReset = false ∧ soundless.node.state ≠ .start ∧ soundless.ports.presence = .lost ∧
      (soundless.channel 0).composed = some { aPre := 0, rApp := 0, total := 0 }) ∧
    ((at_ .active .lost).inReset = false ∧ (at_ .active .lost).node.state ≠ .start ∧
      (at_ .active .lost).ports.presence = .lost ∧ ((at_ .active .lost).channel 0).composed = none) := by decide +kernel

/-- Channel 0 has an overshoot above its reduction; channels 1 and 4 have one below theirs, with and without a hold. -/
theorem witness_BlockCompletionUpdates : sounding.inReset = false ∧ sounding.node.state ≠ .start ∧
    sounding.ports.blockDue = true ∧ sounding.awake = true ∧ sounding.composing = true ∧
    ¬ (sounding.node.state = .quiet ∧ ((sounding.slot .node).step sounding.ramp.record).current = 1600) ∧
    (sounding.channel 0).reduction < overshoot (sounding.channel 0).peak (sounding.channel 0).record.ceiling ∧
    overshoot (sounding.channel 1).peak (sounding.channel 1).record.ceiling ≤ (sounding.channel 1).reduction ∧
    0 < (sounding.channel 1).holdCount ∧
    overshoot (sounding.channel 4).peak (sounding.channel 4).record.ceiling ≤ (sounding.channel 4).reduction ∧
    (sounding.channel 4).holdCount = 0 ∧ ((due playing).channel 0).composed = none := by decide +kernel

/-- The own value of group 0 changes and that of group 1 does not. The LINK slot stands at 0 with the new target, or has
stepped there, by the order. -/
theorem witness_BlockCompletionUpdates_link :
    (let t := sounding.completeBlock (fun _ => true) true true allChannels
     t.emission.own[0] = 177 ∧ sounding.emission.own[0] = 0 ∧ t.emission.own[1] = sounding.emission.own[1] ∧
       (t.slot (.link 0)).current = 0 ∧ (t.slot (.link 0)).target = 177) ∧
    (let t := sounding.completeBlock (fun _ => false) true true allChannels
     (t.slot (.link 0)).current = 177 ∧ (t.slot (.link 0)).target = 177) := by decide +kernel
/-- Two groups change in one completion, one on each side of the step: group 0 steps first, group 1 is written first. -/
def twoGroups : State :=
  sounding.setChannel 7 { sounding.channel 7 with record := { (sounding.channel 7).record with group := some 1 } }
theorem witness_BlockCompletionUpdates_mixed :
    (let t := twoGroups.completeBlock (fun g => g = 0) true true allChannels
     t.emission.own[0] = 176 ∧ t.emission.own[1] = 177 ∧ (t.slot (.link 0)).current = 0 ∧
       (t.slot (.link 0)).target = 176 ∧ (t.slot (.link 1)).current = 177) := by decide +kernel

/-- An audio return in ACTIVE and its completion: with the step first the completion leaves the NODE slot at 1600, with the
target first it takes the slot to 0 (R27, R135). -/
theorem witness_BlockCompletionUpdates_return : ∀ stepFirst,
    (let s := (waitingAudio 47).takeSync stepFirst 20000 (Vector.replicate 16 0#32)
     s.inReset = false ∧ s.node.state = .active ∧ s.ports.blockDue = true ∧ s.ports.nodeStepped = stepFirst ∧
       (s.slot .node).current = 1600 ∧ (s.slot .node).target = 0 ∧
       ((s.completeBlock (fun _ => true) true true allChannels).slot .node).current = (if stepFirst then 1600 else 0) ∧
       (s.completeBlock (fun _ => true) true true allChannels).ports.nodeStepped = false) := by decide +kernel

/-- HELD, where the node is not awake and the block still completes. -/
theorem witness_BlockCompletionUpdates_held : (due (at_ .held)).inReset = false ∧ (due (at_ .held)).node.state ≠ .start ∧
    (due (at_ .held)).ports.blockDue = true ∧ (due (at_ .held)).awake = false := by decide +kernel

/-- In QUIET at 1600, and in QUIET with the last step of a fade still to take. -/
def lastStep : State :=
  (due (at_ .quiet)).setSlot .node { current := 1599, target := 1600, active := none, blocksLeft := 0 }
theorem witness_BlockCompletionEntersDormant :
    ((due (at_ .quiet)).inReset = false ∧ (due (at_ .quiet)).node.state = .quiet ∧ (due (at_ .quiet)).ports.blockDue = true ∧
      (((due (at_ .quiet)).slot .node).step (due (at_ .quiet)).ramp.record).current = 1600) ∧
    (lastStep.inReset = false ∧ lastStep.node.state = .quiet ∧ lastStep.ports.blockDue = true ∧
      ((lastStep.slot .node).step lastStep.ramp.record).current = 1600) := by decide +kernel

/-- A channel with an incoming set at that completion, in block 7 or at the end of its crossfade. -/
theorem witness_BlockCompletionEntersDormant_incoming : ∀ k ∈ [7, 8],
    let s := lastStep.setChannel 3 { lastStep.channel 3 with incoming := some { line := line0, k := k, running := true } }
    s.inReset = false ∧ s.node.state = .quiet ∧ s.ports.blockDue = true ∧
      ((s.slot .node).step s.ramp.record).current = 1600 ∧ (s.channel 0).incoming = none ∧
      ((s.completeBlock (fun _ => true) false true allChannels).channel 3).active = some line0 := by decide +kernel

/-- A node at the end of a block, with a reduction of 193 in group 0, a sent value, an emission age, a transmit queue. -/
def emitting (sent age : Nat) (queue : List TxEntry) : State :=
  { (due playing).setChannel 7 { playing.channel 7 with
      reduction := 193, record := { (playing.channel 7).record with group := some 0 } } with
    emission := { own := Vector.replicate 4 0, sent := #v[sent, 0, 0, 0], age := age }
    link := { playing.link with queue := queue } }
def report : TxEntry := { kind := .report, payload := List.replicate 5 0#8, age := 0, late := false }
def headroom : TxEntry := { kind := .headroom, payload := List.replicate 10 0#8, age := 40, late := false }
/-- The state after the block, under one order of the open choices. -/
def emitted (sent age : Nat) (queue : List TxEntry) : State := (emitting sent age queue).completeBlock (fun _ => true) true true allChannels
/-- Nothing due at age 9; the significant change due at age 10, the refresh at 100; refused by eight reports, replacing a
queued cue, appended. The presence report is due at age 500 of a silent node. -/
theorem witness_BlockCompletionDecidesEmission :
    (emitting 0 10 []).inReset = false ∧ (emitting 0 10 []).awake = true ∧ (emitting 0 10 []).ports.blockDue = true ∧
    (emitting 0 10 []).node.state ≠ .quiet ∧
    (emitted 0 9 []).emission.own[0] = 193 ∧ (emitted 0 9 []).emission.sent[0] = 0 ∧
    (emitted 0 10 []).emission.sent[0] = 193 ∧ (emitted 193 99 []).emission.age = 99 ∧
    (emitted 193 100 []).emission.age = 0 ∧
    (∀ e ∈ List.replicate 8 report, e.kind ≠ .headroom) ∧ 8 ≤ (List.replicate 8 report).length ∧
    (emitted 0 10 (List.replicate 8 report)).emission.sent[0] = 0 ∧
    (∃ e ∈ [report, headroom], e.kind = .headroom) ∧ (emitted 0 10 [report, headroom]).link.queue.map (·.age) = [0, 0] ∧
    (({ due playing with emission := { playing.emission with age := 499 } }).completeBlock (fun _ => true) true true allChannels).emission.age = 499 ∧
    (({ due playing with emission := { playing.emission with age := 500 } }).completeBlock (fun _ => true) true true allChannels).emission.age = 0 := by
  decide +kernel

/-- The entry replaced at the head under an attempt marks the attempt, one behind the head does not. -/
theorem witness_BlockCompletionDecidesEmission_sending : ∀ gone,
    (let s := { emitting 0 10 [headroom, report] with link := { playing.link with
       queue := [headroom, report], sending := some { bits := [true], replaced := false, gone := gone } } }
     s.inReset = false ∧ s.awake = true ∧ s.ports.blockDue = true ∧ s.node.state ≠ .quiet ∧
       (s.completeBlock (fun _ => true) true true allChannels).link.sending =
         some { bits := [true], replaced := !gone, gone := gone }) ∧
    (let s := { emitting 0 10 [report, headroom] with link := { playing.link with
       queue := [report, headroom], sending := some { bits := [true], replaced := false, gone := gone } } }
     (s.completeBlock (fun _ => true) true true allChannels).link.sending = s.link.sending) := by decide +kernel

/-- HELD at the end of a block: the presence report is due at age 500 and not before. -/
def heldFor (age : Nat) : State := { due (at_ .held) with emission := { playing.emission with age := age } }
theorem witness_BlockCompletionDecidesEmission_held : (heldFor 500).inReset = false ∧ (heldFor 500).ports.blockDue = true ∧
    (heldFor 500).node.state = .held ∧ (∀ g : Group, (heldFor 500).emission.own[g] = 0) ∧
    ((heldFor 499).completeBlock (fun _ => true) true true allChannels).emission.age = 499 ∧
    ((heldFor 500).completeBlock (fun _ => true) true true allChannels).emission.age = 0 ∧
    ((heldFor 500).completeBlock (fun _ => true) true true allChannels).link.queue.map (·.payload) =
      [List.replicate 8 0#8 ++ [1#8, 0#8]] := by decide +kernel

/-- Channel 3 in the block k of its crossfade, or with an incoming set that has not begun to run. -/
def crossing (k : Nat) (running : Bool := true) : State :=
  (due playing).setChannel 3 { (playing.channel 3) with incoming := some { line := line0, k := k, running := running } }
/-- The set taken during a block begins with k = 1 at the next block start. -/
theorem witness_CrossfadeTakesEightBlocks_begins :
    (crossing 1 false).inReset = false ∧ (crossing 1 false).awake = true ∧ (crossing 1 false).ports.blockDue = true ∧
    (crossing 1 false).node.state ≠ .quiet ∧
    ((crossing 1 false).channel 3).incoming = some { line := line0, k := 1, running := false } ∧
    (((crossing 1 false).completeBlock (fun _ => true) true true allChannels).channel 3).incoming =
      some { line := line0, k := 1, running := true } := by decide +kernel
theorem witness_CrossfadeTakesEightBlocks :
    (crossing 7).inReset = false ∧ (crossing 7).awake = true ∧ (crossing 7).ports.blockDue = true ∧
    (crossing 7).node.state ≠ .quiet ∧ ((crossing 7).channel 3).incoming = some { line := line0, k := 7, running := true } ∧
    (crossing 8).inReset = false ∧ (crossing 8).awake = true ∧ (crossing 8).ports.blockDue = true ∧
    (crossing 8).node.state ≠ .quiet ∧ ((crossing 8).channel 3).incoming = some { line := line0, k := 8, running := true } := by
  decide +kernel

theorem witness_BlockCompletionCounts : sounding.inReset = false ∧ sounding.awake = true ∧ sounding.ports.blockDue = true ∧
    sounding.node.state ≠ .quiet ∧ ((due playing).channel 0).composed = none ∧
    (∀ c, (sounding.channel c).composed = some { aPre := 0, rApp := reductionOf c, total := reductionOf c }) := by
  decide +kernel

/-- A node of a state whose two timers are up. -/
def timedOut (s : State) : State := { s with node := { s.node with settle := some 0, linkSilence := some 0 } }
theorem witness_NodeTimersExpire :
    ((timedOut (at_ .waking)).inReset = false ∧ (timedOut (at_ .waking)).node.settle = some 0 ∧
      (timedOut (at_ .waking)).node.linkSilence = some 0 ∧ (timedOut (at_ .waking)).node.state = .waking) ∧
    ((timedOut playing).inReset = false ∧ (timedOut playing).node.linkSilence = some 0 ∧
      (timedOut playing).node.state = .active ∧ ((timedOut playing).slot .node).current ≠ 1600) ∧
    ((timedOut (at_ .active)).inReset = false ∧ (timedOut (at_ .active)).node.linkSilence = some 0 ∧
      (timedOut (at_ .active)).node.state = .active ∧ ((timedOut (at_ .active)).slot .node).current = 1600) ∧
    ((timedOut fading).inReset = false ∧ (timedOut fading).node.linkSilence = some 0 ∧
      (timedOut fading).node.state = .quiet) := by decide +kernel

theorem witness_FreshnessExpirySelects : stale.inReset = false ∧ (stale.pace.source .primary).valid = true ∧
    (stale.pace.source .primary).freshness = 0 := by decide +kernel

theorem witness_LifetimeExpiryRemovesTheEntry : ∃ e, dipped.inReset = false ∧ dipped.table = [] ++ e :: [] ∧
    e.key = .dip 4 3 ∧ (∀ x ∈ ([] ++ [] : List Entry), x.key ≠ e.key) ∧ e.lifetime = some 0 :=
  ⟨_, by decide +kernel, rfl, rfl, by decide, rfl⟩

/-- An absent station that fed a fresh speed source, and one that fed none. -/
def quietSource : State :=
  { quietStation with pace := { quietStation.pace with
      primary := { station := some 3, lastSpeed := 90, valid := true, freshness := 9 } } }
theorem witness_SilenceExpiryReportsAbsence :
    (quietSource.inReset = false ∧ quietSource.node.state ≠ .dormant ∧ quietSource.link.stations[3].present = true ∧
      2000 ≤ quietSource.link.stations[3].age ∧ (quietSource.pace.source .primary).station = some 3 ∧
      (quietSource.pace.source .primary).valid = true ∧ (quietSource.pace.source .secondary).station ≠ some 3) ∧
    (quietStation.inReset = false ∧ quietStation.node.state ≠ .dormant ∧ quietStation.link.stations[3].present = true ∧
      2000 ≤ quietStation.link.stations[3].age ∧ ∀ w, (quietStation.pace.source w).station ≠ some 3) :=
  ⟨by decide +kernel, by decide +kernel, by decide +kernel, by decide +kernel, by decide +kernel,
    fun w => by cases w <;> decide +kernel⟩

/-- A frame of the station has come with its expiry. A pace cue: the pace unit takes the report at once or is owed it, as the
choice falls. A query, which goes to none of the three recipients: the report is told at once. -/
def meeting (c : Instr) : State := { quietSource with pending := [c] }
def owing : State := { quietSource with link := { quietSource.link with owed := some (3, .pace) } }
theorem witness_SilenceExpiryReportsAbsence_meeting :
    (frameOrigin (.reportFrame 3 []) = some 3 ∧ frameOrigin (.paceCue 3 1#8 (0#8, 0#8)) = some 3 ∧
      (3 : Station) ≠ quietSource.loader.station ∧ ∀ r : Recipient, quietSource.link.owed ≠ some (3, r)) ∧
    (((meeting (.paceCue 3 1#8 (0#8, 0#8))).silenceExpires allChannels true 3).link.owed = some (3, .pace) ∧
      ((meeting (.paceCue 3 1#8 (0#8, 0#8))).silenceExpires allChannels false 3).link.owed = none ∧
      ((meeting (.queryCue 3 0#8 4#8 0#8 0#8)).silenceExpires allChannels true 3).link.owed = none ∧
      (quietSource.silenceExpires allChannels true 3).link.owed = none) ∧
    (owing.inReset = false ∧ owing.node.state ≠ .dormant ∧ owing.takesCues = true ∧
      cueRecipient (.paceCue 3 1#8 (0#8, 0#8)) = some .pace ∧ owing.link.owed = some (3, .pace)) :=
  ⟨⟨rfl, rfl, by decide, fun r => by cases r <;> decide⟩, by decide +kernel, by decide +kernel⟩
/-- R58: the cue first and then the absence leave the source not fresh; R155: the station is present. The frame before its
expiry leaves the source fresh. -/
theorem test_absence_meets_cue :
    (let t := after (.paceCue 3 1#8 (0#8, 0#8)) owing
     t.pace.primary.valid = false ∧ t.link.stations[3].present = true ∧ t.link.owed = none) ∧
    (after (.paceCue 3 1#8 (0#8, 0#8)) quietSource).pace.primary.valid = true := by decide +kernel

theorem witness_LinkTimersExpire : queued.inReset = false ∧ (∃ e, queued.link.queue[0]? = some e ∧ 100 ≤ e.age ∧
      e.late = false) ∧ queued.link.sending = none ∧
    sending.inReset = false ∧ sending.link.queue = queued.link.queue ∧
    sending.link.sending = some { bits := [], replaced := false, gone := false } ∧
    { playing with link := { playing.link with silent := some 0 } }.link.silent = some 0 :=
  ⟨by decide +kernel, ⟨_, rfl, by decide, rfl⟩, rfl, by decide +kernel, rfl, rfl, rfl⟩

theorem witness_CountersStick : (at_ .dormant).node.state = .dormant ∧ playing.node.state ≠ .dormant := by decide +kernel

theorem witness_SendingStartBeginsTheHeadFrame : queued.inReset = false ∧ queued.link.sending = none ∧
    queued.link.inFrame = false ∧ (after .contentionLost sending).link.inFrame = true ∧
    queued.link.silent = none ∧ queued.link.queue ≠ [] ∧ playing.inReset = false ∧ playing.link.queue = [] ∧
    sending.inReset = false ∧ sending.link.sending ≠ none := by decide +kernel

theorem witness_SentFramesAreValid : (List.replicate 10 0#8).length = 10 ∧
    (List.replicate 5 0#8).length ∈ [5, 7, 9, 11] ∧ (List.replicate 11 0#8).length ∈ [5, 7, 9, 11] := by decide
/-- A frame with a payload of zeros and the right check value. -/
def zerosFrame (kind : BitVec 4) (priority : BitVec 3) (length : Nat) : RawFrame :=
  { priority := priority, origin := 5, kind := kind, length := BitVec.ofNat 4 length, payload := List.replicate length 0#8,
    check := crc16 (coveredBits priority (stationBits 5) kind (BitVec.ofNat 4 length) (List.replicate length 0#8)),
    endMark := true }
/-- A frame of each kind that passes every check, and one that fails one. -/
theorem witness_SentFramesAreValid_kinds :
    (∀ row ∈ ([(1, 4, 8), (2, 3, 3), (3, 1, 5), (3, 1, 1), (4, 2, 10), (5, 0, 0), (6, 0, 0), (7, 6, 4), (8, 7, 11)] :
      List (BitVec 4 × BitVec 3 × Nat)), frameFailure (zerosFrame row.1 row.2.1 row.2.2) = none) ∧
    frameFailure badEnd ≠ none := by decide +kernel

/-- Attempts: one that runs, one whose entry was replaced or is late, one whose entry has gone. -/
def attempting (replaced gone late : Bool) (errors : Nat) : State :=
  { sending with link := { sending.link with
    errors := errors, queue := [{ kind := .headroom, payload := List.replicate 10 0#8, age := 100, late := late }],
    sending := some { bits := [], replaced := replaced, gone := gone } } }
theorem witness_SendingAttemptEnds :
    (∀ replaced gone late errors, (attempting replaced gone late errors).link.sending = some { bits := [], replaced, gone } ∧
      (attempting replaced gone late errors).link.queue =
        { kind := .headroom, payload := List.replicate 10 0#8, age := 100, late := late } :: [] ∧
      (attempting replaced gone late errors).link.errors = errors) ∧ (14 < 15 ∧ 15 ≤ 15) :=
  ⟨fun _ _ _ _ => ⟨rfl, rfl, rfl⟩, by decide⟩

theorem witness_TransmitQueueAccepts : ∃ l m : LinkInterface,
    l.queue = [report] ++ headroom :: [] ∧ headroom.kind = .headroom ∧ (∀ x ∈ [report] ++ [], x.kind ≠ .headroom) ∧
    m.queue = List.replicate 7 report ∧ (∀ x ∈ m.queue, x.kind ≠ .headroom) ∧ m.queue.length < 8 ∧
    m.queue.length + [[0#8]].length ≤ 8 ∧ 8 < m.queue.length + [[0#8], [0#8]].length :=
  ⟨{ playing.link with queue := [report, headroom] }, { playing.link with queue := List.replicate 7 report },
    rfl, rfl, by decide, rfl, by decide, by decide, by decide, by decide⟩
/-- A queue of eight reports takes no headroom cue. -/
theorem witness_TransmitQueueAccepts_full : (∀ x ∈ List.replicate 8 report, x.kind ≠ .headroom) ∧
    8 ≤ (List.replicate 8 report).length := by decide

/-- A wrong check value, and a right one with a kind that is not the format's. -/
theorem witness_InvalidFrameIsCountedOnce : playing.inReset = false ∧ badEnd.endMark = false ∧
    crc16 (coveredBits badEnd.priority (stationBits badEnd.origin) badEnd.kind badEnd.length badEnd.payload) ≠
      badEnd.check ∧
    ∃ f : RawFrame, f.endMark = true ∧
      crc16 (coveredBits f.priority (stationBits f.origin) f.kind f.length f.payload) = f.check ∧ f.kind = 9#4 :=
  ⟨by decide +kernel, rfl, by decide +kernel, { badEnd with
    kind := 9#4, endMark := true, check := crc16 (coveredBits badEnd.priority (stationBits badEnd.origin) 9#4 0 []) },
    rfl, rfl, rfl⟩

/-- A station never heard, and one whose silence expiry is due. -/
theorem witness_ReportFrameIsHeard : playing.inReset = false ∧ playing.node.state ≠ .dormant ∧
      (15 : Station) ≠ playing.loader.station ∧ (at_ .held).inReset = false ∧ (at_ .held).node.state ≠ .dormant ∧
      (1 : Station) ≠ (at_ .held).loader.station ∧ quietStation.inReset = false ∧
      quietStation.node.state ≠ .dormant ∧ (3 : Station) ≠ quietStation.loader.station := by decide +kernel

theorem witness_FramesNotDispatched : frameOrigin (.wakeCue 0) = some 0 ∧ frameOrigin (.sleepCue 4) = some 4 ∧
    (after (.resetAssert .pin) playing).inReset = true ∧
    ((at_ .dormant).inReset = false ∧ (at_ .dormant).node.state = .dormant ∧ (0 : Station) = (at_ .dormant).loader.station ∧
      Instr.sleepCue 4 ≠ .wakeCue 4) ∧
    (playing.inReset = false ∧ playing.node.state ≠ .dormant ∧ (0 : Station) = playing.loader.station) ∧
    (State.reset.inReset = false ∧ State.reset.node.state = .start ∧ (4 : Station) ≠ State.reset.loader.station) := by
  decide +kernel

/-- A zone table with four origins, stamps 0 to 3. -/
def stamped : State :=
  playing.setImage 1 { playing.image[1] with origins := [⟨2, 0#8⟩, ⟨3, 1#8⟩, ⟨4, 2#8⟩, ⟨5, 3#8⟩] }
/-- All five fields, and none. -/
def fields5 : ImageFields := { volume := some 40#8, step := some 1#8, fade := some 0xE0#8, balance := some 32#8, preset := some 15#8 }
/-- A new origin at a full table, a known one 1 and 127 ahead; all five fields present, and none. -/
theorem witness_ImageCueAccepted : stamped.TakesAt 1 .image ∧ stamped.TakesAt 2 .image ∧
    ((0x1F#8)[0] = fields5.volume.isSome ∧ (0x1F#8)[1] = fields5.step.isSome ∧ (0x1F#8)[2] = fields5.fade.isSome ∧
      (0x1F#8)[3] = fields5.balance.isSome ∧ (0x1F#8)[4] = fields5.preset.isSome ∧
      [40#8, 1#8, 0xE0#8, 32#8, 15#8] = [fields5.volume, fields5.step, fields5.fade, fields5.balance, fields5.preset].reduceOption) ∧
    ((0xE0#8)[0] = false ∧ (0xE0#8)[1] = false ∧ (0xE0#8)[2] = false ∧ (0xE0#8)[3] = false ∧ (0xE0#8)[4] = false ∧
      [none, none, none, none, none].reduceOption = ([] : List Byte)) ∧
    (∀ r ∈ stamped.image[1].origins, r.origin = 1 → 1 ≤ (9#8 - r.stamp).toNat ∧ (9#8 - r.stamp).toNat ≤ 127) ∧
    (∀ r ∈ stamped.image[1].origins, r.origin = 2 → 1 ≤ (1#8 - r.stamp).toNat ∧ (1#8 - r.stamp).toNat ≤ 127) ∧
    (∀ r ∈ stamped.image[1].origins, r.origin = 2 → 1 ≤ (127#8 - r.stamp).toNat ∧ (127#8 - r.stamp).toNat ≤ 127) :=
  ⟨takesAt _ _ _ (by decide +kernel), takesAt _ _ _ (by decide +kernel), by decide, by decide, by decide +kernel,
    by decide +kernel,
    by decide +kernel⟩
/-- One flag set, with its byte and without; a zone of 4; the last stamp and stamps 128 and 255 after it. -/
theorem witness_ImageCueNotAccepted : stamped.TakesAt 3 .image ∧ 1 = (List.range 5).countP (fun i => (0xE1#8).getLsbD i) ∧
    ([] : List Byte).length ≠ 1 ∧ 4 ≤ (4#8).toNat ∧ [7#8].length = 1 ∧ (1#8).toNat = (1 : Zone).val ∧
    stamped.image[1].origins = [⟨2, 0#8⟩] ++ ⟨3, 1#8⟩ :: [⟨4, 2#8⟩, ⟨5, 3#8⟩] ∧
    (∀ x ∈ [OriginRecord.mk 2 0#8], x.origin ≠ 3) ∧ 128 ≤ (129#8 - 1#8).toNat ∧ 128 ≤ (0#8 - 1#8).toNat :=
  ⟨takesAt _ _ _ (by decide +kernel), by decide, by decide, by decide, by decide, by decide, by decide +kernel, by decide,
    by decide, by decide⟩

/-- Primary source 2, secondary source 3. -/
def sourced : State :=
  { playing with pace := { playing.pace with
    primary := { station := some 2, lastSpeed := 0, valid := false, freshness := 0 }
    secondary := { station := some 3, lastSpeed := 0, valid := false, freshness := 0 } } }
theorem witness_PaceCueSelects : sourced.TakesAt 2 .pace ∧ sourced.TakesAt 3 .pace ∧ sourced.TakesAt 4 .pace ∧
    sourced.pace.primary.station = some 2 ∧ sourced.pace.primary.station ≠ some 3 ∧
    sourced.pace.secondary.station = some 3 ∧ sourced.pace.primary.station ≠ some 4 ∧
    sourced.pace.secondary.station ≠ some 4 ∧ 2#8 ≠ 0#8 ∧ 2#8 ≠ 1#8 ∧ 601 = (0x02#8).toNat * 256 + (0x59#8).toNat :=
  ⟨takesAt _ _ _ (by decide +kernel), takesAt _ _ _ (by decide +kernel), takesAt _ _ _ (by decide +kernel),
    rfl, by decide +kernel, rfl, by decide +kernel, by decide +kernel, by decide, by decide, by decide⟩

/-- The curve of R59 rises; speeds at and between its ends. -/
theorem witness_BoostFollowsTheCurve : (∀ j k : Fin 8, j < k → curve59[j].speed < curve59[k].speed) ∧
    0 ≤ curve59[0].speed ∧ curve59[7].speed ≤ 600 ∧ curve59[2].speed ≤ 200 ∧ 299 < curve59[3].speed := by decide +kernel
/-- Up at a breakpoint, held 10 below it, down 11 below it; down over several bands to one whose speed is still above. -/
theorem witness_BandHasHysteresis : (∀ j k : Fin 8, j < k → curve59[j].speed < curve59[k].speed) ∧
    2 = newBand curve59 200 1 ∧ 2 = newBand curve59 190 2 ∧ 1 = newBand curve59 189 2 ∧
    2 = newBand curve59 195 5 ∧ 195 < curve59[2].speed ∧ 195 + 10 < curve59[3].speed := by decide +kernel

theorem witness_DipApplyWritesTheEntry : playing.TakesAt 15 .table ∧ (3 : Fin 8).val = (0x13#8).toNat % 8 ∧
    (0x13#8).toNat / 16 = 1 ∧ 1 = (0#8).toNat * 256 + (1#8).toNat ∧ 0 = (0#8).toNat * 256 + (0#8).toNat ∧ (0x11#8).extractLsb' 0 4 ≠ 0#4 ∧ (0x11#8).extractLsb' 4 4 ≠ 0#4 ∧
    (0x10#8).extractLsb' 0 4 = 0#4 ∧ (0x01#8).extractLsb' 4 4 = 0#4 ∧ (0x23#8).toNat / 16 ≠ 1 :=
  ⟨takesAt _ _ _ (by decide +kernel), by decide⟩
theorem witness_DipReleaseRemovesTheEntry : dipped.TakesAt 4 .table ∧ (3 : Fin 8).val = (0x23#8).toNat % 8 ∧
    (0x23#8).toNat / 16 = 2 ∧ (∃ e ∈ dipped.table, e.key = .dip 4 3) ∧
    (4 : Fin 8).val = (0x24#8).toNat % 8 ∧ (∀ e ∈ dipped.table, e.key ≠ .dip 4 4) ∧ (0x13#8).toNat / 16 ≠ 2 :=
  ⟨takesAt _ _ _ (by decide +kernel), by decide +kernel⟩

/-- A table of 24 dips of depth 100 of stations 2, 3 and 4. -/
def crowded : State :=
  { playing with table := (List.finRange 24).map fun i =>
      { key := .dip ⟨2 + i.val / 8, by omega⟩ ⟨i.val % 8, by omega⟩, zones := 1#4, classes := 1#4, depth := 100,
        lifetime := none } }
/-- At a full table a value of 0, one that displaces and one that is refused; at an empty one every value has room. -/
theorem witness_HeadroomCueWritesFourEntries : crowded.TakesAt 5 .table ∧ crowded.table.length = 24 ∧
    (∃ x ∈ crowded.table, x.depth < min ((0x01#8).toNat * 256 + (0x80#8).toNat) 384) ∧
    (∀ x ∈ crowded.table, min ((0#8).toNat * 256 + (100#8).toNat) 384 ≤ x.depth) ∧
    (∀ x ∈ crowded.table, x.key ≠ .link 5 0) ∧ playing.TakesAt 1 .table ∧ playing.table.length < 24 ∧ crowded.stats.link[7] ≤ 65535 :=
  ⟨takesAt _ _ _ (by decide +kernel), by decide +kernel, by decide +kernel, by decide +kernel, by decide +kernel,
    takesAt _ _ _ (by decide +kernel), by decide +kernel, by decide +kernel⟩

theorem witness_SleepAndWakeCues :
    (playing.inReset = false ∧ (4 : Station) ≠ playing.loader.station ∧ playing.node.state = .active ∧
      (playing.slot .node).current ≠ 1600) ∧
    ((at_ .waking).inReset = false ∧ (4 : Station) ≠ (at_ .waking).loader.station ∧ (at_ .waking).node.state = .waking ∧
      ((at_ .waking).slot .node).current = 1600) ∧
    (fading.inReset = false ∧ (4 : Station) ≠ fading.loader.station ∧ fading.node.state = .quiet) ∧
    ((at_ .held).inReset = false ∧ (4 : Station) ≠ (at_ .held).loader.station ∧ (at_ .held).node.state = .held) := by decide +kernel

/-- DORMANT with the power-down pending, sent, and with the flash still RELEASING. -/
def sleeping (pending : Bool) (flash : FlashPower) : State :=
  { at_ .dormant with library := { (at_ .dormant).library with downPending := pending, flash := flash } }
theorem witness_WakeCueEndsDormant : ∀ p f, (sleeping p f).inReset = false ∧ (4 : Station) ≠ (sleeping p f).loader.station ∧
    (sleeping p f).node.state = .dormant ∧ (sleeping p f).library.downPending = p ∧
    (sleeping p f).library.flash = f :=
  fun _ _ => ⟨rfl, (by decide : (4 : Station) ≠ 0), rfl, rfl, rfl⟩

/-- Items of five groups with an answer, and indices and a group without one; the queue with room and without. -/
theorem witness_QueryCueIsAnswered : playing.Takes 1 ∧ owing.Takes 3 ∧ (1#8).toNat ≠ playing.loader.station.val ∧
    (0#8).toNat = playing.loader.station.val ∧ (playing.heard 1).answer 2#8 8#8 = none ∧
    ((playing.heard 1).answer 2#8 7#8).map (·.length) = some 2 ∧ playing.link.queue.length + 2 ≤ 8 ∧
    8 < { playing.link with queue := List.replicate 7 report }.queue.length + 2 :=
  ⟨takes _ _ (by decide +kernel), takes _ _ (by decide +kernel), by decide +kernel⟩
theorem witness_AnswersFollowTheItemTable :
    ((crowded.answer 0#8 0#8).isSome ∧ (crowded.answer 1#8 0#8).isSome ∧ (crowded.answer 2#8 7#8).isSome ∧
      (crowded.answer 3#8 0#8).isSome ∧ (crowded.answer 5#8 3#8).isSome) ∧
    ((crowded.answer 4#8 20#8).map (·.length) = some 4 ∧ (crowded.answer 4#8 23#8).map (·.length) = some 1 ∧
      (playing.answer 4#8 23#8).map (·.length) = some 1 ∧ 20 < crowded.table.length ∧ playing.table.length ≤ 23) ∧
    (crowded.answer 0#8 1#8 = none ∧ crowded.answer 4#8 24#8 = none ∧ crowded.answer 5#8 4#8 = none ∧
      crowded.answer 6#8 0#8 = none) := by decide +kernel

/-- A record of one section that passes for the key (2, 3, 5). -/
def goodRecord : List Byte :=
  [0x02#8, 0x65#8, 1#8, 0#8, 0x40#8] ++ List.replicate 121 0#8 ++ halfBytes 29858#16
/-- The fill in flight with channel 3 attached to its line. -/
def attached : State := flying.setChannel 3 { flying.channel 3 with wanted := CoefKey.mk 2 3 5, request := .waitingFill line0 }
theorem goodRecord_passes : RecordPasses (CoefKey.mk 2 3 5) goodRecord :=
  ⟨by decide +kernel, by decide +kernel, by decide +kernel, by decide +kernel, by decide +kernel⟩
theorem zeros_fail : ¬ RecordPasses (CoefKey.mk 2 3 5) (List.replicate 128 0#8) := fun h =>
  absurd h.preset (by decide +kernel)
/-- R168: the first section's b0 of the good record is 0x40000000, the divisor 2^30 of R99. -/
theorem test_record_set : (recordCoefs goodRecord).map (·.b0) = [2 ^ 30] := by decide +kernel
/-- A channel attached to the line of the fill, and none. -/
theorem witness_FillCompletionBringsTheLine :
    attached.library.fill = some { line := line0, key := CoefKey.mk 2 3 5, address := 0x023280 } ∧
    RecordPasses (CoefKey.mk 2 3 5) goodRecord ∧ (attached.channel 3).request = .waitingFill line0 ∧
    flying.library.fill = some { line := line0, key := CoefKey.mk 2 3 5, address := 0x023280 } ∧
    (∀ c, (flying.channel c).request = .idle) ∧ (flying.line line0).pins = 0 :=
  ⟨by decide +kernel, goodRecord_passes, by decide +kernel, by decide +kernel, by decide +kernel, by decide +kernel⟩
/-- An entry without a line, of the set of the line that the failed fill gives up. -/
def waitingWay : State :=
  { attached with library := { attached.library with queue := [{ key := CoefKey.mk 0 0 8, line := none }] } }
theorem witness_FillErrorsMakeTheLibraryFaulty :
    attached.library.fill = some { line := line0, key := CoefKey.mk 2 3 5, address := 0x023280 } ∧
    ¬ RecordPasses (CoefKey.mk 2 3 5) (List.replicate 128 0#8) ∧ attached.library.errors < 2 ∧
    (waitingWay.library.fill = attached.library.fill ∧ waitingWay.library.errors < 2 ∧
      ((waitingWay.fillFails { line := line0, key := CoefKey.mk 2 3 5, address := 0x023280 }).library.queue.map (·.line)) =
        [some line0]) ∧
    (let s := { attached with library := { attached.library with errors := 2 } }
     s.library.fill = some { line := line0, key := CoefKey.mk 2 3 5, address := 0x023280 } ∧ 2 ≤ s.library.errors) :=
  ⟨by decide +kernel, zeros_fail, by decide +kernel, by decide +kernel, by decide +kernel⟩

/-- Channel 0 wants a key; line0, of the key's set, holds it in a state, under a library in a state. -/
def wanting (lib : LibraryState) (st : LineState) (queue : List QueueEntry) : State :=
  let s := playing.setChannel 0 { playing.channel 0 with wanted := CoefKey.mk 0 0 8 }
  let s := s.setLine line0 { key := CoefKey.mk 0 0 8, state := st, pins := 0, coefs := [] }
  { s with library := { s.library with state := lib, queue := queue } }
/-- Set 8 with every way FILLING another key: no way can be taken. -/
def blocked : CacheSet :=
  { ways := Vector.replicate 4 { key := CoefKey.mk 2 3 5, state := .filling, pins := 0, coefs := [] }, pointer := 0 }
/-- Hits on a VALID and a FILLING way; misses under FAULTY, with the key queued, and with a way to take or none. -/
theorem witness_EvaluationAsksTheCache :
    (∀ st, ((wanting .ready st []).channel 0).record.enabled = true ∧ ((wanting .ready st []).channel 0).active = none ∧
      ((wanting .ready st []).channel 0).failed = none ∧ (wanting .ready st []).library.state ≠ .absent ∧
      ((wanting .ready st []).line line0).state = st ∧
      ((wanting .ready st []).line line0).key = ((wanting .ready st []).channel 0).wanted) ∧
    ((wanting .absent .invalid []).library.state = .absent ∧ (wanting .faulty .invalid []).library.state = .faulty) ∧
    (∃ e ∈ (wanting .ready .invalid [{ key := CoefKey.mk 0 0 8, line := none }]).library.queue,
      e.key = CoefKey.mk 0 0 8) ∧
    ((wanting .ready .invalid []).library.queue.length < 16 ∧
      ((wanting .ready .invalid []).library.sets[(8 : Fin 16)].allocate (CoefKey.mk 0 0 8)).isSome ∧
      blocked.allocate (CoefKey.mk 0 0 8) = none) :=
  ⟨fun st => by cases st <;> decide +kernel, by decide +kernel, ⟨_, List.mem_singleton.2 rfl, rfl⟩, by decide +kernel⟩

/-- A new key and the same key; a channel that acts on it, one that holds an incoming set, one that is not enabled. -/
theorem witness_EvaluationAsksTheCache_key : CoefKey.mk 2 3 5 ≠ (playing.channel 3).wanted ∧
    (playing.channel 3).record.enabled = true ∧ (playing.channel 3).incoming = none ∧
    CoefKey.mk 2 3 5 ≠ ((crossing 1).channel 3).wanted ∧ ((crossing 1).channel 3).incoming ≠ none ∧
    (let s := playing.setChannel 3 { playing.channel 3 with record := { (playing.channel 3).record with enabled := false } }
     CoefKey.mk 2 3 5 ≠ (s.channel 3).wanted ∧ (s.channel 3).record.enabled = false) := by decide +kernel

/-- A full fill queue: an entry that a channel wants, one that none wants, with or without a line, and fourteen more. -/
def fullQueue (l : Option LineRef) : State :=
  let s := playing.setLine line0 (Line.fillingFor (CoefKey.mk 2 3 5))
  { s with library := { s.library with
    queue := [{ key := (playing.channel 0).wanted, line := none }] ++ { key := CoefKey.mk 2 3 5, line := l } ::
      (List.finRange 14).map fun i => { key := CoefKey.mk ⟨i.val + 2, by omega⟩ 7 0, line := none } } }
theorem witness_WaysGoToTheirTakers_full (l : Option LineRef) :
    16 ≤ (fullQueue l).library.queue.length ∧
    (∀ x ∈ [QueueEntry.mk (playing.channel 0).wanted none],
      ∃ c, ((fullQueue l).channel c).record.enabled = true ∧ ((fullQueue l).channel c).wanted = x.key) ∧
    ¬ (∃ c, ((fullQueue l).channel c).record.enabled = true ∧ ((fullQueue l).channel c).wanted = CoefKey.mk 2 3 5) := by
  have h : ∀ c, (fullQueue l).channel c = playing.channel c := fun _ => rfl
  have k : ∀ c, (playing.channel c).wanted ≠ CoefKey.mk 2 3 5 := by decide +kernel
  refine ⟨by simp [fullQueue], fun x hx => ⟨0, ?_⟩, ?_⟩
  · rw [List.mem_singleton.1 hx, h]; exact ⟨by decide +kernel, rfl⟩
  · rintro ⟨c, _, hc⟩
    rw [h] at hc
    exact k c hc

/-- A set with its ways VALID, way 2 unpinned, the pointer at 3. -/
def pinnedSet : CacheSet :=
  { ways := Vector.ofFn fun w =>
      { key := CoefKey.mk ⟨w.val, by omega⟩ 0 8, state := .valid, pins := if w = 2 then 0 else 1, coefs := [] }
    pointer := 3 }
/-- The lowest INVALID way of an empty set, the unpinned way three places from the pointer, none in a full set; and a
waiting entry behind one of another set. -/
theorem witness_WaysGoToTheirTakers :
    (playing.library.sets[(8 : Fin 16)].ways[(0 : Fin 4)].state = .invalid) ∧
    ((∀ v : Fin 4, pinnedSet.ways[v].state ≠ .invalid) ∧ (2 : Fin 4) = pinnedSet.pointer + 3 ∧
      pinnedSet.ways[(2 : Fin 4)].state = .valid ∧ pinnedSet.ways[(2 : Fin 4)].pins = 0 ∧
      (∀ j : Fin 4, j < 3 → ∀ v : Fin 4, v = pinnedSet.pointer + j →
        ¬ (pinnedSet.ways[v].state = .valid ∧ pinnedSet.ways[v].pins = 0))) ∧
    ((∀ v : Fin 4, blocked.ways[v].state ≠ .invalid) ∧
      ∀ v : Fin 4, ¬ (blocked.ways[v].state = .valid ∧ blocked.ways[v].pins = 0)) ∧
    ((wanting .ready .valid [{ key := CoefKey.mk 2 3 5, line := none }, { key := CoefKey.mk 0 0 9, line := none }]).library.queue =
        [{ key := CoefKey.mk 2 3 5, line := none }] ++ { key := CoefKey.mk 0 0 9, line := none } :: [] ∧
      (CoefKey.mk 0 0 9).set = 9 ∧ (CoefKey.mk 2 3 5).set ≠ 9) := by decide +kernel

/-- A node with a ramp profile: record 0 of rate 8 chained to record 1, all vector entries on record 0 but STEP for the
NODE fade-in. -/
def ramped : State :=
  { playing with ramp := { playing.ramp with profile := some {
      records := (Vector.replicate 32 { rate := 16, span := 0, chain := none }).set 0 { rate := 8, span := 5, chain := some 1 }
      vector := (Vector.replicate 11 (some 0)).set 10 none } } }
/-- The same target, the current value, a movement under a record, and a STEP. -/
theorem witness_WrittenTargetMeetsItsSlot :
    (0 : Int) = (ramped.slot (.vol 1)).target ∧ (1600 : Int) ≠ (ramped.slot (.vol 1)).target ∧
    (1600 : Int) ≠ (ramped.slot (.vol 1)).current ∧
    (∃ p, ramped.ramp.profile = some p ∧ p.vector[Cause.mute.index] = some 0 ∧ p.vector[Cause.nodeFadeIn.index] = none) ∧
    playing.ramp.profile = none ∧
    (let t := (ramped.writeTarget (.vol 1) 80).slot (.vol 1)
     t.active = some 0 ∧ t.blocksLeft = 5 ∧ (0 : Int) ≠ t.target ∧ (0 : Int) = t.current) :=
  ⟨by decide +kernel, by decide +kernel, by decide +kernel, ⟨_, rfl, by decide +kernel, by decide +kernel⟩, rfl,
    by decide +kernel⟩

/-- A slot on a chained record with two blocks left, on one that is not chained, and idle. -/
def moving (r : Fin 32) : TermSlot := { current := 0, target := 80, active := some r, blocksLeft := 2 }
theorem witness_MovementsTakeTheirSteps : (moving 0).active = some 0 ∧ (moving 1).active = some 1 ∧
    80 = ((moving 0).target - (moving 0).current).natAbs ∧ (ramped.ramp.record 0).rate = 8 ∧
    (ramped.ramp.record 0).chain = some 1 ∧ (ramped.ramp.record 1).rate = 16 ∧ (ramped.ramp.record 1).chain = none ∧
    1 ≤ (moving 0).blocksLeft ∧ (TermSlot.idleAt 5).active = none := by decide +kernel

/-- The gains' ends, a peak one above and one at the ceiling, and one that passes 384. -/
theorem witness_DecibelArithmeticIsExact : 0 = overshoot 1000 1000 ∧ 384 = overshoot (2 ^ 40) 1 ∧
    0 < overshoot (2 ^ 23) (2 ^ 22) := by decide +kernel

theorem witness_LawsInterpolate : (∀ i j : Fin 33, i ≤ j →
    (Vector.ofFn (n := 33) fun k => 50 * k.val)[i] ≤ (Vector.ofFn (n := 33) fun k => 50 * k.val)[j]) ∧
    (32 : Fin 33).val = (31 : Fin 33).val + 1 := by decide +kernel

theorem witness_EqualiserArithmetic : (1 : Nat) ≤ 2 ^ 30 ∧ ∀ k ∈ [0, 1, 7, 8], k ≤ 8 := by decide

/-- An overshoot below a held reduction; an attack; a reduction of 193 that a release of 16 clears in 13 steps. -/
theorem witness_LimiterHoldsAndReleases : 100 ≤ (sounding.channel 7).reduction ∧ (sounding.channel 7).reduction < 194 ∧
    (sounding.channel 7).holdCount ≤ 3 ∧ 1 ≤ (sounding.channel 1).holdCount ∧
    (sounding.channel 7).reduction ≤ 13 * (sounding.channel 7).record.release ∧
    (13 - 1) * (sounding.channel 7).record.release < (sounding.channel 7).reduction := by decide +kernel

theorem witness_StepKeepsNodeLaw : playing.NodeLaw ∧ (at_ .dormant).NodeLaw ∧ fading.node.state = .quiet :=
  ⟨⟨by decide +kernel, by decide +kernel, ⟨by decide +kernel, by decide +kernel⟩, by decide +kernel, by decide +kernel,
      by decide +kernel⟩,
    ⟨by decide +kernel, by decide +kernel, ⟨by decide +kernel, by decide +kernel⟩, by decide +kernel, by decide +kernel,
      by decide +kernel⟩, by decide +kernel⟩

/-- The node with a movement under way and a dip in its table. -/
def dipping : State :=
  let s := after (.dipApply 4 0x13#8 0x43#8 (0x01#8, 0x40#8) 5#8) playing
  (s.setSlot .node { current := 700, target := 0, active := some 0, blocksLeft := 3 })

theorem slots_lawful (s : State)
    (h : ∀ i : Fin 37, (s.ramp.slots[i].active ≠ none → s.ramp.slots[i].current ≠ s.ramp.slots[i].target) ∧
      (s.ramp.slots[i].active = none → s.ramp.slots[i].blocksLeft = 0)) : s.SlotLaw := fun id => h id.index

theorem witness_StepKeepsSlotsCountersAndQueues :
    dipping.SlotLaw ∧ dipping.CounterLaw ∧ dipping.LimiterLaw ∧ dipping.QueueLaw ∧
      ∃ t, step { dipping with pending := [.frameSyncGap] } = .next t :=
  ⟨slots_lawful _ (by decide +kernel), ⟨by decide +kernel, by decide +kernel, by decide +kernel⟩,
    ⟨by decide +kernel, by decide +kernel, by decide +kernel, by decide +kernel⟩,
    ⟨by decide +kernel, by decide +kernel, by decide +kernel, by decide +kernel, by decide +kernel⟩, _, rfl⟩

theorem dipping_table : dipping.TableLaw :=
  ⟨by decide +kernel, by decide +kernel, by
    have h : dipping.table = [{ key := .dip 4 3, zones := 3#4, classes := 4#4, depth := 320, lifetime := some 500 }] := by
      decide +kernel
    intro e he
    rw [h, List.mem_singleton] at he
    subst he
    exact ⟨by decide +kernel, by decide, by decide, by decide, by decide⟩⟩

theorem targets_lawful (s : State) (hd : ∀ z k, (s.slot (.dip z k)).target = dipTarget s.table z k)
    (hl : ∀ g : Group, (s.slot (.link g)).target = linkTarget s.emission.own[g] s.table g)
    (hs : s.node.state ≠ .start) : s.TargetLaw :=
  ⟨fun z k => by rw [hd]; exact dipTarget_is _ _ _, fun g => by rw [hl]; exact linkTarget_is _ _ _, fun h => absurd h hs⟩
theorem witness_StepKeepsTableLaw : dipping.TableLaw ∧ dipping.TargetLaw :=
  ⟨dipping_table, targets_lawful _ (by decide +kernel) (by decide +kernel) (by decide +kernel)⟩

/-- A node whose slots rest in their ranges. -/
theorem ranges_lawful (s : State) (hc : s.pace.curves = none)
    (h : (∀ z, (s.slot (.vol z)).Within 0 1600) ∧ (∀ z, (s.slot (.fade z)).Within (-512) 512) ∧
      (∀ z, (s.slot (.bal z)).Within (-512) 512) ∧ (∀ z, (s.slot (.pace z)).Within 0 192) ∧
      (∀ z k, (s.slot (.dip z k)).Within 0 1600) ∧ (∀ g, (s.slot (.link g)).Within 0 384) ∧
      (s.slot .node).Within 0 1600) : s.RangeLaw :=
  ⟨h.1, h.2.1, h.2.2.1, h.2.2.2.1, h.2.2.2.2.1, h.2.2.2.2.2.1, h.2.2.2.2.2.2, fun cs hs => by rw [hc] at hs; cases hs⟩

theorem witness_StepKeepsImageAndRangeLaw : dipping.TableLaw ∧ dipping.LimiterLaw ∧ dipping.ImageLaw ∧
    dipping.PresenceLaw ∧ dipping.RangeLaw :=
  ⟨dipping_table, ⟨by decide +kernel, by decide +kernel, by decide +kernel, by decide +kernel⟩,
    ⟨fun z => ⟨by revert z; decide +kernel, by revert z; decide +kernel, by revert z; decide +kernel,
      by revert z; decide +kernel, by revert z; decide +kernel, by revert z; decide +kernel, by revert z; decide +kernel⟩,
      by decide +kernel, by decide +kernel, by decide +kernel⟩,
    ⟨by decide +kernel, by decide +kernel, by decide +kernel, fun _ _ h => nomatch h⟩,
    ranges_lawful _ (by decide +kernel) (by unfold TermSlot.Within; decide +kernel)⟩
/-- The table is owed a report: the entry of the absent station is still there, and its cue is next. -/
theorem witness_StepKeepsImageAndRangeLaw_owed :
    State.PresenceLaw { dipping with
      link := { playing.link with owed := some (4, .table) }, pending := [.dipRelease 4 0x23#8] } :=
  ⟨by decide +kernel, by decide +kernel, by decide +kernel, fun o r h => by
    cases h
    exact ⟨by decide +kernel, by decide +kernel, by decide +kernel, _, _, rfl, rfl, rfl⟩⟩

/-- A channel of a link group, one of none, and the NODE slot at 1600. -/
theorem witness_CompositionLimitsOnce : sounding.RangeLaw ∧ sounding.LimiterLaw ∧ (at_ .active).RangeLaw ∧
    (at_ .active).LimiterLaw ∧ (sounding.channel 0).record.group = some 0 ∧ (playing.channel 0).record.group = none ∧
    ((at_ .active).slot .node).current = 1600 :=
  ⟨ranges_lawful _ (by decide +kernel) (by unfold TermSlot.Within; decide +kernel),
    ⟨by decide +kernel, by decide +kernel, by decide +kernel, by decide +kernel⟩,
    ranges_lawful _ (by decide +kernel) (by unfold TermSlot.Within; decide +kernel),
    ⟨by decide +kernel, by decide +kernel, by decide +kernel, by decide +kernel⟩, by decide +kernel, by decide +kernel,
    by decide +kernel⟩

theorem witness_StepKeepsCacheLaw : attached.CacheLaw where
  pins := ⟨fun ⟨i, w⟩ => by revert i w; decide +kernel, fun ⟨i, w⟩ => by revert i w; decide +kernel⟩
  keys := ⟨fun ⟨i, w⟩ => by revert i w; decide +kernel, fun ⟨i, v⟩ ⟨j, w⟩ h => by cases h; revert i v w; decide +kernel⟩
  fills := ⟨by decide +kernel, by decide +kernel, fun e he => absurd (show e ∈ ([] : List QueueEntry) from he) List.not_mem_nil,
    fun f hf => by
      have h : attached.library.fill = some { line := line0, key := CoefKey.mk 2 3 5, address := 0x023280 } := rfl
      rw [h, Option.some.injEq] at hf
      subst hf
      decide +kernel,
    fun ⟨i, w⟩ h => .inr ⟨_, rfl, by revert h; revert i w; decide +kernel⟩⟩
  waiting := fun c l h => by
    obtain ⟨i, w⟩ := l
    revert h; revert c i w; decide +kernel
  queued := fun c h => absurd h (by revert c; decide +kernel)
  lineless := fun e he => absurd (show e ∈ ([] : List QueueEntry) from he) List.not_mem_nil
  start := fun h => absurd h (by decide +kernel)
  dormant := fun h => absurd h (by decide +kernel)
  sources := fun h => absurd h (by decide +kernel)

/-! ### Witnesses: a whole configuration image -/

/-- Byte i of a configuration image of format 1: its 604 bytes before the check value. -/
def imageByte (i : Nat) : Nat :=
  if i < 12 then [0x48, 0x5A, 0x4E, 0x38, 1, 0, 2, 0x5E, 2, 6, 1, 0].getD i 0
  else if i < 172 then [1, 0, 0, 1, 2, 3, 5, 0, 0, 80, 16, 4, 20, 0, 0, 0, 0, 0x7F, 0xFF, 0xFF].getD ((i - 12) % 20) 0
  else if i < 332 then [110, 90, 252, 3, 1, 0, 0, 0, 0, 0, 0, 0, 0, 30, 0, 0, 0, 60, 0, 16, 0, 90, 0, 32, 0, 120, 0, 48,
    0, 150, 0, 64, 0, 180, 0, 80, 0, 210, 0, 96].getD ((i - 172) % 40) 0
  else if i < 464 then if i % 2 = 0 then 0 else (i - 333) % 66 * 2
  else if i < 592 then [8, 1, 0, 2].getD (i % 4) 0
  else if i < 603 then 3
  else 0xFE
/-- The byte of the image with one byte replaced and a check value. -/
def imageWith (place value check i : Nat) : Byte :=
  if i < 604 then BitVec.ofNat 8 (if i = place then value else imageByte i)
  else if i = 604 then BitVec.ofNat 8 (check / 256)
  else if i = 605 then BitVec.ofNat 8 check
  else 0#8
/-- The image of these bytes. -/
def imageBytes (place value check : Nat) : List Byte := (List.range 606).map (imageWith place value check)

theorem imageBytes_byte (p v c i : Nat) : byteAt (imageBytes p v c) i = imageWith p v c i := by
  unfold byteAt imageBytes
  by_cases h : i < 606
  · simp [List.getD, h]
  · simp [List.getD, h, imageWith, show ¬ i < 604 by omega, show i ≠ 604 by omega, show i ≠ 605 by omega]
theorem imageBytes_take (p v c : Nat) : (imageBytes p v c).take 604 = (List.range 604).map (imageWith p v c) := by
  simp [imageBytes, ← List.map_take, List.take_range]
/-- The fault code of an image, where it is rejected. -/
def faultOf (img : List Byte) : Option FaultCode :=
  match checkImage img with
  | .error e => some e
  | .ok _ => none

/-- An image that passes every check, and images that fail check 3, 4, 5, 6 or 7 for one byte: a wrong check value, a library
byte of 2, a first law entry of 1, a first speed of 30 before one of 30, a chain of 32. -/
theorem witness_ImageChecksInOrder_codes : ∀ x ∈ ([(606, 0, 29940, none), (606, 0, 29941, some .badCheck),
    (10, 2, 39119, some .badRange), (333, 1, 51267, some .badLaw), (181, 30, 1846, some .badCurve),
    (465, 32, 59354, some .badRamp)] : List (Nat × Nat × Nat × Option FaultCode)),
    faultOf (imageBytes x.1 x.2.1 x.2.2.1) = x.2.2.2 := by
  intro x hx
  have hb := imageBytes_byte x.1 x.2.1 x.2.2.1
  have ht := imageBytes_take x.1 x.2.1 x.2.2.1
  generalize imageBytes x.1 x.2.1 x.2.2.1 = img at hb ht
  simp only [faultOf, checkImage, ht, channelRecord, zoneRecord, rampRange, checkTables, breakpoint, rampRecord,
    vectorField, lawTable, wordAt, halfAt, hb]
  clear hb ht img
  simp only [List.mem_cons, List.not_mem_nil, or_false] at hx
  rcases hx with rfl | rfl | rfl | rfl | rfl | rfl <;> decide +kernel
theorem good_image : faultOf (imageBytes 606 0 29940) = none :=
  witness_ImageChecksInOrder_codes (606, 0, 29940, none) (.head _)
theorem image_unsigned (p v c o n : Nat) : unsignedAt (imageBytes p v c) o n =
    (List.range n).foldl (fun x k => 256 * x + (imageWith p v c (o + k)).toNat) 0 := by
  have h : ∀ i, (imageBytes p v c).getD i 0#8 = imageWith p v c i := imageBytes_byte p v c
  simp only [unsignedAt, h]
/-- The good image meets the conditions of every check. -/
theorem witness_ImageChecksInOrder : CheckRight (imageBytes 606 0 29940) ∧ FieldsInRange (imageBytes 606 0 29940) ∧
    LawsInOrder (imageBytes 606 0 29940) ∧ CurvesInOrder (imageBytes 606 0 29940) ∧ RampsValid (imageBytes 606 0 29940) := by
  refine ⟨?_, ⟨?_, ?_, fun c => ⟨?_, ?_, ?_, ?_, ?_, ?_, ?_⟩, fun z => ⟨?_, ?_, ?_, ?_, ?_⟩, ?_⟩, ?_, ?_, ?_⟩
  all_goals simp only [CheckRight, LawsInOrder, CurvesInOrder, RampsValid, signedAt, image_unsigned, imageBytes_take]
  all_goals first | decide +kernel | (revert c; decide +kernel) | (revert z; decide +kernel)
theorem faultOf_none (img : List Byte) (h : faultOf img = none) : ∃ cfg, checkImage img = .ok cfg := by
  cases hc : checkImage img with
  | ok cfg => exact ⟨cfg, rfl⟩
  | error e => simp [faultOf, hc] at h

/-- The loader waits for the rest of an image. -/
def loading (img : List Byte) : State :=
  { State.reset with loader := { State.reset.loader with stage := .image, header := img.take 8 } }
theorem witness_ImageReadRejectsABadImage : (loading []).inReset = false ∧ (loading []).node.state = .start ∧
    (loading []).loader.stage = .image ∧ checkImage ((loading []).loader.header ++ []) = .error .badCheck :=
  ⟨by decide +kernel, by decide +kernel, by decide +kernel, rfl⟩
theorem loading_reads (img : List Byte) (h : faultOf img = none) : ∃ cfg, (loading img).inReset = false ∧
    (loading img).node.state = .start ∧ (loading img).loader.stage = .image ∧
    checkImage ((loading img).loader.header ++ img.drop 8) = .ok cfg := by
  obtain ⟨cfg, hc⟩ := faultOf_none img h
  exact ⟨cfg, rfl, rfl, rfl, by
    rw [show (loading img).loader.header ++ img.drop 8 = img from List.take_append_drop 8 img, hc]⟩
theorem witness_ImageReadHandsOver : ∃ cfg, (loading (imageBytes 606 0 29940)).inReset = false ∧
    (loading (imageBytes 606 0 29940)).node.state = .start ∧ (loading (imageBytes 606 0 29940)).loader.stage = .image ∧
    checkImage ((loading (imageBytes 606 0 29940)).loader.header ++ (imageBytes 606 0 29940).drop 8) = .ok cfg :=
  loading_reads _ good_image

end Sys2Proof.Tests
end

section
/-!
The gain table and the overshoot detector (R11, R15): the bit-by-bit search finds the last number that fits, the linear
search the first trial that passes.
-/
namespace Sys2Proof.Machine

/-! ### The gain table -/

theorem pow320_eq (x : Nat) : pow320 x = x ^ 320 := by rw [pow320, ← pow_mul]

theorem pow320_two_pow (k : Nat) : pow320 (2 ^ k) = 2 ^ (k * 320) := by rw [pow320_eq, ← pow_mul]

theorem pow320_le {m n : Nat} (h : m ≤ n) : pow320 m ≤ pow320 n := by rw [pow320, pow320]; gcongr

theorem pow320_lt {m n : Nat} (h : m < n) : pow320 m < pow320 n := by rw [pow320, pow320]; gcongr

theorem gainFits_iff (a n : Nat) : gainFits a n = true ↔ pow320 (2 * n - 1) * 10 ^ a ≤ pow320 (2 ^ 24) :=
  decide_eq_true_iff

/-- 10 ^ a stays below 16 ^ a, which is small enough for every attenuation of the table. -/
theorem gainFits_one {a : Nat} (h : a < 1600) : gainFits a 1 = true := by
  rw [gainFits_iff, pow320_two_pow, show pow320 (2 * 1 - 1) = 1 from rfl, Nat.one_mul]
  calc 10 ^ a ≤ (2 ^ 4) ^ a := Nat.pow_le_pow_left (by decide) a
    _ = 2 ^ (4 * a) := (pow_mul 2 4 a).symm
    _ ≤ _ := Nat.pow_le_pow_right (by decide) (by omega)

/-- Nothing is amplified: no gain reaches 2^24. -/
theorem not_gainFits_top (a : Nat) : gainFits a (2 ^ 24) = false := by
  rw [← Bool.not_eq_true, gainFits_iff, Nat.not_le]
  calc pow320 (2 ^ 24) < pow320 (2 * 2 ^ 24 - 1) := pow320_lt (by decide)
    _ ≤ pow320 (2 * 2 ^ 24 - 1) * 10 ^ a := Nat.le_mul_of_pos_right _ (Nat.pow_pos (by decide))

theorem gainFits_mono {a m n : Nat} (h : m ≤ n) (hn : gainFits a n = true) : gainFits a m = true := by
  rw [gainFits_iff] at hn ⊢
  exact (Nat.mul_le_mul_right _ (pow320_le (by omega))).trans hn

/-- From a number that fits, with the end of the searched range not fitting, the search finds the last one that fits. -/
theorem gainSearch_spec (a b acc : Nat) (hlo : gainFits a acc = true) (hhi : gainFits a (acc + 2 ^ b) = false) :
    gainFits a (gainSearch a b acc) = true ∧ gainFits a (gainSearch a b acc + 1) = false := by
  induction b generalizing acc with
  | zero => exact ⟨hlo, hhi⟩
  | succ b ih =>
    rw [gainSearch]
    cases hmid : gainFits a (acc + 2 ^ b) with
    | true =>
      rw [if_pos rfl]
      refine ih _ hmid ?_
      rwa [Nat.add_assoc, ← Nat.two_mul, ← Nat.pow_succ']
    | false => exact ih acc hlo hmid

/-- Below 1600 the gain is the last number that fits (R11). -/
theorem gain_spec {a : Nat} (h : a < 1600) : gainFits a (gain a) = true ∧ gainFits a (gain a + 1) = false := by
  rw [gain, if_pos h]
  refine gainSearch_spec a 24 0 (gainFits_mono (Nat.zero_le 1) (gainFits_one h)) ?_
  rw [Nat.zero_add]
  exact not_gainFits_top a

theorem gain_mute : gain 1600 = 0 := rfl

theorem gain_pos {a : Nat} (h : a < 1600) : 1 ≤ gain a := by
  by_contra hz
  have hnext := (gain_spec h).2
  rw [show gain a + 1 = 1 by omega, gainFits_one h] at hnext
  cases hnext

/-! ### The overshoot -/

/-- The search stops at the first trial that passes, or when its trials are used up. -/
theorem overshootFrom_spec (p c fuel n : Nat) :
    n ≤ overshootFrom p c fuel n ∧ overshootFrom p c fuel n ≤ n + fuel ∧
      (∀ m, n ≤ m → m < overshootFrom p c fuel n → c * 10 ^ m ≤ p) ∧
      (overshootFrom p c fuel n < n + fuel → p < c * 10 ^ overshootFrom p c fuel n) := by
  induction fuel generalizing n with
  | zero => exact ⟨le_rfl, le_rfl, fun m h1 h2 => absurd h2 (Nat.not_lt.mpr h1), fun h => absurd h (lt_irrefl n)⟩
  | succ fuel ih =>
    rw [overshootFrom]
    split
    · next hpass => exact ⟨le_rfl, Nat.le_add_right _ _, fun m h1 h2 => absurd h2 (Nat.not_lt.mpr h1), fun _ => hpass⟩
    · next hfail =>
      obtain ⟨hlo, hhi, hbelow, hat⟩ := ih (n + 1)
      refine ⟨by omega, by omega, fun m h1 h2 => ?_, fun h => hat (by omega)⟩
      rcases Nat.eq_or_lt_of_le h1 with rfl | h1
      · exact Nat.not_lt.mp hfail
      · exact hbelow m h1 h2

/-- The overshoot is the least of the 384 trials that passes, or 384 (R15). -/
theorem overshoot_spec (peak ceiling : Nat) :
    overshoot peak ceiling ≤ 384 ∧
      (∀ n, n < overshoot peak ceiling → pow320 (2 * ceiling + 1) * 10 ^ n ≤ pow320 (2 * peak)) ∧
      (overshoot peak ceiling < 384 →
        pow320 (2 * peak) < pow320 (2 * ceiling + 1) * 10 ^ overshoot peak ceiling) := by
  rw [overshoot]
  generalize pow320 (2 * peak) = p
  generalize pow320 (2 * ceiling + 1) = c
  obtain ⟨-, hle, hbelow, hat⟩ := overshootFrom_spec p c 384 0
  rw [Nat.zero_add] at hle hat
  exact ⟨hle, fun n hn => hbelow n (Nat.zero_le n) hn, hat⟩

/-- A peak at or below the ceiling passes the first trial. -/
theorem overshoot_eq_zero {peak ceiling : Nat} (h : peak ≤ ceiling) : overshoot peak ceiling = 0 := by
  have hpass : pow320 (2 * peak) < pow320 (2 * ceiling + 1) := pow320_lt (by omega)
  by_contra hpos
  have hfail := (overshoot_spec peak ceiling).2.1 0 (Nat.pos_of_ne_zero hpos)
  rw [Nat.pow_zero, Nat.mul_one] at hfail
  exact absurd hpass (Nat.not_lt.mpr hfail)

/-- Settles O51: the searches of the gain table and of the overshoot are exact. -/
theorem decibelArithmeticIsExact : Obligations.DecibelArithmeticIsExact := by
  simp only [Obligations.DecibelArithmeticIsExact, ← pow320_eq]
  refine ⟨gain_mute, fun a ha => ⟨gain_pos ha, ?_, ?_⟩, fun peak ceiling e he => ?_⟩
  · exact (gainFits_iff a _).mp (gain_spec ha).1
  · have hnext := (gain_spec ha).2
    rwa [← Bool.not_eq_true, gainFits_iff, Nat.not_le] at hnext
  · obtain ⟨hle, hbelow, hat⟩ := overshoot_spec peak ceiling
    rw [he]
    exact ⟨hle, hbelow, hat, overshoot_eq_zero⟩

end Sys2Proof.Machine
end

section
/-!
The law value (R3 to R5): a truncating interpolation between neighbouring table entries, which is monotone because the
value inside a step never passes the step's upper entry.
-/
namespace Sys2Proof.Machine

theorem lawEntry {law : Vector Nat 33} (i : Fin 33) : law.toList.getD i.val 0 = law[i] := by
  simp [List.getD_eq_getElem?_getD]

/-- Inside the table the law value interpolates between entry x / 16 and the next (R3). -/
theorem lawValue_between (law : Vector Nat 33) {i j : Fin 33} (hj : j.val = i.val + 1) {r : Nat} (hr : r < 16) :
    lawValue law (16 * i.val + r) = law[i] + (law[j] - law[i]) * r / 16 := by
  have hdiv : (16 * i.val + r) / 16 = i.val := by omega
  have hmod : (16 * i.val + r) % 16 = r := by omega
  rw [lawValue, if_neg (by omega), hdiv, hmod, ← hj, lawEntry, lawEntry]

/-- From 512 on the law value is the last entry (R3). -/
theorem lawValue_last (law : Vector Nat 33) {x : Nat} (h : 512 ≤ x) : lawValue law x = law[(32 : Fin 33)] := by
  rw [lawValue, if_pos (by omega)]
  exact lawEntry 32

theorem lawValue_entry (law : Vector Nat 33) (i : Fin 33) : lawValue law (16 * i.val) = law[i] := by
  by_cases hi : i.val + 1 < 33
  · have h := lawValue_between law (i := i) (j := ⟨i.val + 1, hi⟩) rfl (r := 0) (by decide)
    rwa [Nat.mul_zero, Nat.zero_div, Nat.add_zero, Nat.add_zero] at h
  · obtain rfl : i = 32 := Fin.ext (by have := i.isLt; show i.val = 32; omega)
    exact lawValue_last law (by decide)

/-- An interpolated value lies between its two entries. -/
theorem interpolated_le {a b r : Nat} (h : a ≤ b) (hr : r ≤ 16) : a + (b - a) * r / 16 ≤ b := by
  have hfrac : (b - a) * r / 16 ≤ b - a := Nat.div_le_of_le_mul (by rw [Nat.mul_comm]; gcongr)
  omega

section Monotone
variable {law : Vector Nat 33} (hlaw : ∀ i j : Fin 33, i ≤ j → law[i] ≤ law[j])
include hlaw

/-- One step of the magnitude never lowers the law value. -/
theorem lawValue_succ (x : Nat) : lawValue law x ≤ lawValue law (x + 1) := by
  by_cases hx : 512 ≤ x
  · rw [lawValue_last law hx, lawValue_last law (by omega)]
  · let i : Fin 33 := ⟨x / 16, by omega⟩
    let j : Fin 33 := ⟨x / 16 + 1, by omega⟩
    have hstart : lawValue law x = law[i] + (law[j] - law[i]) * (x % 16) / 16 := by
      rw [← lawValue_between law (i := i) (j := j) rfl (Nat.mod_lt x (by decide)), Nat.div_add_mod]
    have hij : law[i] ≤ law[j] := hlaw i j (by simp [i, j, Fin.le_def])
    rw [hstart]
    by_cases hr : x % 16 + 1 < 16
    · have hend := lawValue_between law (i := i) (j := j) rfl hr
      rw [← Nat.add_assoc, Nat.div_add_mod] at hend
      rw [hend]
      gcongr
      exact Nat.le_succ _
    · have hend := lawValue_entry law j
      rw [show 16 * j.val = x + 1 by show 16 * (x / 16 + 1) = x + 1; omega] at hend
      rw [hend]
      exact interpolated_le hij (Nat.mod_lt x (by decide)).le

theorem lawValue_mono : Monotone (lawValue law) := monotone_nat_of_le_succ (lawValue_succ hlaw)

end Monotone

/-- A positive position moves front and left alone (R4, R5). -/
theorem attenuation_of_pos {p : Int} (hp : 0 < p) (law : Vector Nat 33) :
    fadeAttenuation (some law) .front p = lawValue law p.toNat ∧ fadeAttenuation (some law) .rear p = 0 ∧
      balanceAttenuation (some law) .left p = lawValue law p.toNat ∧ balanceAttenuation (some law) .right p = 0 := by
  have hn : ¬ p < 0 := by omega
  have habs : p.natAbs = p.toNat := by omega
  simp [fadeAttenuation, balanceAttenuation, lawOf, hp, hn, habs]

/-- A negative position moves rear and right alone (R4, R5). -/
theorem attenuation_of_neg {p : Int} (hp : p < 0) (law : Vector Nat 33) :
    fadeAttenuation (some law) .rear p = lawValue law (-p).toNat ∧ fadeAttenuation (some law) .front p = 0 ∧
      balanceAttenuation (some law) .right p = lawValue law (-p).toNat ∧ balanceAttenuation (some law) .left p = 0 := by
  have hn : ¬ 0 < p := by omega
  have habs : p.natAbs = (-p).toNat := by omega
  simp [fadeAttenuation, balanceAttenuation, lawOf, hp, hn, habs]

/-- The centre attenuates no row and no side (R4, R5). -/
theorem attenuation_zero (law : Option (Vector Nat 33)) (row : Row) (side : Side) :
    fadeAttenuation law row 0 = 0 ∧ balanceAttenuation law side 0 = 0 := by
  cases row <;> cases side <;> exact ⟨rfl, rfl⟩

/-- Settles O52: interpolation by table step, monotony by single steps, sides by the sign. -/
theorem lawsInterpolate : Obligations.LawsInterpolate := by
  intro law hlaw
  refine ⟨lawValue_entry law, fun x y hxy _ => lawValue_mono hlaw hxy, fun x hx => ?_,
    fun i j r hj hr => lawValue_between law hj hr, fun p => ⟨fun hp => attenuation_of_pos hp law,
      fun hp => attenuation_of_neg hp law, ?_, rfl, rfl⟩⟩
  · calc lawValue law x ≤ lawValue law 512 := lawValue_mono hlaw hx
      _ = law[32] := lawValue_last law le_rfl
  · rintro rfl row side
    exact attenuation_zero (some law) row side

end Sys2Proof.Machine
end

section
/-!
The composition of a channel (R6 to R10): its boost, its one limit, its reduction and its total.
-/
namespace Sys2Proof.Machine

/-- The pace boost that the composition takes off is never more than the volume term (R6). -/
theorem effectiveBoost_le (pace vol : Int) (share : Nat) : effectiveBoost pace vol share ≤ vol := min_le_right _ _

theorem effectiveBoost_nonneg {pace vol : Int} (share : Nat) (hp : 0 ≤ pace) (hv : 0 ≤ vol) :
    0 ≤ effectiveBoost pace vol share :=
  le_min (Int.tdiv_nonneg (mul_nonneg hp (Int.natCast_nonneg share)) (by decide)) hv

/-- For a pace value that is not negative the truncating division is the floor. -/
theorem effectiveBoost_eq {pace : Int} (vol : Int) (share : Nat) (hp : 0 ≤ pace) :
    effectiveBoost pace vol share = min (pace * share / 16) vol := by
  rw [effectiveBoost, Int.tdiv_eq_ediv_of_nonneg (mul_nonneg hp (Int.natCast_nonneg share))]

/-- The whole sum of a channel's terms, before its one limit (R8). -/
def State.wholeSum (s : State) (c : Channel) : Int :=
  let r := (s.channel c).record
  (s.slot (.vol r.zone)).current
    + fadeAttenuation (s.laws.map (·.fade)) r.row (s.slot (.fade r.zone)).current
    + balanceAttenuation (s.laws.map (·.balance)) r.side (s.slot (.bal r.zone)).current
    + r.trim - effectiveBoost (s.slot (.pace r.zone)).current (s.slot (.vol r.zone)).current r.share
    + (s.slot (.dip r.zone r.cls)).current + (s.slot .node).current

theorem State.compose_aPre (s : State) (c : Channel) : (s.compose c).aPre = (min (s.wholeSum c) 1600).toNat := rfl

theorem State.compose_total (s : State) (c : Channel) :
    (s.compose c).total = min 1600 ((s.compose c).aPre + (s.compose c).rApp) := rfl

theorem State.compose_aPre_le (s : State) (c : Channel) : (s.compose c).aPre ≤ 1600 := by
  rw [State.compose_aPre]; omega

/-- The boost gives back at most the volume term: what is left is at least the dip and the NODE term. -/
theorem State.le_wholeSum (s : State) (c : Channel) :
    (s.slot (.dip (s.channel c).record.zone (s.channel c).record.cls)).current + (s.slot .node).current ≤
      s.wholeSum c := by
  have hb := effectiveBoost_le (s.slot (.pace (s.channel c).record.zone)).current
    (s.slot (.vol (s.channel c).record.zone)).current (s.channel c).record.share
  rw [State.wholeSum]
  omega

/-- Where dip and NODE term alone reach 1600 the channel is mute (R8, R10). -/
theorem State.compose_mute {s : State} {c : Channel}
    (h : 1600 ≤ (s.slot (.dip (s.channel c).record.zone (s.channel c).record.cls)).current + (s.slot .node).current) :
    (s.compose c).aPre = 1600 ∧ (s.compose c).total = 1600 := by
  have hsum := s.le_wholeSum c
  have hpre : (s.compose c).aPre = 1600 := by rw [State.compose_aPre]; omega
  exact ⟨hpre, by rw [State.compose_total]; omega⟩

theorem State.compose_rApp_none {s : State} {c : Channel} (h : (s.channel c).record.group = none) :
    (s.compose c).rApp = (s.channel c).reduction := by
  simp only [State.compose, h, appliedReduction]

theorem State.compose_rApp_some {s : State} {c : Channel} {g : Group} (h : (s.channel c).record.group = some g) :
    (s.compose c).rApp = max (s.channel c).reduction (s.slot (.link g)).current.toNat := by
  simp only [State.compose, h, appliedReduction]

/-- Both candidates of the applied reduction are at most 384, so it is. -/
theorem State.compose_rApp_le {s : State} (hr : s.RangeLaw) (hl : s.LimiterLaw) (c : Channel) :
    (s.compose c).rApp ≤ 384 := by
  have hred := hl.reduction c
  cases hg : (s.channel c).record.group with
  | none => rwa [State.compose_rApp_none hg]
  | some g =>
    obtain ⟨-, hhi, -⟩ := hr.link g
    rw [State.compose_rApp_some hg]
    omega

/-- Settles O50: the dip and NODE terms are not negative, so neither is the sum left after the boost. -/
theorem compositionLimitsOnce : Obligations.CompositionLimitsOnce := by
  rintro s c z m boost sum hr hl rfl rfl hboost hsum
  obtain ⟨hvol, -⟩ := hr.vol (s.channel c).record.zone
  obtain ⟨hpace, -⟩ := hr.pace (s.channel c).record.zone
  obtain ⟨hdip, -⟩ := hr.dip (s.channel c).record.zone (s.channel c).record.cls
  obtain ⟨hnode, -⟩ := hr.node
  rw [← effectiveBoost_eq _ _ hpace] at hboost
  subst hboost
  replace hsum : sum = s.wholeSum c := hsum
  have hmute := s.compose_mute (c := c)
  have hpos := s.le_wholeSum c
  have hpre := s.compose_aPre c
  have hle := s.compose_aPre_le c
  have hrApp := State.compose_rApp_le hr hl c
  have htotal := s.compose_total c
  refine ⟨effectiveBoost_nonneg _ hpace hvol, effectiveBoost_le _ _ _, by omega, by omega, State.compose_rApp_none,
    fun g hg => ?_, hrApp, htotal, by omega, by omega, by omega, fun h => hmute (by omega), fun h x => ?_⟩
  · obtain ⟨hlink, -⟩ := hr.link g
    rw [State.compose_rApp_some hg]
    omega
  · rw [h, gain_mute, Nat.cast_zero, mul_zero]
    rfl

end Sys2Proof.Machine
end

section
/-!
Frames through the channels (R13, R14, R133, R137): a good input frame, and an output frame of zeros while input audio is
lost.
-/
namespace Sys2Proof.Machine

theorem clampInt_eq {lo hi : Int} (h : lo ≤ hi) (v : Int) : clampInt lo hi v = max lo (min hi v) := by
  unfold clampInt; split
  · omega
  · split <;> omega

/-- The ceiling is a magnitude, so the clamp has room (R13). -/
theorem clampSample_eq (ceiling : Nat) (y : Int) : clampSample ceiling y = max (-(ceiling : Int)) (min ceiling y) :=
  clampInt_eq (by omega) y

theorem State.paced_of_not_start {s : State} (hr : s.inReset = false) (hst : s.node.state ≠ .start) : s.paced = true := by
  simp [State.paced, hr, hst]

theorem State.channel_runFrame (s : State) (word : Channel → Int) (c : Channel) :
    (s.runFrame word).channel c = (s.channelFrame word c).1 := by
  simp [State.channel, State.runFrame]

/-- A channel that composes no block runs nothing and gives 0 (R2, R17). -/
theorem State.channelFrame_none {s : State} {c : Channel} (h : (s.channel c).composed = none) (word : Channel → Int) :
    s.channelFrame word c = (s.channel c, 0) := by
  simp only [State.channelFrame, h]

theorem outputSlot_zero : outputSlot 0 = 0#32 := by decide

theorem State.outputOf_off {s : State} (h : s.node.ampOn = false) (word : Channel → Int) :
    s.outputOf word = Vector.replicate 8 0#32 := by
  simp [State.outputOf, h, zeroFrame]

theorem State.outputOf_on {s : State} (h : s.node.ampOn = true) (word : Channel → Int) (c : Channel) :
    (s.outputOf word)[c] = outputSlot (s.channelFrame word c).2 := by
  simp [State.outputOf, h]

theorem State.outputOf_none {s : State} {c : Channel} (h : (s.channel c).composed = none) (word : Channel → Int) :
    (s.outputOf word)[c] = 0#32 := by
  cases ha : s.node.ampOn with
  | false => rw [State.outputOf_off ha]; simp
  | true => rw [State.outputOf_on ha, State.channelFrame_none h, outputSlot_zero]

/-- A frame of a composing channel, in the terms of the statements: what the channel holds after it, and its sample. -/
theorem State.channelFrame_composed {s : State} {c : Channel} {held : Composed} (word : Channel → Int)
    (h : (s.channel c).composed = some held) :
    ∃ (y : ChannelState) (xeq : Int), s.Equalised (s.channel c) (word c) y xeq ∧
      (s.channelFrame word c).1 = { y with
        clip := (s.channel c).clip ||
          decide ((s.channel c).record.ceiling < (roundDiv (xeq * gain held.total) 8388608).natAbs),
        peak := max (s.channel c).peak (roundDiv (xeq * gain held.aPre) 8388608).natAbs } ∧
      (s.channelFrame word c).2 = max (-((s.channel c).record.ceiling : Int))
        (min (s.channel c).record.ceiling (roundDiv (xeq * gain held.total) 8388608)) := by
  obtain ⟨y, xeq, heq, hframe⟩ := s.channelFrame_spec word c held h
  exact ⟨y, xeq, heq, by rw [hframe]; rfl, by rw [hframe, clampSample_eq]; rfl⟩

theorem State.takeSync_present {s : State} (hr : s.inReset = false) (hp : s.ports.presence = .present)
    (stepFirst : Bool) (interval : Nat) (slots : Vector SlotWord 16) :
    s.takeSync stepFirst interval slots =
      (s.setPorts { s.ports with syncSeen := true }).syncPresent (goodSync s.ports.syncSeen interval) slots := by
  unfold State.takeSync
  rw [if_neg (by rw [hr]; decide)]
  split
  · rfl
  · next hlost => rw [hp] at hlost; cases hlost

/-- A good frame sync while input audio is present: its frame runs through the channels (R133, R136, R137). -/
theorem State.takeSync_good {s : State} {interval : Nat} (slots : Vector SlotWord 16) (stepFirst : Bool)
    (hr : s.inReset = false) (hp : s.ports.presence = .present) (hst : s.node.state ≠ .start)
    (hgood : goodSync s.ports.syncSeen interval = true) (hseen : s.ports.syncSeen = true) :
    s.takeSync stepFirst interval slots = (s.runFrame (s.inputWords slots)).setPorts { s.ports with
      blockFrames := s.ports.blockFrames + 1,
      blockDue := s.ports.blockDue || decide (48 ≤ s.ports.blockFrames + 1),
      outFrame := s.outputOf (s.inputWords slots) } := by
  have hself : s.setPorts { s.ports with syncSeen := true } = s := by rw [← hseen]; rfl
  rw [State.takeSync_present hr hp, hself, hgood, State.syncPresent, if_pos rfl, State.inputFrame,
    if_pos (State.paced_of_not_start hr hst)]

/-- Settles O12: a good frame sync runs one frame through every channel. -/
theorem frameSyncCarriesAFrame : Obligations.FrameSyncCarriesAFrame := by
  intro s interval slots hr hp hst hseen hlo hhi
  have hgood : goodSync s.ports.syncSeen interval = true := by simp [goodSync, hseen, hlo, hhi]
  refine ⟨_, congrArg Host.Outcome.next (State.takeSync_good slots _ hr hp hst hgood hseen), rfl, rfl,
    fun hoff => State.outputOf_off hoff _, fun c hc => ⟨?_, State.outputOf_none hc _⟩, fun c held hc => ?_⟩
  · rw [State.setPorts_channel, State.channel_runFrame, State.channelFrame_none hc]
  · obtain ⟨y, xeq, heq, hchannel, hsample⟩ := State.channelFrame_composed (s.inputWords slots) hc
    refine ⟨y, xeq, heq, ?_, fun hon => ?_⟩
    · rw [State.setPorts_channel, State.channel_runFrame, hchannel]
    · rw [← hsample]
      exact State.outputOf_on hon _ c

/-- An output frame from the internal reference (R100, R137). -/
theorem State.outputTick_lost {s : State} (hr : s.inReset = false) (hst : s.node.state ≠ .start)
    (hp : s.ports.presence = .lost) :
    s.outputTick = (s.runFrame fun _ => 0).setPorts { s.ports with outFrame := Vector.replicate 8 0#32 } := by
  simp [State.outputTick, State.paced_of_not_start hr hst, hp, zeroFrame]

/-- Settles O13: the filters run on zero input, and the output port carries zeros. -/
theorem outputFrameTickCarriesZeros : Obligations.OutputFrameTickCarriesZeros := by
  intro s hr hst hp
  refine ⟨_, congrArg Host.Outcome.next (State.outputTick_lost hr hst hp), rfl, fun c hc => ?_, fun c held hc => ?_⟩
  · rw [State.setPorts_channel, State.channel_runFrame, State.channelFrame_none hc]
  · obtain ⟨y, xeq, heq, hchannel, -⟩ := State.channelFrame_composed (fun _ => 0) hc
    exact ⟨y, xeq, heq, by rw [State.setPorts_channel, State.channel_runFrame, hchannel]⟩

end Sys2Proof.Machine
end

section
/-!
A block completion that does not enter DORMANT (R136): what it counts, and what the next block starts on. Both read the
parts that `State.completion_spec` takes the completion apart into.
-/
namespace Sys2Proof.Machine

/-! ### The parts of a completion -/

/-- The state of a completion before its work: the block's end is taken, a use of the free values is made. -/
def State.taken (s : State) : State :=
  { s with ports := { s.ports with blockDue := false }, draws := s.draws + 1 }

/-- The state after a block completion that does not enter DORMANT, with the parts it comes from. -/
structure State.Completed (s u v t : State) : Prop where
  update : s.taken.StepUpdated u
  turns  : u.emit.CacheStep v
  start  : t = v.blockStart

theorem State.exists_completed {s : State} (hr : s.inReset = false) (hst : s.node.state ≠ .start)
    (hd : s.ports.blockDue = true) (hq : ¬ (s.node.state = .quiet ∧ (s.stepped .node).current = 1600)) :
    ∃ u v t, exec .blockCompletion s = .next t ∧ s.Completed u v t := by
  obtain ⟨u, v, ord, -, -, hu, hv, hexec⟩ := State.completion_spec hr hst hd hq
  exact ⟨u, v, _, hexec, hu, by rw [hv]; exact .inTurn (fun c s => .advanceCrossfade s c) ord _, rfl⟩

namespace State.Completed

variable {s u v t : State} (h : s.Completed u v t)
include h

theorem rest : t = { s with
    ramp := t.ramp, channels := t.channels, emission := t.emission, library := t.library, link := t.link
    ports := { s.ports with blockDue := false, nodeStepped := false, blockFrames := 0 }
    stats := t.stats, draws := t.draws } := by
  rw [h.start, State.blockStart_rest, h.turns.rest, State.emit_rest, h.update.rest]
  rfl

theorem ramp : t.ramp = u.ramp := by
  rw [h.start, State.blockStart_rest, h.turns.rest, State.emit_rest]

theorem own : t.emission.own = u.emission.own := by
  rw [h.start, State.blockStart_rest, h.turns.rest, State.emit_rest]

theorem linkCounters : t.stats.link = s.stats.link := by
  rw [h.start, State.blockStart_rest, h.turns.rest, State.emit_rest, h.update.rest]
  rfl

theorem channelCounters : t.stats.channel = (allChannels.foldl State.countBlock s.taken).stats.channel := by
  rw [h.start, State.blockStart_rest, h.turns.rest, State.emit_rest, h.update.rest]

theorem channel_before (c : Channel) : u.emit.channel c = (s.channel c).limited := by
  rw [State.emit_rest, h.update.rest]
  simp [State.channel, State.taken]

theorem channel (c : Channel) : t.channel c = (v.channel c).startBlock
    (if s.composing && (v.channel c).record.enabled then some (v.compose c) else none) := by
  have hnode : v.node = s.node := by rw [h.turns.node, State.emit_rest, h.update.rest]; rfl
  rw [h.start, State.channel_blockStart]
  have hcomposing : v.composing = s.composing := by simp only [State.composing, State.takesCues, hnode]
  rw [hcomposing]

theorem record (c : Channel) : (t.channel c).record = (s.channel c).record := by
  calc (t.channel c).record = (v.channel c).record := by rw [h.channel]; rfl
    _ = (s.channel c).record := by rw [h.turns.record, h.channel_before, ChannelState.limited_rest]

theorem reduction (c : Channel) : (t.channel c).reduction = (s.channel c).limited.reduction := by
  calc (t.channel c).reduction = (v.channel c).reduction := by rw [h.channel]; rfl
    _ = (s.channel c).limited.reduction := by rw [h.turns.reduction, h.channel_before]

theorem holdCount (c : Channel) : (t.channel c).holdCount = (s.channel c).limited.holdCount := by
  calc (t.channel c).holdCount = (v.channel c).holdCount := by rw [h.channel]; rfl
    _ = (s.channel c).limited.holdCount := by rw [h.turns.holdCount, h.channel_before]

/-- The next block starts on the values that the completion leaves (R1, R17). -/
theorem composed (c : Channel) : (t.channel c).composed =
    if s.composing = true ∧ (s.channel c).record.enabled = true then some (t.compose c) else none := by
  have hrec : (v.channel c).record = (t.channel c).record := by rw [h.channel]; rfl
  have hcompose : t.compose c = v.compose c :=
    State.compose_congr (by rw [h.start, State.blockStart_rest]) (by rw [h.start, State.blockStart_rest]) c
      hrec.symm (by rw [h.channel]; rfl)
  rw [h.channel, hcompose, hrec, h.record]
  simp only [ChannelState.startBlock, Bool.and_eq_true]

end State.Completed

/-! ### Counting (R162) -/

theorem State.counter_countChannel {s : State} (hd : s.dormant = false) (c d : Channel) (k : ChannelCounter) (i : Fin 7) :
    (s.countChannel c k).stats.channel[d][i] =
      if d = c ∧ i = k.index then bump s.stats.channel[d][i] else s.stats.channel[d][i] := by
  simp only [State.countChannel, hd, Bool.false_eq_true, if_false]
  by_cases hc : d = c
  · subst hc
    by_cases hi : i = k.index
    · subst hi; simp
    · have hi' : (k.index : Nat) ≠ i := fun e => hi (Fin.ext e.symm)
      simp [hi, hi']
  · have hc' : (c : Nat) ≠ d := fun e => hc (Fin.ext e.symm)
    simp [hc, hc']

theorem State.counter_countIf {s : State} (hd : s.dormant = false) (b : Bool) (c d : Channel) (k : ChannelCounter)
    (i : Fin 7) : (s.countIf b c k).stats.channel[d][i] =
      if b = true ∧ d = c ∧ i = k.index then bump s.stats.channel[d][i] else s.stats.channel[d][i] := by
  cases b with
  | false => simp [State.countIf]
  | true =>
    simp only [State.countIf, if_true, true_and]
    exact State.counter_countChannel hd c d k i

theorem State.countIf_dormant (s : State) (b : Bool) (c : Channel) (k : ChannelCounter) :
    (s.countIf b c k).dormant = s.dormant := by
  rw [State.countIf_rest]; rfl

/-- Does the block that a channel composed raise its counter at a place of R162's order (R16, R97, R101)? -/
def ChannelState.raises (x : ChannelState) (held : Composed) (i : Fin 7) : Bool :=
  decide ((i = 0 ∧ x.clip = true) ∨ (i = 1 ∧ 1 ≤ held.rApp) ∨ (i = 2 ∧ 1 ≤ held.rApp ∧ held.rApp ≤ 48) ∨
    (i = 3 ∧ 49 ≤ held.rApp ∧ held.rApp ≤ 96) ∨ (i = 4 ∧ 97 ≤ held.rApp ∧ held.rApp ≤ 192) ∨
    (i = 5 ∧ 193 ≤ held.rApp) ∨ (i = 6 ∧ x.overflow = true))

/-- A counter of a channel after the channel's block: raised once, or as it was. -/
def ChannelState.counted (x : ChannelState) (i : Fin 7) (n : Nat) : Nat :=
  match x.composed with
  | none => n
  | some held => if x.raises held i then bump n else n

/-- The bin of a reduction has the place whose bounds it lies in (R97). -/
theorem depthBin_index (r : Nat) : (depthBin r).index =
    if r ≤ 48 then 2 else if r ≤ 96 then 3 else if r ≤ 192 then 4 else 5 := by
  unfold depthBin
  split
  · rfl
  · split
    · rfl
    · split <;> rfl

/-- The four counts of a channel's block have four different places, so each counter is raised at most once. -/
theorem State.counter_countBlock {s : State} (hd : s.dormant = false) (c d : Channel) (i : Fin 7) :
    (s.countBlock c).stats.channel[d][i] =
      if d = c then (s.channel c).counted i s.stats.channel[d][i] else s.stats.channel[d][i] := by
  unfold State.countBlock ChannelState.counted
  cases (s.channel c).composed with
  | none => simp
  | some held =>
    simp only [State.counter_countIf, State.countIf_dormant, hd]
    by_cases hc : d = c
    · simp only [hc, true_and, if_true, ChannelState.raises, decide_eq_true_iff]
      generalize s.stats.channel[c][i] = n
      have hclip : ChannelCounter.clipBlocks.index = 0 := rfl
      have hactive : ChannelCounter.limiterActive.index = 1 := rfl
      have hover : ChannelCounter.overflowBlocks.index = 6 := rfl
      rw [hclip, hactive, hover, depthBin_index]
      clear hd hc hclip hactive hover
      fin_cases i <;> simp <;> grind
    · simp only [hc, false_and, and_false, if_false]

/-- Where each channel has one turn, a listed channel's counters take its block, and no others change. -/
theorem State.counter_countBlocks {s : State} (hd : s.dormant = false) {cs : List Channel} (hn : cs.Nodup) (d : Channel)
    (i : Fin 7) : (cs.foldl State.countBlock s).stats.channel[d][i] =
      if d ∈ cs then (s.channel d).counted i s.stats.channel[d][i] else s.stats.channel[d][i] := by
  induction cs generalizing s with
  | nil => simp
  | cons c cs ih =>
    obtain ⟨hc, hn⟩ := List.nodup_cons.mp hn
    have hchannel : (s.countBlock c).channel d = s.channel d := by rw [State.countBlock_rest]; rfl
    have hdormant : (s.countBlock c).dormant = false := by rw [State.countBlock_rest]; exact hd
    rw [List.foldl_cons, ih hdormant hn, hchannel, State.counter_countBlock hd]
    by_cases hdc : d = c
    · subst hdc
      simp only [hc, if_false, if_true, List.mem_cons, true_or]
    · simp only [hdc, if_false, List.mem_cons, false_or]

/-- A completion counts every channel's block once. -/
theorem State.Completed.counter {s u v t : State} (h : s.Completed u v t) (hd : s.dormant = false) (c : Channel)
    (i : Fin 7) : t.stats.channel[c][i] = (s.channel c).counted i s.stats.channel[c][i] := by
  have hmem : c ∈ allChannels := by revert c; decide
  rw [h.channelCounters, State.counter_countBlocks (s := s.taken) hd (by decide), if_pos hmem]
  rfl

/-- Settles O18: each channel's counters take its block, one place of R162's order each. -/
theorem blockCompletionCounts : Obligations.BlockCompletionCounts := by
  intro s hr ha hdue hq
  have hst : s.node.state ≠ .start := fun e => by simp [State.awake, e] at ha
  have hd : s.dormant = false := by
    simp only [State.dormant, beq_eq_false_iff_ne]
    exact fun e => by simp [State.awake, e] at ha
  obtain ⟨u, v, t, hexec, h⟩ := State.exists_completed hr hst hdue hq
  refine ⟨t, hexec, fun c hc => ?_, fun c held i hc => ?_⟩
  · refine Vector.ext fun i hi => ?_
    have hcounter := h.counter hd c ⟨i, hi⟩
    rwa [ChannelState.counted, hc] at hcounter
  · rw [h.counter hd c i, ChannelState.counted, hc]
    simp only [ChannelState.raises, decide_eq_true_iff, bump]

/-! ### Limiters and own values -/

/-- An overshoot above the reduction is an attack (R86). -/
theorem ChannelState.limit_attack {x : ChannelState} {e : Nat} (h : x.reduction < e) :
    x.limit e = { x with reduction := e, holdCount := x.record.hold } := if_pos h

/-- Without an attack the hold count runs down first (R86). -/
theorem ChannelState.limit_hold {x : ChannelState} {e : Nat} (h : e ≤ x.reduction) (hh : 0 < x.holdCount) :
    x.limit e = { x with holdCount := x.holdCount - 1 } := by
  rw [ChannelState.limit, if_neg (Nat.not_lt.mpr h), if_pos hh]

/-- With the hold run down the reduction is released, down to the overshoot (R86). -/
theorem ChannelState.limit_release {x : ChannelState} {e : Nat} (h : e ≤ x.reduction) (hh : x.holdCount = 0) :
    x.limit e = { x with reduction := max e (x.reduction - x.record.release), holdCount := 0 } := by
  rw [ChannelState.limit, if_neg (Nat.not_lt.mpr h), if_neg (by omega)]

theorem ChannelState.limited_none {x : ChannelState} (h : x.composed = none) : x.limited = x := by
  simp [ChannelState.limited, h]

theorem ChannelState.limited_composed {x : ChannelState} (h : x.composed.isSome = true) :
    x.limited = x.limit (overshoot x.peak x.record.ceiling) := if_pos h

namespace State.Completed

variable {s u v t : State} (h : s.Completed u v t)
include h

/-- Outside WAKING, ACTIVE and QUIET the own values stay (R89). -/
theorem own_asleep (ha : s.awake = false) (g : Group) : t.emission.own[g] = s.emission.own[g] := by
  rw [h.own, h.update.own]
  exact if_neg (by rw [show s.taken.awake = s.awake from rfl, ha]; decide)

/-- The own value of a group is its largest reduction, or 0 (R89). -/
theorem own_awake (ha : s.awake = true) (g : Group) :
    (∀ c, (t.channel c).record.enabled = true → (t.channel c).record.group = some g →
      (t.channel c).reduction ≤ t.emission.own[g]) ∧
    (t.emission.own[g] = 0 ∨ ∃ c, (t.channel c).record.enabled = true ∧ (t.channel c).record.group = some g ∧
      t.emission.own[g] = (t.channel c).reduction) := by
  have hown : t.emission.own[g] = ownValue (Vector.ofFn fun c => s.channels[c].limited) g := by
    rw [h.own, h.update.own]
    exact if_pos ha
  have hlimited : ∀ c : Channel, (Vector.ofFn fun c => s.channels[c].limited)[c] = (s.channel c).limited := fun c => by
    simp [State.channel]
  have hrecord : ∀ c, (s.channel c).limited.record = (t.channel c).record := fun c => by
    rw [h.record, ChannelState.limited_rest]
  have hspec := ownValue_spec (Vector.ofFn fun c => s.channels[c].limited) g
  simpa only [hown, hlimited, hrecord, ← h.reduction] using hspec

theorem slot (i : SlotId) : t.slot i = u.slot i := by simp only [State.slot, h.ramp]

/-- A LINK slot whose group's own value changes is written its target after its step or before it (R27, R90). -/
theorem slot_link_changed {g : Group} (hg : t.emission.own[g] ≠ s.emission.own[g]) :
    ∃ u v, LinkTargetIs t.emission.own[g] s.table g v ∧
      u = s.setSlot (.link g) ((s.slot (.link g)).step s.ramp.record) ∧
      (t.slot (.link g) = (u.writeTarget (.link g) v).slot (.link g) ∨
        t.slot (.link g) = ((s.writeTarget (.link g) v).slot (.link g)).step s.ramp.record) := by
  refine ⟨_, _, linkTarget_is t.emission.own[g] s.table g, rfl, ?_⟩
  rw [State.slot_writeTarget, if_pos rfl, State.slot_writeTarget, if_pos rfl, h.slot]
  rw [h.own] at hg ⊢
  refine ((h.update.links g).2 hg).imp (fun hw => hw.trans (State.written_congr ?_ ?_ _)) id
  · rw [State.slot_rampStep, State.stepped_link, State.slot_setSlot_same]
    rfl
  · rw [State.rampStep_profile]
    rfl

end State.Completed

/-- Settles O14: the parts of a completion that does not enter DORMANT, read at every slot, channel and group. -/
theorem blockCompletionUpdates : Obligations.BlockCompletionUpdates := by
  intro s hr hst hdue hq
  obtain ⟨u, v, t, hexec, h⟩ := State.exists_completed hr hst hdue hq
  refine ⟨t, hexec, h.rest, h.linkCounters, ?_, fun i hi hn => ?_, fun hn => ?_, fun g hg => ?_,
    fun g hg => h.slot_link_changed hg, fun c hc => ?_, ?_, fun g ha => h.own_asleep ha g,
    fun g ha => h.own_awake ha g, fun c => ⟨h.record c, h.composed c, ?_, ?_, ?_⟩⟩
  · rw [h.ramp, h.update.profile]; rfl
  · rw [h.slot, h.update.slots i hi]
    exact if_neg fun hc => hn.elim (fun hne => hne hc.1) fun hf => Bool.false_ne_true (hf.symm.trans hc.2)
  · rw [h.slot, h.update.slots .node nofun]
    exact if_pos ⟨rfl, hn⟩
  · rw [h.own] at hg
    rw [h.slot]
    exact (h.update.links g).1 hg
  · rw [h.reduction, h.holdCount, ChannelState.limited_none hc]
    exact ⟨rfl, rfl⟩
  · intro c e hc he
    rw [h.reduction, h.holdCount, ChannelState.limited_composed hc, ← he]
    refine ⟨fun hlt => ?_, fun hle hh => ?_, fun hle hh => ?_⟩
    · rw [ChannelState.limit_attack hlt]; exact ⟨rfl, rfl⟩
    · rw [ChannelState.limit_hold hle hh]; exact ⟨rfl, rfl⟩
    · rw [ChannelState.limit_release hle hh]; exact ⟨rfl, rfl⟩
  · rw [h.channel]; rfl
  · rw [h.channel]; rfl
  · rw [h.channel]; rfl

end Sys2Proof.Machine
end

section
/-!
The hand-over of a valid configuration (R2, R31, R40, R52, R59, R102, R126, R141, R160): every block's values, the first
block, and the channels' first evaluations.
-/
namespace Sys2Proof.Machine

/-! ### The first evaluations -/

/-- Evaluations in turn change requests and incoming sets alone. -/
theorem State.channel_evaluateTurns (ord : List Channel) (s : State) (c : Channel) :
    (s.inTurn State.evaluate ord).channel c = { s.channel c with
      request := ((s.inTurn State.evaluate ord).channel c).request
      incoming := ((s.inTurn State.evaluate ord).channel c).incoming
      incomingStates := ((s.inTurn State.evaluate ord).channel c).incomingStates } := by
  induction ord generalizing s with
  | nil => rfl
  | cons d ds ih =>
    have hturn := State.SearchStep.evaluate s d
    rw [State.inTurn_cons, ih]
    by_cases hc : c = d
    · subst hc; rw [hturn.own]
    · rw [hturn.others c hc]

theorem State.evaluateTurns_cacheStep (ord : List Channel) (s : State) : s.CacheStep (s.inTurn State.evaluate ord) :=
  .inTurn (fun c s => .evaluate s c) ord s

/-! ### Initial targets -/

/-- Initial targets set in the order of a list. -/
def State.initialTargets (s : State) (v : SlotId → Int) (ids : List SlotId) : State :=
  ids.foldl (fun s i => s.initialTarget i (v i)) s

theorem State.slot_initialTargets (s : State) (v : SlotId → Int) (ids : List SlotId) (j : SlotId) :
    (s.initialTargets v ids).slot j = if j ∈ ids then TermSlot.idleAt (v j) else s.slot j := by
  unfold State.initialTargets
  induction ids generalizing s with
  | nil => simp
  | cons i ids ih =>
    rw [List.foldl_cons, ih, State.slot_initialTarget]
    by_cases hj : j ∈ ids
    · simp [hj]
    · by_cases hij : i = j
      · subst hij; simp
      · simp [hj, hij, Ne.symm hij]

theorem State.initialTargets_rest (s : State) (v : SlotId → Int) (ids : List SlotId) :
    s.initialTargets v ids = { s with ramp := (s.initialTargets v ids).ramp } :=
  foldl_ramp_rest _ (fun _ _ => rfl) ids s

theorem State.initialTargets_profile (s : State) (v : SlotId → Int) (ids : List SlotId) :
    (s.initialTargets v ids).ramp.profile = s.ramp.profile :=
  foldl_profile (fun s i => s.initialTarget i (v i)) (fun _ _ => rfl) ids s

/-- The slots that a configuration gives an initial target, zone by zone (R31). -/
def startSlots : List SlotId :=
  ([0, 1, 2, 3] : List Zone).flatMap fun z => [.vol z, .fade z, .bal z, .pace z]

/-- The initial target of a slot (R31, R46, R60). -/
def NodeConfig.startTarget (cfg : NodeConfig) : SlotId → Int
  | .vol z => volumeTarget cfg.zones[z].volume
  | .fade z => stepTarget cfg.zones[z].fade
  | .bal z => stepTarget cfg.zones[z].balance
  | .pace z => curveBoost cfg.zones[z].curve 0
  | .dip _ _ => 0
  | .link _ => 0
  | .node => 0

theorem mem_startSlots (z : Zone) :
    SlotId.vol z ∈ startSlots ∧ SlotId.fade z ∈ startSlots ∧ SlotId.bal z ∈ startSlots ∧ SlotId.pace z ∈ startSlots := by
  revert z; decide

theorem not_mem_startSlots :
    SlotId.node ∉ startSlots ∧ (∀ z k, SlotId.dip z k ∉ startSlots) ∧ ∀ g, SlotId.link g ∉ startSlots := by
  decide

theorem RampEngine.slot_initial (s : State) (h : s.ramp.slots = RampEngine.initial.slots) (i : SlotId) :
    s.slot i = TermSlot.idleAt (if i = .node then 1600 else 0) := by
  have hnode : (i.index = 36) ↔ i = .node := SlotId.index_eq_iff (b := .node)
  simp only [State.slot, h, RampEngine.initial]
  by_cases hi : i = .node
  · subst hi; rfl
  · have hne : (36 : Nat) ≠ i.index := fun e => hi (hnode.mp (Fin.ext e.symm))
    simp [hi, hne]

/-! ### The hand-over -/

/-- The configuration taken, but for the initial targets. -/
def State.configured (cfg : NodeConfig) (s : State) : State :=
  { s with
    loader := { s.loader with stage := .done, header := [] }
    ramp := { RampEngine.initial with profile := some cfg.profile }
    image := Vector.ofFn fun z => cfg.zones[z].image
    pace := { PaceUnit.initial with
      primary := { SpeedSource.initial with station := cfg.primary }
      secondary := { SpeedSource.initial with station := cfg.secondary }
      curves := some (Vector.ofFn fun z => cfg.zones[z].curve) }
    table := []
    laws := some cfg.laws
    channels := Vector.ofFn fun c => cfg.channel c
    library := { s.library with state := if cfg.library then .ready else .absent, selected := false }
    ports := { s.ports with outRunning := true } }

theorem State.takeConfig_eq (cfg : NodeConfig) (s : State) :
    s.takeConfig cfg = (s.configured cfg).initialTargets cfg.startTarget startSlots := rfl

theorem State.takeConfig_rest (cfg : NodeConfig) (s : State) :
    s.takeConfig cfg = { s.configured cfg with ramp := (s.takeConfig cfg).ramp } := by
  rw [State.takeConfig_eq]; exact State.initialTargets_rest _ _ _

theorem State.takeConfig_profile (cfg : NodeConfig) (s : State) : (s.takeConfig cfg).ramp.profile = some cfg.profile := by
  rw [State.takeConfig_eq, State.initialTargets_profile]; rfl

theorem State.slot_takeConfig (cfg : NodeConfig) (s : State) (i : SlotId) : (s.takeConfig cfg).slot i =
    TermSlot.idleAt (if i ∈ startSlots then cfg.startTarget i else if i = .node then 1600 else 0) := by
  rw [State.takeConfig_eq, State.slot_initialTargets, RampEngine.slot_initial (s.configured cfg) rfl]
  split <;> rfl

/-- The state at the hand-over, before the first evaluations: the first block has started (R136, R160). -/
def State.handed (cfg : NodeConfig) (s : State) : State := (s.takeConfig cfg).enterWaking.blockStart

theorem State.handOver_eq (ord : List Channel) (cfg : NodeConfig) (s : State) :
    s.handOver ord cfg = (s.handed cfg).inTurn State.evaluate ord := rfl

theorem State.handed_rest (cfg : NodeConfig) (s : State) : s.handed cfg = { s.configured cfg with
    node := { s.node with state := .waking, ampOn := true, settle := some 50, linkSilence := some 5000 }
    ramp := (s.takeConfig cfg).ramp
    channels := (s.handed cfg).channels
    emission := { s.emission with age := 500 }
    ports := { s.ports with outRunning := true, blockFrames := 0, nodeStepped := false } } := by
  rw [State.handed, State.blockStart_rest, State.enterWaking, State.setEmission, State.setNode, State.takeConfig_rest]
  rfl

theorem State.slot_handed (cfg : NodeConfig) (s : State) (i : SlotId) : (s.handed cfg).slot i =
    TermSlot.idleAt (if i ∈ startSlots then cfg.startTarget i else if i = .node then 1600 else 0) := by
  rw [← State.slot_takeConfig, State.slot, State.handed_rest]
  rfl

/-- A block start of a channel with no incoming set (R1, R17). -/
theorem ChannelState.startBlock_alone {x : ChannelState} (h : x.incoming = none) (held : Option Composed) :
    x.startBlock held = { x with composed := held, peak := 0, clip := false, overflow := false } := by
  simp [ChannelState.startBlock, h]

/-- A channel at the hand-over starts its first block with no set. -/
theorem State.channel_handed (cfg : NodeConfig) (s : State) (c : Channel) : (s.handed cfg).channel c =
    { cfg.channel c with composed :=
        if cfg.channels[c].enabled = true then some ((s.handed cfg).compose c) else none } := by
  have hchannel : (s.takeConfig cfg).enterWaking.channel c = cfg.channel c := by
    rw [State.enterWaking, State.setEmission_channel, State.setNode_channel, State.takeConfig_rest]
    simp [State.channel, State.configured]
  have hcomposing : (s.takeConfig cfg).enterWaking.composing = true := rfl
  have hcompose : (s.handed cfg).compose c = (s.takeConfig cfg).enterWaking.compose c :=
    State.compose_congr (by rw [State.handed, State.blockStart_rest]) (by rw [State.handed, State.blockStart_rest]) c
      (by rw [State.handed, State.channel_blockStart]; rfl) (by rw [State.handed, State.channel_blockStart]; rfl)
  rw [hcompose, State.handed, State.channel_blockStart, hchannel, hcomposing, Bool.true_and,
    ChannelState.startBlock_alone rfl]
  rfl

/-- NODE stands at 1600, so the first block is mute whatever the other terms are. -/
theorem State.compose_handed (cfg : NodeConfig) (s : State) (c : Channel) :
    ((s.handed cfg).compose c).aPre = 1600 ∧ ((s.handed cfg).compose c).total = 1600 := by
  obtain ⟨hnode, hdip, -⟩ := not_mem_startSlots
  refine State.compose_mute ?_
  rw [State.slot_handed, State.slot_handed, if_neg (hdip _ _), if_neg hnode]
  exact le_rfl

/-- The hand-over leaves what the configuration gives (R160). -/
theorem State.handOver_configuredBy (s : State) {ord : List Channel} (hn : ord.Nodup) (hm : ∀ c, c ∈ ord)
    (cfg : NodeConfig) : State.ConfiguredBy cfg s (s.handOver ord cfg) := by
  obtain ⟨t, ht⟩ : ∃ t, t = (s.handed cfg).inTurn State.evaluate ord := ⟨_, rfl⟩
  rw [State.handOver_eq, ← ht]
  have hturns : (s.handed cfg).CacheStep t := ht ▸ State.evaluateTurns_cacheStep ord _
  have hu := State.handed_rest cfg s
  have hchannel : ∀ c, t.channel c = { cfg.channel c with
      composed := if cfg.channels[c].enabled = true then some ((s.handed cfg).compose c) else none
      request := (t.channel c).request
      incoming := (t.channel c).incoming
      incomingStates := (t.channel c).incomingStates } := fun c => by
    rw [ht, State.channel_evaluateTurns, State.channel_handed]
  have hslot : ∀ i, t.slot i = TermSlot.idleAt (if i ∈ startSlots then cfg.startTarget i
      else if i = .node then 1600 else 0) := fun i => by rw [hturns.slot, State.slot_handed]
  obtain ⟨hnode, hdip, hlink⟩ := not_mem_startSlots
  refine {
    node := by rw [hturns.node, hu]
    loader := by rw [hturns.loader, hu]; rfl
    profile := ⟨by rw [hturns.ramp, hu]; exact State.takeConfig_profile cfg s, by rw [hturns.laws, hu]; rfl⟩
    slots := ⟨by rw [hslot, if_neg hnode, if_pos rfl], fun z => ?slots⟩
    silent := ⟨fun z k => by rw [hslot, if_neg (hdip z k), if_neg nofun],
      fun g => by rw [hslot, if_neg (hlink g), if_neg nofun]⟩
    image := fun z => by rw [hturns.image, hu]; simp [State.configured, ZoneConfig.image]
    pace := ?pace
    table := by rw [hturns.table, hu]; rfl
    record := fun c => by rw [hchannel]; rfl
    wanted := fun c => by rw [hchannel]; rfl
    limiter := fun c => by rw [hchannel]; exact ⟨rfl, rfl⟩
    composed := fun c => ?composed
    emission := by rw [hturns.emission, hu]
    library := ⟨by rw [hturns.library_state, hu]; rfl, by rw [hturns.library_flash, hu]; rfl,
      by rw [hturns.library_selected, hu]; rfl⟩
    ports := by rw [hturns.ports, hu]
    kept := ⟨by rw [hturns.link, hu]; rfl, by rw [hturns.linkCounters, hu]; rfl, by rw [hturns.channelCounters, hu]; rfl,
      by rw [hturns.pending, hu]; rfl⟩
    evaluated := ⟨s.handed cfg, ⟨ord, hn, hm, ht⟩, ?rest, fun c => ?channels⟩ }
  case slots =>
    obtain ⟨hvol, hfade, hbal, hpace⟩ := mem_startSlots z
    rw [hslot, hslot, hslot, hslot, if_pos hvol, if_pos hfade, if_pos hbal, if_pos hpace]
    exact ⟨rfl, rfl, rfl, rfl⟩
  case pace =>
    rw [hturns.pace, hu]
    exact ⟨rfl, rfl, rfl, rfl, fun z => by simp [State.configured, PaceUnit.initial], _, rfl, fun z => by simp⟩
  case composed =>
    rw [hchannel]
    obtain ⟨hpre, htotal⟩ := State.compose_handed cfg s c
    cases he : cfg.channels[c].enabled with
    | false => exact ⟨he.symm, nofun⟩
    | true =>
      refine ⟨he.symm, fun held hheld => ?_⟩
      obtain rfl := Option.some.inj hheld
      exact ⟨hpre, htotal⟩
  case rest => rw [hturns.rest, hu]; rfl
  case channels => rw [State.channel_handed, hchannel]; rfl

/-- The use of the free values that goes with the hand-over is no part of what the configuration gives. -/
theorem State.ConfiguredBy.of_drawn {cfg : NodeConfig} {s t : State} (h : State.ConfiguredBy cfg s.drawn t) :
    State.ConfiguredBy cfg s t := { h with }

/-- Settles O8: an admitted image is handed over. -/
theorem imageReadHandsOver : Obligations.ImageReadHandsOver := by
  intro s rest cfg hr hst hstage hcheck
  have hload : s.drawn.loading .image = true := by
    simp [State.loading, hr, hst, hstage]
  refine ⟨_, ?_, (s.drawn.handOver_configuredBy (channelOrder_nodup s.draws) (mem_channelOrder s.draws) cfg).of_drawn⟩
  simp only [exec, execImageRead, State.takeImageRead, hload, if_true, State.drawn_loader, hcheck]

end Sys2Proof.Machine
end

section
/-!
Lines through the cache's work (R105, R115, R118, R120): a line becomes VALID by a fill alone, so what lookups,
evaluations and crossfade ends leave VALID was VALID before, with the same key; and what an evaluation takes as incoming
is a VALID line of the wanted key.
-/
namespace Sys2Proof.Machine

/-! ### Lines read after updates -/

theorem State.line_setLine (s : State) (l m : LineRef) (x : Line) :
    (s.setLine l x).line m = if l = m then x else s.line m := by
  obtain ⟨i, v⟩ := l
  obtain ⟨j, w⟩ := m
  by_cases hi : i = j
  · subst hi
    by_cases hv : v = w
    · subst hv; simp [State.line, State.setLine]
    · have hv' : (v : Nat) ≠ w := fun e => hv (Fin.ext e)
      simp [State.line, State.setLine, hv, hv']
  · have hi' : (i : Nat) ≠ j := fun e => hi (Fin.ext e)
    simp [State.line, State.setLine, hi, hi']

theorem State.way_of_set (s : State) {m : LineRef} {i : Fin 16} (h : m.set = i) :
    s.library.sets[i].ways[m.way] = s.line m := by subst h; rfl

theorem State.line_setCacheSet (s : State) (i : Fin 16) (x : CacheSet) (m : LineRef) :
    (s.setCacheSet i x).line m = if m.set = i then x.ways[m.way] else s.line m := by
  by_cases hi : m.set = i
  · subst hi; simp [State.line]
  · have hi' : (i : Nat) ≠ m.set := fun e => hi (Fin.ext e.symm)
    simp [State.line, hi, hi']

theorem CacheSet.take_way (x : CacheSet) (w v : Fin 4) (key : CoefKey) :
    (x.take w key).ways[v] = if v = w then Line.fillingFor key else x.ways[v] := by
  by_cases hv : v = w
  · subst hv; simp [CacheSet.take]
  · have hv' : (w : Nat) ≠ v := fun e => hv (Fin.ext e.symm)
    simp [CacheSet.take, hv, hv']

/-- An allocation makes one way FILLING and leaves the others (R118). -/
theorem CacheSet.allocate_way {x y : CacheSet} {key : CoefKey} {w : Fin 4} (h : x.allocate key = some (w, y))
    (v : Fin 4) : y.ways[v] = if v = w then Line.fillingFor key else x.ways[v] := by
  unfold CacheSet.allocate at h
  split at h
  · obtain ⟨rfl, rfl⟩ := Prod.mk.inj (Option.some.inj h)
    exact CacheSet.take_way x _ v key
  · split at h
    · obtain ⟨rfl, rfl⟩ := Prod.mk.inj (Option.some.inj h)
      exact CacheSet.take_way x _ v key
    · cases h

/-- The way that a search finds is in the state and holds the key it was asked for (R117). -/
theorem CacheSet.find_spec {x : CacheSet} {st : LineState} {key : CoefKey} {w : Fin 4} (h : x.find st key = some w) :
    x.ways[w].state = st ∧ x.ways[w].key = key := by
  have hfound := List.find?_some h
  rwa [Bool.and_eq_true, beq_iff_eq, beq_iff_eq] at hfound

/-! ### VALID lines -/

/-- What is VALID in t was VALID in s, with the same key. -/
def State.ValidFrom (s t : State) : Prop :=
  ∀ l, (t.line l).state = .valid → (s.line l).state = .valid ∧ (s.line l).key = (t.line l).key

namespace State.ValidFrom

theorem of_lines {s t : State} (h : ∀ l, t.line l = s.line l) : s.ValidFrom t := fun l hl => by
  rw [h l] at hl ⊢; exact ⟨hl, rfl⟩

theorem refl (s : State) : s.ValidFrom s := of_lines fun _ => rfl

theorem trans {s t u : State} (h : s.ValidFrom t) (k : t.ValidFrom u) : s.ValidFrom u := fun l hl => by
  obtain ⟨ht, hkey⟩ := k l hl
  obtain ⟨hs, hkey'⟩ := h l ht
  exact ⟨hs, hkey'.trans hkey⟩

/-- A replaced line counts as long as it does not become VALID and keeps its key if it is. -/
theorem setLine (s : State) (l : LineRef) (x : Line)
    (h : x.state = .valid → (s.line l).state = .valid ∧ (s.line l).key = x.key) : s.ValidFrom (s.setLine l x) := by
  intro m hm
  rw [State.line_setLine] at hm ⊢
  split at hm
  · next hlm => subst hlm; rw [if_pos rfl]; exact h hm
  · next hlm => rw [if_neg hlm]; exact ⟨hm, rfl⟩

theorem setChannel (s : State) (c : Channel) (x : ChannelState) : s.ValidFrom (s.setChannel c x) :=
  of_lines fun _ => rfl

theorem setRequest (s : State) (c : Channel) (r : Request) : s.ValidFrom (s.setRequest c r) := of_lines fun _ => rfl

theorem setQueue (s : State) (q : List QueueEntry) : s.ValidFrom (s.setQueue q) := of_lines fun _ => rfl

theorem countCache (s : State) (k : CacheCounter) : s.ValidFrom (s.countCache k) :=
  of_lines fun l => s.countCache_line k l

theorem attachQueued (s : State) (k : CoefKey) (l : LineRef) : s.ValidFrom (s.attachQueued k l) :=
  of_lines fun m => s.attachQueued_line k l m

theorem pin (s : State) (l : LineRef) : s.ValidFrom (s.pin l) := setLine s l _ fun h => ⟨h, rfl⟩

theorem invalidate (s : State) (l : LineRef) : s.ValidFrom (s.invalidate l) := setLine s l _ nofun

theorem allocate (s : State) (k : CoefKey) : s.ValidFrom (s.allocate k).2 := by
  unfold State.allocate
  split
  · next w x hx =>
    intro m hm
    rw [State.line_setCacheSet] at hm ⊢
    split at hm
    · next hset =>
      rw [if_pos hset]
      rw [CacheSet.allocate_way hx] at hm ⊢
      split at hm
      · cases hm
      · next hway =>
        rw [State.way_of_set s hset] at hm ⊢
        rw [if_neg hway]
        exact ⟨hm, rfl⟩
    · next hset => rw [if_neg hset]; exact ⟨hm, rfl⟩
  · exact refl s

theorem wayFree (s : State) (i : Fin 16) : s.ValidFrom (s.wayFree i) := by
  unfold State.wayFree
  split
  · exact refl s
  · next e _ =>
    have halloc := allocate s e.key
    revert halloc
    generalize s.allocate e.key = r
    intro halloc
    obtain ⟨_ | l, s'⟩ := r
    · exact refl s
    · exact halloc.trans ((setQueue s' _).trans (attachQueued _ _ _))

theorem unpin (s : State) (l : LineRef) : s.ValidFrom (s.unpin l) := by
  have hfall := setLine s l { s.line l with pins := (s.line l).pins - 1 } fun h => ⟨h, rfl⟩
  unfold State.unpin
  dsimp only
  split
  · exact hfall.trans (wayFree _ _)
  · exact hfall

theorem unpinActive (s : State) (l : Option LineRef) : s.ValidFrom (s.unpinActive l) := by
  cases l with
  | none => exact refl s
  | some l => exact unpin s l

theorem takeIncoming (s : State) (c : Channel) (l : LineRef) : s.ValidFrom (s.takeIncoming c l) :=
  (pin s l).trans (setChannel _ c _)

theorem enqueueFill (s : State) (e : QueueEntry) : s.ValidFrom (s.enqueueFill e) := by
  unfold State.enqueueFill
  split
  · exact setQueue s _
  · split
    · exact setQueue s _
    · split
      · exact setQueue s _
      · exact (setQueue s _).trans ((invalidate _ _).trans (wayFree _ _))

theorem missReady (s : State) (c : Channel) (k : CoefKey) : s.ValidFrom (s.missReady c k) := by
  unfold State.missReady
  split
  · exact setRequest s c _
  · have halloc := allocate s k
    revert halloc
    generalize s.allocate k = r
    intro halloc
    obtain ⟨_ | l, s'⟩ := r
    · exact (countCache s _).trans ((setRequest _ c _).trans (enqueueFill _ _))
    · exact halloc.trans ((setRequest _ c _).trans (enqueueFill _ _))

theorem lookup (s : State) (c : Channel) (k : CoefKey) : s.ValidFrom (s.lookup c k) := by
  unfold State.lookup
  split
  · exact (countCache s _).trans (takeIncoming _ c _)
  · split
    · exact (countCache s _).trans (setRequest _ c _)
    · split
      · exact (countCache s _).trans (missReady _ c k)
      · exact (countCache s _).trans (setRequest _ c _)

theorem evaluate (s : State) (c : Channel) : s.ValidFrom (s.evaluate c) := by
  unfold State.evaluate
  split
  · exact refl s
  · split
    · exact refl s
    · split
      · exact setRequest s c _
      · split
        · exact setRequest s c _
        · exact lookup s c _

theorem endCrossfade (s : State) (c : Channel) (inc : Incoming) : s.ValidFrom (s.endCrossfade c inc) :=
  (setChannel s c _).trans ((unpinActive _ _).trans (evaluate _ c))

theorem advanceCrossfade (s : State) (c : Channel) : s.ValidFrom (s.advanceCrossfade c) := by
  unfold State.advanceCrossfade
  split
  · exact refl s
  · split
    · exact setChannel s c _
    · exact endCrossfade s c _

theorem inTurn {f : Channel → State → State} (h : ∀ c s, State.ValidFrom s (f c s)) (ord : List Channel) (s : State) :
    s.ValidFrom (s.inTurn f ord) := by
  induction ord generalizing s with
  | nil => exact refl s
  | cons c cs ih => exact (h c s).trans (ih _)

end State.ValidFrom

/-! ### What an evaluation takes -/

/-- A channel's incoming set after an evaluation: as before, or newly taken from a VALID line of the wanted key (R105). -/
def State.TakesValid (s : State) (c : Channel) (t : State) : Prop :=
  (t.channel c).incoming = (s.channel c).incoming ∨
    ∃ l, (t.channel c).incoming = some { line := l, k := 1, running := false } ∧
      (s.line l).state = .valid ∧ (s.line l).key = (s.channel c).wanted

theorem State.RequestStep.incoming {s t : State} (h : s.RequestStep t) (c : Channel) :
    (t.channel c).incoming = (s.channel c).incoming := by rw [h c]

theorem State.lookup_takesValid (s : State) (c : Channel) : s.TakesValid c (s.lookup c (s.channel c).wanted) := by
  have hcount : ∀ k, ((s.countCache k).channel c).incoming = (s.channel c).incoming := fun k => by
    rw [State.channel_countCache]
  unfold State.lookup
  split
  · next w hw =>
    refine .inr ⟨{ set := (s.channel c).wanted.set, way := w }, ?_, CacheSet.find_spec hw⟩
    rw [State.takeIncoming, State.channel_setChannel_same]
  · left
    split
    · exact ((State.RequestStep.setRequest _ c _).incoming c).trans (hcount _)
    · split
      · exact ((State.RequestStep.missReady _ c _).incoming c).trans (hcount _)
      · exact ((State.RequestStep.setRequest _ c _).incoming c).trans (hcount _)

theorem State.evaluate_takesValid (s : State) (c : Channel) : s.TakesValid c (s.evaluate c) := by
  unfold State.evaluate
  split
  · exact .inl rfl
  · split
    · exact .inl rfl
    · split
      · exact .inl ((State.RequestStep.setRequest s c _).incoming c)
      · split
        · exact .inl ((State.RequestStep.setRequest s c _).incoming c)
        · exact s.lookup_takesValid c

end Sys2Proof.Machine
end

section
/-!
A block completion that enters DORMANT (R28, R87, R113, R143): whichever of the entry and the channels' work comes first,
the entry is made from a state that the completion has changed in a few places only.
-/
namespace Sys2Proof.Machine

/-! ### The crossfades of the completion -/

/-- The active set that a channel has after the entry to DORMANT (R113). -/
def ChannelState.restingSet (x : ChannelState) : Option LineRef := (x.incoming.map (·.line)).or x.active

/-- A channel's resting set after a completion's crossfades: as before, or, where a crossfade has ended, one more VALID
line of the wanted key. -/
def State.RestsOn (s : State) (c : Channel) (l : Option LineRef) : Prop :=
  l = (s.channel c).restingSet ∨
    ∃ inc m, (s.channel c).incoming = some inc ∧ inc.running = true ∧ 8 ≤ inc.k ∧ l = some m ∧
      (s.line m).state = .valid ∧ (s.line m).key = (s.channel c).wanted

/-- A channel whose crossfade has ended (R111). -/
def ChannelState.crossfaded (x : ChannelState) (inc : Incoming) : ChannelState :=
  { x with active := some inc.line, incoming := none, activeStates := x.incomingStates,
           incomingStates := SectionState.zeros }

theorem State.endCrossfade_eq (s : State) (c : Channel) (inc : Incoming) : s.endCrossfade c inc =
    ((s.setChannel c ((s.channel c).crossfaded inc)).unpinActive (s.channel c).active).evaluate c := rfl

/-- Before its evaluation the channel holds the ended crossfade, and the cache has had its old line given up (R111). -/
theorem State.before_evaluate (s : State) (c : Channel) (inc : Incoming) : ∃ z : State,
    s.endCrossfade c inc = z.evaluate c ∧ s.ValidFrom z ∧
      z.channel c = { (s.channel c).crossfaded inc with request := (z.channel c).request } := by
  refine ⟨_, s.endCrossfade_eq c inc, (State.ValidFrom.setChannel s c _).trans (.unpinActive _ _), ?_⟩
  rw [State.RequestStep.unpinActive _ _ c, State.channel_setChannel_same]

/-- A crossfade that ends leaves the incoming set active; the evaluation after it may take one more (R104, R111). -/
theorem State.endCrossfade_restingSet (s : State) (c : Channel) (inc : Incoming) :
    ((s.endCrossfade c inc).channel c).restingSet = some inc.line ∨
      ∃ m, ((s.endCrossfade c inc).channel c).restingSet = some m ∧
        (s.line m).state = .valid ∧ (s.line m).key = (s.channel c).wanted := by
  obtain ⟨z, hend, hvalid, hz⟩ := s.before_evaluate c inc
  have hactive : ((z.evaluate c).channel c).active = some inc.line := by
    rw [(State.SearchStep.evaluate z c).own, hz]; rfl
  have hincoming : (z.channel c).incoming = none := by rw [hz]; rfl
  have hwanted : (z.channel c).wanted = (s.channel c).wanted := by rw [hz]; rfl
  rw [hend, ChannelState.restingSet]
  rcases z.evaluate_takesValid c with hkept | ⟨l, htaken, hstate, hkey⟩
  · left
    rw [hkept, hincoming, hactive]
    rfl
  · obtain ⟨hstate', hkey'⟩ := hvalid l hstate
    exact .inr ⟨l, by rw [htaken]; rfl, hstate', hkey'.trans (hkey.trans hwanted)⟩

/-- A channel's turn at a completion: its resting set stays, or its crossfade ends. -/
theorem State.advanceCrossfade_restsOn (s : State) (c : Channel) :
    s.RestsOn c ((State.advanceCrossfade c s).channel c).restingSet := by
  unfold State.advanceCrossfade
  split
  · exact .inl rfl
  · next inc hrun =>
    obtain ⟨hinc, hrunning⟩ := ChannelState.runningIncoming_eq_some hrun
    have hbefore : (s.channel c).restingSet = some inc.line := by rw [ChannelState.restingSet, hinc]; rfl
    split
    · left
      rw [State.channel_setChannel_same, hbefore]
      rfl
    · next hk =>
      refine (s.endCrossfade_restingSet c inc).imp (fun h => h.trans hbefore.symm) ?_
      rintro ⟨m, hm, hstate, hkey⟩
      exact ⟨inc, m, hinc, hrunning, Nat.not_lt.mp hk, hm, hstate, hkey⟩

/-- What a resting set is made of depends on lines and on the channel's sets and key alone. -/
theorem State.RestsOn.of_valid {s t : State} {c : Channel} {l : Option LineRef} (h : t.RestsOn c l)
    (hv : s.ValidFrom t) (hc : t.channel c = { s.channel c with
      request := (t.channel c).request, reduction := (t.channel c).reduction, holdCount := (t.channel c).holdCount }) :
    s.RestsOn c l := by
  rcases h with h | ⟨inc, m, hinc, hrunning, hk, hl, hstate, hkey⟩
  · left; rw [h, hc]; rfl
  · rw [hc] at hinc hkey
    obtain ⟨hstate', hkey'⟩ := hv m hstate
    exact .inr ⟨inc, m, hinc, hrunning, hk, hl, hstate', hkey'.trans hkey⟩

/-- After the turns of all channels a channel rests on what it rested on, or on what its own turn has taken. -/
theorem State.turns_restsOn {ord : List Channel} (hn : ord.Nodup) (hm : ∀ c, c ∈ ord) (s : State) (c : Channel) :
    s.RestsOn c ((s.inTurn State.advanceCrossfade ord).channel c).restingSet := by
  obtain ⟨u, ⟨pre, hpre⟩, hu, hown⟩ :=
    State.inTurn_own (f := State.advanceCrossfade) (fun c s => .advanceCrossfade s c) hn (hm c) s
  have hlines : s.ValidFrom u := hpre ▸ State.ValidFrom.inTurn (fun c s => .advanceCrossfade s c) pre s
  rw [hown]
  exact (u.advanceCrossfade_restsOn c).of_valid hlines (by rw [hu])

/-! ### Before the entry -/

/-- The state that the entry to DORMANT is made from, in the terms of the state that the completion was taken in. -/
structure State.FadesTo (s w : State) : Prop where
  rest     : w = { s with
    ramp := w.ramp, channels := w.channels, emission := w.emission, library := w.library, stats := w.stats
    ports := { s.ports with blockDue := false }, draws := w.draws
    link := { s.link with queue := w.link.queue, sending := w.link.sending } }
  sending  : w.link.sending.isSome = s.link.sending.isSome
  counters : w.stats.link = s.stats.link
  profile  : w.ramp.profile = s.ramp.profile
  slots    : ∀ i, (∀ g, i ≠ .link g) → w.slot i = s.stepped i
  port     : w.library = { s.library with sets := w.library.sets, queue := w.library.queue }
  kept     : ∀ c, (w.channel c).wanted = (s.channel c).wanted ∧ (w.channel c).failed = (s.channel c).failed ∧
    (w.channel c).record = (s.channel c).record
  resting  : ∀ c, s.RestsOn c (w.channel c).restingSet

/-- The entry first: only the slots have stepped (R28). -/
theorem State.fadesTo_rampStep (s : State) : s.FadesTo s.taken.rampStep where
  rest := by rw [State.rampStep_rest]; rfl
  sending := by rw [State.rampStep_link]; rfl
  counters := by rw [State.rampStep_stats]; rfl
  profile := State.rampStep_profile _
  slots i _ := State.slot_rampStep s.taken i
  port := by rw [State.rampStep_library]; rfl
  kept c := by rw [State.rampStep_channel]; exact ⟨rfl, rfl, rfl⟩
  resting c := .inl (by rw [State.rampStep_channel]; rfl)

theorem State.emit_sending (s : State) : s.emit.link.sending.isSome = s.link.sending.isSome := by
  unfold State.emit State.handHeadroom LinkInterface.acceptHeadroom markReplaced
  split
  · split
    · rfl
    · next l hl =>
      split at hl
      · obtain rfl := Option.some.inj hl
        cases s.link.sending with
        | none => rfl
        | some a => dsimp only [State.setLink, State.setEmission]; split <;> rfl
      · split at hl
        · obtain rfl := Option.some.inj hl; rfl
        · cases hl
  · rfl

/-- Crossfades keep every channel's wanted and failed key. -/
theorem State.advanceCrossfade_keys (s : State) (c d : Channel) :
    ((State.advanceCrossfade c s).channel d).wanted = (s.channel d).wanted ∧
      ((State.advanceCrossfade c s).channel d).failed = (s.channel d).failed := by
  by_cases hd : d = c
  · subst hd
    unfold State.advanceCrossfade
    split
    · exact ⟨rfl, rfl⟩
    · split
      · rw [State.channel_setChannel_same]; exact ⟨rfl, rfl⟩
      · next inc _ _ =>
        obtain ⟨z, hend, -, hz⟩ := s.before_evaluate d inc
        rw [hend, (State.SearchStep.evaluate z d).own, hz]
        exact ⟨rfl, rfl⟩
  · rw [State.TurnStep.advanceCrossfade s c d hd]
    exact ⟨rfl, rfl⟩

theorem State.turns_keys (ord : List Channel) (s : State) (d : Channel) :
    ((s.inTurn State.advanceCrossfade ord).channel d).wanted = (s.channel d).wanted ∧
      ((s.inTurn State.advanceCrossfade ord).channel d).failed = (s.channel d).failed := by
  induction ord generalizing s with
  | nil => exact ⟨rfl, rfl⟩
  | cons c cs ih =>
    obtain ⟨hwanted, hfailed⟩ := ih (State.advanceCrossfade c s)
    obtain ⟨hwanted', hfailed'⟩ := s.advanceCrossfade_keys c d
    exact ⟨hwanted.trans hwanted', hfailed.trans hfailed'⟩

/-- The entry last: the completion's steps, updates, emission and crossfades have been made (R28, R87). -/
theorem State.fadesTo_turns {s u : State} (hu : s.taken.StepUpdated u) {ord : List Channel} (hn : ord.Nodup)
    (hm : ∀ c, c ∈ ord) : s.FadesTo (u.emit.inTurn State.advanceCrossfade ord) := by
  have hturns : u.emit.CacheStep (u.emit.inTurn State.advanceCrossfade ord) := .inTurn (fun c s => .advanceCrossfade s c) ord _
  have hlimited : ∀ c, u.emit.channel c = (s.channel c).limited := fun c => by
    rw [State.emit_rest, hu.rest]
    simp [State.channel, State.taken]
  have hlines : ∀ l, u.emit.line l = s.line l := fun l => by
    rw [State.emit_rest, hu.rest]; rfl
  refine {
    rest := by rw [hturns.rest, State.emit_rest, hu.rest]; rfl
    sending := by rw [hturns.link, State.emit_sending, hu.rest]; rfl
    counters := by rw [hturns.linkCounters, State.emit_rest, hu.rest]; rfl
    profile := by rw [hturns.ramp, State.emit_rest]; exact hu.profile
    slots := fun i hi => by rw [hturns.slot, State.slot, State.emit_rest]; exact hu.slots i hi
    port := by rw [hturns.port, State.emit_rest, hu.rest]; rfl
    kept := fun c => ?kept
    resting := fun c => ?resting }
  case kept =>
    obtain ⟨hwanted, hfailed⟩ := State.turns_keys ord u.emit c
    rw [hwanted, hfailed, hturns.record, hlimited, ChannelState.limited_rest]
    exact ⟨rfl, rfl, rfl⟩
  case resting =>
    refine (State.turns_restsOn hn hm u.emit c).of_valid (.of_lines hlines) ?_
    rw [hlimited, ChannelState.limited_rest]

/-- A completion in QUIET at NODE.current of 1600 is an entry to DORMANT and a block start, whatever comes first (R28). -/
theorem State.exists_fadesTo {s : State} (hr : s.inReset = false) (hst : s.node.state = .quiet)
    (hdue : s.ports.blockDue = true) (hnode : (s.stepped .node).current = 1600) :
    ∃ (w : State) (ord : List Channel) (b : Bool), ord.Nodup ∧ (∀ c, c ∈ ord) ∧ s.FadesTo w ∧
      exec .blockCompletion s = .next (w.enterDormant ord b).blockStart := by
  have hn := channelOrder_nodup s.draws
  have hm := mem_channelOrder s.draws
  have hgo : (s.drawn.paced && s.drawn.ports.blockDue) = true := by simp [State.paced, hr, hst, hdue]
  have hfaded : ∀ w, s.FadesTo w → w.fadedOut = true := fun w hw => by
    have hquiet : w.node.state = .quiet := by rw [hw.rest]; exact hst
    simp [State.fadedOut, hquiet, hw.slots .node nofun, hnode]
  have hfirst := s.fadesTo_rampStep
  have hlast := State.fadesTo_turns (State.stepAndUpdate_spec s.taken (Config.stepFirst s.draws)) hn hm
  have hexec : exec .blockCompletion s = .next (s.taken.completeBlock (Config.stepFirst s.draws)
      (Config.entryFirst s.draws) (Config.clearFirst s.draws) (channelOrder s.draws)) :=
    congrArg Host.Outcome.next (if_pos hgo)
  cases hentry : Config.entryFirst s.draws with
  | true =>
    refine ⟨_, _, Config.clearFirst s.draws, hn, hm, hfirst, ?_⟩
    rw [hexec, State.completeBlock, if_pos (by rw [hentry, hfaded _ hfirst]; rfl)]
  | false =>
    refine ⟨_, _, Config.clearFirst s.draws, hn, hm, hlast, ?_⟩
    rw [hexec, State.completeBlock, if_neg (by rw [hentry]; exact Bool.false_ne_true), State.dormantIfFaded,
      if_pos (hfaded _ hlast)]

/-! ### After the entry -/

/-- In DORMANT a block starts with no channel composing (R17). -/
theorem State.channel_blockStart_dormant {s : State} (h : s.node.state = .dormant) (c : Channel) :
    s.blockStart.channel c = { s.channel c with composed := none, peak := 0, clip := false, overflow := false } := by
  have hcomposing : s.composing = false := by simp [State.composing, State.takesCues, h]
  rw [State.channel_blockStart, hcomposing]
  rfl

theorem State.FallsDormant.restingSet {s t : State} (h : s.FallsDormant t) (c : Channel) :
    (t.channel c).active = (s.channel c).restingSet := by
  rw [h.active, ChannelState.restingSet]
  cases (s.channel c).incoming <;> rfl

/-- What the entry and the block start leave, in the terms of the state that the completion was taken in. -/
theorem State.FadesTo.dormantFrom {s w d : State} (h : s.FadesTo w) (hd : w.FallsDormant d) :
    s.DormantFrom d.blockStart := by
  have he := hd.entry
  have hdormant : d.node.state = .dormant := by rw [he.node]
  have hchannel := State.channel_blockStart_dormant hdormant
  have hslot : ∀ i, d.blockStart.slot i = d.slot i := fun i => by rw [State.slot, State.blockStart_rest]; rfl
  refine {
    node := by rw [State.blockStart_rest, he.node, h.rest]
    image := fun z => by rw [State.blockStart_rest, he.image z, h.rest]
    pace := by rw [State.blockStart_rest, he.pace, h.rest]
    table := by rw [State.blockStart_rest, he.table]
    targets := by simpa only [hslot] using he.targets
    channels := fun c => ?channels
    emission := by rw [State.blockStart_rest]; exact he.emission
    library := ?library
    link := ?link
    kept := ?kept }
  case channels =>
    obtain ⟨hred, hhold, -, -, -, hinc, hreq, hact, hincs, hwanted, hfailed, hrecord⟩ := he.channels c
    obtain ⟨hwanted', hfailed', hrecord'⟩ := h.kept c
    rw [hchannel]
    exact ⟨hred, hhold, rfl, rfl, rfl, hinc, hreq, hact, hincs, hwanted.trans hwanted', hfailed.trans hfailed',
      hrecord.trans hrecord'⟩
  case library =>
    obtain ⟨hqueue, hdown, hfill, herrors, hstate, hflash⟩ := he.library
    rw [State.blockStart_rest]
    refine ⟨hqueue, hdown, hfill.trans ?_, herrors.trans ?_, hstate.trans ?_, hflash.trans ?_⟩ <;> rw [h.port]
  case link =>
    obtain ⟨hqueue, hgone, hsome, hkept⟩ := he.link
    rw [h.rest] at hkept
    rw [State.blockStart_rest]
    exact ⟨hqueue, hgone, hsome.trans h.sending, hkept⟩
  case kept =>
    obtain ⟨hloader, hlaws, hcounters, hpending, hprofile⟩ := he.kept
    rw [State.blockStart_rest]
    exact ⟨hloader.trans (by rw [h.rest]), hlaws.trans (by rw [h.rest]), hcounters.trans h.counters,
      hpending.trans (by rw [h.rest]), hprofile.trans h.profile⟩

/-- Settles O15: the entry to DORMANT, made before or after the channels' work of the completion. -/
theorem blockCompletionEntersDormant : Obligations.BlockCompletionEntersDormant := by
  intro s hr hst hdue hnode
  obtain ⟨w, ord, b, hn, hm, h, hexec⟩ := State.exists_fadesTo hr hst hdue hnode
  have hd := w.enterDormant_falls hn hm b
  generalize w.enterDormant ord b = d at hd hexec
  have hactive : ∀ c, s.RestsOn c (d.blockStart.channel c).active := fun c => by
    rw [State.channel_blockStart_dormant (by rw [hd.entry.node])]
    exact hd.restingSet c ▸ h.resting c
  have hslot : ∀ i, (∀ z k, i ≠ .dip z k) → (∀ g, i ≠ .link g) → d.blockStart.slot i = s.stepped i := fun i hdip hlink => by
    rw [State.slot, State.blockStart_rest]
    exact (hd.slots i hdip hlink).trans (h.slots i hlink)
  refine ⟨_, hexec, h.dormantFrom hd, ?_, fun c hc => ?_, fun c inc hc => ?_, fun i hdip hlink hi => ?_, fun hstepped => ?_⟩
  · rw [State.blockStart_rest, hd.rest.1, h.rest]
  · rcases hactive c with hl | ⟨inc, _, hinc, _⟩
    · rw [hl, ChannelState.restingSet, hc]; rfl
    · rw [hc] at hinc; cases hinc
  · rcases hactive c with hl | ⟨inc', m, hinc, hrunning, hk, hl, hstate, hkey⟩
    · left
      rw [hl, ChannelState.restingSet, hc]
      rfl
    · obtain rfl := Option.some.inj (hc.symm.trans hinc)
      exact .inr ⟨hrunning, hk, m, hl, hstate, hkey⟩
  · rw [hslot i hdip hlink]
    exact if_neg fun hc => hi.elim (fun hne => hne hc.1) fun hf => Bool.false_ne_true (hf.symm.trans hc.2)
  · rw [hslot .node nofun nofun]
    exact if_pos ⟨rfl, hstepped⟩

end Sys2Proof.Machine
end

section
/-!
The value ranges of the term slots (R19), slot by slot in one form.
-/
namespace Sys2Proof.Machine

/-- The least value of a slot (R19). -/
def SlotId.low : SlotId → Int
  | .fade _ | .bal _ => -512
  | .vol _ | .pace _ | .dip _ _ | .link _ | .node => 0

/-- The largest value of a slot (R19). -/
def SlotId.high : SlotId → Int
  | .vol _ | .dip _ _ | .node => 1600
  | .fade _ | .bal _ => 512
  | .pace _ => 192
  | .link _ => 384

theorem SlotId.low_nonpos (i : SlotId) : i.low ≤ 0 := by cases i <;> simp [SlotId.low]

theorem SlotId.high_nonneg (i : SlotId) : 0 ≤ i.high := by cases i <;> simp [SlotId.high]

/-- Every slot is in the range of its kind. -/
def State.SlotsInRange (s : State) : Prop := ∀ i, (s.slot i).Within i.low i.high

/-- The curves the pace unit holds are admitted ones (R59). -/
def State.CurvesAdmitted (s : State) : Prop :=
  ∀ cs, s.pace.curves = some cs → ∀ z : Zone,
    (∀ k : Fin 8, cs[z][k].boost ≤ 192) ∧ ∀ j k : Fin 8, j < k → cs[z][j].speed < cs[z][k].speed

theorem State.rangeLaw_iff (s : State) : s.RangeLaw ↔ s.SlotsInRange ∧ s.CurvesAdmitted := by
  constructor
  · intro h
    refine ⟨fun i => ?_, h.curves⟩
    cases i with
    | vol z => exact h.vol z
    | fade z => exact h.fade z
    | bal z => exact h.bal z
    | pace z => exact h.pace z
    | dip z k => exact h.dip z k
    | link g => exact h.link g
    | node => exact h.node
  · rintro ⟨hslots, hcurves⟩
    exact ⟨fun z => hslots (.vol z), fun z => hslots (.fade z), fun z => hslots (.bal z), fun z => hslots (.pace z),
      fun z k => hslots (.dip z k), fun g => hslots (.link g), hslots .node, hcurves⟩

theorem TermSlot.idleAt_within {v lo hi : Int} (hlo : lo ≤ v) (hhi : v ≤ hi) : (TermSlot.idleAt v).Within lo hi :=
  ⟨hlo, hhi, hlo, hhi⟩

/-- NODE at 1600 and every other slot at 0 are in range (R19). -/
theorem State.slotsInRange_of_initial {s : State} (h : ∀ i, s.slot i = TermSlot.idleAt (if i = .node then 1600 else 0)) :
    s.SlotsInRange := fun i => by
  rw [h]
  split
  · next hi => subst hi; exact TermSlot.idleAt_within (by decide) le_rfl
  · exact TermSlot.idleAt_within i.low_nonpos i.high_nonneg

end Sys2Proof.Machine
end

section
/-!
The values of reset and of HELD (R33, R40, R87, R102, R138, R145): every block's, read part by part.
-/
namespace Sys2Proof.Machine

/-! ### The values of reset, read part by part -/

theorem initialChannels_get (c : Channel) : initialChannels[c] =
    .initial (.builtIn ⟨c.val / 2, by omega⟩ ⟨c.val, by omega⟩) := by
  fin_cases c <;> rfl

theorem Library.initial_line (l : LineRef) : Library.initial.sets[l.set].ways[l.way] = .blank := by
  simp [Library.initial]

theorem State.slot_initial {s : State} (h : s.ramp = .initial) (i : SlotId) :
    s.slot i = TermSlot.idleAt (if i = .node then 1600 else 0) := RampEngine.slot_initial s (by rw [h]) i

/-! ### HELD -/

/-- The node in HELD before its first block starts. -/
def State.holding (code : FaultCode) (s : State) : State :=
  { s with
    node := { s.node with state := .held, ampOn := false, settle := none, linkSilence := none }
    loader := { s.loader with fault := code, stage := .done, header := [] }
    ramp := .initial
    image := Vector.replicate 4 .initial
    pace := .initial
    table := []
    laws := none
    channels := initialChannels
    emission := { Emission.initial with age := 500 }
    library := { Library.initial with flash := s.library.flash, mosi := s.library.mosi }
    ports := { s.ports with outRunning := true } }

theorem State.enterHeld_eq (code : FaultCode) (s : State) : s.enterHeld code = (s.holding code).blockStart := rfl

/-- NODE at 1600 mutes every channel of HELD, and no limiter reduces. -/
theorem State.compose_holding (code : FaultCode) (s : State) (c : Channel) :
    (s.holding code).compose c = { aPre := 1600, rApp := 0, total := 1600 } := by
  have hchannel : (s.holding code).channel c = _ := initialChannels_get c
  obtain ⟨hpre, htotal⟩ := State.compose_mute (s := s.holding code) (c := c) (by
    rw [State.slot_initial rfl, State.slot_initial rfl]
    exact le_rfl)
  have happ := State.compose_rApp_none (s := s.holding code) (c := c) (by rw [hchannel]; rfl)
  rw [hchannel] at happ
  generalize (s.holding code).compose c = m at *
  obtain ⟨a, r, t⟩ := m
  simp only [Composed.mk.injEq]
  exact ⟨hpre, happ, htotal⟩

theorem State.channel_enterHeld (code : FaultCode) (s : State) (c : Channel) : (s.enterHeld code).channel c =
    { ChannelState.initial (.builtIn ⟨c.val / 2, by omega⟩ ⟨c.val, by omega⟩) with
      composed := some { aPre := 1600, rApp := 0, total := 1600 } } := by
  have hchannel : (s.holding code).channel c = _ := initialChannels_get c
  rw [State.enterHeld_eq, State.channel_blockStart, State.compose_holding, hchannel]
  rfl

/-- The entry to HELD gives every block its HELD values (R33, R40, R63, R83, R87, R126, R145, R161). -/
theorem State.enterHeld_heldWith (code : FaultCode) (s : State) : State.HeldWith code s (s.enterHeld code) := by
  have hrest : s.enterHeld code = { s.holding code with
      channels := (s.enterHeld code).channels
      ports := { (s.holding code).ports with blockFrames := 0, nodeStepped := false } } := State.blockStart_rest _
  have hchannel := s.channel_enterHeld code
  have hline : ∀ l, (s.enterHeld code).line l = .blank := fun l => by
    rw [State.line, hrest]; exact Library.initial_line l
  generalize s.enterHeld code = t at *
  exact {
    node := by rw [hrest]; rfl
    loader := by rw [hrest]; rfl
    slots := State.slot_initial (by rw [hrest]; rfl)
    profile := by rw [hrest]; exact ⟨rfl, rfl⟩
    image := fun z => by rw [hrest]; simp [State.holding, ZoneImage.initial]
    pace := by
      rw [hrest]
      exact ⟨rfl, rfl, rfl, rfl, fun z => by simp [State.holding, PaceUnit.initial], rfl⟩
    table := by rw [hrest]; rfl
    record := fun c => by rw [hchannel]; rfl
    limiter := fun c => by rw [hchannel]; exact ⟨rfl, rfl⟩
    context := fun c => by rw [hchannel]; exact ⟨rfl, rfl, rfl, rfl⟩
    composed := fun c => by rw [hchannel]
    emission := by rw [hrest]; simp [State.holding, Emission.initial]
    library := by
      refine ⟨by rw [hrest]; rfl, by rw [hrest]; rfl, by rw [hrest]; rfl, by rw [hrest]; rfl, by rw [hrest]; rfl, fun l => ?_⟩
      rw [hline]
      exact ⟨rfl, rfl⟩
    flash := by rw [hrest]; exact ⟨rfl, rfl⟩
    ports := by rw [hrest]; rfl
    kept := by rw [hrest]; exact ⟨rfl, rfl, rfl⟩ }

/-- The use of the free values that goes with the entry is no part of what HELD gives. -/
theorem State.HeldWith.of_drawn {code : FaultCode} {s t : State} (h : State.HeldWith code s.drawn t) :
    State.HeldWith code s t := { h with }

/-- Settles O7: an image that fails a check leads to HELD under that check's code. -/
theorem imageReadRejectsABadImage : Obligations.ImageReadRejectsABadImage := by
  intro s rest code hr hst hstage hcheck
  have hload : s.drawn.loading .image = true := by
    simp [State.loading, hr, hst, hstage]
  refine ⟨_, ?_, (s.drawn.enterHeld_heldWith code).of_drawn⟩
  simp only [exec, execImageRead, State.takeImageRead, hload, if_true, State.drawn_loader, hcheck]

/-! ### The release of a reset -/

/-- A node at its reset values: what may differ is the cause, the station, the holds, the flash and its last command, and
the model's own counter and queue. -/
def State.resetTo (cause : ResetCause) (station : Station) (supply pin : Bool) (flash : FlashPower) (mosi : List Byte)
    (draws : Nat) (pending : List Instr) : State :=
  { State.underReset cause station supply pin with
    library := { Library.initial with flash := flash, mosi := mosi }, draws := draws, pending := pending }

theorem State.reset_eq : State.reset = State.resetTo .powerOn 0 false false .releasing [0xAB#8] 0 [] := rfl

theorem State.assertReset_eq (cause : ResetCause) (s : State) : s.assertReset cause =
    State.resetTo s.node.cause s.loader.station (s.node.supplyHold || cause == .powerOn) (s.node.pinHold || cause == .pin)
      .poweredDown [] s.draws s.pending := rfl

theorem State.releaseReset_eq (straps : BitVec 4) (s : State) : s.releaseReset straps =
    if s.inReset then State.resetTo s.node.recordedCause ⟨straps.toNat, straps.isLt⟩ false false .releasing [0xAB#8]
      s.draws s.pending
    else s := rfl

section
variable {cause : ResetCause} {station : Station} {supply pin : Bool} {flash : FlashPower} {mosi : List Byte}
  {draws : Nat} {pending : List Instr}

theorem State.slot_resetTo (i : SlotId) : (State.resetTo cause station supply pin flash mosi draws pending).slot i =
    TermSlot.idleAt (if i = .node then 1600 else 0) := State.slot_initial rfl i

theorem State.channel_resetTo (c : Channel) :
    (State.resetTo cause station supply pin flash mosi draws pending).channel c =
      .initial (.builtIn ⟨c.val / 2, by omega⟩ ⟨c.val, by omega⟩) := initialChannels_get c

theorem State.line_resetTo (l : LineRef) :
    (State.resetTo cause station supply pin flash mosi draws pending).line l = .blank := Library.initial_line l

theorem State.image_resetTo (z : Zone) :
    (State.resetTo cause station supply pin flash mosi draws pending).image[z] = .initial := by
  simp [State.resetTo, State.underReset]

theorem State.stations_resetTo (st : Station) :
    (State.resetTo cause station supply pin flash mosi draws pending).link.stations[st] =
      { present := false, age := 0 } := by
  simp [State.resetTo, State.underReset, LinkInterface.initial]

theorem State.own_resetTo (g : Group) :
    (State.resetTo cause station supply pin flash mosi draws pending).emission.own[g] = 0 ∧
      (State.resetTo cause station supply pin flash mosi draws pending).emission.sent[g] = 0 := by
  simp [State.resetTo, State.underReset, Emission.initial]

theorem State.slotLaw_resetTo : (State.resetTo cause station supply pin flash mosi draws pending).SlotLaw := fun i => by
  rw [State.slot_resetTo]; exact TermSlot.idleAt_sound _

theorem State.counterLaw_resetTo : (State.resetTo cause station supply pin flash mosi draws pending).CounterLaw where
  link i := by simp [State.resetTo, State.underReset, Statistics.initial]
  channel c i := by simp [State.resetTo, State.underReset, Statistics.initial]
  cache i := by simp [State.resetTo, State.underReset, Statistics.initial]

theorem State.limiterLaw_resetTo : (State.resetTo cause station supply pin flash mosi draws pending).LimiterLaw where
  reduction c := by rw [State.channel_resetTo]; exact Nat.zero_le _
  own g := by rw [(State.own_resetTo _).1]; exact Nat.zero_le _
  sent g := by rw [(State.own_resetTo _).2]; exact Nat.zero_le _
  age := Nat.zero_le _

theorem State.queueLaw_resetTo : (State.resetTo cause station supply pin flash mosi draws pending).QueueLaw where
  size := Nat.zero_le _
  headroom := Nat.zero_le _
  errors := Nat.zero_lt_succ _
  dormant := nofun
  frame := nofun

theorem State.nodeLaw_resetTo : (State.resetTo cause station supply pin flash mosi draws pending).NodeLaw where
  amp := rfl
  target := by rw [State.slot_resetTo]; rfl
  sound := State.slotLaw_resetTo _
  silent _ _ := State.slot_resetTo _
  clocks := by simp [State.resetTo, State.underReset, AudioPorts.initial]
  zeros _ := rfl

theorem State.tableLaw_resetTo : (State.resetTo cause station supply pin flash mosi draws pending).TableLaw where
  size := Nat.zero_le _
  keys := List.nodup_nil
  entries := nofun

theorem State.targetLaw_resetTo : (State.resetTo cause station supply pin flash mosi draws pending).TargetLaw where
  dip z k := by rw [State.slot_resetTo]; exact dipTarget_is [] z k
  link g := by
    rw [State.slot_resetTo, (State.own_resetTo _).1]
    exact linkTarget_is 0 [] g
  start _ := ⟨rfl, rfl⟩

theorem ZoneImage.initial_sound (station : Station) : ZoneImage.initial.Sound station where
  volume := le_rfl
  maximum := le_rfl
  fade := by decide
  balance := by decide
  size := Nat.zero_le _
  origins := List.nodup_nil
  own := nofun

theorem State.imageLaw_resetTo : (State.resetTo cause station supply pin flash mosi draws pending).ImageLaw where
  sound z := by rw [State.image_resetTo]; exact ZoneImage.initial_sound _
  volume z := by rw [State.image_resetTo, State.slot_resetTo]; rfl
  fade z := by rw [State.image_resetTo, State.slot_resetTo]; rfl
  balance z := by rw [State.image_resetTo, State.slot_resetTo]; rfl

theorem State.presenceLaw_resetTo : (State.resetTo cause station supply pin flash mosi draws pending).PresenceLaw where
  own := by rw [State.stations_resetTo]
  entries := nofun
  origins z r hr := by rw [State.image_resetTo] at hr; cases hr
  owed := nofun

theorem State.rangeLaw_resetTo : (State.resetTo cause station supply pin flash mosi draws pending).RangeLaw :=
  (State.rangeLaw_iff _).mpr ⟨State.slotsInRange_of_initial State.slot_resetTo, nofun⟩

theorem State.cacheLaw_resetTo : (State.resetTo cause station supply pin flash mosi draws pending).CacheLaw where
  pins := by
    refine ⟨fun l => ?_, fun l hl => ?_⟩
    · rw [State.line_resetTo]; rfl
    · rw [State.line_resetTo] at hl; cases hl
  keys := by
    refine ⟨fun l hl => ?_, fun l m _ hl => ?_⟩
    · rw [State.line_resetTo] at hl; exact absurd rfl hl
    · rw [State.line_resetTo] at hl; exact absurd rfl hl
  fills := {
    size := Nat.zero_le _
    keys := List.nodup_nil
    queued := nofun
    flying := nofun
    filling := fun l hl => by rw [State.line_resetTo] at hl; cases hl }
  waiting c l hc := by rw [State.channel_resetTo] at hc; cases hc
  queued c hc := by rw [State.channel_resetTo] at hc; cases hc
  lineless := nofun
  start _ := ⟨rfl, rfl, fun l => by rw [State.line_resetTo]; exact ⟨rfl, rfl⟩⟩
  dormant := nofun
  sources _ w := by cases w <;> rfl

end

/-- Settles O55: the reset values meet every law. -/
theorem resetMeetsTheLaws : Obligations.ResetMeetsTheLaws := by
  unfold Obligations.ResetMeetsTheLaws
  rw [State.reset_eq]
  exact ⟨State.nodeLaw_resetTo, State.slotLaw_resetTo, State.counterLaw_resetTo, State.limiterLaw_resetTo,
    State.queueLaw_resetTo, State.tableLaw_resetTo, State.targetLaw_resetTo, State.imageLaw_resetTo,
    State.presenceLaw_resetTo, State.rangeLaw_resetTo, State.cacheLaw_resetTo⟩

/-- Settles O4: the blocks at their reset values, with the cause and the straps taken at the release. -/
theorem resetReleaseGivesResetValues : Obligations.ResetReleaseGivesResetValues := by
  intro straps s hr
  refine ⟨State.resetTo s.node.recordedCause ⟨straps.toNat, straps.isLt⟩ false false .releasing [0xAB#8] s.draws s.pending,
    ?_, rfl, rfl, rfl, rfl, State.slot_resetTo, rfl, rfl, State.image_resetTo, rfl, rfl, rfl, rfl, fun z => ?bands, rfl,
    fun c => ?channels, State.own_resetTo, rfl, fun l => ?lines, fun i => ?pointers, rfl, rfl, rfl, rfl, rfl, rfl, rfl,
    rfl, rfl, rfl, rfl, rfl, rfl, rfl, rfl, State.stations_resetTo, fun i => ?link, fun c i => ?channelCounters,
    fun i => ?cache⟩
  · simp only [exec, execResetRelease, State.releaseReset_eq, hr, if_true]
  case channels => rw [State.channel_resetTo]; exact ⟨rfl, rfl, rfl, rfl, rfl, rfl, rfl, rfl, rfl, rfl⟩
  case lines => rw [State.line_resetTo]; exact ⟨rfl, rfl⟩
  all_goals simp [State.resetTo, State.underReset, PaceUnit.initial, Library.initial, Statistics.initial]

end Sys2Proof.Machine
end

section
/-!
Written targets, movements and the NODE slot at an audio loss (R21 to R30, R36): what one write and one step do, and how
many steps a movement takes.
-/
namespace Sys2Proof.Machine

/-! ### A written target (R22) -/

theorem TermSlot.write_current_value {t : TermSlot} {v : Int} (e : Option (Fin 32)) (f : Fin 32 → Nat)
    (ht : v ≠ t.target) (hc : v = t.current) : t.write e f v = TermSlot.idleAt v := by
  unfold TermSlot.write
  rw [if_neg ht, if_pos hc]

theorem TermSlot.write_pending {t : TermSlot} {v : Int} (f : Fin 32 → Nat) (ht : v ≠ t.target) (hc : v ≠ t.current) :
    t.write none f v = { t with target := v, active := none, blocksLeft := 0 } := by
  rw [TermSlot.write, if_neg ht, if_neg hc]

theorem TermSlot.write_ramp {t : TermSlot} {v : Int} (r : Fin 32) (f : Fin 32 → Nat) (ht : v ≠ t.target)
    (hc : v ≠ t.current) : t.write (some r) f v = { t with target := v, active := some r, blocksLeft := f r } := by
  rw [TermSlot.write, if_neg ht, if_neg hc]

/-- Settles O48: the cause is the slot's own, and the write takes one of R22's three ways. -/
theorem writtenTargetMeetsItsSlot : Obligations.WrittenTargetMeetsItsSlot := by
  refine ⟨by decide, ?_⟩
  rintro s t id v k rfl hvol hfade hpace hdip hlink hnode
  have hk : k = causeOf id (s.slot id).current v := by
    cases id with
    | vol z => exact hvol ⟨z, rfl⟩
    | fade z => exact hfade ⟨z, .inl rfl⟩
    | bal z => exact hfade ⟨z, .inr rfl⟩
    | pace z => exact hpace ⟨z, rfl⟩
    | dip z c => exact hdip ⟨z, c, rfl⟩
    | link g => exact hlink ⟨g, rfl⟩
    | node => exact hnode rfl
  rw [State.slot_writeTarget_same, ← hk]
  refine ⟨fun i hi => State.slot_writeTarget_other s (Ne.symm hi) v, rfl, rfl, fun h => ?_,
    TermSlot.write_current_value _ _, fun ht hc => ⟨fun hp => ?_, fun p hp => ⟨fun hv => ?_, fun r hv => ?_⟩⟩⟩
  · rw [h, TermSlot.write_same]
  · rw [RampEngine.entry, hp]
    exact TermSlot.write_pending _ ht hc
  · rw [show s.ramp.entry k = none by rw [RampEngine.entry, hp]; exact hv]
    exact TermSlot.write_pending _ ht hc
  · rw [show s.ramp.entry k = some r by rw [RampEngine.entry, hp]; exact hv, TermSlot.write_ramp _ _ ht hc,
      RampEngine.record, hp]

/-! ### Steps (R24, R25, R26) -/

/-- A step of a slot without an active record puts it at its target, idle, or finds it there. -/
theorem TermSlot.step_inactive {t : TermSlot} (record : Fin 32 → RampRecord) (h : t.active = none) :
    t.step record = TermSlot.idleAt t.target ∨ t.step record = t ∧ t.current = t.target := by
  rw [TermSlot.step, h]
  dsimp only
  split
  · next hc => exact .inr ⟨rfl, hc⟩
  · exact .inl rfl

/-- A ramp step that reaches the target ends the movement (R24). -/
theorem TermSlot.step_arrives {t : TermSlot} {record : Fin 32 → RampRecord} {r : Fin 32} (h : t.active = some r)
    (hd : (t.target - t.current).natAbs ≤ (record r).rate) : t.step record = TermSlot.idleAt t.target := by
  rw [TermSlot.step, h]
  exact if_pos hd

/-- A ramp step on the way (R24), with its chain load (R25). -/
theorem TermSlot.step_moves {t : TermSlot} {record : Fin 32 → RampRecord} {r : Fin 32} (h : t.active = some r)
    (hd : (record r).rate < (t.target - t.current).natAbs) :
    (t.step record).current = moveToward t.current t.target (record r).rate ∧
    ((record r).chain = none → (t.step record).active = some r) ∧
    (∀ c, (record r).chain = some c →
      (t.blocksLeft - 1 = 0 → (t.step record).active = some c ∧ (t.step record).blocksLeft = (record c).span) ∧
      (t.blocksLeft - 1 ≠ 0 → (t.step record).active = some r ∧ (t.step record).blocksLeft = t.blocksLeft - 1)) := by
  rw [TermSlot.step, h]
  dsimp only
  rw [if_neg (Nat.not_le.mpr hd)]
  cases (record r).chain with
  | none => exact ⟨rfl, fun _ => rfl, nofun⟩
  | some c =>
    dsimp only
    split
    · next hb => exact ⟨rfl, nofun, fun c' hc => by cases hc; exact ⟨fun _ => ⟨rfl, rfl⟩, fun hn => absurd hb hn⟩⟩
    · next hb => exact ⟨rfl, nofun, fun c' hc => by cases hc; exact ⟨fun hz => absurd hz hb, fun _ => ⟨rfl, rfl⟩⟩⟩

/-- A move short of the target brings it nearer by the rate, on the same side. -/
theorem moveToward_short {c t : Int} {q : Nat} (h : q < (t - c).natAbs) :
    (t - moveToward c t q).natAbs = (t - c).natAbs - q ∧ (c < t ↔ moveToward c t q < t) := by
  unfold moveToward
  split <;> omega

theorem TermSlot.iterate_step_target (record : Fin 32 → RampRecord) (t : TermSlot) (n : Nat) :
    ((TermSlot.step record)^[n] t).target = t.target := by
  induction n with
  | zero => rfl
  | succ n ih => rw [Function.iterate_succ_apply', TermSlot.step_target, ih]

/-- Steps after the target is reached change nothing. -/
theorem TermSlot.iterate_step_idle {record : Fin 32 → RampRecord} {t : TermSlot} {n : Nat}
    (h : (TermSlot.step record)^[n] t = TermSlot.idleAt t.target) :
    (TermSlot.step record)^[n + 1] t = TermSlot.idleAt t.target := by
  rw [Function.iterate_succ_apply', h, TermSlot.step_idleAt]

/-- On an unchained record n steps cover n times the rate, until the target is reached. -/
theorem TermSlot.iterate_step_unchained {record : Fin 32 → RampRecord} {t : TermSlot} {r : Fin 32}
    (ha : t.active = some r) (hd : 1 ≤ (t.target - t.current).natAbs) (hc : (record r).chain = none) (n : Nat) :
    ((t.target - t.current).natAbs ≤ n * (record r).rate →
      (TermSlot.step record)^[n] t = TermSlot.idleAt t.target) ∧
    (n * (record r).rate < (t.target - t.current).natAbs →
      (t.target - ((TermSlot.step record)^[n] t).current).natAbs = (t.target - t.current).natAbs - n * (record r).rate ∧
      ((TermSlot.step record)^[n] t).active = some r ∧
      (t.current < t.target ↔ ((TermSlot.step record)^[n] t).current < t.target)) := by
  induction n with
  | zero => exact ⟨fun h => by omega, fun _ => ⟨by simp, ha, Iff.rfl⟩⟩
  | succ n ih =>
    obtain ⟨ihidle, ihmoving⟩ := ih
    have htarget := TermSlot.iterate_step_target record t n
    rw [Nat.succ_mul]
    by_cases hn : (t.target - t.current).natAbs ≤ n * (record r).rate
    · exact ⟨fun _ => TermSlot.iterate_step_idle (ihidle hn), fun h => by omega⟩
    obtain ⟨hdist, hactive, hside⟩ := ihmoving (by omega)
    rw [Function.iterate_succ_apply']
    generalize (TermSlot.step record)^[n] t = x at *
    refine ⟨fun h => ?_, fun h => ?_⟩
    · rw [TermSlot.step_arrives hactive (by rw [htarget]; omega), htarget]
    · have hshort : (record r).rate < (x.target - x.current).natAbs := by rw [htarget]; omega
      obtain ⟨hcurrent, hstays, -⟩ := TermSlot.step_moves hactive hshort
      obtain ⟨hnear, hsame⟩ := moveToward_short hshort
      rw [htarget] at hcurrent hnear hsame
      rw [hcurrent]
      exact ⟨by omega, hstays hc, hside.trans hsame⟩

/-- On a chained record the steps of its span cover their rates, unless the target is reached sooner, and the last of them
loads the chain (R25). -/
theorem TermSlot.iterate_step_chained {record : Fin 32 → RampRecord} {t : TermSlot} {r c : Fin 32}
    (ha : t.active = some r) (hd : 1 ≤ (t.target - t.current).natAbs) (hc : (record r).chain = some c)
    (hb : 1 ≤ t.blocksLeft) {n : Nat} (hn : n ≤ t.blocksLeft) :
    ((t.target - t.current).natAbs ≤ n * (record r).rate →
      (TermSlot.step record)^[n] t = TermSlot.idleAt t.target) ∧
    (n * (record r).rate < (t.target - t.current).natAbs →
      (t.target - ((TermSlot.step record)^[n] t).current).natAbs = (t.target - t.current).natAbs - n * (record r).rate ∧
      (n < t.blocksLeft → ((TermSlot.step record)^[n] t).active = some r ∧
        ((TermSlot.step record)^[n] t).blocksLeft = t.blocksLeft - n) ∧
      (n = t.blocksLeft → ((TermSlot.step record)^[n] t).active = some c ∧
        ((TermSlot.step record)^[n] t).blocksLeft = (record c).span)) := by
  induction n with
  | zero => exact ⟨fun h => by omega, fun _ => ⟨by simp, fun _ => ⟨ha, rfl⟩, fun h => by omega⟩⟩
  | succ n ih =>
    obtain ⟨ihidle, ihmoving⟩ := ih (by omega)
    have htarget := TermSlot.iterate_step_target record t n
    rw [Nat.succ_mul]
    by_cases hreached : (t.target - t.current).natAbs ≤ n * (record r).rate
    · exact ⟨fun _ => TermSlot.iterate_step_idle (ihidle hreached), fun h => by omega⟩
    obtain ⟨hdist, hrunning, -⟩ := ihmoving (by omega)
    obtain ⟨hactive, hleft⟩ := hrunning (by omega)
    rw [Function.iterate_succ_apply']
    generalize (TermSlot.step record)^[n] t = x at *
    refine ⟨fun h => ?_, fun h => ?_⟩
    · rw [TermSlot.step_arrives hactive (by rw [htarget]; omega), htarget]
    · have hshort : (record r).rate < (x.target - x.current).natAbs := by rw [htarget]; omega
      obtain ⟨hcurrent, -, hchain⟩ := TermSlot.step_moves hactive hshort
      obtain ⟨hload, hcount⟩ := hchain c hc
      have hnear := (moveToward_short hshort).1
      rw [htarget] at hcurrent hnear
      rw [hcurrent]
      refine ⟨by omega, fun hlt => ?_, fun heq => hload (by omega)⟩
      obtain ⟨hr, hb'⟩ := hcount (by omega)
      exact ⟨hr, by omega⟩

/-- Settles O49: by induction on the number of steps, on one record and on a chained one. -/
theorem movementsTakeTheirSteps : Obligations.MovementsTakeTheirSteps := by
  intro record t
  refine ⟨TermSlot.step_inactive record, ?_⟩
  rintro r d q ha rfl rfl - hd
  refine ⟨fun hc n => ?_, fun c hc hb n hn => ?_⟩
  · obtain ⟨hidle, hmoving⟩ := TermSlot.iterate_step_unchained ha hd hc n
    refine ⟨_, rfl, TermSlot.iterate_step_target record t n, ⟨fun h => ?_, fun h => by rw [hidle h]; rfl⟩, hidle, hmoving⟩
    by_contra hlt
    obtain ⟨hdist, -, -⟩ := hmoving (by omega)
    rw [h] at hdist
    omega
  · exact ⟨_, rfl, TermSlot.iterate_step_target record t n, TermSlot.iterate_step_chained ha hd hc hb hn⟩

end Sys2Proof.Machine
end

section
/-!
Audio loss, audio return and the wake (R30, R32, R131, R133 to R135, R139, R141, R155).
-/
namespace Sys2Proof.Machine

/-! ### Audio loss (R134) -/

theorem State.setSlot_setSlot (s : State) (i : SlotId) (t u : TermSlot) :
    (s.setSlot i t).setSlot i u = s.setSlot i u := by
  simp [State.setSlot]

/-- While input audio is lost the NODE target is 1600 in every state, and the forced value rests there. -/
theorem State.mute_of_lost {s : State} (h : s.ports.presence = .lost) :
    s.formNodeTarget.forceNodeMute = s.setSlot .node (TermSlot.idleAt 1600) := by
  have htarget : (s.formNodeTarget.slot .node).target = 1600 := by
    rw [State.formNodeTarget, State.slot_writeTarget_same, TermSlot.write_target, nodeTarget, h]
    exact if_neg fun hc => by cases hc.2
  have hforce : (s.formNodeTarget.slot .node).force 1600 = TermSlot.idleAt 1600 := by
    rw [← htarget]; exact TermSlot.force_target_value _
  rw [State.forceNodeMute, hforce]
  exact State.setSlot_setSlot ..

/-- An audio loss: the NODE slot rests at 1600, the output carries zeros, the loss is counted (R30, R134, R139). -/
theorem State.audioLoss_eq (s : State) : s.audioLoss = { s.setSlot .node (TermSlot.idleAt 1600) with
    ports := { s.ports with presence := .lost, goodFrames := 0, outFrame := zeroFrame }
    stats := (s.countCache .audioLosses).stats } := by
  unfold State.audioLoss
  dsimp only
  rw [State.mute_of_lost rfl, State.countCache]
  unfold State.countCache
  rw [State.setSlot_dormant, State.setPorts_dormant]
  split <;> rfl

theorem goodSync_iff (seen : Bool) (interval : Nat) :
    goodSync seen interval = true ↔ seen = true ∧ 20000 ≤ interval ∧ interval ≤ 21740 := by
  simp [goodSync, and_assoc]

/-- Settles O10: both events are an audio loss after the mark of the frame sync. -/
theorem audioLossMutesTheNode : Obligations.AudioLossMutesTheNode := by
  intro s c hr hp hc
  have hloss : exec c s = .next (s.setPorts { s.ports with syncSeen := c != .frameSyncGap }).audioLoss := by
    rcases hc with ⟨interval, slots, rfl, hbad⟩ | rfl
    · have hgood : goodSync s.ports.syncSeen interval = false := by
        rw [← Bool.not_eq_true, goodSync_iff]; exact hbad
      simp only [exec, execFrameSync, State.takeSync_present hr hp, hgood]
      rfl
    · simp only [exec, execFrameSyncGap, State.takeGap, hr, hp]
      rfl
  refine ⟨_, hloss, ?_⟩
  generalize (c != .frameSyncGap) = seen
  rw [State.audioLoss_eq]
  have hstats : ((s.setPorts { s.ports with syncSeen := seen }).countCache .audioLosses).stats =
      (s.countCache .audioLosses).stats := by
    unfold State.countCache
    rw [State.setPorts_dormant]
    split <;> rfl
  rw [hstats]
  exact ⟨rfl, rfl, State.slot_setSlot_same s .node _, fun i hi => State.slot_setSlot_other s (Ne.symm hi) _, rfl⟩

/-! ### Audio return (R135) -/

theorem State.takeSync_lost {s : State} (hr : s.inReset = false) (hp : s.ports.presence = .lost) (stepFirst : Bool)
    (interval : Nat) (slots : Vector SlotWord 16) : s.takeSync stepFirst interval slots =
      (s.setPorts { s.ports with syncSeen := true }).syncLost stepFirst (goodSync s.ports.syncSeen interval) := by
  rw [State.takeSync, if_neg (by simp [hr]), hp]

theorem nodeTarget_present (st : NodeState) : nodeTarget st .present = if st = .active then 0 else 1600 := by
  simp [nodeTarget]

/-- Settles O11: the count of good frame syncs while input audio is lost, and the return at the 48th. -/
theorem goodSyncsBringAudioBack : Obligations.GoodSyncsBringAudioBack := by
  intro s interval slots hr hp
  have hexec : exec (.frameSync interval slots) s = .next ((s.setPorts { s.ports with syncSeen := true }).syncLost
      (Config.nodeStepFirst s.draws) (goodSync s.ports.syncSeen interval)) := by
    simp only [exec, execFrameSync, State.takeSync_lost hr hp]
  refine ⟨fun hseen hlo hhi hcount => ?_, fun hseen hlo hhi hcount => ?_, fun hbad => ?_, ?_⟩
  · have hgood : goodSync s.ports.syncSeen interval = true := (goodSync_iff _ _).mpr ⟨hseen, hlo, hhi⟩
    rw [hexec, hgood, State.syncLost, if_pos rfl, if_neg (by rw [State.setPorts_ports]; dsimp only; omega), ← hseen]
    rfl
  · have hgood : goodSync s.ports.syncSeen interval = true := (goodSync_iff _ _).mpr ⟨hseen, hlo, hhi⟩
    have hmark : s.setPorts { s.ports with syncSeen := true } = s := by rw [← hseen]; rfl
    obtain ⟨early, u, hearly, hu, hreturn⟩ := s.audioReturn_spec (Config.nodeStepFirst s.draws)
    refine ⟨early, u, hu, fun h => ?_, ?_⟩
    · rcases h with h | h <;> simp [hearly, h]
    · rw [hexec, hgood, hmark, State.syncLost, if_pos rfl, if_pos (by omega), hreturn, nodeTarget_present]
      rfl
  · have hgood : goodSync s.ports.syncSeen interval = false := by
      rw [← Bool.not_eq_true, goodSync_iff]; exact hbad
    rw [hexec, hgood]
    rfl
  · simp only [exec, execFrameSyncGap, State.takeGap, hr, hp]
    rfl

/-! ### The wake (R131, R141) -/

/-- The library port at the wake: a pending power-down is cancelled, or a powered-down flash released (R131). -/
theorem Library.wake_rest (l : Library) :
    l.wake = { l with flash := l.wake.flash, mosi := l.wake.mosi, downPending := false } := by
  unfold Library.wake
  split
  · rfl
  · next hd =>
    have hd' : l.downPending = false := by simpa using hd
    split
    · simp [Library.release, hd']
    · rw [← hd']

theorem Library.wake_cancels {l : Library} (h : l.downPending = true) : l.wake = { l with downPending := false } :=
  if_pos h

theorem Library.wake_releases {l : Library} (h : l.downPending = false) (hf : l.flash = .poweredDown) :
    l.wake = l.release := by rw [Library.wake, h, hf]; rfl

theorem Library.wake_stays {l : Library} (h : l.downPending = false) (hf : l.flash ≠ .poweredDown) : l.wake = l := by
  rw [Library.wake, h, if_neg hf]; rfl

/-- The state at the wake, before the channels' evaluations. -/
def State.woken (s : State) : State :=
  { s with
    node := { s.node with state := .waking, ampOn := true, settle := some 50, linkSilence := some 5000 }
    ramp := s.settleSlots.ramp
    emission := { s.emission with age := 500 }
    link := s.link.restartAges
    library := s.library.wake }

theorem State.wake_eq (ord : List Channel) (s : State) : s.wake ord = s.woken.inTurn State.evaluate ord := by
  simp only [State.wake, State.woken, State.enterWaking, State.setNode, State.setEmission, State.setLink, State.settleSlots]

theorem State.slot_woken (s : State) (i : SlotId) :
    s.woken.slot i = if i = .node then s.slot i else TermSlot.idleAt (s.slot i).target := s.slot_settleSlots i

theorem LinkInterface.restartAges_station (l : LinkInterface) (i : Station) : l.restartAges.stations[i] =
    if l.stations[i].present = true then { l.stations[i] with age := 0 } else l.stations[i] := by
  simp [LinkInterface.restartAges]

/-- A wake cue that ends DORMANT is heard without being counted (R162; log 13). -/
theorem State.heard_dormant_eq {s : State} (h : s.node.state = .dormant) (o : Station) : s.heard o =
    { s with link := { s.link with inFrame := false, stations := s.link.stations.set o { present := true, age := 0 } } } := by
  have hcount : s.countLink .framesHeard = s := if_pos (by rw [State.dormant, h]; rfl)
  have htimer : (s.heard o).node.linkSilence = s.node.linkSilence := by
    rw [State.heard_linkSilence, State.awake, h]; rfl
  rw [State.heard_rest, htimer, hcount]

theorem State.receive_wake {s : State} {o : Station} (hr : s.inReset = false) (hd : s.node.state = .dormant)
    (ho : o ≠ s.loader.station) (f : State → State) : s.receive o true f = f (s.heard o) := by
  have hdormant : s.dormant = true := by rw [State.dormant, hd]; rfl
  have htaken : s.reception o true = .taken := by simp [State.reception, hr, hdormant, ho]
  rw [State.receive, htaken]

/-- Settles O41: the wake cue is heard, and the wake leaves the state in which the channels evaluate. -/
theorem wakeCueEndsDormant : Obligations.WakeCueEndsDormant := by
  intro s o hr ho hd
  obtain ⟨w, hw⟩ : ∃ w, w = (s.drawn.heard o).woken := ⟨_, rfl⟩
  obtain ⟨t, ht⟩ : ∃ t, t = w.inTurn State.evaluate (channelOrder s.draws) := ⟨_, rfl⟩
  have hexec : exec (.wakeCue o) s = .next t := by
    have hstate : (s.drawn.heard o).node.state = .dormant := by rw [State.heard_state]; exact hd
    simp only [exec, execWakeCue, State.receive_wake (s := s.drawn) hr hd ho, State.takeWake, hstate, State.wake_eq, ht, hw]
  have hheard : s.drawn.heard o = _ := State.heard_dormant_eq (s := s.drawn) hd o
  have hturns : w.CacheStep t := ht ▸ State.evaluateTurns_cacheStep _ _
  have hstation : ∀ i : Station, t.link.stations[i] = if (s.drawn.heard o).link.stations[i].present = true then
      { (s.drawn.heard o).link.stations[i] with age := 0 } else (s.drawn.heard o).link.stations[i] := fun i => by
    rw [hturns.link, hw]; exact LinkInterface.restartAges_station _ i
  have hslot : ∀ i, t.slot i = if i = .node then s.slot i else TermSlot.idleAt (s.slot i).target := fun i => by
    rw [hturns.slot, hw, State.slot_woken, State.heard_slot, State.drawn_slot]
  have hlibrary : w.library = s.library.wake := by rw [hw, hheard]; rfl
  have hflash : t.library.flash = s.library.wake.flash := by rw [hturns.library_flash, hlibrary]
  have hmosi : t.library.mosi = s.library.wake.mosi := by rw [hturns.library_mosi, hlibrary]
  have hdown : t.library.downPending = false := by rw [hturns.library_downPending, hlibrary, Library.wake_rest]
  refine ⟨t, hexec, ?rest, by rw [hslot, if_pos rfl], fun i hi => by rw [hslot, if_neg hi], ?profile, ?origin,
    fun i hi => ?others, fun h => ?cancelled, fun h hf => ?released, fun h hf => ?stays, fun c => ?channels,
    w, ⟨channelOrder s.draws, channelOrder_nodup _, mem_channelOrder _, ht⟩, ?before⟩
  case rest =>
    rw [hturns.link]
    refine hturns.rest.trans ?_
    rw [hturns.ramp, hturns.draws, hw, hheard]
    rfl
  case profile => rw [hturns.ramp, hw, hheard]; simp only [State.woken, State.settleSlots, State.drawn_ramp]
  case origin => rw [hstation, State.heard_stations, if_pos rfl]; rfl
  case others => rw [hstation, State.heard_stations, if_neg hi]; rfl
  case cancelled => rw [hdown, hflash, hmosi, Library.wake_cancels h]; exact ⟨rfl, rfl, rfl⟩
  case released => rw [hdown, hflash, hmosi, Library.wake_releases h hf]; exact ⟨rfl, rfl, rfl⟩
  case stays => rw [hdown, hflash, hmosi, Library.wake_stays h hf]; exact ⟨rfl, rfl, rfl⟩
  case channels =>
    rw [ht, State.channel_evaluateTurns, hw, hheard]
    exact ⟨rfl, rfl, rfl⟩
  case before =>
    rw [hflash, hmosi, ← Library.wake_rest, hturns.rest, hw, hheard]
    rfl

end Sys2Proof.Machine
end

section
/-!
Counters in their ranges (R162): what counts an event keeps every counter at 65,535 at most, and which operations of the
cache count at all.
-/
namespace Sys2Proof.Machine

/-! ### Which cache operations count -/

theorem State.takeIncoming_stats (s : State) (c : Channel) (l : LineRef) : (s.takeIncoming c l).stats = s.stats := rfl

theorem State.enqueueFill_stats (s : State) (e : QueueEntry) : (s.enqueueFill e).stats = s.stats := by
  unfold State.enqueueFill
  split
  · rfl
  · split
    · rfl
    · split
      · rfl
      · rw [State.wayFree_stats]; rfl

/-! ### Counted events -/

theorem bump_le {n : Nat} (h : n ≤ 65535) : bump n ≤ 65535 := by
  unfold bump; split <;> omega

namespace State.CounterLaw

theorem of_stats {s t : State} (h : s.CounterLaw) (e : t.stats = s.stats) : t.CounterLaw where
  link := by rw [e]; exact h.link
  channel := by rw [e]; exact h.channel
  cache := by rw [e]; exact h.cache

theorem countLink {s : State} (h : s.CounterLaw) (k : LinkCounter) : (s.countLink k).CounterLaw := by
  unfold State.countLink
  split
  · exact h
  · refine ⟨fun i => ?_, h.channel, h.cache⟩
    by_cases hi : k.index = i
    · subst hi; simpa using bump_le (h.link k.index)
    · have hv : (k.index : Nat) ≠ i := fun e => hi (Fin.ext e)
      simpa [hv] using h.link i

theorem countCache {s : State} (h : s.CounterLaw) (k : CacheCounter) : (s.countCache k).CounterLaw := by
  unfold State.countCache
  split
  · exact h
  · refine ⟨h.link, h.channel, fun i => ?_⟩
    by_cases hi : k.index = i
    · subst hi; simpa using bump_le (h.cache k.index)
    · have hv : (k.index : Nat) ≠ i := fun e => hi (Fin.ext e)
      simpa [hv] using h.cache i

theorem countChannel {s : State} (h : s.CounterLaw) (c : Channel) (k : ChannelCounter) :
    (s.countChannel c k).CounterLaw := by
  cases hd : s.dormant with
  | true =>
    have hsame : s.countChannel c k = s := if_pos hd
    rw [hsame]; exact h
  | false =>
    have hrest := s.countChannel_rest c k
    refine ⟨by rw [hrest]; exact h.link, fun d i => ?_, by rw [hrest]; exact h.cache⟩
    rw [State.counter_countChannel hd]
    split
    · exact bump_le (h.channel d i)
    · exact h.channel d i

theorem countBlock {s : State} (h : s.CounterLaw) (c : Channel) : (s.countBlock c).CounterLaw := by
  have hif : ∀ {u : State}, u.CounterLaw → ∀ b k, (u.countIf b c k).CounterLaw := fun {u} hu b k => by
    unfold State.countIf
    split
    · exact hu.countChannel c k
    · exact hu
  unfold State.countBlock
  split
  · exact h
  · exact hif (hif (hif (hif h _ _) _ _) _ _) _ _

theorem updateLimiters {s : State} (h : s.CounterLaw) : s.updateLimiters.CounterLaw := by
  have hblocks : ∀ (cs : List Channel) {u : State}, u.CounterLaw → (cs.foldl State.countBlock u).CounterLaw := by
    intro cs
    induction cs with
    | nil => exact fun hu => hu
    | cons c cs ih => exact fun hu => ih (hu.countBlock c)
  exact (hblocks allChannels h).of_stats (State.mapChannels_stats _ _)

theorem clearReported {s : State} (h : s.CounterLaw) (group index : Nat) : (s.clearReported group index).CounterLaw := by
  unfold State.clearReported
  split
  · exact ⟨fun i => by simp, h.channel, h.cache⟩
  · split
    · next hi =>
      refine ⟨h.link, fun c i => ?_, h.cache⟩
      by_cases hc : index = c
      · subst hc; simp
      · simpa [hc] using h.channel c i
    · exact h
  · exact ⟨h.link, h.channel, fun i => by simp⟩
  · exact h

theorem missReady {s : State} (h : s.CounterLaw) (c : Channel) (k : CoefKey) : (s.missReady c k).CounterLaw := by
  unfold State.missReady
  split
  · exact h.of_stats rfl
  · have ha := s.allocate_stats k
    generalize s.allocate k = r at ha
    obtain ⟨_ | l, u⟩ := r
    · exact (h.countCache .noWayWaits).of_stats (State.enqueueFill_stats _ _)
    · exact h.of_stats ((State.enqueueFill_stats _ _).trans ha)

theorem lookup {s : State} (h : s.CounterLaw) (c : Channel) (k : CoefKey) : (s.lookup c k).CounterLaw := by
  unfold State.lookup
  split
  · exact (h.countCache .hits).of_stats (State.takeIncoming_stats _ _ _)
  · split
    · exact (h.countCache .hits).of_stats rfl
    · split
      · exact (h.countCache .misses).missReady c k
      · exact (h.countCache .misses).of_stats rfl

theorem evaluate {s : State} (h : s.CounterLaw) (c : Channel) : (s.evaluate c).CounterLaw := by
  unfold State.evaluate
  split
  · exact h
  · split
    · exact h
    · split
      · exact h.of_stats rfl
      · split
        · exact h.of_stats rfl
        · exact h.lookup c _

theorem changeKey {s : State} (h : s.CounterLaw) (c : Channel) (k : CoefKey) : (s.changeKey c k).CounterLaw := by
  unfold State.changeKey
  split
  · exact h
  · dsimp only
    split
    · exact h.of_stats rfl
    · split
      · exact h.of_stats rfl
      · refine evaluate ?_ c
        exact h.of_stats rfl

theorem advanceCrossfade {s : State} (h : s.CounterLaw) (c : Channel) : (s.advanceCrossfade c).CounterLaw := by
  unfold State.advanceCrossfade
  split
  · exact h
  · split
    · exact h.of_stats rfl
    · refine evaluate ?_ c
      exact h.of_stats (State.unpinActive_stats _ _)

theorem inTurn {f : Channel → State → State} (hf : ∀ c (u : State), u.CounterLaw → (f c u).CounterLaw) (ord : List Channel)
    {s : State} (h : s.CounterLaw) : (s.inTurn f ord).CounterLaw := by
  induction ord generalizing s with
  | nil => exact h
  | cons c cs ih => exact ih (hf c s h)

theorem handPreset {s : State} (h : s.CounterLaw) (ord : List Channel) (z : Zone) (p : Fin 16) :
    (s.handPreset ord z p).CounterLaw := by
  refine inTurn (fun c u hu => ?_) ord h
  split
  · exact hu.changeKey c _
  · exact hu

theorem handBands {s : State} (h : s.CounterLaw) (ord : List Channel) (b a : Vector (Fin 8) 4) :
    (s.handBands ord b a).CounterLaw := by
  refine inTurn (fun c u hu => ?_) ord h
  dsimp only
  split
  · exact hu
  · exact hu.changeKey c _

theorem takeIfAttached {s : State} (h : s.CounterLaw) (l : LineRef) (c : Channel) : (s.takeIfAttached l c).CounterLaw := by
  unfold State.takeIfAttached
  split
  · exact h.of_stats (State.takeIncoming_stats _ _ _)
  · exact h

end State.CounterLaw

end Sys2Proof.Machine
end

section
/-!
Limiters, own values and the transmit queue in their ranges (R85, R89, R91, R149 to R152).
-/
namespace Sys2Proof.Machine

/-! ### Limiters and own values -/

theorem overshoot_le (peak ceiling : Nat) : overshoot peak ceiling ≤ 384 := by
  have h := (overshootFrom_spec (pow320 (2 * peak)) (pow320 (2 * ceiling + 1)) 384 0).2.1
  rwa [Nat.zero_add] at h

/-- A reduction is an overshoot or falls from one that was there before (R86). -/
theorem ChannelState.limit_reduction_le {x : ChannelState} {e : Nat} (hx : x.reduction ≤ 384) (he : e ≤ 384) :
    (x.limit e).reduction ≤ 384 := by
  rcases Nat.lt_or_ge x.reduction e with hlt | hle
  · rw [ChannelState.limit_attack hlt]; exact he
  · rcases Nat.eq_zero_or_pos x.holdCount with hh | hh
    · rw [ChannelState.limit_release hle hh]
      exact max_le he ((Nat.sub_le _ _).trans hx)
    · rw [ChannelState.limit_hold hle hh]; exact hx

theorem ChannelState.limited_reduction_le {x : ChannelState} (hx : x.reduction ≤ 384) : x.limited.reduction ≤ 384 := by
  cases hc : x.composed with
  | none => rw [ChannelState.limited_none hc]; exact hx
  | some held =>
    rw [ChannelState.limited_composed (by rw [hc]; rfl)]
    exact ChannelState.limit_reduction_le hx (overshoot_le _ _)

/-- No own value passes the largest reduction of a channel (R89). -/
theorem ownValue_le {v : Vector ChannelState 8} {n : Nat} (h : ∀ c : Channel, v[c].reduction ≤ n) (g : Group) :
    ownValue v g ≤ n := by
  rcases (ownValue_spec v g).2 with hz | ⟨c, -, -, hc⟩
  · rw [hz]; exact Nat.zero_le n
  · rw [hc]; exact h c

namespace State.LimiterLaw

theorem congr {s t : State} (h : s.LimiterLaw) (hr : ∀ c, (t.channel c).reduction = (s.channel c).reduction)
    (he : t.emission = s.emission) : t.LimiterLaw where
  reduction c := by rw [hr]; exact h.reduction c
  own := by rw [he]; exact h.own
  sent := by rw [he]; exact h.sent
  age := by rw [he]; exact h.age

theorem updateLimiters {s : State} (h : s.LimiterLaw) : s.updateLimiters.LimiterLaw where
  reduction c := by rw [State.channel_updateLimiters]; exact ChannelState.limited_reduction_le (h.reduction c)
  own := by rw [State.updateLimiters_rest]; exact h.own
  sent := by rw [State.updateLimiters_rest]; exact h.sent
  age := by rw [State.updateLimiters_rest]; exact h.age

theorem ownValues {s : State} (h : s.LimiterLaw) (g : Group) : s.ownValues[g] ≤ 384 := by
  unfold State.ownValues
  split
  · rw [Fin.getElem_fin, Vector.getElem_ofFn]
    exact ownValue_le h.reduction g
  · exact h.own g

theorem holdOwn {s : State} (h : s.LimiterLaw) {own : Vector Nat 4} (hown : ∀ g : Group, own[g] ≤ 384) :
    (s.holdOwn own).LimiterLaw where
  reduction := h.reduction
  own := hown
  sent := h.sent
  age := h.age

/-- What an emission leaves of the values: S is H or stays, the age starts again or stays (R94). -/
theorem emit {s : State} (h : s.LimiterLaw) : s.emit.LimiterLaw := by
  unfold State.emit
  split
  · unfold State.handHeadroom
    split
    · exact h
    · exact ⟨h.reduction, h.own, h.own, Nat.zero_le _⟩
  · exact h

end State.LimiterLaw

/-! ### The transmit queue -/

/-- The link interface holds at most 8 frames with one headroom cue among them and fewer than 16 consecutive errors, and no
attempt of its own runs within a frame that it receives (R147, R149 to R151). -/
structure LinkInterface.Orderly (l : LinkInterface) : Prop where
  size     : l.queue.length ≤ 8
  headroom : l.queue.countP (fun e => e.kind == .headroom) ≤ 1
  errors   : l.errors < 16
  frame    : l.inFrame = true → l.sending = none

theorem State.queueLaw_iff (s : State) :
    s.QueueLaw ↔ s.link.Orderly ∧ (s.node.state = .dormant → s.link.queue = []) :=
  ⟨fun h => ⟨⟨h.size, h.headroom, h.errors, h.frame⟩, h.dormant⟩,
    fun ⟨h, hd⟩ => ⟨h.size, h.headroom, h.errors, hd, h.frame⟩⟩

/-- The kinds of the frames of one queue are some of those of another, in order: entries left, or changed in content, age or
lateness. -/
def QueueShrinks (q p : List TxEntry) : Prop := (p.map (·.kind)).Sublist (q.map (·.kind))

theorem QueueShrinks.of_sublist {q p : List TxEntry} (h : p.Sublist q) : QueueShrinks q p := h.map _

theorem QueueShrinks.refl (q : List TxEntry) : QueueShrinks q q := .of_sublist (.refl q)

theorem QueueShrinks.of_map {q : List TxEntry} {f : TxEntry → TxEntry} (h : ∀ e, (f e).kind = e.kind) :
    QueueShrinks q (q.map f) := by
  have hmap : (q.map f).map (·.kind) = q.map (·.kind) := by
    rw [List.map_map]; exact List.map_congr_left fun e _ => h e
  rw [QueueShrinks, hmap]

theorem QueueShrinks.of_modifyHead (q : List TxEntry) (b : Bool) : QueueShrinks q (q.modify 0 fun e => { e with late := b }) := by
  cases q with
  | nil => exact .refl []
  | cons e es => exact List.Sublist.refl _

theorem QueueShrinks.length_le {q p : List TxEntry} (h : QueueShrinks q p) : p.length ≤ q.length := by
  simpa using List.Sublist.length_le h

theorem QueueShrinks.headroom_le {q p : List TxEntry} (h : QueueShrinks q p) :
    p.countP (fun e => e.kind == .headroom) ≤ q.countP (fun e => e.kind == .headroom) := by
  have hle := List.Sublist.countP_le (p := fun k : TxKind => k == .headroom) h
  rwa [List.countP_map, List.countP_map] at hle

theorem QueueShrinks.of_nil {q p : List TxEntry} (h : QueueShrinks q p) (hq : q = []) : p = [] := by
  subst hq
  exact List.length_eq_zero_iff.mp (Nat.le_zero.mp h.length_le)

theorem LinkInterface.Orderly.shrink {l m : LinkInterface} (h : l.Orderly) (hq : QueueShrinks l.queue m.queue)
    (he : m.errors < 16) (hf : m.inFrame = true → m.sending = none) : m.Orderly :=
  ⟨hq.length_le.trans h.size, hq.headroom_le.trans h.headroom, he, hf⟩

theorem headroom_countP_zero {q : List TxEntry} (h : hasHeadroom q = false) :
    q.countP (fun e => e.kind == .headroom) = 0 := by
  rw [List.countP_eq_zero]
  intro e he hk
  rw [hasHeadroom, List.any_eq_false] at h
  exact h e he hk

theorem markReplaced_none (q : List TxEntry) : markReplaced q none = none := rfl

/-- A headroom cue takes the place of the one queued or stands behind the others where none is queued (R151). -/
theorem LinkInterface.Orderly.acceptHeadroom {l m : LinkInterface} (h : l.Orderly) {payload : List Byte}
    (hm : l.acceptHeadroom payload = some m) : m.Orderly := by
  unfold LinkInterface.acceptHeadroom at hm
  split at hm
  · obtain rfl := Option.some.inj hm
    exact h.shrink (.of_map fun e => by split <;> rfl) h.errors fun hf => by rw [h.frame hf, markReplaced_none]
  · next hno =>
    split at hm
    · next hroom =>
      obtain rfl := Option.some.inj hm
      refine ⟨?_, ?_, h.errors, h.frame⟩
      · rw [List.length_append]; exact hroom
      · rw [List.countP_append, headroom_countP_zero (by simpa using hno)]
        exact le_rfl
    · cases hm

/-- An answer is queued whole where there is room for it (R151). -/
theorem LinkInterface.Orderly.acceptAnswer {l m : LinkInterface} (h : l.Orderly) {frames : List (List Byte)}
    (hm : l.acceptAnswer frames = some m) : m.Orderly := by
  unfold LinkInterface.acceptAnswer at hm
  split at hm
  · next hroom =>
    obtain rfl := Option.some.inj hm
    refine ⟨by simpa using hroom, ?_, h.errors, h.frame⟩
    have hnone : (frames.map (TxEntry.fresh .report)).countP (fun e => e.kind == .headroom) = 0 := by
      rw [List.countP_map, List.countP_eq_zero]
      exact fun _ _ => Bool.false_ne_true
    rw [List.countP_append, hnone]
    exact h.headroom
  · cases hm

theorem LinkInterface.Orderly.raiseErrors {l : LinkInterface} (h : l.Orderly) : l.raiseErrors.Orderly := by
  unfold LinkInterface.raiseErrors
  split
  · exact h.shrink (.of_sublist (List.nil_sublist _)) (Nat.zero_lt_succ _) h.frame
  · next hlt => exact h.shrink (.refl _) (Nat.not_le.mp hlt) h.frame

theorem queueShrinks_afterSend (a : Attempt) (q : List TxEntry) : QueueShrinks q (queueAfterSend a q) := by
  unfold queueAfterSend
  split
  · exact .refl q
  · split
    · exact .of_modifyHead q false
    · exact .of_sublist (List.tail_sublist q)

end Sys2Proof.Machine
end

section
/-!
Every step keeps slots, counters, limiters and the transmit queue in their ranges (R18, R85, R89, R91, R147 to R152, R162):
the four laws together, through every operation in the order of the model's files.
-/
namespace Sys2Proof.Machine

theorem State.SlotLaw.handOwn {s : State} (h : s.SlotLaw) (before own : Vector Nat 4) (gs : List Group) :
    (s.handOwn before own gs).SlotLaw := by
  unfold State.handOwn
  induction gs generalizing s with
  | nil => exact h
  | cons g gs ih =>
    refine ih ?_
    dsimp only
    split
    · exact h
    · exact h.writeTarget _ _

/-- No headroom cue is handed over in DORMANT (R92, R93). -/
theorem State.not_emissionDue {s : State} (h : s.node.state = .dormant) : s.emissionDue = false := by
  simp [State.emissionDue, State.awake, State.takesCues, h]

/-- The zone's image after an accepted cue, and the targets of the values that changed (R45 to R47). -/
def State.imageTaken (z : Zone) (f : ImageFields) (s : State) : State :=
  (((s.setImage z { s.image[z] with
      volume := newVolume f s.image[z], fade := newStep f.fade s.image[z].fade,
      balance := newStep f.balance s.image[z].balance, preset := newPreset f.preset s.image[z].preset }).writeIfChanged
    (newVolume f s.image[z] != s.image[z].volume) (.vol z) (volumeTarget (newVolume f s.image[z]))).writeIfChanged
    (newStep f.fade s.image[z].fade != s.image[z].fade) (.fade z) (stepTarget (newStep f.fade s.image[z].fade))).writeIfChanged
    (newStep f.balance s.image[z].balance != s.image[z].balance) (.bal z)
    (stepTarget (newStep f.balance s.image[z].balance))

theorem State.applyImage_eq (ord : List Channel) (z : Zone) (f : ImageFields) (s : State) : s.applyImage ord z f =
    if newPreset f.preset s.image[z].preset = s.image[z].preset then s.imageTaken z f
    else (s.imageTaken z f).handPreset ord z (newPreset f.preset s.image[z].preset) := rfl

/-- The slots, counters, limiters and transmit queue are in their ranges. -/
structure State.Bounded (s : State) : Prop where
  slots    : s.SlotLaw
  counters : s.CounterLaw
  limiters : s.LimiterLaw
  queue    : s.QueueLaw

namespace State.Bounded

/-- The laws speak of the slots, the counters, the reductions, the emission values, the link interface and DORMANT alone. -/
theorem congr {s t : State} (h : s.Bounded) (hslots : t.ramp.slots = s.ramp.slots := by rfl)
    (hstats : t.stats = s.stats := by rfl) (hchannels : ∀ c, (t.channel c).reduction = (s.channel c).reduction := by exact fun _ => rfl)
    (hemission : t.emission = s.emission := by rfl) (hlink : t.link = s.link := by rfl)
    (hstate : t.node.state = .dormant → s.node.state = .dormant := by exact id) : t.Bounded where
  slots i := by rw [State.slot, hslots]; exact h.slots i
  counters := h.counters.of_stats hstats
  limiters := h.limiters.congr hchannels hemission
  queue := ⟨by rw [hlink]; exact h.queue.size, by rw [hlink]; exact h.queue.headroom, by rw [hlink]; exact h.queue.errors,
    fun hd => by rw [hlink]; exact h.queue.dormant (hstate hd), by rw [hlink]; exact h.queue.frame⟩

/-! ### Updates of single parts -/

theorem drawn {s : State} (h : s.Bounded) : s.drawn.Bounded := h.congr

/-- New counters in their range. -/
theorem setStats {s t : State} (h : s.Bounded) (ht : t.CounterLaw) (hrest : t = { s with stats := t.stats }) : t.Bounded where
  slots i := by rw [State.slot, hrest]; exact h.slots i
  counters := ht
  limiters := h.limiters.congr (fun c => by rw [hrest]; rfl) (by rw [hrest])
  queue := by
    rw [State.queueLaw_iff, hrest]
    exact s.queueLaw_iff.mp h.queue

theorem countLink {s : State} (h : s.Bounded) (k : LinkCounter) : (s.countLink k).Bounded :=
  h.setStats (h.counters.countLink k) (by unfold State.countLink; split <;> rfl)

/-- New slots in one of the three conditions. -/
theorem setSlots {s t : State} (h : s.Bounded) (hslots : t.SlotLaw) (hrest : t = { s with ramp := t.ramp }) : t.Bounded := by
  rw [hrest]
  refine ⟨fun i => ?_, h.counters.of_stats rfl, h.limiters.congr (fun _ => rfl) rfl, ⟨h.queue.size, h.queue.headroom,
    h.queue.errors, h.queue.dormant, h.queue.frame⟩⟩
  exact hslots i

theorem setSlot {s : State} (h : s.Bounded) (i : SlotId) {t : TermSlot} (ht : t.Sound) : (s.setSlot i t).Bounded :=
  h.setSlots (h.slots.setSlot i ht) rfl

theorem writeTarget {s : State} (h : s.Bounded) (i : SlotId) (v : Int) : (s.writeTarget i v).Bounded :=
  h.setSlots (h.slots.writeTarget i v) rfl

theorem rampStep {s : State} (h : s.Bounded) : s.rampStep.Bounded := h.setSlots h.slots.rampStep s.rampStep_rest

theorem recomputeTargets {s : State} (h : s.Bounded) : s.recomputeTargets.Bounded :=
  h.setSlots h.slots.recomputeTargets s.recomputeTargets_ramp

theorem formNodeTarget {s : State} (h : s.Bounded) : s.formNodeTarget.Bounded := h.writeTarget _ _

theorem handOwn {s : State} (h : s.Bounded) (before own : Vector Nat 4) (gs : List Group) :
    (s.handOwn before own gs).Bounded := h.setSlots (h.slots.handOwn before own gs) (s.handOwn_rest before own gs)

/-- What the cache does, when it counts within the counters' range. -/
theorem cacheStep {s t : State} (h : s.Bounded) (hc : s.CacheStep t) (ht : t.CounterLaw) : t.Bounded where
  slots i := by rw [hc.slot]; exact h.slots i
  counters := ht
  limiters := h.limiters.congr hc.reduction hc.emission
  queue := by
    obtain ⟨hl, hd⟩ := s.queueLaw_iff.mp h.queue
    rw [State.queueLaw_iff, hc.link, hc.node]
    exact ⟨hl, hd⟩

/-- A new link interface in order, with an empty queue in DORMANT. -/
theorem setLink {s : State} (h : s.Bounded) {l : LinkInterface} (hl : l.Orderly)
    (hd : s.node.state = .dormant → l.queue = []) : (s.setLink l).Bounded where
  slots := h.slots
  counters := h.counters.of_stats rfl
  limiters := h.limiters.congr (fun _ => rfl) rfl
  queue := (State.queueLaw_iff _).mpr ⟨hl, hd⟩

/-- A new link interface whose queue has no new frames. -/
theorem shrinkQueue {s : State} (h : s.Bounded) {l : LinkInterface} (hq : QueueShrinks s.link.queue l.queue)
    (he : l.errors < 16) (hf : l.inFrame = true → l.sending = none) : (s.setLink l).Bounded := by
  obtain ⟨hl, hd⟩ := s.queueLaw_iff.mp h.queue
  exact h.setLink (hl.shrink hq he hf) fun hs => hq.of_nil (hd hs)

/-- A new link interface with no new frames, the same errors and the same attempt. -/
theorem relink {s : State} (h : s.Bounded) {l : LinkInterface} (hq : QueueShrinks s.link.queue l.queue)
    (he : l.errors = s.link.errors := by rfl) (hf : l.inFrame = s.link.inFrame := by rfl)
    (hs : l.sending = s.link.sending := by rfl) : (s.setLink l).Bounded :=
  h.shrinkQueue hq (by rw [he]; exact h.queue.errors) (by rw [hf, hs]; exact h.queue.frame)

/-! ### Cache and library port -/

theorem countCache {s : State} (h : s.Bounded) (k : CacheCounter) : (s.countCache k).Bounded :=
  h.cacheStep (.countCache s k) (h.counters.countCache k)

theorem evaluateTurns {s : State} (h : s.Bounded) (ord : List Channel) : (s.inTurn State.evaluate ord).Bounded :=
  h.cacheStep (State.evaluateTurns_cacheStep ord s) (.inTurn (fun c _ hu => hu.evaluate c) ord h.counters)

theorem advanceCrossfades {s : State} (h : s.Bounded) (ord : List Channel) :
    (s.inTurn State.advanceCrossfade ord).Bounded :=
  h.cacheStep (.inTurn (fun c u => .advanceCrossfade u c) ord s) (.inTurn (fun c _ hu => hu.advanceCrossfade c) ord h.counters)

theorem handPreset {s : State} (h : s.Bounded) (ord : List Channel) (z : Zone) (p : Fin 16) :
    (s.handPreset ord z p).Bounded := h.cacheStep (.handPreset s ord z p) (h.counters.handPreset ord z p)

theorem handBands {s : State} (h : s.Bounded) (ord : List Channel) (b a : Vector (Fin 8) 4) :
    (s.handBands ord b a).Bounded := h.cacheStep (.handBands s ord b a) (h.counters.handBands ord b a)

theorem wayFree {s : State} (h : s.Bounded) (i : Fin 16) : (s.wayFree i).Bounded :=
  h.cacheStep (.wayFree s i) (h.counters.of_stats (s.wayFree_stats i))

theorem fillPasses {s : State} (h : s.Bounded) (ord : List Channel) (f : Fill) (coefs : List Coefs) :
    (s.fillPasses ord f coefs).Bounded := by
  have hturns : ∀ {u : State}, u.Bounded → (u.inTurn (State.takeIfAttached f.line) ord).Bounded := fun {u} hu =>
    hu.cacheStep (.inTurn (fun c x => .takeIfAttached x f.line c) ord u)
      (.inTurn (fun c _ hx => hx.takeIfAttached f.line c) ord hu.counters)
  unfold State.fillPasses
  dsimp only
  have hs := hturns (h.congr : State.Bounded { s.setLine f.line { s.line f.line with state := .valid, coefs := coefs } with
    library := { (s.setLine f.line { s.line f.line with state := .valid, coefs := coefs }).library with
      errors := 0, fill := none, selected := false } })
  split
  · exact hs.wayFree _
  · exact hs

theorem becomeFaulty {s : State} (h : s.Bounded) : s.becomeFaulty.Bounded :=
  h.congr (hchannels := fun c => by
    rw [State.becomeFaulty, State.channel_mapChannels]
    simp only [State.channel])

theorem fillFails {s : State} (h : s.Bounded) (f : Fill) : (s.fillFails f).Bounded := by
  unfold State.fillFails
  dsimp only
  have hcounted : ((s.invalidate f.line).countCache .fillErrors).Bounded :=
    (h.congr : State.Bounded (s.invalidate f.line)).countCache .fillErrors
  generalize (s.invalidate f.line).countCache .fillErrors = u at hcounted
  have hdropped : (State.mapChannels (fun _ x =>
      if x.request = .waitingFill f.line then { x with request := .idle, failed := some f.key } else x)
      { u with library := { u.library with errors := u.library.errors + 1, fill := none, selected := false } }).Bounded :=
    hcounted.congr (hchannels := fun c => by rw [State.channel_mapChannels]; split <;> rfl)
  split
  · exact hdropped.becomeFaulty
  · exact hdropped.wayFree _

/-! ### Image handler, pace unit, reduction table -/

theorem writeIfChanged {s : State} (h : s.Bounded) (b : Bool) (i : SlotId) (v : Int) :
    (s.writeIfChanged b i v).Bounded := by
  unfold State.writeIfChanged
  split
  · exact h.writeTarget i v
  · exact h

theorem imageTaken {s : State} (h : s.Bounded) (z : Zone) (f : ImageFields) : (s.imageTaken z f).Bounded :=
  (((h.congr : State.Bounded (s.setImage z { s.image[z] with
    volume := newVolume f s.image[z], fade := newStep f.fade s.image[z].fade,
    balance := newStep f.balance s.image[z].balance,
    preset := newPreset f.preset s.image[z].preset })).writeIfChanged _ _ _).writeIfChanged _ _ _).writeIfChanged _ _ _

theorem applyImage {s : State} (h : s.Bounded) (ord : List Channel) (z : Zone) (f : ImageFields) :
    (s.applyImage ord z f).Bounded := by
  rw [State.applyImage_eq]
  split
  · exact h.imageTaken z f
  · exact (h.imageTaken z f).handPreset ord z _

theorem takeImage {s : State} (h : s.Bounded) (ord : List Channel) (o : Station) (payload : List Byte) :
    (s.takeImage ord o payload).Bounded := by
  unfold State.takeImage
  dsimp only
  split
  · exact h.countLink _
  · split
    · exact h.countLink _
    · split
      · exact h
      · exact h.countLink _
      · exact (h.congr : State.Bounded (s.recordStamp _ o _)).applyImage ord _ _
      · exact (h.congr : State.Bounded (s.recordStamp _ o _)).applyImage ord _ _

theorem formPace {s : State} (h : s.Bounded) (ord : List Channel) : (s.formPace ord).Bounded := by
  unfold State.formPace
  split
  · exact h
  · next curves _ =>
    have hwritten : (s.writePaceTargets curves s.pace.usedSpeed).Bounded :=
      h.setSlots (by rw [State.writePaceTargets_eq]; exact h.slots.writeAll _ _) rfl
    exact (hwritten.congr : State.Bounded (State.setPace _ _)).handBands ord _ _

theorem select {s : State} (h : s.Bounded) (ord : List Channel) : (s.select ord).Bounded := by
  unfold State.select
  dsimp only
  split
  · exact h.congr
  · exact (h.congr : State.Bounded (s.setPace _)).formPace ord

theorem clearSource {s : State} (h : s.Bounded) (w : Source) : (s.clearSource w).Bounded := h.congr

theorem takePace {s : State} (h : s.Bounded) (ord : List Channel) (o : Station) (payload : List Byte) :
    (s.takePace ord o payload).Bounded := by
  unfold State.takePace
  split
  · exact h.countLink _
  · split
    · exact (h.congr : State.Bounded (s.setPace _)).select ord
    · split
      · exact (h.clearSource _).select ord
      · exact h.countLink _

theorem sourceAbsent {s : State} (h : s.Bounded) (ord : List Channel) (st : Station) (w : Source) :
    (s.sourceAbsent ord st w).Bounded := by
  unfold State.sourceAbsent
  split
  · exact (h.clearSource w).select ord
  · exact h

theorem setTable {s : State} (h : s.Bounded) (table : List Entry) : (s.setTable table).Bounded := h.congr

theorem putEntry {s : State} (h : s.Bounded) (e : Entry) : (s.putEntry e).Bounded := by
  unfold State.putEntry
  split
  · exact h.setTable _
  · split
    · exact h.setTable _
    · exact h.countLink _

theorem releaseDip {s : State} (h : s.Bounded) (o : Station) (id : Fin 8) : (s.releaseDip o id).Bounded := by
  unfold State.releaseDip
  split
  · exact h
  · exact (h.setTable _).recomputeTargets

theorem takeDipApply {s : State} (h : s.Bounded) (o : Station) (payload : List Byte) :
    (s.takeDipApply o payload).Bounded := by
  unfold State.takeDipApply State.applyDip
  split
  · split
    · exact h.releaseDip _ _
    · exact (h.putEntry _).recomputeTargets
  · exact h.countLink _

theorem takeDipRelease {s : State} (h : s.Bounded) (o : Station) (payload : List Byte) :
    (s.takeDipRelease o payload).Bounded := by
  unfold State.takeDipRelease
  split
  · exact h.releaseDip _ _
  · exact h.countLink _

theorem applyGroup {s : State} (h : s.Bounded) (o : Station) (g : Group) (v : Nat) : (s.applyGroup o g v).Bounded := by
  unfold State.applyGroup
  split
  · exact h.setTable _
  · exact h.putEntry _

theorem takeHeadroom {s : State} (h : s.Bounded) (o : Station) (payload : List Byte) :
    (s.takeHeadroom o payload).Bounded :=
  ((((h.applyGroup o 0 _).applyGroup o 1 _).applyGroup o 2 _).applyGroup o 3 _).recomputeTargets

/-! ### Link interface -/

theorem endUnsent {s : State} (h : s.Bounded) (b : Bool) (a : Attempt) : (s.endUnsent b a).Bounded := by
  unfold State.endUnsent
  split
  · exact (h.shrinkQueue (l := { s.link with sending := none, inFrame := b, queue := s.link.queue.tail })
      (.of_sublist (List.tail_sublist _)) h.queue.errors fun _ => rfl).countLink _
  · exact h.shrinkQueue (l := { s.link with sending := none, inFrame := b }) (.refl _) h.queue.errors fun _ => rfl

theorem makeLate {s : State} (h : s.Bounded) (place : Nat) : (s.makeLate place).Bounded := by
  unfold State.makeLate
  split
  · exact h.relink (.of_modifyHead _ true)
  · exact (h.relink (.of_sublist (List.eraseIdx_sublist _ _))).countLink _

theorem setPresence {s : State} (h : s.Bounded) (st : Station) (p : PresenceRecord) : (s.setPresence st p).Bounded :=
  h.relink (.refl _)

theorem setOwed {s : State} (h : s.Bounded) (o : Option (Station × Recipient)) : (s.setOwed o).Bounded :=
  h.relink (.refl _)

theorem endFrame {s : State} (h : s.Bounded) : s.endFrame.Bounded :=
  h.shrinkQueue (l := { s.link with inFrame := false }) (.refl _) h.queue.errors nofun

theorem clashed {s : State} (h : s.Bounded) : s.clashed.Bounded :=
  (h.shrinkQueue (l := { s.link with inFrame := false, clash := true }) (.refl _) h.queue.errors nofun).countLink .clashes

theorem purgeStation {s : State} (h : s.Bounded) (st : Station) : (s.purgeStation st).Bounded :=
  (h.setTable _).recomputeTargets

theorem tellAbsence {s : State} (h : s.Bounded) (ord : List Channel) (st : Station) (r : Recipient) :
    (s.tellAbsence ord st r).Bounded := by
  cases r with
  | image => exact h.congr
  | pace => exact (h.sourceAbsent ord st .primary).sourceAbsent ord st .secondary
  | table => exact h.purgeStation st

theorem tellAll {s : State} (h : s.Bounded) (ord : List Channel) (st : Station) (rs : List Recipient) :
    (s.tellAll ord st rs).Bounded := by
  unfold State.tellAll
  induction rs generalizing s with
  | nil => exact h
  | cons r rs ih => exact ih (h.tellAbsence ord st r)

theorem reportAbsence {s : State} (h : s.Bounded) (ord : List Channel) (b : Bool) (st : Station) :
    (s.reportAbsence ord b st).Bounded := by
  have habsent := h.setPresence st { (s.link.stations[st]) with present := false }
  unfold State.reportAbsence
  dsimp only
  split
  · exact habsent.tellAll ord st _
  · split
    · exact (habsent.tellAll ord st _).setOwed _
    · exact habsent.tellAll ord st _

theorem heard {s : State} (h : s.Bounded) (o : Station) : (s.heard o).Bounded := by
  have hmarked := (h.countLink .framesHeard).endFrame.setPresence o { present := true, age := 0 }
  unfold State.heard State.restartLinkSilence
  split
  · exact hmarked.congr
  · exact hmarked

/-- A received frame whose block keeps the laws. -/
theorem receive {s : State} (h : s.Bounded) (o : Station) (b : Bool) {f : State → State}
    (hf : ∀ {u : State}, u.Bounded → (f u).Bounded) : (s.receive o b f).Bounded := by
  unfold State.receive
  split
  · split
    · exact h
    · exact h.endFrame
  · exact h.clashed
  · exact hf (h.heard o)

/-- A cue that reaches its block in the states in which cues are taken. -/
theorem whenTaken {s : State} (h : s.Bounded) {f : State → State} (hf : s.takesCues = true → (f s).Bounded) :
    (s.whenTaken f).Bounded := by
  unfold State.whenTaken
  split
  · next ht => exact hf ht
  · exact h

/-- A cue at a recipient of absence reports, with the report that may follow it. -/
theorem takeCue {s : State} (h : s.Bounded) (r : Recipient) (o : Station) {f : State → State}
    (hf : ∀ {u : State}, u.Bounded → (f u).Bounded) : (s.takeCue r o f).Bounded := by
  unfold State.takeCue
  split
  · exact (hf (h.setOwed none)).drawn.tellAbsence _ o r
  · exact hf h

/-- A received cue of a recipient of absence reports. -/
theorem receiveCue {s : State} (h : s.Bounded) (r : Recipient) (o : Station) {f : State → State}
    (hf : ∀ {u : State}, u.Bounded → (f u).Bounded) :
    (s.receive o false (State.whenTaken (State.takeCue r o f))).Bounded :=
  h.receive o false fun hu => hu.whenTaken fun _ => hu.takeCue r o hf

/-! ### Limiters and emission -/

theorem updateLimiters {s : State} (h : s.Bounded) : s.updateLimiters.Bounded where
  slots i := by rw [State.slot, State.updateLimiters_rest]; exact h.slots i
  counters := h.counters.updateLimiters
  limiters := h.limiters.updateLimiters
  queue := by
    obtain ⟨hl, hd⟩ := s.queueLaw_iff.mp h.queue
    rw [State.queueLaw_iff, State.updateLimiters_rest]
    exact ⟨hl, hd⟩

theorem holdOwn {s : State} (h : s.Bounded) {own : Vector Nat 4} (hown : ∀ g : Group, own[g] ≤ 384) :
    (s.holdOwn own).Bounded where
  slots := h.slots
  counters := h.counters.of_stats rfl
  limiters := h.limiters.holdOwn hown
  queue := (State.queueLaw_iff _).mpr (s.queueLaw_iff.mp h.queue)

theorem stepAndUpdate {s : State} (h : s.Bounded) (b : Group → Bool) : (s.stepAndUpdate b).Bounded := by
  have hu := h.updateLimiters
  exact (((hu.holdOwn hu.limiters.ownValues).handOwn _ _ _).rampStep).handOwn _ _ _

theorem emit {s : State} (h : s.Bounded) : s.emit.Bounded where
  slots i := by rw [State.slot, State.emit_rest]; exact h.slots i
  counters := h.counters.of_stats (by rw [State.emit_rest])
  limiters := h.limiters.emit
  queue := by
    obtain ⟨hl, hd⟩ := s.queueLaw_iff.mp h.queue
    refine (State.queueLaw_iff _).mpr ⟨?_, fun hs => ?_⟩
    · unfold State.emit State.handHeadroom
      split
      · split
        · exact hl
        · next hm => exact hl.acceptHeadroom hm
      · exact hl
    · have hs' : s.node.state = .dormant := by rw [State.emit_rest] at hs; exact hs
      rw [State.emit, State.not_emissionDue hs']
      exact hd hs'

/-! ### Node state controller -/

theorem blockStart {s : State} (h : s.Bounded) : s.blockStart.Bounded :=
  h.congr (by rw [State.blockStart_rest]) (by rw [State.blockStart_rest]) (fun c => by rw [State.channel_blockStart]; rfl)
    (by rw [State.blockStart_rest]) (by rw [State.blockStart_rest]) (by rw [State.blockStart_rest]; exact id)

theorem enterActive {s : State} (h : s.Bounded) : s.enterActive.Bounded :=
  (h.congr (hstate := nofun) : State.Bounded (s.setNode { s.node with state := .active, settle := none })).formNodeTarget

end State.Bounded

theorem State.slot_enterDormant (s : State) (ord : List Channel) (b : Bool) (i : SlotId) :
    (s.enterDormant ord b).slot i = s.silenced.recomputeTargets.slot i := by
  have hslept : (s.enterDormant ord b).slot i = (s.beforeSleep.sleepCache ord b).slot i := rfl
  rw [hslept, (State.CacheStep.sleepCache s.beforeSleep ord b).slot, State.beforeSleep_slot]

theorem State.SlotLaw.setOwn {s : State} (h : s.SlotLaw) (own : Vector Nat 4) : (s.setOwn own).SlotLaw := by
  rw [State.setOwn_eq]
  exact State.SlotLaw.handOwn (s := s.holdOwn own) h _ _ _

theorem State.SlotLaw.silenced {s : State} (h : s.SlotLaw) : s.silenced.SlotLaw := fun i => by
  rw [State.slot, State.silenced_ramp, State.unowned]
  refine State.SlotLaw.setOwn (fun j => ?_) _ i
  rw [State.mapChannels_slot, State.setNode_slot]
  exact h j

namespace State.Bounded

theorem enterDormant {s : State} (h : s.Bounded) {ord : List Channel} (hn : ord.Nodup) (hm : ∀ c, c ∈ ord) (b : Bool) :
    (s.enterDormant ord b).Bounded := by
  have hfalls := s.enterDormant_falls hn hm b
  obtain ⟨hqueue, -, hsending, herrors, -, -, -, -, hframe⟩ := hfalls.entry.link
  obtain ⟨-, hstats, hage, -⟩ := hfalls.rest
  refine ⟨fun i => ?_, h.counters.of_stats hstats, ⟨fun c => ?_, fun g => ?_, fun g => ?_, ?_⟩, ⟨?_, ?_, ?_, ?_, ?_⟩⟩
  · rw [State.slot_enterDormant]
    exact h.slots.silenced.recomputeTargets i
  · rw [(hfalls.entry.channels c).1]; exact Nat.zero_le _
  · rw [(hfalls.entry.emission g).1]; exact Nat.zero_le _
  · rw [(hfalls.entry.emission g).2]; exact Nat.zero_le _
  · rw [hage]; exact h.limiters.age
  · rw [hqueue]; exact Nat.zero_le _
  · rw [hqueue]; exact Nat.zero_le _
  · rw [herrors]; exact h.queue.errors
  · exact fun _ => hqueue
  · intro hf
    rw [hframe] at hf
    rw [h.queue.frame hf] at hsending
    exact Option.isSome_eq_false_iff.mp hsending |> Option.isNone_iff_eq_none.mp

theorem enterQuiet {s : State} (h : s.Bounded) {ord : List Channel} (hn : ord.Nodup) (hm : ∀ c, c ∈ ord) (b : Bool) :
    (s.enterQuiet ord b).Bounded := by
  have hquiet := (h.congr (hstate := nofun) : State.Bounded (s.setNode { s.node with state := .quiet, settle := none })).formNodeTarget
  unfold State.enterQuiet
  dsimp only
  split
  · exact hquiet.enterDormant hn hm b
  · exact hquiet

theorem enterWaking {s : State} (h : s.Bounded) : s.enterWaking.Bounded where
  slots := h.slots
  counters := h.counters.of_stats rfl
  limiters := ⟨h.limiters.reduction, h.limiters.own, h.limiters.sent, le_rfl⟩
  queue := (State.queueLaw_iff _).mpr ⟨(s.queueLaw_iff.mp h.queue).1, nofun⟩

theorem settleSlots {s : State} (h : s.Bounded) : s.settleSlots.Bounded :=
  h.setSlots h.slots.settleSlots (by simp only [State.settleSlots])

theorem wake {s : State} (h : s.Bounded) (ord : List Channel) : (s.wake ord).Bounded := by
  have hsettled := h.enterWaking.settleSlots
  unfold State.wake
  dsimp only
  generalize s.enterWaking.settleSlots = u at hsettled
  have hages : u.link.restartAges = { u.link with stations := u.link.restartAges.stations } := rfl
  have hrestarted : (u.setLink u.link.restartAges).Bounded := by
    rw [hages]
    generalize u.link.restartAges.stations = stations
    exact hsettled.relink (l := { u.link with stations := stations }) (.refl _)
  generalize u.setLink u.link.restartAges = v at hrestarted
  exact (hrestarted.congr : State.Bounded { v with library := v.library.wake }).evaluateTurns ord

theorem takeSleep {s : State} (h : s.Bounded) {ord : List Channel} (hn : ord.Nodup) (hm : ∀ c, c ∈ ord) (b : Bool) :
    (s.takeSleep ord b).Bounded := by
  unfold State.takeSleep
  generalize s.node.state = state
  cases state with
  | waking => exact h.enterQuiet hn hm b
  | active => exact h.enterQuiet hn hm b
  | start => exact h
  | held => exact h
  | quiet => exact h
  | dormant => exact h

theorem takeWake {s : State} (h : s.Bounded) (ord : List Channel) : (s.takeWake ord).Bounded := by
  unfold State.takeWake
  generalize s.node.state = state
  cases state with
  | quiet => exact h.enterActive
  | dormant => exact h.wake ord
  | start => exact h
  | held => exact h
  | waking => exact h
  | active => exact h

theorem settleExpires {s : State} (h : s.Bounded) : s.settleExpires.Bounded := by
  unfold State.settleExpires
  split
  · split
    · exact h.enterActive
    · exact h.congr
  · exact h

theorem linkSilenceExpires {s : State} (h : s.Bounded) {ord : List Channel} (hn : ord.Nodup) (hm : ∀ c, c ∈ ord) (b : Bool) :
    (s.linkSilenceExpires ord b).Bounded := by
  have hstopped : (s.setNode { s.node with linkSilence := none }).Bounded := h.congr
  unfold State.linkSilenceExpires
  split
  · dsimp only
    split
    · exact hstopped.enterQuiet hn hm b
    · exact hstopped
  · exact h

theorem enterHeld {s : State} (h : s.Bounded) (code : FaultCode) : (s.enterHeld code).Bounded := by
  have hheld := s.enterHeld_heldWith code
  obtain ⟨hlink, hstats, -⟩ := hheld.kept
  obtain ⟨hvalues, hage⟩ := hheld.emission
  refine ⟨fun i => ?_, h.counters.of_stats hstats, ⟨fun c => ?_, fun g => ?_, fun g => ?_, ?_⟩, ?_⟩
  · rw [hheld.slots]; exact TermSlot.idleAt_sound _
  · rw [(hheld.limiter c).1]; exact Nat.zero_le _
  · rw [(hvalues g).1]; exact Nat.zero_le _
  · rw [(hvalues g).2]; exact Nat.zero_le _
  · rw [hage]
  · rw [State.queueLaw_iff, hlink, hheld.node]
    exact ⟨(s.queueLaw_iff.mp h.queue).1, nofun⟩

/-! ### Reset and start-up -/

theorem resetTo {cause : ResetCause} {station : Station} {supply pin : Bool} {flash : FlashPower} {mosi : List Byte}
    {draws : Nat} {pending : List Instr} : (State.resetTo cause station supply pin flash mosi draws pending).Bounded :=
  ⟨State.slotLaw_resetTo, State.counterLaw_resetTo, State.limiterLaw_resetTo, State.queueLaw_resetTo⟩

theorem assertReset {s : State} (cause : ResetCause) : (s.assertReset cause).Bounded := by
  rw [State.assertReset_eq]
  exact resetTo

theorem releaseReset {s : State} (h : s.Bounded) (straps : BitVec 4) : (s.releaseReset straps).Bounded := by
  rw [State.releaseReset_eq]
  split
  · exact resetTo
  · exact h

theorem endReleaseWait {s : State} (h : s.Bounded) : s.endReleaseWait.Bounded := by
  unfold State.endReleaseWait
  split
  · dsimp only
    split
    · exact h.congr
    · exact h.congr
  · exact h

theorem takeIdentification {s : State} (h : s.Bounded) (b0 b1 b2 : Byte) : (s.takeIdentification b0 b1 b2).Bounded := by
  unfold State.takeIdentification
  split
  · split
    · exact h.enterHeld _
    · exact h.congr
  · exact h

theorem takeHeader {s : State} (h : s.Bounded) (header : List Byte) : (s.takeHeader header).Bounded := by
  unfold State.takeHeader
  split
  · split
    · exact h.congr
    · exact h.enterHeld _
  · exact h

theorem handed {s : State} (h : s.Bounded) (cfg : NodeConfig) : (s.handed cfg).Bounded := by
  refine ⟨fun i => ?_, h.counters.of_stats (by rw [State.handed_rest]; rfl),
    ⟨fun c => ?_, ?_, ?_, by rw [State.handed_rest]⟩, (State.queueLaw_iff _).mpr ⟨?_, ?_⟩⟩
  · rw [State.slot_handed]; exact TermSlot.idleAt_sound _
  · rw [State.channel_handed]; exact Nat.zero_le _
  · rw [State.handed_rest]; exact h.limiters.own
  · rw [State.handed_rest]; exact h.limiters.sent
  · rw [State.handed_rest]; exact (s.queueLaw_iff.mp h.queue).1
  · rw [State.handed_rest]; exact nofun

theorem takeImageRead {s : State} (h : s.Bounded) (ord : List Channel) (rest : List Byte) :
    (s.takeImageRead ord rest).Bounded := by
  unfold State.takeImageRead
  split
  · split
    · next cfg _ => exact (h.handed cfg).evaluateTurns ord
    · exact h.enterHeld _
  · exact h

/-! ### Audio ports -/

end State.Bounded

/-- A frame moves filters, peak and conditions on, and no limiter. -/
theorem State.channelFrame_reduction (s : State) (word : Channel → Int) (c : Channel) :
    (s.channelFrame word c).1.reduction = (s.channel c).reduction := by
  cases hc : (s.channel c).composed with
  | none => rw [State.channelFrame_none hc]
  | some held =>
    obtain ⟨y, xeq, heq, hframe, -⟩ := State.channelFrame_composed word hc
    rw [hframe, heq.1]

theorem State.clearReported_rest (s : State) (group index : Nat) :
    s.clearReported group index = { s with stats := (s.clearReported group index).stats } := by
  unfold State.clearReported
  split
  · rfl
  · split <;> rfl
  · rfl
  · rfl

namespace State.Bounded

theorem runFrame {s : State} (h : s.Bounded) (word : Channel → Int) : (s.runFrame word).Bounded :=
  h.congr (by rw [State.runFrame_ramp]) (State.runFrame_stats s word)
    (fun c => by rw [State.channel_runFrame, State.channelFrame_reduction])
    (State.runFrame_emission s word) (State.runFrame_link s word) (by rw [State.runFrame_node]; exact id)

theorem setPorts {s : State} (h : s.Bounded) (p : AudioPorts) : (s.setPorts p).Bounded := h.congr

theorem audioLoss {s : State} (h : s.Bounded) : s.audioLoss.Bounded :=
  ((h.setPorts _).formNodeTarget.setSlot .node (TermSlot.force_sound _ _)).countCache _

theorem audioReturn {s : State} (h : s.Bounded) (b : Bool) : (s.audioReturn b).Bounded := by
  have hearly : ∀ early : Bool,
      (if early then s.setSlot .node ((s.slot .node).step s.ramp.record) else s).Bounded := fun early => by
    split
    · exact h.setSlot .node (TermSlot.step_sound (h.slots .node) _)
    · exact h
  exact ((hearly _).drawn.setPorts _).formNodeTarget

theorem takeSync {s : State} (h : s.Bounded) (b : Bool) (interval : Nat) (slots : Vector SlotWord 16) :
    (s.takeSync b interval slots).Bounded := by
  have hmarked := h.setPorts { s.ports with syncSeen := true }
  unfold State.takeSync
  dsimp only
  generalize s.setPorts { s.ports with syncSeen := true } = u at hmarked
  split
  · exact h
  · split
    · unfold State.syncPresent State.inputFrame
      split
      · split
        · exact (hmarked.runFrame _).setPorts _
        · exact hmarked
      · exact hmarked.audioLoss
    · unfold State.syncLost
      split
      · split
        · exact hmarked.audioReturn b
        · exact hmarked.setPorts _
      · exact hmarked.setPorts _

theorem takeGap {s : State} (h : s.Bounded) : s.takeGap.Bounded := by
  unfold State.takeGap
  dsimp only
  split
  · exact h
  · split
    · exact (h.setPorts _).audioLoss
    · exact (h.setPorts _).setPorts _

theorem outputTick {s : State} (h : s.Bounded) : s.outputTick.Bounded := by
  unfold State.outputTick
  split
  · exact (h.runFrame _).setPorts _
  · exact h

/-! ### Block completion -/

theorem dormantIfFaded {s : State} (h : s.Bounded) {ord : List Channel} (hn : ord.Nodup) (hm : ∀ c, c ∈ ord) (b : Bool) :
    (s.dormantIfFaded ord b).Bounded := by
  unfold State.dormantIfFaded
  split
  · exact h.enterDormant hn hm b
  · exact h

theorem takeCompletion {s : State} (h : s.Bounded) (stepFirst : Group → Bool) (entryFirst clearFirst : Bool)
    {ord : List Channel} (hn : ord.Nodup) (hm : ∀ c, c ∈ ord) :
    (s.takeCompletion stepFirst entryFirst clearFirst ord).Bounded := by
  have hdue := h.setPorts { s.ports with blockDue := false }
  unfold State.takeCompletion State.completeBlock
  generalize s.setPorts { s.ports with blockDue := false } = u at hdue
  dsimp only
  split
  · split
    · exact (hdue.rampStep.enterDormant hn hm clearFirst).blockStart
    · exact (((hdue.stepAndUpdate stepFirst).emit.advanceCrossfades ord).dormantIfFaded hn hm clearFirst).blockStart
  · exact h

/-! ### Expiries, sending, queries, fills -/

theorem freshnessExpires {s : State} (h : s.Bounded) (ord : List Channel) (w : Source) :
    (s.freshnessExpires ord w).Bounded := by
  unfold State.freshnessExpires
  split
  · exact (h.clearSource w).select ord
  · exact h

theorem lifetimeExpires {s : State} (h : s.Bounded) (key : EntryKey) : (s.lifetimeExpires key).Bounded := by
  unfold State.lifetimeExpires
  split
  · exact (h.setTable _).recomputeTargets
  · exact h

theorem silenceExpires {s : State} (h : s.Bounded) (ord : List Channel) (b : Bool) (st : Station) :
    (s.silenceExpires ord b st).Bounded := by
  unfold State.silenceExpires
  split
  · exact h.reportAbsence ord b st
  · exact h

theorem latenessExpires {s : State} (h : s.Bounded) (place : Nat) : (s.latenessExpires place).Bounded := by
  unfold State.latenessExpires
  split
  · exact h.makeLate place
  · exact h

theorem silentExpires {s : State} (h : s.Bounded) : s.silentExpires.Bounded := by
  unfold State.silentExpires
  split
  · exact h.relink (.refl _)
  · exact h

/-- An attempt begins only where the interface is within no frame (R147). -/
theorem startSending {s : State} (h : s.Bounded) : s.startSending.Bounded := by
  unfold State.startSending
  split
  · next hmay =>
    have hidle : s.link.inFrame = false := by
      simp only [LinkInterface.maySend, Bool.and_eq_true, Bool.not_eq_true'] at hmay
      exact hmay.2.1.1.2
    unfold LinkInterface.startSending
    split
    · exact h.relink (.refl _)
    · exact h.shrinkQueue (.refl _) h.queue.errors fun hf => absurd hf (by rw [hidle]; exact Bool.false_ne_true)
  · exact h

theorem finishSending {s : State} (h : s.Bounded) : s.finishSending.Bounded := by
  unfold State.finishSending
  split
  · exact h
  · exact (h.shrinkQueue (queueShrinks_afterSend _ _) (Nat.zero_lt_succ _) fun _ => rfl).countLink _

theorem loseContention {s : State} (h : s.Bounded) : s.loseContention.Bounded := by
  unfold State.loseContention
  split
  · exact h
  · exact (h.endUnsent true _).countLink _

theorem failSending {s : State} (h : s.Bounded) (b : Bool) : (s.failSending b).Bounded := by
  unfold State.failSending
  split
  · exact h
  · next a _ =>
    have hended := (h.endUnsent b a).countLink .transmitErrors
    dsimp only
    generalize (s.endUnsent b a).countLink .transmitErrors = u at hended
    obtain ⟨hl, hd⟩ := u.queueLaw_iff.mp hended.queue
    refine hended.setLink hl.raiseErrors fun hs => ?_
    unfold LinkInterface.raiseErrors
    split
    · rfl
    · exact hd hs

theorem discardInvalid {s : State} (h : s.Bounded) (f : RawFrame) : (s.discardInvalid f).Bounded := by
  unfold State.discardInvalid
  split
  · exact h
  · split
    · exact h
    · exact (h.countLink _).endFrame

theorem handAnswer {s : State} (h : s.Bounded) (ht : s.takesCues = true) (group index : Nat) (clear : Bool)
    (frames : List (List Byte)) : (s.handAnswer group index clear frames).Bounded := by
  unfold State.handAnswer
  split
  · exact h.countLink _
  · next l hl =>
    have hqueued : (s.setLink l).Bounded :=
      h.setLink ((s.queueLaw_iff.mp h.queue).1.acceptAnswer hl) fun hs => by rw [State.takesCues, hs] at ht; cases ht
    split
    · exact hqueued.setStats (hqueued.counters.clearReported group index) (State.clearReported_rest _ group index)
    · exact hqueued

theorem takeQuery {s : State} (h : s.Bounded) (ht : s.takesCues = true) (payload : List Byte) :
    (s.takeQuery payload).Bounded := by
  unfold State.takeQuery
  split
  · exact h
  · split
    · exact h.countLink _
    · exact h.handAnswer ht _ _ _ _

theorem startFill {s : State} (h : s.Bounded) : s.startFill.Bounded := by
  unfold State.startFill
  split
  · split
    · exact h
    · exact h.congr
  · exact h

theorem finishFill {s : State} (h : s.Bounded) (ord : List Channel) (record : List Byte) :
    (s.finishFill ord record).Bounded := by
  unfold State.finishFill
  split
  · exact h
  · split
    · exact h.fillPasses ord _ _
    · exact h.fillFails _

theorem powerDown {s : State} (h : s.Bounded) : s.powerDown.Bounded := by
  unfold State.powerDown
  split
  · exact h.congr
  · exact h

/-! ### The step -/

theorem advance {s : State} (h : s.Bounded) : s.advance.Bounded := by
  obtain ⟨hl, hd⟩ := s.queueLaw_iff.mp h.queue
  have htick : QueueShrinks s.link.queue (s.link.tick s.dormant).queue := .of_map fun _ => rfl
  refine ⟨h.slots, h.counters.of_stats rfl, ⟨h.limiters.reduction, h.limiters.own, h.limiters.sent, ?_⟩,
    (State.queueLaw_iff _).mpr ⟨hl.shrink htick hl.errors hl.frame, fun hs => htick.of_nil (hd hs)⟩⟩
  show (if s.dormant then s.emission.age else min 500 (s.emission.age + 1)) ≤ 500
  split
  · exact h.limiters.age
  · exact min_le_left _ _

theorem idle {s : State} (h : s.Bounded) : s.idle.Bounded := by
  unfold State.idle
  split
  · exact h.congr
  · split
    · exact h
    · exact h.advance.congr

theorem exec {s t : State} (h : s.Bounded) (c : Instr) (ht : exec c s = .next t) : t.Bounded := by
  have hn := channelOrder_nodup s.draws
  have hm := mem_channelOrder s.draws
  cases c <;> obtain rfl := Host.Outcome.next.inj ht
  case resetAssert cause => exact assertReset cause
  case resetRelease straps => exact h.releaseReset straps
  case releaseWaitEnd => exact h.endReleaseWait
  case identificationRead b0 b1 b2 => exact h.takeIdentification b0 b1 b2
  case imageHeaderRead header => exact h.takeHeader header
  case imageRead rest => exact h.drawn.takeImageRead _ rest
  case frameSync interval slots => exact h.takeSync _ interval slots
  case frameSyncGap => exact h.takeGap
  case outputFrameTick => exact h.outputTick
  case blockCompletion => exact h.drawn.takeCompletion _ _ _ hn hm
  case settleExpiry => exact h.settleExpires
  case linkSilenceExpiry => exact h.drawn.linkSilenceExpires hn hm _
  case freshnessExpiry source => exact h.drawn.freshnessExpires _ source
  case lifetimeExpiry key => exact h.lifetimeExpires key
  case silenceExpiry station => exact h.drawn.silenceExpires _ _ station
  case latenessExpiry place => exact h.latenessExpires place
  case silentExpiry => exact h.silentExpires
  case sendingStart => exact h.startSending
  case frameSent => exact h.finishSending
  case contentionLost => exact h.loseContention
  case transmitError => exact h.drawn.failSending _
  case invalidFrame frame => exact h.discardInvalid frame
  case imageCue origin zone stamp flags fields => exact h.drawn.receiveCue .image origin fun hu => hu.takeImage _ origin _
  case paceCue origin validity speed => exact h.drawn.receiveCue .pace origin fun hu => hu.takePace _ origin _
  case dipApply origin op masks depth hold => exact h.receiveCue .table origin fun hu => hu.takeDipApply origin _
  case dipRelease origin op => exact h.receiveCue .table origin fun hu => hu.takeDipRelease origin _
  case headroomCue origin v0 v1 v2 v3 code flags => exact h.receiveCue .table origin fun hu => hu.takeHeadroom origin _
  case sleepCue origin => exact h.drawn.receive origin false fun hu => hu.takeSleep hn hm _
  case wakeCue origin => exact h.drawn.receive origin true fun hu => hu.takeWake _
  case queryCue origin target group index flags =>
    exact h.receive origin false fun hu => hu.whenTaken fun htakes => hu.takeQuery htakes _
  case reportFrame origin payload => exact h.receive origin false id
  case fillStart => exact h.startFill
  case fillCompletion record => exact h.drawn.finishFill _ record
  case deepPowerDown => exact h.powerDown

theorem step {s t : State} (h : s.Bounded) (ht : step s = .next t) : t.Bounded := by
  unfold Machine.step at ht
  split at ht
  · obtain rfl := Host.Outcome.next.inj ht
    exact h.idle
  · next c rest _ => exact (h.congr : State.Bounded { s with pending := rest }).exec c ht

end State.Bounded

/-- Settles O57: the four laws are kept by every operation, so by every step. -/
theorem stepKeepsSlotsCountersAndQueues : Obligations.StepKeepsSlotsCountersAndQueues := by
  intro s t hslots hcounters hlimiters hqueue hstep
  obtain ⟨h1, h2, h3, h4⟩ := State.Bounded.step ⟨hslots, hcounters, hlimiters, hqueue⟩ hstep
  exact ⟨h1, h2, h3, h4⟩

end Sys2Proof.Machine
end

section
/-!
Slots in their ranges (R19): what a write, a step and a forced value leave of a range, and the values that the reduction
table, the pace curves and the zone images ask for (R46, R59, R78, R79).
-/
namespace Sys2Proof.Machine

/-! ### Single slots -/

namespace TermSlot.Within

theorem write {t : TermSlot} {lo hi v : Int} (h : t.Within lo hi) (hlo : lo ≤ v) (hhi : v ≤ hi) (e : Option (Fin 32))
    (f : Fin 32 → Nat) : (t.write e f v).Within lo hi := by
  obtain ⟨hc, hc', -, -⟩ := h
  rw [TermSlot.Within, TermSlot.write_current, TermSlot.write_target]
  exact ⟨hc, hc', hlo, hhi⟩

theorem target_idle {t : TermSlot} {lo hi : Int} (h : t.Within lo hi) : (TermSlot.idleAt t.target).Within lo hi := by
  obtain ⟨-, -, ht, ht'⟩ := h
  exact TermSlot.idleAt_within ht ht'

end TermSlot.Within

/-- A move short of the target ends between where it began and the target. -/
theorem moveToward_between {c t : Int} {q : Nat} (h : q < (t - c).natAbs) :
    min c t ≤ moveToward c t q ∧ moveToward c t q ≤ max c t := by
  unfold moveToward
  split <;> omega

theorem TermSlot.Within.step {t : TermSlot} {lo hi : Int} (h : t.Within lo hi) (record : Fin 32 → RampRecord) :
    (t.step record).Within lo hi := by
  cases ha : t.active with
  | none =>
    rcases TermSlot.step_inactive record ha with hs | ⟨hs, -⟩
    · rw [hs]; exact h.target_idle
    · rw [hs]; exact h
  | some r =>
    rcases Nat.lt_or_ge (record r).rate (t.target - t.current).natAbs with hd | hd
    · obtain ⟨hcurrent, -, -⟩ := TermSlot.step_moves ha hd
      obtain ⟨hlow, hhigh⟩ := moveToward_between hd
      obtain ⟨hc, hc', ht, ht'⟩ := h
      rw [TermSlot.Within, hcurrent, TermSlot.step_target]
      exact ⟨(le_min hc ht).trans hlow, hhigh.trans (max_le hc' ht'), ht, ht'⟩
    · rw [TermSlot.step_arrives ha hd]; exact h.target_idle

theorem TermSlot.force_current (t : TermSlot) (v : Int) : (t.force v).current = v := by
  unfold TermSlot.force
  split
  · rfl
  · split <;> rfl

theorem TermSlot.Within.force {t : TermSlot} {lo hi v : Int} (h : t.Within lo hi) (hlo : lo ≤ v) (hhi : v ≤ hi) :
    (t.force v).Within lo hi := by
  obtain ⟨-, -, ht, ht'⟩ := h
  rw [TermSlot.Within, TermSlot.force_current, TermSlot.force_target]
  exact ⟨hlo, hhi, ht, ht'⟩

/-! ### All slots -/

/-- A value is one that a slot may take (R19). -/
def SlotId.Admits (i : SlotId) (v : Int) : Prop := i.low ≤ v ∧ v ≤ i.high

namespace State.SlotsInRange

theorem setSlot {s : State} (h : s.SlotsInRange) (i : SlotId) {t : TermSlot} (ht : t.Within i.low i.high) :
    (s.setSlot i t).SlotsInRange := fun j => by
  rw [State.slot_setSlot]
  split
  · next hij => subst hij; exact ht
  · exact h j

theorem writeTarget {s : State} (h : s.SlotsInRange) {i : SlotId} {v : Int} (hv : i.Admits v) :
    (s.writeTarget i v).SlotsInRange := h.setSlot i ((h i).write hv.1 hv.2 _ _)

theorem writeAll {s : State} (h : s.SlotsInRange) {v : SlotId → Int} {ids : List SlotId} (hv : ∀ i ∈ ids, i.Admits (v i)) :
    (s.writeAll v ids).SlotsInRange := by
  induction ids generalizing s with
  | nil => exact h
  | cons i ids ih =>
    rw [State.writeAll_cons]
    exact ih (h.writeTarget (hv i List.mem_cons_self)) fun j hj => hv j (List.mem_cons_of_mem i hj)

theorem rampStep {s : State} (h : s.SlotsInRange) : s.rampStep.SlotsInRange := fun i => by
  rw [State.slot_rampStep, State.stepped]
  split
  · exact h i
  · exact (h i).step _

theorem settleSlots {s : State} (h : s.SlotsInRange) : s.settleSlots.SlotsInRange := fun i => by
  rw [State.slot_settleSlots]
  split
  · exact h i
  · exact (h i).target_idle

end State.SlotsInRange

/-! ### What the reduction table asks for (R78, R79) -/

/-- The depths of sound entries and the own values are admitted targets. -/
theorem State.tableTarget_admitted {s : State} {station : Station} (hentries : ∀ e ∈ s.table, e.Sound station)
    (hown : ∀ g : Group, s.emission.own[g] ≤ 384) {i : SlotId} (hi : i ∈ tableSlots) : i.Admits (s.tableTarget i) := by
  cases i with
  | dip z k =>
    obtain ⟨⟨hnonneg, -⟩, hattained⟩ := dipTarget_is s.table z k
    refine ⟨hnonneg, ?_⟩
    rcases hattained with hzero | ⟨e, he, ⟨⟨o, d, hkey⟩, -, -⟩, hdepth⟩
    · exact hzero.trans_le (SlotId.high_nonneg _)
    · obtain ⟨-, -, hrange⟩ := hentries e he
      rw [hkey] at hrange
      exact hdepth.symm.trans_le (Int.ofNat_le.mpr hrange.1)
  | link g =>
    obtain ⟨⟨hown', -⟩, hattained⟩ := linkTarget_is s.emission.own[g] s.table g
    refine ⟨(Int.natCast_nonneg _).trans hown', ?_⟩
    rcases hattained with heq | ⟨e, he, ⟨o, hkey⟩, hdepth⟩
    · exact heq.trans_le (Int.ofNat_le.mpr (hown g))
    · obtain ⟨-, -, hrange⟩ := hentries e he
      rw [hkey] at hrange
      exact hdepth.symm.trans_le (Int.ofNat_le.mpr hrange)
  | vol z => exact absurd hi (not_mem_tableSlots nofun nofun)
  | fade z => exact absurd hi (not_mem_tableSlots nofun nofun)
  | bal z => exact absurd hi (not_mem_tableSlots nofun nofun)
  | pace z => exact absurd hi (not_mem_tableSlots nofun nofun)
  | node => exact absurd hi (not_mem_tableSlots nofun nofun)

theorem State.SlotsInRange.recomputeTargets {s : State} (h : s.SlotsInRange) {station : Station}
    (hentries : ∀ e ∈ s.table, e.Sound station) (hown : ∀ g : Group, s.emission.own[g] ≤ 384) :
    s.recomputeTargets.SlotsInRange := by
  rw [State.recomputeTargets_eq]
  exact h.writeAll fun i hi => State.tableTarget_admitted hentries hown hi

theorem State.SlotsInRange.handOwn {s : State} (h : s.SlotsInRange) {station : Station}
    (hentries : ∀ e ∈ s.table, e.Sound station) (hown : ∀ g : Group, s.emission.own[g] ≤ 384) (before own : Vector Nat 4)
    (gs : List Group) : (s.handOwn before own gs).SlotsInRange := by
  unfold State.handOwn
  induction gs generalizing s with
  | nil => exact h
  | cons g gs ih =>
    rw [List.foldl_cons]
    split
    · exact ih h hentries hown
    · exact ih (h.writeTarget (State.tableTarget_admitted hentries hown (mem_tableSlots_link g))) hentries hown

/-! ### What a pace curve asks for (R59) -/

/-- A truncated part of a difference lies between nothing and the whole of it. -/
theorem tdiv_part_between {d m n : Int} (hm : 0 ≤ m) (hmn : m ≤ n) (hn : 0 < n) :
    min 0 d ≤ (d * m).tdiv n ∧ (d * m).tdiv n ≤ max 0 d := by
  have hpart : ∀ e : Int, 0 ≤ e → 0 ≤ (e * m).tdiv n ∧ (e * m).tdiv n ≤ e := fun e he => by
    have hprod : 0 ≤ e * m := Int.mul_nonneg he hm
    rw [Int.tdiv_eq_ediv_of_nonneg hprod]
    exact ⟨Int.ediv_nonneg hprod hn.le, Int.ediv_le_of_le_mul hn (Int.mul_le_mul_of_nonneg_left hmn he)⟩
  rcases Int.le_total 0 d with hd | hd
  · obtain ⟨h0, h1⟩ := hpart d hd
    omega
  · obtain ⟨h0, h1⟩ := hpart (-d) (by omega)
    rw [Int.neg_mul, Int.neg_tdiv] at h0 h1
    omega

theorem interpolateBoost_between {p q : Breakpoint} {speed : Nat} (hp : p.speed ≤ speed) (hq : speed < q.speed) :
    min (p.boost : Int) q.boost ≤ interpolateBoost p q speed ∧ interpolateBoost p q speed ≤ max (p.boost : Int) q.boost := by
  have h := tdiv_part_between (d := (q.boost : Int) - p.boost) (m := (speed : Int) - p.speed)
    (n := (q.speed : Int) - p.speed) (by omega) (by omega) (by omega)
  unfold interpolateBoost
  omega

theorem boostFrom_between {speed : Nat} {l : List Breakpoint} {p : Breakpoint} (hp : p.speed ≤ speed) (hb : p.boost ≤ 192)
    (hl : ∀ q ∈ l, q.boost ≤ 192) : 0 ≤ boostFrom p speed l ∧ boostFrom p speed l ≤ 192 := by
  induction l generalizing p with
  | nil =>
    rw [boostFrom]
    omega
  | cons q l ih =>
    have hqb := hl q List.mem_cons_self
    rw [boostFrom]
    split
    · next hq =>
      have h := interpolateBoost_between hp hq
      omega
    · next hq => exact ih (Nat.not_lt.mp hq) hqb fun r hr => hl r (List.mem_cons_of_mem q hr)

/-- No boost of a curve passes its breakpoints' bound of 192. -/
theorem curveBoost_admitted {curve : Curve} (h : ∀ k : Fin 8, curve[k].boost ≤ 192) (z : Zone) (speed : Nat) :
    (SlotId.pace z).Admits (curveBoost curve speed) := by
  have hmem : ∀ q ∈ curve.toList, q.boost ≤ 192 := fun q hq => by
    obtain ⟨k, hk, rfl⟩ := List.getElem_of_mem hq
    have hk' : k < 8 := by simpa using hk
    simpa using h ⟨k, hk'⟩
  have hfirst : curve[0].boost ≤ 192 := h 0
  unfold curveBoost
  split
  · exact ⟨Int.natCast_nonneg _, Int.ofNat_le.mpr hfirst⟩
  · next hs => exact boostFrom_between (by omega) hfirst fun q hq => hmem q (List.mem_of_mem_tail hq)

/-! ### What a zone image asks for (R46) -/

theorem volumeTarget_admitted {i : Nat} (h : i ≤ 120) (z : Zone) : (SlotId.vol z).Admits (volumeTarget i) := by
  show 0 ≤ volumeTarget i ∧ volumeTarget i ≤ 1600
  unfold volumeTarget
  split <;> omega

theorem stepTarget_between {f : Int} (h : -32 ≤ f ∧ f ≤ 32) : -512 ≤ stepTarget f ∧ stepTarget f ≤ 512 := by
  unfold stepTarget; omega

end Sys2Proof.Machine
end

section
/-!
What an admitted configuration holds (R159): zone records and pace curves in their ranges.
-/
namespace Sys2Proof.Machine

theorem gather_eq_some {α : Type} {n : Nat} {d : α} {f : Fin n → Option α} {v : Vector α n} (h : gather d f = some v)
    (i : Fin n) : f i = some v[i] := by
  unfold gather at h
  split at h
  · next hall =>
    obtain rfl := Option.some.inj h
    rw [List.all_eq_true] at hall
    obtain ⟨x, hx⟩ := Option.isSome_iff_exists.mp (hall i (List.mem_finRange i))
    simp [hx]
  · cases h

theorem ranged_eq_some {lo hi v x : Nat} (h : ranged lo hi v = some x) : lo ≤ x ∧ x ≤ hi := by
  unfold ranged at h
  split at h
  · next hv =>
    obtain rfl := Option.some.inj h
    exact hv
  · cases h

theorem stepField_eq_some {b : Byte} {x : Int} (h : stepField b = some x) : -32 ≤ x ∧ x ≤ 32 := by
  unfold stepField at h
  split at h
  · next hb =>
    obtain rfl := Option.some.inj h
    exact hb
  · cases h

theorem breakpoint_boost_le {img : List Byte} {o : Nat} {p : Breakpoint} (h : breakpoint img o = some p) :
    p.boost ≤ 192 := by
  unfold breakpoint at h
  split at h
  · next hboost =>
    obtain rfl := Option.some.inj h
    exact (ranged_eq_some hboost).2
  · cases h

/-- A list that increases step by step increases between any two places. -/
theorem increasing_pairwise {l : List Nat} (h : increasing l = true) : l.Pairwise (· < ·) := by
  rw [← List.isChain_iff_pairwise]
  induction l with
  | nil => exact .nil
  | cons a l ih =>
    cases l with
    | nil => exact .singleton a
    | cons b l =>
      rw [increasing, Bool.and_eq_true, decide_eq_true_iff] at h
      exact .cons_cons h.1 (ih h.2)

theorem curveOk_increasing {curve : Curve} (h : curveOk curve = true) (j k : Fin 8) (hjk : j < k) :
    curve[j].speed < curve[k].speed := by
  have hpair := List.pairwise_iff_getElem.mp (increasing_pairwise h) j k (by simp) (by simp) hjk
  simpa using hpair

/-- A zone record is in the ranges of R159. -/
structure ZoneConfig.Admitted (r : ZoneConfig) : Prop where
  volume  : r.volume ≤ r.maxVolume
  maximum : r.maxVolume ≤ 120
  fade    : -32 ≤ r.fade ∧ r.fade ≤ 32
  balance : -32 ≤ r.balance ∧ r.balance ≤ 32
  boost   : ∀ k : Fin 8, r.curve[k].boost ≤ 192
  speed   : ∀ j k : Fin 8, j < k → r.curve[j].speed < r.curve[k].speed

theorem zoneRecord_admitted {img : List Byte} {z : Nat} {r : ZoneConfig} (h : zoneRecord img z = some r)
    (hcurve : curveOk r.curve = true) : r.Admitted := by
  unfold zoneRecord at h
  dsimp only at h
  split at h
  · next hmax hfade hbalance _ hbreaks =>
    split at h
    · next hvolume =>
      obtain rfl := Option.some.inj h
      exact ⟨(ranged_eq_some hvolume).2, (ranged_eq_some hmax).2, stepField_eq_some hfade, stepField_eq_some hbalance,
        fun k => breakpoint_boost_le (gather_eq_some hbreaks k), curveOk_increasing hcurve⟩
    · cases h
  · cases h

/-- Every zone record of an admitted image is in its ranges. -/
theorem checkImage_zone {img : List Byte} {cfg : NodeConfig} (h : checkImage img = .ok cfg) (z : Zone) :
    cfg.zones[z].Admitted := by
  unfold checkImage at h
  split at h
  · cases h
  · split at h
    · next hzones _ =>
      unfold checkTables at h
      split at h
      · cases h
      · split at h
        · cases h
        · next hcurves =>
          split at h
          · obtain rfl := Except.ok.inj h
            refine zoneRecord_admitted (gather_eq_some hzones z) ?_
            rw [Bool.not_eq_true, Bool.not_eq_false', List.all_eq_true] at hcurves
            exact hcurves _ (by simp)
          · cases h
    · cases h

end Sys2Proof.Machine
end

section
/-!
Zone images through a cue (R40 to R47): the values stay in their ranges, the origin table holds four records of different
stations, and the targets are those of the values.
-/
namespace Sys2Proof.Machine

/-! ### Origin tables (R41 to R43) -/

theorem removeOrigin_sublist (o : Station) (l : List OriginRecord) : (removeOrigin o l).Sublist l := List.filter_sublist

theorem mem_removeOrigin {o : Station} {l : List OriginRecord} {r : OriginRecord} (h : r ∈ removeOrigin o l) :
    r ∈ l ∧ r.origin ≠ o := by
  rw [removeOrigin, List.mem_filter, bne_iff_ne] at h
  exact h

/-- The records kept at an acceptance are other stations' and at most three (R42, R43). -/
theorem acceptStamp_eq (o : Station) (stamp : Byte) {l : List OriginRecord} (hl : l.length ≤ 4) :
    ∃ kept : List OriginRecord, acceptStamp o stamp l = kept ++ [{ origin := o, stamp := stamp }] ∧
      kept.Sublist l ∧ kept.length ≤ 3 ∧ ∀ r ∈ kept, r.origin ≠ o := by
  have hsub := removeOrigin_sublist o l
  have hlength := hsub.length_le
  refine ⟨_, rfl, ?_⟩
  split
  · next hroom => exact ⟨hsub, by omega, fun r hr => (mem_removeOrigin hr).2⟩
  · refine ⟨(List.tail_sublist _).trans hsub, ?_, fun r hr => (mem_removeOrigin (List.mem_of_mem_tail hr)).2⟩
    rw [List.length_tail]
    omega

theorem mem_acceptStamp {o : Station} {stamp : Byte} {l : List OriginRecord} (hl : l.length ≤ 4) {r : OriginRecord}
    (h : r ∈ acceptStamp o stamp l) : r ∈ l ∨ r.origin = o := by
  obtain ⟨kept, heq, hsub, -, -⟩ := acceptStamp_eq o stamp hl
  rw [heq, List.mem_append, List.mem_singleton] at h
  rcases h with h | rfl
  · exact .inl (hsub.subset h)
  · exact .inr rfl

namespace ZoneImage.Sound

/-- A table of some of the records is in order as well. -/
theorem keepOrigins {station : Station} {im : ZoneImage} (h : im.Sound station) {l : List OriginRecord}
    (hl : l.Sublist im.origins) : { im with origins := l }.Sound station where
  volume := h.volume
  maximum := h.maximum
  fade := h.fade
  balance := h.balance
  size := hl.length_le.trans h.size
  origins := (hl.map _).nodup h.origins
  own r hr := h.own r (hl.subset hr)

theorem acceptStamp {station : Station} {im : ZoneImage} (h : im.Sound station) {o : Station} (ho : o ≠ station)
    (stamp : Byte) : { im with origins := Machine.acceptStamp o stamp im.origins }.Sound station := by
  obtain ⟨kept, heq, hsub, hlength, hother⟩ := acceptStamp_eq o stamp h.size
  rw [heq]
  refine ⟨h.volume, h.maximum, h.fade, h.balance, ?_, ?_, fun r hr => ?_⟩
  · rw [List.length_append, List.length_singleton]; omega
  · rw [List.map_append, List.nodup_append]
    refine ⟨(hsub.map _).nodup h.origins, List.nodup_singleton _, ?_⟩
    rintro a ha b hb rfl
    obtain ⟨r, hr, rfl⟩ := List.mem_map.mp ha
    exact hother r hr (List.mem_singleton.mp hb)
  · rcases List.mem_append.mp hr with hr | hr
    · exact h.own r (hsub.subset hr)
    · rw [List.mem_singleton.mp hr]; exact ho

end ZoneImage.Sound

/-! ### Values of a cue (R45, R47) -/

theorem clampInt_between {lo hi : Int} (h : lo ≤ hi) (v : Int) : lo ≤ clampInt lo hi v ∧ clampInt lo hi v ≤ hi := by
  rw [clampInt_eq h]
  omega

theorem newVolume_le (f : ImageFields) {im : ZoneImage} (h : im.volume ≤ im.maxVolume) : newVolume f im ≤ im.maxVolume := by
  unfold newVolume
  split
  · exact min_le_right _ _
  · next d _ _ =>
    obtain ⟨h0, h1⟩ := clampInt_between (Int.natCast_nonneg im.maxVolume) (im.volume + d.toInt)
    omega
  · exact h

theorem newStep_between (b : Option Byte) {old : Int} (h : -32 ≤ old ∧ old ≤ 32) :
    -32 ≤ newStep b old ∧ newStep b old ≤ 32 := by
  cases b with
  | none => exact h
  | some b => exact clampInt_between (by decide) _

/-- A zone image after the values of a cue. -/
def ZoneImage.applied (f : ImageFields) (im : ZoneImage) : ZoneImage :=
  { im with volume := newVolume f im, fade := newStep f.fade im.fade, balance := newStep f.balance im.balance,
            preset := newPreset f.preset im.preset }

theorem ZoneImage.Sound.applied {station : Station} {im : ZoneImage} (h : im.Sound station) (f : ImageFields) :
    (im.applied f).Sound station where
  volume := newVolume_le f h.volume
  maximum := h.maximum
  fade := newStep_between f.fade h.fade
  balance := newStep_between f.balance h.balance
  size := h.size
  origins := h.origins
  own := h.own

/-! ### Images and their targets -/

theorem State.image_setImage (s : State) (z y : Zone) (im : ZoneImage) :
    (s.setImage z im).image[y] = if z = y then im else s.image[y] := by
  by_cases h : z = y
  · subst h; simp
  · have hv : (z : Nat) ≠ y := fun e => h (Fin.ext e)
    simp [h, hv]

theorem State.slot_writeIfChanged (s : State) (b : Bool) (i j : SlotId) (v : Int) :
    (s.writeIfChanged b i v).slot j = if b = true ∧ i = j then s.written i v else s.slot j := by
  unfold State.writeIfChanged
  cases b with
  | false => simp
  | true => simp [State.slot_writeTarget]

theorem State.writeIfChanged_rest (s : State) (b : Bool) (i : SlotId) (v : Int) :
    s.writeIfChanged b i v = { s with ramp := (s.writeIfChanged b i v).ramp } := by
  unfold State.writeIfChanged
  split <;> rfl

theorem State.SlotsInRange.writeIfChanged {s : State} (h : s.SlotsInRange) (b : Bool) {i : SlotId} {v : Int}
    (hv : i.Admits v) : (s.writeIfChanged b i v).SlotsInRange := by
  unfold State.writeIfChanged
  split
  · exact h.writeTarget hv
  · exact h

theorem State.imageTaken_rest (z : Zone) (f : ImageFields) (s : State) : s.imageTaken z f =
    { s.setImage z (s.image[z].applied f) with ramp := (s.imageTaken z f).ramp } := by
  unfold State.imageTaken
  rw [State.writeIfChanged_rest, State.writeIfChanged_rest, State.writeIfChanged_rest]
  rfl

/-- The target a zone image asks of a slot; the other slots ask nothing of it (R46). -/
def State.imageTarget (s : State) : SlotId → Option Int
  | .vol z => some (volumeTarget s.image[z].volume)
  | .fade z => some (stepTarget s.image[z].fade)
  | .bal z => some (stepTarget s.image[z].balance)
  | .pace _ | .dip _ _ | .link _ | .node => none

/-- The targets are those the zone images ask for. -/
def State.ImageTargets (s : State) : Prop := ∀ i v, s.imageTarget i = some v → (s.slot i).target = v

theorem State.imageLaw_iff (s : State) :
    s.ImageLaw ↔ (∀ z : Zone, s.image[z].Sound s.loader.station) ∧ s.ImageTargets := by
  constructor
  · rintro ⟨hsound, hvolume, hfade, hbalance⟩
    refine ⟨hsound, fun i v h => ?_⟩
    cases i with
    | vol z => obtain rfl := Option.some.inj h; exact hvolume z
    | fade z => obtain rfl := Option.some.inj h; exact hfade z
    | bal z => obtain rfl := Option.some.inj h; exact hbalance z
    | pace z => cases h
    | dip z k => cases h
    | link g => cases h
    | node => cases h
  · rintro ⟨hsound, htargets⟩
    exact ⟨hsound, fun z => htargets (.vol z) _ rfl, fun z => htargets (.fade z) _ rfl, fun z => htargets (.bal z) _ rfl⟩

/-- A slot written where its image's value changed holds the target of the new value. -/
theorem target_writeIfChanged {α : Type} [DecidableEq α] {s : State} {i : SlotId} {old new : α} {target : α → Int}
    (h : (s.slot i).target = target old) : ((s.writeIfChanged (new != old) i (target new)).slot i).target = target new := by
  rw [State.slot_writeIfChanged]
  split
  · exact State.written_target _ _ _
  · next hc =>
    have heq : new = old := by simpa using hc
    rw [heq]; exact h

theorem State.slot_writeIfChanged_other (s : State) (b : Bool) {i j : SlotId} (h : i ≠ j) (v : Int) :
    (s.writeIfChanged b i v).slot j = s.slot j := by
  rw [State.slot_writeIfChanged, if_neg fun hc => h hc.2]

theorem State.image_imageTaken (s : State) (z : Zone) (f : ImageFields) (y : Zone) :
    (s.imageTaken z f).image[y] = if z = y then s.image[z].applied f else s.image[y] := by
  rw [State.imageTaken_rest]
  exact State.image_setImage ..

/-- A cue leaves the targets those of the images: each value that changed has its target written (R46, R47). -/
theorem State.ImageTargets.imageTaken {s : State} (h : s.ImageTargets) (z : Zone) (f : ImageFields) :
    (s.imageTaken z f).ImageTargets := by
  intro i v hv
  cases i with
  | vol y =>
    obtain rfl := Option.some.inj hv
    rw [State.image_imageTaken]
    simp only [State.imageTaken, State.slot_writeIfChanged_other, ne_eq, reduceCtorEq, not_false_eq_true]
    split
    · next hz => subst hz; exact target_writeIfChanged (target := volumeTarget) (h (.vol z) _ rfl)
    · next hz =>
      rw [State.slot_writeIfChanged_other _ _ fun e => hz (SlotId.vol.inj e)]
      exact h (.vol y) _ rfl
  | fade y =>
    obtain rfl := Option.some.inj hv
    rw [State.image_imageTaken]
    simp only [State.imageTaken, State.slot_writeIfChanged_other, ne_eq, reduceCtorEq, not_false_eq_true]
    split
    · next hz =>
      subst hz
      refine target_writeIfChanged (target := stepTarget) ?_
      simp only [State.slot_writeIfChanged_other, ne_eq, reduceCtorEq, not_false_eq_true]
      exact h (.fade z) _ rfl
    · next hz =>
      simp only [State.slot_writeIfChanged_other, ne_eq, reduceCtorEq, not_false_eq_true, SlotId.fade.injEq, hz]
      exact h (.fade y) _ rfl
  | bal y =>
    obtain rfl := Option.some.inj hv
    rw [State.image_imageTaken]
    split
    · next hz =>
      subst hz
      refine target_writeIfChanged (target := stepTarget) ?_
      simp only [State.slot_writeIfChanged_other, ne_eq, reduceCtorEq, not_false_eq_true]
      exact h (.bal z) _ rfl
    · next hz =>
      simp only [State.imageTaken, State.slot_writeIfChanged_other, ne_eq, reduceCtorEq, not_false_eq_true,
        SlotId.bal.injEq, hz]
      exact h (.bal y) _ rfl
  | pace y => cases hv
  | dip y k => cases hv
  | link g => cases hv
  | node => cases hv

theorem State.SlotsInRange.imageTaken {s : State} (h : s.SlotsInRange) {station : Station} {z : Zone}
    (him : s.image[z].Sound station) (f : ImageFields) : (s.imageTaken z f).SlotsInRange := by
  have himage := him.applied f
  have hstart : (s.setImage z (s.image[z].applied f)).SlotsInRange := h
  have hfade : (SlotId.fade z).Admits (stepTarget (newStep f.fade s.image[z].fade)) := stepTarget_between himage.fade
  have hbalance : (SlotId.bal z).Admits (stepTarget (newStep f.balance s.image[z].balance)) :=
    stepTarget_between himage.balance
  exact ((hstart.writeIfChanged _ (volumeTarget_admitted (himage.volume.trans himage.maximum) z)).writeIfChanged _
    hfade).writeIfChanged _ hbalance

end Sys2Proof.Machine
end

section
/-!
Every step keeps the zone images, their targets, the presence of all origins held, and every slot in its range (R19, R40,
R41, R46, R49, R59, R77, R155): one invariant with the absence reports that are still to be taken as a parameter, through every
operation in the order of the model's files.
-/
namespace Sys2Proof.Machine

/-! ### The invariant -/

/-- Absence reports that are still to be taken: of which station, by which recipient. -/
abbrev OpenReports := Station → Recipient → Prop

/-- No report is open but the one that the link interface holds (log 32). -/
def heldReport (w : Option (Station × Recipient)) : OpenReports := fun o r => w = some (o, r)

/-- The open reports without one that is taken. -/
def OpenReports.without (X : OpenReports) (o : Station) (r : Recipient) : OpenReports := fun p q => X p q ∧ (p = o → q ≠ r)

/-- A station is marked present (R155). -/
def State.Present (s : State) (o : Station) : Prop := s.link.stations[o].present = true

/-- A recipient may hold a record of a station: it is present, or its absence is still to be reported (R49, R77). -/
def State.MayHold (X : OpenReports) (s : State) (r : Recipient) (o : Station) : Prop := s.Present o ∨ X o r

/-- The images, their targets, the table's entries, the presence of all origins, the slots and the values they follow are as
the laws want them, but for the records of stations with open absence reports. -/
structure State.Regular (X : OpenReports) (w : Option (Station × Recipient)) (s : State) : Prop where
  own      : s.link.stations[s.loader.station].present = false
  entries  : ∀ e ∈ s.table, e.Sound s.loader.station ∧ s.MayHold X .table (entryOrigin e.key)
  origins  : ∀ z : Zone, ∀ r ∈ s.image[z].origins, s.MayHold X .image r.origin
  images   : ∀ z : Zone, s.image[z].Sound s.loader.station
  targets  : s.ImageTargets
  limiters : s.LimiterLaw
  slots    : s.SlotsInRange
  curves   : s.CurvesAdmitted
  owed     : s.link.owed = w

/-- The report that the link interface holds stands only while its cue is the next command and will be taken (log 32). -/
def State.Awaits (s : State) (o : Station) (r : Recipient) : Prop :=
  s.inReset = false ∧ s.takesCues = true ∧ o ≠ s.loader.station ∧
    ∃ c rest, s.pending = c :: rest ∧ frameOrigin c = some o ∧ cueRecipient c = some r

/-- The invariant between two steps. -/
def State.Lawful (s : State) : Prop :=
  s.Regular (heldReport s.link.owed) s.link.owed ∧ ∀ o r, s.link.owed = some (o, r) → s.Awaits o r

theorem State.lawful_of_laws {s : State} (htable : s.TableLaw) (hlimiters : s.LimiterLaw) (himage : s.ImageLaw)
    (hpresence : s.PresenceLaw) (hrange : s.RangeLaw) : s.Lawful := by
  obtain ⟨himages, htargets⟩ := s.imageLaw_iff.mp himage
  obtain ⟨hslots, hcurves⟩ := s.rangeLaw_iff.mp hrange
  exact ⟨⟨hpresence.own, fun e he => ⟨htable.entries e he, hpresence.entries e he⟩, hpresence.origins, himages, htargets,
    hlimiters, hslots, hcurves, rfl⟩, hpresence.owed⟩

theorem State.Lawful.laws {s : State} (h : s.Lawful) : s.ImageLaw ∧ s.PresenceLaw ∧ s.RangeLaw := by
  obtain ⟨hregular, howed⟩ := h
  exact ⟨s.imageLaw_iff.mpr ⟨hregular.images, hregular.targets⟩,
    ⟨hregular.own, fun e he => (hregular.entries e he).2, hregular.origins, howed⟩,
    s.rangeLaw_iff.mpr ⟨hregular.slots, hregular.curves⟩⟩

/-- A station whose cue is taken: present, and not the node itself. -/
structure State.Hears (s : State) (o : Station) : Prop where
  present : s.Present o
  other   : o ≠ s.loader.station

theorem State.Hears.congr {s t : State} {o : Station} (h : s.Hears o) (hlink : t.link = s.link)
    (hloader : t.loader = s.loader) : t.Hears o :=
  ⟨by rw [State.Present, hlink]; exact h.present, by rw [hloader]; exact h.other⟩

namespace State.Regular

variable {X Y : OpenReports} {w : Option (Station × Recipient)} {s t : State}

/-- Without an open report the invariant holds between steps. -/
theorem lawful (h : s.Regular (heldReport none) none) : s.Lawful := by
  refine ⟨?_, fun o r ho => ?_⟩
  · rw [h.owed]; exact h
  · rw [h.owed] at ho; cases ho

theorem mono (h : s.Regular X w) (hXY : ∀ o r, X o r → Y o r) : s.Regular Y w where
  own := h.own
  entries e he := ⟨(h.entries e he).1, (h.entries e he).2.imp_right (hXY _ _)⟩
  origins z r hr := (h.origins z r hr).imp_right (hXY _ _)
  images := h.images
  targets := h.targets
  limiters := h.limiters
  slots := h.slots
  curves := h.curves
  owed := h.owed

/-- The invariant speaks of presence, table, images, slots, curves and what the limiter law speaks of alone. -/
theorem relimit (h : s.Regular X w) (hlimiters : t.LimiterLaw) (hslots : t.ramp.slots = s.ramp.slots := by rfl)
    (htable : t.table = s.table := by rfl) (himage : t.image = s.image := by rfl)
    (hcurves : t.pace.curves = s.pace.curves := by rfl) (hstation : t.loader.station = s.loader.station := by rfl)
    (hpresent : ∀ o : Station, t.link.stations[o].present = s.link.stations[o].present := by exact fun _ => rfl)
    (howed : t.link.owed = s.link.owed := by rfl) : t.Regular X w := by
  have hhold : ∀ r o, s.MayHold X r o → t.MayHold X r o := fun r o => Or.imp_left fun hp => (hpresent o).trans hp
  have hslot : ∀ i, t.slot i = s.slot i := fun i => by rw [State.slot, hslots, State.slot]
  refine ⟨?_, fun e he => ?_, fun z r hr => ?_, fun z => ?_, fun i v hv => ?_, hlimiters, fun i => ?_, fun cs hcs => ?_,
    howed.trans h.owed⟩
  · rw [hpresent, hstation]; exact h.own
  · rw [htable] at he
    rw [hstation]
    exact ⟨(h.entries e he).1, hhold _ _ (h.entries e he).2⟩
  · rw [himage] at hr; exact hhold _ _ (h.origins z r hr)
  · rw [himage, hstation]; exact h.images z
  · rw [hslot]
    refine h.targets i v ?_
    rw [← hv]
    unfold State.imageTarget
    rw [himage]
  · rw [hslot]; exact h.slots i
  · rw [hcurves] at hcs; exact h.curves cs hcs

/-- The same reductions and emission values as well. -/
theorem congr (h : s.Regular X w) (hslots : t.ramp.slots = s.ramp.slots := by rfl) (htable : t.table = s.table := by rfl)
    (himage : t.image = s.image := by rfl) (hcurves : t.pace.curves = s.pace.curves := by rfl)
    (hstation : t.loader.station = s.loader.station := by rfl)
    (hchannels : ∀ c, (t.channel c).reduction = (s.channel c).reduction := by exact fun _ => rfl)
    (hemission : t.emission = s.emission := by rfl)
    (hpresent : ∀ o : Station, t.link.stations[o].present = s.link.stations[o].present := by exact fun _ => rfl)
    (howed : t.link.owed = s.link.owed := by rfl) : t.Regular X w :=
  h.relimit (h.limiters.congr hchannels hemission) hslots htable himage hcurves hstation hpresent howed

/-! ### Updates of single parts -/

theorem drawn (h : s.Regular X w) : s.drawn.Regular X w := h.congr

theorem setStats (h : s.Regular X w) (hrest : t = { s with stats := t.stats }) : t.Regular X w := by
  rw [hrest]; exact h.congr

theorem countLink (h : s.Regular X w) (k : LinkCounter) : (s.countLink k).Regular X w :=
  h.setStats (by unfold State.countLink; split <;> rfl)

theorem countCache (h : s.Regular X w) (k : CacheCounter) : (s.countCache k).Regular X w :=
  h.setStats (by unfold State.countCache; split <;> rfl)

/-- New slots in range, with the targets that the images ask for. -/
theorem setSlots (h : s.Regular X w) (hslots : t.SlotsInRange)
    (htargets : ∀ i, s.imageTarget i ≠ none → (t.slot i).target = (s.slot i).target)
    (hrest : t = { s with ramp := t.ramp }) : t.Regular X w := by
  have himage : ∀ i, t.imageTarget i = s.imageTarget i := fun i => by rw [hrest]; rfl
  refine ⟨?_, ?_, ?_, ?_, fun i v hv => ?_, ?_, hslots, ?_, ?_⟩
  · rw [hrest]; exact h.own
  · rw [hrest]; exact h.entries
  · rw [hrest]; exact h.origins
  · rw [hrest]; exact h.images
  · rw [himage] at hv
    rw [htargets i (by rw [hv]; exact Option.some_ne_none v)]
    exact h.targets i v hv
  · rw [hrest]; exact h.limiters.congr (fun _ => rfl) rfl
  · rw [hrest]; exact h.curves
  · rw [hrest]; exact h.owed

/-- A new slot that no image speaks of. -/
theorem setSlot (h : s.Regular X w) {i : SlotId} (hi : s.imageTarget i = none) {x : TermSlot}
    (hx : x.Within i.low i.high) : (s.setSlot i x).Regular X w :=
  h.setSlots (h.slots.setSlot i hx)
    (fun j hj => by
      have hij : i ≠ j := by rintro rfl; exact hj hi
      rw [State.slot_setSlot_other _ hij])
    rfl

theorem writeTarget (h : s.Regular X w) {i : SlotId} (hi : s.imageTarget i = none) {v : Int} (hv : i.Admits v) :
    (s.writeTarget i v).Regular X w :=
  h.setSlots (h.slots.writeTarget hv)
    (fun j hj => by
      have hij : i ≠ j := by rintro rfl; exact hj hi
      rw [State.slot_writeTarget_other _ hij])
    rfl

theorem rampStep (h : s.Regular X w) : s.rampStep.Regular X w :=
  h.setSlots h.slots.rampStep
    (fun i _ => by
      rw [State.slot_rampStep, State.stepped]
      split
      · rfl
      · exact TermSlot.step_target _ _)
    s.rampStep_rest

theorem sound_entries (h : s.Regular X w) : ∀ e ∈ s.table, e.Sound s.loader.station := fun e he => (h.entries e he).1

theorem imageTarget_tableSlots {i : SlotId} (h : s.imageTarget i ≠ none) : i ∉ tableSlots :=
  not_mem_tableSlots (fun _ _ hi => h (by rw [hi]; rfl)) fun _ hi => h (by rw [hi]; rfl)

theorem recomputeTargets (h : s.Regular X w) : s.recomputeTargets.Regular X w :=
  h.setSlots (h.slots.recomputeTargets h.sound_entries h.limiters.own)
    (fun i hi => by rw [State.slot_recomputeTargets, if_neg (imageTarget_tableSlots hi)])
    s.recomputeTargets_ramp

theorem formNodeTarget (h : s.Regular X w) : s.formNodeTarget.Regular X w := by
  refine h.writeTarget rfl ?_
  unfold nodeTarget
  split
  · exact ⟨by decide, by decide⟩
  · exact ⟨by decide, by decide⟩

theorem handOwn (h : s.Regular X w) (before own : Vector Nat 4) (gs : List Group) :
    (s.handOwn before own gs).Regular X w :=
  h.setSlots (h.slots.handOwn h.sound_entries h.limiters.own before own gs)
    (fun i hi => by rw [State.handOwn_slot_other _ _ _ _ fun g e => hi (by rw [e]; rfl)])
    (s.handOwn_rest before own gs)

/-- What the cache does touches nothing that the invariant speaks of. -/
theorem cacheStep (h : s.Regular X w) (hc : s.CacheStep t) : t.Regular X w :=
  h.congr (by rw [hc.ramp]) hc.table hc.image (by rw [hc.pace]) (by rw [hc.loader]) hc.reduction hc.emission
    (fun o => by rw [hc.link]) (by rw [hc.link])

/-- A new link interface with the same stations present and the same report held. -/
theorem relink (h : s.Regular X w) {l : LinkInterface}
    (hpresent : ∀ o : Station, l.stations[o].present = s.link.stations[o].present := by exact fun _ => rfl)
    (howed : l.owed = s.link.owed := by rfl) : (s.setLink l).Regular X w :=
  h.congr (hpresent := hpresent) (howed := howed)

/-! ### Cache and library port -/

theorem evaluateTurns (h : s.Regular X w) (ord : List Channel) : (s.inTurn State.evaluate ord).Regular X w :=
  h.cacheStep (State.evaluateTurns_cacheStep ord s)

theorem advanceCrossfades (h : s.Regular X w) (ord : List Channel) :
    (s.inTurn State.advanceCrossfade ord).Regular X w :=
  h.cacheStep (.inTurn (fun c u => .advanceCrossfade u c) ord s)

theorem wayFree (h : s.Regular X w) (i : Fin 16) : (s.wayFree i).Regular X w := h.cacheStep (.wayFree s i)

theorem fillPasses (h : s.Regular X w) (ord : List Channel) (f : Fill) (coefs : List Coefs) :
    (s.fillPasses ord f coefs).Regular X w := by
  have hs := ((h.congr : State.Regular X w { s.setLine f.line { s.line f.line with state := .valid, coefs := coefs } with
    library := { (s.setLine f.line { s.line f.line with state := .valid, coefs := coefs }).library with
      errors := 0, fill := none, selected := false } })).cacheStep (.inTurn (fun c x => .takeIfAttached x f.line c) ord _)
  unfold State.fillPasses
  dsimp only
  split
  · exact hs.wayFree _
  · exact hs

theorem becomeFaulty (h : s.Regular X w) : s.becomeFaulty.Regular X w :=
  h.congr (hchannels := fun c => by
    rw [State.becomeFaulty, State.channel_mapChannels]
    simp only [State.channel])

theorem fillFails (h : s.Regular X w) (f : Fill) : (s.fillFails f).Regular X w := by
  unfold State.fillFails
  dsimp only
  have hcounted : ((s.invalidate f.line).countCache .fillErrors).Regular X w :=
    (h.congr : State.Regular X w (s.invalidate f.line)).countCache .fillErrors
  generalize (s.invalidate f.line).countCache .fillErrors = u at hcounted
  have hdropped : (State.mapChannels (fun _ x =>
      if x.request = .waitingFill f.line then { x with request := .idle, failed := some f.key } else x)
      { u with library := { u.library with errors := u.library.errors + 1, fill := none, selected := false } }).Regular X w :=
    hcounted.congr (hchannels := fun c => by rw [State.channel_mapChannels]; split <;> rfl)
  split
  · exact hdropped.becomeFaulty
  · exact hdropped.wayFree _

/-! ### Image handler -/

/-- One zone image replaced by another with the same values. -/
theorem setImage (h : s.Regular X w) (z : Zone) {im : ZoneImage} (hsound : im.Sound s.loader.station)
    (horigins : ∀ r ∈ im.origins, s.MayHold X .image r.origin) (hvolume : im.volume = s.image[z].volume)
    (hfade : im.fade = s.image[z].fade) (hbalance : im.balance = s.image[z].balance) :
    (s.setImage z im).Regular X w where
  own := h.own
  entries := h.entries
  origins y r hr := by
    rw [State.image_setImage] at hr
    split at hr
    · exact horigins r hr
    · exact h.origins y r hr
  images y := by
    rw [State.image_setImage]
    split
    · exact hsound
    · exact h.images y
  targets i v hv := by
    refine h.targets i v ?_
    rw [← hv]
    cases i with
    | vol y => simp only [State.imageTarget, State.image_setImage]; split <;> simp_all
    | fade y => simp only [State.imageTarget, State.image_setImage]; split <;> simp_all
    | bal y => simp only [State.imageTarget, State.image_setImage]; split <;> simp_all
    | pace y => rfl
    | dip y k => rfl
    | link g => rfl
    | node => rfl
  limiters := h.limiters.congr (fun _ => rfl) rfl
  slots := h.slots
  curves := h.curves
  owed := h.owed

theorem recordStamp (h : s.Regular X w) {o : Station} (ho : s.Hears o) (z : Zone) (stamp : Byte) :
    (s.recordStamp z o stamp).Regular X w := by
  refine h.setImage z ((h.images z).acceptStamp ho.other stamp) (fun r hr => ?_) rfl rfl rfl
  rcases mem_acceptStamp (h.images z).size hr with hold | heq
  · exact h.origins z r hold
  · rw [heq]; exact .inl ho.present

theorem imageTaken (h : s.Regular X w) (z : Zone) (f : ImageFields) : (s.imageTaken z f).Regular X w := by
  have hrest := State.imageTaken_rest z f s
  refine ⟨?_, ?_, fun y r hr => ?_, fun y => ?_, h.targets.imageTaken z f, ?_, h.slots.imageTaken (h.images z) f, ?_, ?_⟩
  · rw [hrest]; exact h.own
  · rw [hrest]; exact h.entries
  · have hmem : r ∈ s.image[y].origins := by
      rw [State.image_imageTaken] at hr
      split at hr
      · next hz => rw [← hz]; exact hr
      · exact hr
    rw [hrest]
    exact h.origins y r hmem
  · have hstation : (s.imageTaken z f).loader.station = s.loader.station := by rw [hrest]; rfl
    rw [hstation, State.image_imageTaken]
    split
    · exact (h.images z).applied f
    · exact h.images y
  · rw [hrest]; exact h.limiters.congr (fun _ => rfl) rfl
  · rw [hrest]; exact h.curves
  · rw [hrest]; exact h.owed

theorem applyImage (h : s.Regular X w) (ord : List Channel) (z : Zone) (f : ImageFields) :
    (s.applyImage ord z f).Regular X w := by
  rw [State.applyImage_eq]
  split
  · exact h.imageTaken z f
  · exact (h.imageTaken z f).cacheStep (.handPreset _ ord z _)

theorem takeImage (h : s.Regular X w) {o : Station} (ho : s.Hears o) (ord : List Channel) (payload : List Byte) :
    (s.takeImage ord o payload).Regular X w := by
  unfold State.takeImage
  dsimp only
  split
  · exact h.countLink _
  · split
    · exact h.countLink _
    · split
      · exact h
      · exact h.countLink _
      · exact (h.recordStamp ho _ _).applyImage ord _ _
      · exact (h.recordStamp ho _ _).applyImage ord _ _

/-! ### Pace unit -/

theorem setPace (h : s.Regular X w) {p : PaceUnit} (hcurves : p.curves = s.pace.curves := by rfl) :
    (s.setPace p).Regular X w := h.congr (hcurves := hcurves)

theorem writePaceTargets (h : s.Regular X w) {curves : Vector Curve 4} (hcurves : s.pace.curves = some curves)
    (speed : Nat) : (s.writePaceTargets curves speed).Regular X w := by
  have hadmits : ∀ z : Zone, (SlotId.pace z).Admits (curveBoost curves[z] speed) := fun z =>
    curveBoost_admitted (h.curves curves hcurves z).1 z speed
  exact (((h.writeTarget rfl (hadmits 0)).writeTarget rfl (hadmits 1)).writeTarget rfl (hadmits 2)).writeTarget rfl (hadmits 3)

theorem formPace (h : s.Regular X w) (ord : List Channel) : (s.formPace ord).Regular X w := by
  unfold State.formPace
  split
  · exact h
  · next curves hcurves => exact ((h.writePaceTargets hcurves _).setPace).cacheStep (.handBands _ ord _ _)

theorem select (h : s.Regular X w) (ord : List Channel) : (s.select ord).Regular X w := by
  unfold State.select
  dsimp only
  split
  · exact h.setPace
  · exact h.setPace.formPace ord

theorem setSource (h : s.Regular X w) (which : Source) (x : SpeedSource) :
    (s.setPace (s.pace.setSource which x)).Regular X w :=
  h.setPace (by cases which <;> rfl)

theorem clearSource (h : s.Regular X w) (which : Source) : (s.clearSource which).Regular X w := h.setSource which _

theorem takePace (h : s.Regular X w) (ord : List Channel) (o : Station) (payload : List Byte) :
    (s.takePace ord o payload).Regular X w := by
  unfold State.takePace
  split
  · exact h.countLink _
  · split
    · exact (h.setSource _ _).select ord
    · split
      · exact (h.clearSource _).select ord
      · exact h.countLink _

theorem sourceAbsent (h : s.Regular X w) (ord : List Channel) (st : Station) (which : Source) :
    (s.sourceAbsent ord st which).Regular X w := by
  unfold State.sourceAbsent
  split
  · exact (h.clearSource which).select ord
  · exact h

end State.Regular

end Sys2Proof.Machine
end

section
/-!
The reduction table, the link interface and the absence reports under the invariant of O59 (R49, R66 to R77, R154, R155).
-/
namespace Sys2Proof.Machine

/-! ### Entries of a changed table (R67, R68) -/

theorem mem_updateEntry {e x : Entry} {table : List Entry} (h : x ∈ updateEntry e table) : x ∈ table ∨ x = e := by
  obtain ⟨y, hy, rfl⟩ := List.mem_map.mp h
  split
  · exact .inr rfl
  · exact .inl hy

theorem removeFirstDepth_sublist (d : Nat) (table : List Entry) : (removeFirstDepth d table).Sublist table := by
  induction table with
  | nil => exact .slnil
  | cons e es ih =>
    rw [removeFirstDepth]
    split
    · exact List.sublist_cons_self e es
    · exact ih.cons_cons e

theorem mem_admitEntry {e x : Entry} {table after : List Entry} (h : admitEntry e table = some after) (hx : x ∈ after) :
    x ∈ table ∨ x = e := by
  unfold admitEntry at h
  split at h
  · obtain rfl := Option.some.inj h
    exact (List.mem_append.mp hx).imp_right List.mem_singleton.mp
  · split at h
    · obtain rfl := Option.some.inj h
      exact (List.mem_append.mp hx).imp (fun hm => (removeFirstDepth_sublist _ _).subset hm) List.mem_singleton.mp
    · cases h

theorem State.putEntry_link (e : Entry) (s : State) : (s.putEntry e).link = s.link := by
  obtain ⟨refused, -, hrest⟩ := State.putEntry_spec e s
  rw [hrest]
  cases refused with
  | false => rfl
  | true => exact State.countLink_link _ _

theorem State.putEntry_loader (e : Entry) (s : State) : (s.putEntry e).loader = s.loader := by
  obtain ⟨refused, -, hrest⟩ := State.putEntry_spec e s
  rw [hrest]
  cases refused with
  | false => rfl
  | true => exact State.countLink_loader _ _

theorem State.Hears.applyGroup {s : State} {o : Station} (h : s.Hears o) (g : Group) (v : Nat) :
    (s.applyGroup o g v).Hears o := by
  unfold State.applyGroup
  split
  · exact h.congr rfl rfl
  · exact h.congr (State.putEntry_link _ s) (State.putEntry_loader _ s)

theorem State.image_removeOrigins (s : State) (o : Station) (z : Zone) :
    (s.removeOrigins o).image[z] = { s.image[z] with origins := removeOrigin o s.image[z].origins } := by
  simp [State.removeOrigins]

/-- What the images ask for follows their values. -/
theorem State.imageTarget_congr {s t : State} (h : ∀ z : Zone, t.image[z].volume = s.image[z].volume ∧
    t.image[z].fade = s.image[z].fade ∧ t.image[z].balance = s.image[z].balance) (i : SlotId) :
    t.imageTarget i = s.imageTarget i := by
  cases i with
  | vol z => rw [State.imageTarget, State.imageTarget, (h z).1]
  | fade z => rw [State.imageTarget, State.imageTarget, (h z).2.1]
  | bal z => rw [State.imageTarget, State.imageTarget, (h z).2.2]
  | pace z => rfl
  | dip z k => rfl
  | link g => rfl
  | node => rfl

namespace State.Regular

variable {X : OpenReports} {w : Option (Station × Recipient)} {s : State}

/-! ### Reduction table -/

/-- A new table of sound entries that may be held. -/
theorem setTable (h : s.Regular X w) {table : List Entry}
    (htable : ∀ e ∈ table, e.Sound s.loader.station ∧ s.MayHold X .table (entryOrigin e.key)) :
    (s.setTable table).Regular X w where
  own := h.own
  entries := htable
  origins := h.origins
  images := h.images
  targets := h.targets
  limiters := h.limiters.congr (fun _ => rfl) rfl
  slots := h.slots
  curves := h.curves
  owed := h.owed

/-- Some of the entries. -/
theorem keepEntries (h : s.Regular X w) {table : List Entry} (htable : table.Sublist s.table) :
    (s.setTable table).Regular X w :=
  h.setTable fun e he => h.entries e (htable.subset he)

theorem removeEntry (h : s.Regular X w) (key : EntryKey) : (s.setTable (Machine.removeEntry key s.table)).Regular X w :=
  h.keepEntries List.filter_sublist

/-- An entry of a present station written. -/
theorem putEntry (h : s.Regular X w) {e : Entry} (he : e.Sound s.loader.station) (hp : s.Present (entryOrigin e.key)) :
    (s.putEntry e).Regular X w := by
  have hadmitted : ∀ {table : List Entry}, (∀ x ∈ table, x ∈ s.table ∨ x = e) → (s.setTable table).Regular X w :=
    fun htable => h.setTable fun x hx => by
      rcases htable x hx with hold | rfl
      · exact h.entries x hold
      · exact ⟨he, .inl hp⟩
  unfold State.putEntry
  split
  · exact hadmitted fun x => mem_updateEntry
  · split
    · next after hafter => exact hadmitted fun x => mem_admitEntry hafter
    · exact h.countLink _

theorem releaseDip (h : s.Regular X w) (o : Station) (id : Fin 8) : (s.releaseDip o id).Regular X w := by
  unfold State.releaseDip
  split
  · exact h
  · exact (h.removeEntry _).recomputeTargets

theorem takeDipApply (h : s.Regular X w) {o : Station} (ho : s.Hears o) (payload : List Byte) :
    (s.takeDipApply o payload).Regular X w := by
  unfold State.takeDipApply State.applyDip
  split
  · split
    · exact h.releaseDip _ _
    · next hnonzero =>
      obtain ⟨hdepth, hzones, hclasses⟩ : _ ∧ _ ∧ _ := by simpa only [not_or] using hnonzero
      refine State.Regular.recomputeTargets ?_
      refine h.putEntry ⟨ho.other, ?_, min_le_right _ _, hzones, hclasses⟩ ho.present
      show 1 ≤ min _ 1600
      omega
  · exact h.countLink _

theorem takeDipRelease (h : s.Regular X w) (o : Station) (payload : List Byte) :
    (s.takeDipRelease o payload).Regular X w := by
  unfold State.takeDipRelease
  split
  · exact h.releaseDip _ _
  · exact h.countLink _

theorem applyGroup (h : s.Regular X w) {o : Station} (ho : s.Hears o) (g : Group) (v : Nat) :
    (s.applyGroup o g v).Regular X w := by
  unfold State.applyGroup
  split
  · exact h.removeEntry _
  · next hv =>
    refine h.putEntry ⟨ho.other, ?_, min_le_right _ _⟩ ho.present
    show 1 ≤ min v 384
    omega

theorem takeHeadroom (h : s.Regular X w) {o : Station} (ho : s.Hears o) (payload : List Byte) :
    (s.takeHeadroom o payload).Regular X w := by
  have h0 := h.applyGroup ho 0 (halfAt payload 0).toNat
  have ho0 := ho.applyGroup 0 (halfAt payload 0).toNat
  have h1 := h0.applyGroup ho0 1 (halfAt payload 2).toNat
  have ho1 := ho0.applyGroup 1 (halfAt payload 2).toNat
  have h2 := h1.applyGroup ho1 2 (halfAt payload 4).toNat
  have ho2 := ho1.applyGroup 2 (halfAt payload 4).toNat
  exact (h2.applyGroup ho2 3 _).recomputeTargets

/-! ### Absence reports (R49, R58, R77) -/

theorem removeOrigins (h : s.Regular X w) (o : Station) : (s.removeOrigins o).Regular (X.without o .image) w := by
  refine ⟨?_, fun e he => ?_, fun z r hr => ?_, fun z => ?_, fun i v hv => ?_, ?_, fun i => ?_, ?_, ?_⟩
  · exact h.own
  · rw [State.removeOrigins_table] at he
    rw [State.removeOrigins_loader, State.MayHold, State.Present, State.removeOrigins_link]
    obtain ⟨hsound, hhold⟩ := h.entries e he
    exact ⟨hsound, hhold.imp_right fun hx => ⟨hx, fun _ => nofun⟩⟩
  · rw [State.image_removeOrigins] at hr
    obtain ⟨hmem, hother⟩ := mem_removeOrigin hr
    rw [State.MayHold, State.Present, State.removeOrigins_link]
    exact (h.origins z r hmem).imp_right fun hx => ⟨hx, fun heq => absurd heq hother⟩
  · rw [State.image_removeOrigins, State.removeOrigins_loader]
    exact (h.images z).keepOrigins (removeOrigin_sublist _ _)
  · rw [State.removeOrigins_slot]
    refine h.targets i v (hv ▸ (State.imageTarget_congr (fun z => ?_) i).symm)
    rw [State.image_removeOrigins]
    exact ⟨rfl, rfl, rfl⟩
  · exact h.limiters.congr (fun c => by rw [State.removeOrigins_channel]) (State.removeOrigins_emission s o)
  · rw [State.removeOrigins_slot]; exact h.slots i
  · rw [State.CurvesAdmitted, State.removeOrigins_pace]; exact h.curves
  · rw [State.removeOrigins_link]; exact h.owed

theorem purgeStation (h : s.Regular X w) (o : Station) : (s.purgeStation o).Regular (X.without o .table) w := by
  have hfiltered : (s.setTable (s.table.filter fun e => entryOrigin e.key != o)).Regular (X.without o .table) w := by
    refine ⟨h.own, fun e he => ?_, fun z r hr => ?_, h.images, h.targets, h.limiters.congr (fun _ => rfl) rfl, h.slots,
      h.curves, h.owed⟩
    · obtain ⟨hmem, hother⟩ := List.mem_filter.mp he
      obtain ⟨hsound, hhold⟩ := h.entries e hmem
      exact ⟨hsound, hhold.imp_right fun hx => ⟨hx, fun heq => absurd heq (bne_iff_ne.mp hother)⟩⟩
    · exact (h.origins z r hr).imp_right fun hx => ⟨hx, fun _ => nofun⟩
  exact hfiltered.recomputeTargets

/-- A recipient that takes a report holds nothing of the station any more. -/
theorem tellAbsence (h : s.Regular X w) (ord : List Channel) (o : Station) (r : Recipient) :
    (s.tellAbsence ord o r).Regular (X.without o r) w := by
  cases r with
  | image => exact h.removeOrigins o
  | pace =>
    have htold := (h.sourceAbsent ord o .primary).sourceAbsent ord o .secondary
    refine ⟨htold.own, fun e he => ?_, fun z r hr => ?_, htold.images, htold.targets, htold.limiters, htold.slots,
      htold.curves, htold.owed⟩
    · obtain ⟨hsound, hhold⟩ := htold.entries e he
      exact ⟨hsound, hhold.imp_right fun hx => ⟨hx, fun _ => nofun⟩⟩
    · exact (htold.origins z r hr).imp_right fun hx => ⟨hx, fun _ => nofun⟩
  | table => exact h.purgeStation o

/-- After the reports no recipient told has one of them open. -/
theorem tellAll (h : s.Regular X w) (ord : List Channel) (o : Station) (rs : List Recipient) :
    (s.tellAll ord o rs).Regular (fun p q => X p q ∧ (p = o → q ∉ rs)) w := by
  unfold State.tellAll
  induction rs generalizing s X with
  | nil => exact h.mono fun p q hx => ⟨hx, fun _ => List.not_mem_nil⟩
  | cons r rs ih =>
    refine (ih (h.tellAbsence ord o r)).mono fun p q hx => ?_
    obtain ⟨⟨hx, hr⟩, hrs⟩ := hx
    exact ⟨hx, fun hp => List.not_mem_cons_of_ne_of_not_mem (hr hp) (hrs hp)⟩

/-! ### Link interface -/

theorem setOwed (h : s.Regular X w) (v : Option (Station × Recipient)) : (s.setOwed v).Regular X v where
  own := h.own
  entries := h.entries
  origins := h.origins
  images := h.images
  targets := h.targets
  limiters := h.limiters.congr (fun _ => rfl) rfl
  slots := h.slots
  curves := h.curves
  owed := rfl

end State.Regular

/-- The presence records after one of them is replaced. -/
theorem State.stations_setPresence (s : State) (o p : Station) (x : PresenceRecord) :
    (s.setPresence o x).link.stations[p] = if p = o then x else s.link.stations[p] := by
  by_cases h : p = o
  · subst h; simp [State.setPresence]
  · have hv : (o : Nat) ≠ p := fun e => h (Fin.ext e.symm)
    simp [State.setPresence, h, hv]

namespace State.Regular

variable {X : OpenReports} {w : Option (Station × Recipient)} {s : State}

/-- A station that falls absent leaves reports at every recipient open (R155). -/
theorem markAbsent (h : s.Regular X w) (o : Station) {x : PresenceRecord} (hx : x.present = false) :
    (s.setPresence o x).Regular (fun p q => X p q ∨ p = o) w := by
  have hhold : ∀ {r : Recipient} {p : Station}, s.MayHold X r p →
      (s.setPresence o x).MayHold (fun p q => X p q ∨ p = o) r p := fun {r p} hp => by
    by_cases hpo : p = o
    · exact .inr (.inr hpo)
    · rw [State.MayHold, State.Present, State.stations_setPresence, if_neg hpo]
      exact hp.imp_right .inl
  refine ⟨?_, fun e he => (h.entries e he).imp_right hhold, fun z r hr => hhold (h.origins z r hr), h.images, h.targets,
    h.limiters.congr (fun _ => rfl) rfl, h.slots, h.curves, h.owed⟩
  rw [State.stations_setPresence]
  split
  · exact hx
  · exact h.own

/-- A station heard has no report open any more: what it is to be told has its station present (R155). -/
theorem markPresent (h : s.Regular X w) {o : Station} (ho : o ≠ s.loader.station) :
    (s.markPresent o).Regular (fun p q => X p q ∧ p ≠ o) w := by
  have hhold : ∀ {r : Recipient} {p : Station}, s.MayHold X r p →
      (s.markPresent o).MayHold (fun p q => X p q ∧ p ≠ o) r p := fun {r p} hp => by
    rw [State.MayHold, State.Present, State.markPresent, State.stations_setPresence]
    by_cases hpo : p = o
    · rw [if_pos hpo]; exact .inl rfl
    · rw [if_neg hpo]; exact hp.imp_right fun hx => ⟨hx, hpo⟩
  refine ⟨?_, fun e he => (h.entries e he).imp_right hhold, fun z r hr => hhold (h.origins z r hr), h.images, h.targets,
    h.limiters.congr (fun _ => rfl) rfl, h.slots, h.curves, h.owed⟩
  have hown : (s.markPresent o).link.stations[s.loader.station] = s.link.stations[s.loader.station] := by
    rw [State.markPresent, State.stations_setPresence, if_neg ho.symm]
  show (s.markPresent o).link.stations[s.loader.station].present = false
  rw [hown]
  exact h.own

theorem endFrame (h : s.Regular X w) : s.endFrame.Regular X w := h.relink

theorem clashed (h : s.Regular X w) : s.clashed.Regular X w :=
  (h.relink (l := { s.link with inFrame := false, clash := true })).countLink .clashes

theorem heard (h : s.Regular X w) {o : Station} (ho : o ≠ s.loader.station) :
    (s.heard o).Regular (fun p q => X p q ∧ p ≠ o) w := by
  have hended := (h.countLink .framesHeard).endFrame
  have hmarked := hended.markPresent (o := o) (by
    show o ≠ (s.countLink .framesHeard).loader.station
    rw [State.countLink_loader]
    exact ho)
  unfold State.heard State.restartLinkSilence
  split
  · exact hmarked.congr
  · exact hmarked

end State.Regular

/-- The origin of a frame that was heard. -/
theorem State.Hears.heard {s : State} {o : Station} (ho : o ≠ s.loader.station) : (s.heard o).Hears o := by
  refine ⟨?_, ?_⟩
  · rw [State.Present, State.heard_stations, if_pos rfl]
  · rw [State.heard_rest]; exact ho

/-- A frame is taken from another station alone (R154). -/
theorem State.reception_taken_other {s : State} {o : Station} {b : Bool} (h : s.reception o b = .taken) :
    o ≠ s.loader.station := by
  unfold State.reception at h
  split at h
  · cases h
  · split at h
    · split at h
      · next hwake => exact bne_iff_ne.mp (Bool.and_eq_true_iff.mp hwake).2
      · cases h
    · split at h
      · cases h
      · next hother => exact hother

namespace State.Regular

variable {s : State}

theorem heard_settled (h : s.Regular (heldReport none) none) {o : Station} (ho : o ≠ s.loader.station) :
    (s.heard o).Regular (heldReport none) none :=
  (h.heard ho).mono fun _ _ hx => hx.1

/-- A received frame whose block keeps the invariant. -/
theorem receive (h : s.Regular (heldReport none) none) (o : Station) (b : Bool) {f : State → State}
    (hf : ∀ {u : State}, u.Regular (heldReport none) none → u.Hears o → (f u).Regular (heldReport none) none) :
    (s.receive o b f).Regular (heldReport none) none := by
  unfold State.receive
  split
  · split
    · exact h
    · exact h.endFrame
  · exact h.clashed
  · next htaken =>
    have ho := State.reception_taken_other htaken
    exact hf (h.heard_settled ho) (.heard ho)

theorem whenTaken {X : OpenReports} {w : Option (Station × Recipient)} (h : s.Regular X w) {f : State → State}
    (hf : (f s).Regular X w) : (s.whenTaken f).Regular X w := by
  unfold State.whenTaken
  split
  · exact hf
  · exact h

end State.Regular

/-- No report is open, or the one of the cue's station waits for this very cue, which will be taken (log 32). -/
def State.ReadyFor (s : State) (o : Station) (r : Recipient) : Prop :=
  s.Regular (heldReport none) none ∨ s.Regular (heldReport (some (o, r))) (some (o, r)) ∧ s.Takes o

namespace State.ReadyFor

variable {s : State} {o : Station} {r : Recipient}

theorem drawn (h : s.ReadyFor o r) : s.drawn.ReadyFor o r :=
  h.imp (·.drawn) fun hw => ⟨hw.1.drawn, hw.2.released, hw.2.state, hw.2.other⟩

/-- A received cue of a recipient of absence reports. Where its report waits, the station is present again, and the report is
taken after the cue. -/
theorem receive (h : s.ReadyFor o r) {f : State → State}
    (hf : ∀ {u : State}, u.Regular (heldReport none) none → u.Hears o → (f u).Regular (heldReport none) none) :
    (s.receive o false (State.whenTaken (State.takeCue r o f))).Regular (heldReport none) none := by
  rcases h with hnone | ⟨howed, htakes⟩
  · refine hnone.receive o false fun {u} hu ho => hu.whenTaken ?_
    rw [State.takeCue_noneOwed (by rw [hu.owed]; exact nofun)]
    exact hf hu ho
  · have hother : o ≠ (s.setOwed none).loader.station := htakes.other
    have hheard : ((s.setOwed none).heard o).Regular (heldReport none) none := by
      refine ((howed.setOwed none).heard hother).mono fun p q hx => ?_
      obtain ⟨hheld, hp⟩ := hx
      obtain ⟨rfl, -⟩ := Prod.mk.inj (Option.some.inj hheld)
      exact absurd rfl hp
    rw [State.receive_owed htakes howed.owed]
    exact ((hf hheard (.heard hother)).drawn.tellAbsence _ o r).mono fun _ _ hx => hx.1

end State.ReadyFor

end Sys2Proof.Machine
end

section
/-!
The blocks of the node, the resets and the step under the invariant of O59 (R19, R50, R87, R138, R141 to R146, R160).
-/
namespace Sys2Proof.Machine

theorem State.SlotsInRange.setOwn {s : State} (h : s.SlotsInRange) {station : Station}
    (hentries : ∀ e ∈ s.table, e.Sound station) {own : Vector Nat 4} (hown : ∀ g : Group, own[g] ≤ 384) :
    (s.setOwn own).SlotsInRange := by
  rw [State.setOwn_eq]
  exact State.SlotsInRange.handOwn (s := s.holdOwn own) h hentries hown _ _ _

/-- The slots at the entry to DORMANT, before the last recomputation. -/
theorem State.SlotsInRange.silenced {s : State} (h : s.SlotsInRange) {station : Station}
    (hentries : ∀ e ∈ s.table, e.Sound station) : s.silenced.SlotsInRange := by
  have hstopped : ((s.setNode { s.node with state := .dormant, ampOn := false, settle := none, linkSilence := none }).mapChannels
      fun _ x => x.stop).SlotsInRange := fun i => by
    rw [State.mapChannels_slot, State.setNode_slot]
    exact h i
  have hzero : ∀ g : Group, (Vector.replicate 4 0 : Vector Nat 4)[g] ≤ 384 := fun g => by simp
  have hunowned : s.unowned.SlotsInRange :=
    hstopped.setOwn (by rw [State.mapChannels_table]; exact hentries) hzero
  exact hunowned

theorem State.SlotsInRange.enterDormant {s : State} (h : s.SlotsInRange) {station : Station}
    (hentries : ∀ e ∈ s.table, e.Sound station) (ord : List Channel) (b : Bool) : (s.enterDormant ord b).SlotsInRange :=
  fun i => by
    rw [State.slot_enterDormant]
    refine State.SlotsInRange.recomputeTargets (h.silenced hentries) (station := station) nofun (fun g => ?_) i
    rw [State.silenced_own]
    simp

/-- An admitted configuration's initial targets are in the slots' ranges (R31, R159). -/
theorem NodeConfig.startTarget_admitted {cfg : NodeConfig} (h : ∀ z : Zone, cfg.zones[z].Admitted) (i : SlotId)
    (hi : i ∈ startSlots) : i.Admits (cfg.startTarget i) := by
  obtain ⟨hnode, hdip, hlink⟩ := not_mem_startSlots
  cases i with
  | vol z => exact volumeTarget_admitted ((h z).volume.trans (h z).maximum) z
  | fade z => exact stepTarget_between (h z).fade
  | bal z => exact stepTarget_between (h z).balance
  | pace z => exact curveBoost_admitted (h z).boost z 0
  | dip z k => exact absurd hi (hdip z k)
  | link g => exact absurd hi (hlink g)
  | node => exact absurd hi hnode

theorem ZoneConfig.Admitted.image_sound {r : ZoneConfig} (h : r.Admitted) (station : Station) : r.image.Sound station where
  volume := h.volume
  maximum := h.maximum
  fade := h.fade
  balance := h.balance
  size := Nat.zero_le _
  origins := List.nodup_nil
  own := nofun

namespace State.Regular

variable {X : OpenReports} {w : Option (Station × Recipient)} {s : State}

/-! ### Limiters and emission -/

theorem updateLimiters (h : s.Regular X w) : s.updateLimiters.Regular X w :=
  h.relimit h.limiters.updateLimiters (by rw [State.updateLimiters_rest]) (by rw [State.updateLimiters_rest])
    (by rw [State.updateLimiters_rest]) (by rw [State.updateLimiters_rest]) (by rw [State.updateLimiters_rest])
    (fun o => by rw [State.updateLimiters_rest]) (by rw [State.updateLimiters_rest])

theorem holdOwn (h : s.Regular X w) {own : Vector Nat 4} (hown : ∀ g : Group, own[g] ≤ 384) :
    (s.holdOwn own).Regular X w :=
  h.relimit (h.limiters.holdOwn hown)

theorem stepAndUpdate (h : s.Regular X w) (b : Group → Bool) : (s.stepAndUpdate b).Regular X w := by
  have hu := h.updateLimiters
  exact (((hu.holdOwn hu.limiters.ownValues).handOwn _ _ _).rampStep).handOwn _ _ _

theorem emit (h : s.Regular X w) : s.emit.Regular X w :=
  h.relimit h.limiters.emit (by rw [State.emit_rest]) (by rw [State.emit_rest]) (by rw [State.emit_rest])
    (by rw [State.emit_rest]) (by rw [State.emit_rest]) (fun o => by rw [State.emit_rest]) (by rw [State.emit_rest])

/-! ### Node state controller -/

theorem setNode (h : s.Regular X w) (n : NodeControl) : (s.setNode n).Regular X w := h.congr

theorem blockStart (h : s.Regular X w) : s.blockStart.Regular X w :=
  h.congr (by rw [State.blockStart_rest]) (by rw [State.blockStart_rest]) (by rw [State.blockStart_rest])
    (by rw [State.blockStart_rest]) (by rw [State.blockStart_rest]) (fun c => by rw [State.channel_blockStart]; rfl)
    (by rw [State.blockStart_rest]) (fun o => by rw [State.blockStart_rest]) (by rw [State.blockStart_rest])

theorem enterActive (h : s.Regular X w) : s.enterActive.Regular X w := (h.setNode _).formNodeTarget

/-- The entry to DORMANT leaves no entries and no origin records, and no slot that an image speaks of changes (R50, R82). -/
theorem enterDormant (h : s.Regular X w) {ord : List Channel} (hn : ord.Nodup) (hm : ∀ c, c ∈ ord) (b : Bool) :
    (s.enterDormant ord b).Regular X w := by
  have hfalls := s.enterDormant_falls hn hm b
  obtain ⟨-, -, -, -, -, -, hstations, howed, -⟩ := hfalls.entry.link
  obtain ⟨hloader, -⟩ := hfalls.entry.kept
  obtain ⟨-, -, hage, -⟩ := hfalls.rest
  have hslots := h.slots.enterDormant h.sound_entries ord b
  generalize s.enterDormant ord b = t at *
  refine ⟨?_, fun e he => ?_, fun z r hr => ?_, fun z => ?_, fun i v hv => ?_, ⟨fun c => ?_, fun g => ?_, fun g => ?_, ?_⟩,
    hslots, ?_, howed.trans h.owed⟩
  · simp only [hstations, hloader]; exact h.own
  · rw [hfalls.entry.table] at he; cases he
  · rw [hfalls.entry.image] at hr; cases hr
  · rw [hfalls.entry.image, hloader]; exact (h.images z).keepOrigins (List.nil_sublist _)
  · have hi : s.imageTarget i = some v := by
      rw [← hv]
      exact (State.imageTarget_congr (fun z => by rw [hfalls.entry.image]; exact ⟨rfl, rfl, rfl⟩) i).symm
    rw [hfalls.slots i (fun _ _ e => by rw [e] at hi; cases hi) (fun _ e => by rw [e] at hi; cases hi)]
    exact h.targets i v hi
  · rw [(hfalls.entry.channels c).1]; exact Nat.zero_le _
  · rw [(hfalls.entry.emission g).1]; exact Nat.zero_le _
  · rw [(hfalls.entry.emission g).2]; exact Nat.zero_le _
  · rw [hage]; exact h.limiters.age
  · rw [State.CurvesAdmitted, hfalls.entry.pace]; exact h.curves

theorem enterQuiet (h : s.Regular X w) {ord : List Channel} (hn : ord.Nodup) (hm : ∀ c, c ∈ ord) (b : Bool) :
    (s.enterQuiet ord b).Regular X w := by
  have hquiet := (h.setNode { s.node with state := .quiet, settle := none }).formNodeTarget
  unfold State.enterQuiet
  dsimp only
  split
  · exact hquiet.enterDormant hn hm b
  · exact hquiet

theorem enterWaking (h : s.Regular X w) : s.enterWaking.Regular X w :=
  h.relimit ⟨h.limiters.reduction, h.limiters.own, h.limiters.sent, le_rfl⟩

theorem settleSlots (h : s.Regular X w) : s.settleSlots.Regular X w :=
  h.setSlots h.slots.settleSlots
    (fun i _ => by
      rw [State.slot_settleSlots]
      split
      · rfl
      · rfl)
    (by simp only [State.settleSlots])

theorem restartAges (h : s.Regular X w) : (s.setLink s.link.restartAges).Regular X w := by
  have hpresent : ∀ o : Station, s.link.restartAges.stations[o].present = s.link.stations[o].present := fun o => by
    rw [LinkInterface.restartAges_station]
    split
    · rfl
    · rfl
  have hages : s.link.restartAges = { s.link with stations := s.link.restartAges.stations } := rfl
  rw [hages]
  generalize s.link.restartAges.stations = stations at hpresent ⊢
  exact h.relink (l := { s.link with stations := stations }) hpresent

theorem wake (h : s.Regular X w) (ord : List Channel) : (s.wake ord).Regular X w := by
  have hrestarted := h.enterWaking.settleSlots.restartAges
  unfold State.wake
  dsimp only
  generalize s.enterWaking.settleSlots.setLink s.enterWaking.settleSlots.link.restartAges = v at hrestarted
  exact (hrestarted.congr : State.Regular X w { v with library := v.library.wake }).evaluateTurns ord

theorem takeSleep (h : s.Regular X w) {ord : List Channel} (hn : ord.Nodup) (hm : ∀ c, c ∈ ord) (b : Bool) :
    (s.takeSleep ord b).Regular X w := by
  unfold State.takeSleep
  generalize s.node.state = state
  cases state with
  | waking => exact h.enterQuiet hn hm b
  | active => exact h.enterQuiet hn hm b
  | start => exact h
  | held => exact h
  | quiet => exact h
  | dormant => exact h

theorem takeWake (h : s.Regular X w) (ord : List Channel) : (s.takeWake ord).Regular X w := by
  unfold State.takeWake
  generalize s.node.state = state
  cases state with
  | quiet => exact h.enterActive
  | dormant => exact h.wake ord
  | start => exact h
  | held => exact h
  | waking => exact h
  | active => exact h

theorem settleExpires (h : s.Regular X w) : s.settleExpires.Regular X w := by
  unfold State.settleExpires
  split
  · split
    · exact h.enterActive
    · exact h.congr
  · exact h

theorem linkSilenceExpires (h : s.Regular X w) {ord : List Channel} (hn : ord.Nodup) (hm : ∀ c, c ∈ ord) (b : Bool) :
    (s.linkSilenceExpires ord b).Regular X w := by
  have hstopped := h.setNode { s.node with linkSilence := none }
  unfold State.linkSilenceExpires
  split
  · dsimp only
    split
    · exact hstopped.enterQuiet hn hm b
    · exact hstopped
  · exact h

/-! ### HELD, reset and start-up -/

/-- A node whose images, table, pace unit, limiters and slots are at their initial values. -/
theorem of_initial {t : State} (hown : t.link.stations[t.loader.station].present = false)
    (himage : ∀ z : Zone, t.image[z] = .initial) (htable : t.table = []) (hcurves : t.pace.curves = none)
    (hslots : ∀ i, t.slot i = TermSlot.idleAt (if i = .node then 1600 else 0)) (hlimiters : t.LimiterLaw)
    (howed : t.link.owed = w) : t.Regular X w where
  own := hown
  entries e he := by rw [htable] at he; cases he
  origins z r hr := by rw [himage] at hr; cases hr
  images z := by rw [himage]; exact ZoneImage.initial_sound _
  targets i v hv := by
    rw [hslots]
    cases i with
    | vol z => rw [State.imageTarget, himage] at hv; exact Option.some.inj hv
    | fade z => rw [State.imageTarget, himage] at hv; exact Option.some.inj hv
    | bal z => rw [State.imageTarget, himage] at hv; exact Option.some.inj hv
    | pace z => cases hv
    | dip z k => cases hv
    | link g => cases hv
    | node => cases hv
  limiters := hlimiters
  slots := State.slotsInRange_of_initial hslots
  curves cs hcs := by rw [hcurves] at hcs; cases hcs
  owed := howed

theorem enterHeld (h : s.Regular X w) (code : FaultCode) : (s.enterHeld code).Regular X w := by
  have hheld := s.enterHeld_heldWith code
  obtain ⟨hlink, -, -⟩ := hheld.kept
  obtain ⟨hvalues, hage⟩ := hheld.emission
  obtain ⟨-, -, -, -, -, hcurves⟩ := hheld.pace
  generalize s.enterHeld code = t at *
  refine of_initial ?_ hheld.image hheld.table hcurves hheld.slots ⟨fun c => ?_, fun g => ?_, fun g => ?_, ?_⟩ ?_
  · simp only [hlink, hheld.loader]; exact h.own
  · rw [(hheld.limiter c).1]; exact Nat.zero_le _
  · rw [(hvalues g).1]; exact Nat.zero_le _
  · rw [(hvalues g).2]; exact Nat.zero_le _
  · rw [hage]
  · rw [hlink]; exact h.owed

theorem resetTo {cause : ResetCause} {station : Station} {supply pin : Bool} {flash : FlashPower} {mosi : List Byte}
    {draws : Nat} {pending : List Instr} :
    (State.resetTo cause station supply pin flash mosi draws pending).Regular (heldReport none) none :=
  of_initial (by rw [State.stations_resetTo]) State.image_resetTo rfl rfl State.slot_resetTo State.limiterLaw_resetTo rfl

theorem assertReset (cause : ResetCause) : (s.assertReset cause).Regular (heldReport none) none := by
  rw [State.assertReset_eq]
  exact resetTo

theorem releaseReset (h : s.Regular (heldReport none) none) (straps : BitVec 4) :
    (s.releaseReset straps).Regular (heldReport none) none := by
  rw [State.releaseReset_eq]
  split
  · exact resetTo
  · exact h

theorem endReleaseWait (h : s.Regular X w) : s.endReleaseWait.Regular X w := by
  unfold State.endReleaseWait
  split
  · dsimp only
    split
    · exact h.congr
    · exact h.congr
  · exact h

theorem takeIdentification (h : s.Regular X w) (b0 b1 b2 : Byte) : (s.takeIdentification b0 b1 b2).Regular X w := by
  unfold State.takeIdentification
  split
  · split
    · exact h.enterHeld _
    · exact h.congr
  · exact h

theorem takeHeader (h : s.Regular X w) (header : List Byte) : (s.takeHeader header).Regular X w := by
  unfold State.takeHeader
  split
  · split
    · exact h.congr
    · exact h.enterHeld _
  · exact h

/-- An admitted configuration taken: its images with their targets, its curves, no entries and no origin records (R160). -/
theorem handed (h : s.Regular X w) {cfg : NodeConfig} (hcfg : ∀ z : Zone, cfg.zones[z].Admitted) :
    (s.handed cfg).Regular X w := by
  have hrest := State.handed_rest cfg s
  have himage : ∀ z : Zone, (s.handed cfg).image[z] = cfg.zones[z].image := fun z => by
    rw [hrest]; simp [State.configured]
  refine ⟨?_, fun e he => ?_, fun z r hr => ?_, fun z => ?_, fun i v hv => ?_, ⟨fun c => ?_, ?_, ?_, ?_⟩, fun i => ?_,
    fun cs hcs => ?_, ?_⟩
  · rw [hrest]; exact h.own
  · rw [hrest] at he; cases he
  · rw [himage] at hr; cases hr
  · rw [himage]; exact (hcfg z).image_sound _
  · rw [State.slot_handed]
    cases i with
    | vol z =>
      rw [State.imageTarget, himage] at hv
      rw [if_pos (mem_startSlots z).1]; exact Option.some.inj hv
    | fade z =>
      rw [State.imageTarget, himage] at hv
      rw [if_pos (mem_startSlots z).2.1]; exact Option.some.inj hv
    | bal z =>
      rw [State.imageTarget, himage] at hv
      rw [if_pos (mem_startSlots z).2.2.1]; exact Option.some.inj hv
    | pace z => cases hv
    | dip z k => cases hv
    | link g => cases hv
    | node => cases hv
  · rw [State.channel_handed]; exact Nat.zero_le _
  · rw [hrest]; exact h.limiters.own
  · rw [hrest]; exact h.limiters.sent
  · rw [hrest]
  · rw [State.slot_handed]
    split
    · next hi =>
      obtain ⟨hlo, hhi⟩ := NodeConfig.startTarget_admitted hcfg i hi
      exact TermSlot.idleAt_within hlo hhi
    · split
      · next hi => subst hi; exact TermSlot.idleAt_within (by decide) le_rfl
      · exact TermSlot.idleAt_within i.low_nonpos i.high_nonneg
  · rw [hrest] at hcs
    obtain rfl := Option.some.inj hcs
    intro z
    simp only [Fin.getElem_fin, Vector.getElem_ofFn]
    exact ⟨(hcfg z).boost, (hcfg z).speed⟩
  · rw [hrest]; exact h.owed

theorem takeImageRead (h : s.Regular X w) (ord : List Channel) (rest : List Byte) :
    (s.takeImageRead ord rest).Regular X w := by
  unfold State.takeImageRead
  split
  · split
    · next cfg hcfg => exact (h.handed (checkImage_zone hcfg)).evaluateTurns ord
    · exact h.enterHeld _
  · exact h

/-! ### Audio ports -/

theorem runFrame (h : s.Regular X w) (word : Channel → Int) : (s.runFrame word).Regular X w :=
  h.congr (by rw [State.runFrame_ramp]) (State.runFrame_table s word) (State.runFrame_image s word)
    (by rw [State.runFrame_pace]) (by rw [State.runFrame_loader])
    (fun c => by rw [State.channel_runFrame, State.channelFrame_reduction])
    (State.runFrame_emission s word) (fun o => by rw [State.runFrame_link]) (by rw [State.runFrame_link])

theorem setPorts (h : s.Regular X w) (p : AudioPorts) : (s.setPorts p).Regular X w := h.congr

theorem audioLoss (h : s.Regular X w) : s.audioLoss.Regular X w := by
  have hformed := (h.setPorts { s.ports with presence := .lost, goodFrames := 0, outFrame := zeroFrame }).formNodeTarget
  have hforced : TermSlot.Within _ SlotId.node.low SlotId.node.high :=
    (hformed.slots .node).force (v := 1600) (by decide) (by decide)
  exact (hformed.setSlot rfl hforced).countCache _

theorem audioReturn (h : s.Regular X w) (b : Bool) : (s.audioReturn b).Regular X w := by
  have hearly : ∀ early : Bool,
      (if early then s.setSlot .node ((s.slot .node).step s.ramp.record) else s).Regular X w := fun early => by
    split
    · exact h.setSlot rfl ((h.slots .node).step _)
    · exact h
  exact ((hearly _).drawn.setPorts _).formNodeTarget

theorem takeSync (h : s.Regular X w) (b : Bool) (interval : Nat) (slots : Vector SlotWord 16) :
    (s.takeSync b interval slots).Regular X w := by
  have hmarked := h.setPorts { s.ports with syncSeen := true }
  unfold State.takeSync
  dsimp only
  generalize s.setPorts { s.ports with syncSeen := true } = u at hmarked
  split
  · exact h
  · split
    · unfold State.syncPresent State.inputFrame
      split
      · split
        · exact (hmarked.runFrame _).setPorts _
        · exact hmarked
      · exact hmarked.audioLoss
    · unfold State.syncLost
      split
      · split
        · exact hmarked.audioReturn b
        · exact hmarked.setPorts _
      · exact hmarked.setPorts _

theorem takeGap (h : s.Regular X w) : s.takeGap.Regular X w := by
  unfold State.takeGap
  dsimp only
  split
  · exact h
  · split
    · exact (h.setPorts _).audioLoss
    · exact (h.setPorts _).setPorts _

theorem outputTick (h : s.Regular X w) : s.outputTick.Regular X w := by
  unfold State.outputTick
  split
  · exact (h.runFrame _).setPorts _
  · exact h

/-! ### Block completion -/

theorem dormantIfFaded (h : s.Regular X w) {ord : List Channel} (hn : ord.Nodup) (hm : ∀ c, c ∈ ord) (b : Bool) :
    (s.dormantIfFaded ord b).Regular X w := by
  unfold State.dormantIfFaded
  split
  · exact h.enterDormant hn hm b
  · exact h

theorem takeCompletion (h : s.Regular X w) (stepFirst : Group → Bool) (entryFirst clearFirst : Bool)
    {ord : List Channel} (hn : ord.Nodup) (hm : ∀ c, c ∈ ord) :
    (s.takeCompletion stepFirst entryFirst clearFirst ord).Regular X w := by
  have hdue := h.setPorts { s.ports with blockDue := false }
  unfold State.takeCompletion State.completeBlock
  generalize s.setPorts { s.ports with blockDue := false } = u at hdue
  dsimp only
  split
  · split
    · exact (hdue.rampStep.enterDormant hn hm clearFirst).blockStart
    · exact (((hdue.stepAndUpdate stepFirst).emit.advanceCrossfades ord).dormantIfFaded hn hm clearFirst).blockStart
  · exact h

/-! ### Expiries, sending, queries, fills -/

theorem freshnessExpires (h : s.Regular X w) (ord : List Channel) (which : Source) :
    (s.freshnessExpires ord which).Regular X w := by
  unfold State.freshnessExpires
  split
  · exact (h.clearSource which).select ord
  · exact h

theorem lifetimeExpires (h : s.Regular X w) (key : EntryKey) : (s.lifetimeExpires key).Regular X w := by
  unfold State.lifetimeExpires
  split
  · exact (h.removeEntry key).recomputeTargets
  · exact h

theorem latenessExpires (h : s.Regular X w) (place : Nat) : (s.latenessExpires place).Regular X w := by
  unfold State.latenessExpires State.makeLate
  split
  · split
    · exact h.relink
    · exact h.relink.countLink _
  · exact h

theorem silentExpires (h : s.Regular X w) : s.silentExpires.Regular X w := by
  unfold State.silentExpires
  split
  · exact h.relink
  · exact h

theorem startSending (h : s.Regular X w) : s.startSending.Regular X w := by
  unfold State.startSending LinkInterface.startSending
  split
  · split
    · exact h.relink
    · exact h.relink
  · exact h

theorem endUnsent (h : s.Regular X w) (b : Bool) (a : Attempt) : (s.endUnsent b a).Regular X w := by
  unfold State.endUnsent
  split
  · exact h.relink.countLink _
  · exact h.relink

theorem finishSending (h : s.Regular X w) : s.finishSending.Regular X w := by
  unfold State.finishSending
  split
  · exact h
  · exact h.relink.countLink _

theorem loseContention (h : s.Regular X w) : s.loseContention.Regular X w := by
  unfold State.loseContention
  split
  · exact h
  · exact (h.endUnsent true _).countLink _

theorem failSending (h : s.Regular X w) (b : Bool) : (s.failSending b).Regular X w := by
  unfold State.failSending LinkInterface.raiseErrors
  split
  · exact h
  · next a _ =>
    have hended := (h.endUnsent b a).countLink .transmitErrors
    dsimp only
    split
    · exact hended.relink
    · exact hended.relink

theorem discardInvalid (h : s.Regular X w) (f : RawFrame) : (s.discardInvalid f).Regular X w := by
  unfold State.discardInvalid
  split
  · exact h
  · split
    · exact h
    · exact (h.countLink _).endFrame

end State.Regular

theorem LinkInterface.acceptAnswer_rest {l m : LinkInterface} {frames : List (List Byte)}
    (h : l.acceptAnswer frames = some m) : m = { l with queue := m.queue } := by
  unfold LinkInterface.acceptAnswer at h
  split at h
  · obtain rfl := Option.some.inj h
    rfl
  · cases h

namespace State.Regular

variable {X : OpenReports} {w : Option (Station × Recipient)} {s : State}

theorem takeQuery (h : s.Regular X w) (payload : List Byte) : (s.takeQuery payload).Regular X w := by
  unfold State.takeQuery State.handAnswer
  split
  · exact h
  · split
    · exact h.countLink _
    · split
      · exact h.countLink _
      · next l hl =>
        have hqueued : (s.setLink l).Regular X w := by
          rw [LinkInterface.acceptAnswer_rest hl]
          exact h.relink
        split
        · exact hqueued.setStats (State.clearReported_rest _ _ _)
        · exact hqueued

theorem startFill (h : s.Regular X w) : s.startFill.Regular X w := by
  unfold State.startFill
  split
  · split
    · exact h
    · exact h.congr
  · exact h

theorem finishFill (h : s.Regular X w) (ord : List Channel) (record : List Byte) :
    (s.finishFill ord record).Regular X w := by
  unfold State.finishFill
  split
  · exact h
  · split
    · exact h.fillPasses ord _ _
    · exact h.fillFails _

theorem powerDown (h : s.Regular X w) : s.powerDown.Regular X w := by
  unfold State.powerDown
  split
  · exact h.congr
  · exact h

end State.Regular

end Sys2Proof.Machine
end

section
/-!
Silence expiries, the clock and the step under the invariant of O59, and the statement itself (R49, R58, R77, R155; log 32).
-/
namespace Sys2Proof.Machine

/-! ### What an absence report leaves alone -/

/-- Node state controller, configuration loader and the queue of commands are the same. -/
def State.SameFront (s t : State) : Prop := t.node = s.node ∧ t.loader = s.loader ∧ t.pending = s.pending

theorem State.SameFront.trans {s t u : State} (h : s.SameFront t) (k : t.SameFront u) : s.SameFront u := by
  obtain ⟨hnode, hloader, hpending⟩ := h
  obtain ⟨knode, kloader, kpending⟩ := k
  exact ⟨knode.trans hnode, kloader.trans hloader, kpending.trans hpending⟩

theorem State.sameFront_formPace (ord : List Channel) (s : State) : s.SameFront (s.formPace ord) := by
  unfold State.formPace
  split
  · exact ⟨rfl, rfl, rfl⟩
  · next curves _ =>
    have hturns := State.CacheStep.handBands ((s.writePaceTargets curves s.pace.usedSpeed).setPace { s.pace with
      bands := Vector.ofFn fun z => newBand curves[z] s.pace.usedSpeed s.pace.bands[z] }) ord s.pace.bands
      (Vector.ofFn fun z => newBand curves[z] s.pace.usedSpeed s.pace.bands[z])
    exact ⟨hturns.node, hturns.loader, hturns.pending⟩

theorem State.sameFront_sourceAbsent (ord : List Channel) (o : Station) (which : Source) (s : State) :
    s.SameFront (s.sourceAbsent ord o which) := by
  unfold State.sourceAbsent State.select
  dsimp only
  split
  · split
    · exact ⟨rfl, rfl, rfl⟩
    · exact State.SameFront.trans ⟨rfl, rfl, rfl⟩ (State.sameFront_formPace ord _)
  · exact ⟨rfl, rfl, rfl⟩

theorem State.sameFront_tellAbsence (ord : List Channel) (o : Station) (s : State) (r : Recipient) :
    s.SameFront (s.tellAbsence ord o r) := by
  cases r with
  | image => exact ⟨State.removeOrigins_node s o, State.removeOrigins_loader s o, State.removeOrigins_pending s o⟩
  | pace => exact (s.sameFront_sourceAbsent ord o .primary).trans (State.sameFront_sourceAbsent ord o .secondary _)
  | table =>
    rw [State.tellAbsence, State.purgeStation, State.recomputeTargets_ramp]
    exact ⟨rfl, rfl, rfl⟩

theorem State.sameFront_tellAll (ord : List Channel) (o : Station) (rs : List Recipient) (s : State) :
    s.SameFront (s.tellAll ord o rs) := by
  unfold State.tellAll
  induction rs generalizing s with
  | nil => exact ⟨rfl, rfl, rfl⟩
  | cons r rs ih => exact (s.sameFront_tellAbsence ord o r).trans (ih _)

/-! ### A silence expiry -/

/-- Where a report meets a cue, the cue is the next command and will be taken (log 32). -/
theorem State.awaits_of_meetsAt {s : State} (hr : s.inReset = false) {o : Station} {r : Recipient}
    (h : s.meetsAt o = some r) : s.Awaits o r := by
  unfold State.meetsAt at h
  split at h
  · cases h
  · next c rest hpending =>
    split at h
    · next hmeets =>
      obtain ⟨horigin, hother, htakes⟩ := hmeets
      exact ⟨hr, htakes, hother, c, rest, hpending, horigin, h⟩
    · cases h

theorem State.Awaits.of_sameFront {s t : State} {o : Station} {r : Recipient} (h : s.Awaits o r) (hst : s.SameFront t) :
    t.Awaits o r := by
  obtain ⟨hnode, hloader, hpending⟩ := hst
  obtain ⟨hr, htakes, hother, hnext⟩ := h
  exact ⟨by rw [State.inReset, hnode]; exact hr, by rw [State.takesCues, hnode]; exact htakes,
    by rw [hloader]; exact hother, by rw [hpending]; exact hnext⟩

theorem Recipient.mem_all (r : Recipient) : r ∈ Recipient.all := by cases r <;> decide

namespace State.Regular

variable {s t : State}

/-- All recipients are told at once, or the one that a cue meets is owed the report while that cue is next. -/
theorem reportAbsence (h : s.Regular (heldReport none) none) (hr : s.inReset = false) (ord : List Channel) (cueFirst : Bool)
    (o : Station) : (s.reportAbsence ord cueFirst o).Lawful := by
  have habsent := h.markAbsent o (x := { s.link.stations[o] with present := false }) rfl
  have hall := ((habsent.tellAll ord o Recipient.all).mono (Y := heldReport none) fun p q hx => by
    obtain ⟨hheld | hp, htold⟩ := hx
    · exact hheld
    · exact absurd (Recipient.mem_all q) (htold hp)).lawful
  unfold State.reportAbsence
  dsimp only
  split
  · exact hall
  · next r hmeets =>
    split
    · have htold := (habsent.tellAll ord o (Recipient.all.filter (· ≠ r))).mono (Y := heldReport (some (o, r)))
        fun p q hx => by
          obtain ⟨hheld | rfl, htold⟩ := hx
          · cases hheld
          · have hq : q = r := by
              by_contra hne
              exact htold rfl (List.mem_filter.mpr ⟨Recipient.mem_all q, decide_eq_true hne⟩)
            rw [hq]; rfl
      refine ⟨htold.setOwed _, fun p q hpq => ?_⟩
      obtain ⟨rfl, rfl⟩ := Prod.mk.inj (Option.some.inj hpq)
      exact (State.awaits_of_meetsAt hr hmeets).of_sameFront
        (State.SameFront.trans ⟨rfl, rfl, rfl⟩ (State.sameFront_tellAll ord o _ _))
    · exact hall

theorem silenceExpires (h : s.Regular (heldReport none) none) (ord : List Channel) (cueFirst : Bool) (o : Station) :
    (s.silenceExpires ord cueFirst o).Lawful := by
  unfold State.silenceExpires
  split
  · next hdue =>
    have hr : s.inReset = false := by simpa using (Bool.and_eq_true_iff.mp hdue).1
    exact h.reportAbsence hr ord cueFirst o
  · exact h.lawful

/-! ### The clock -/

theorem advance {X : OpenReports} {w : Option (Station × Recipient)} (h : s.Regular X w) : s.advance.Regular X w := by
  have hpresent : ∀ o : Station, s.advance.link.stations[o].present = s.link.stations[o].present := fun o => by
    show (if s.dormant then s.link.stations else Vector.ofFn fun i => s.link.stations[i].tick)[o].present = _
    split
    · rfl
    · simp only [Fin.getElem_fin, Vector.getElem_ofFn, PresenceRecord.tick]
      split
      · rfl
      · rfl
  have hentries := h.setTable (table := s.advance.table) fun e he => by
    obtain ⟨x, hx, rfl⟩ := List.mem_map.mp he
    exact h.entries x hx
  refine hentries.relimit ⟨h.limiters.reduction, h.limiters.own, h.limiters.sent, ?_⟩ (hpresent := hpresent)
  show (if s.dormant then s.emission.age else min 500 (s.emission.age + 1)) ≤ 500
  split
  · exact h.limiters.age
  · exact min_le_left _ _

theorem idle (h : s.Regular (heldReport none) none) : s.idle.Regular (heldReport none) none := by
  unfold State.idle
  split
  · exact h.congr
  · split
    · exact h
    · exact h.advance.congr

/-! ### The step -/

/-- A command that no recipient of absence reports takes. -/
theorem exec_other (h : s.Regular (heldReport none) none) {c : Instr} (hc : cueRecipient c = none)
    (ht : exec c s = .next t) : t.Lawful := by
  have hn := channelOrder_nodup s.draws
  have hm := mem_channelOrder s.draws
  cases c <;> obtain rfl := Host.Outcome.next.inj ht
  case resetAssert cause => exact (assertReset cause).lawful
  case resetRelease straps => exact (h.releaseReset straps).lawful
  case releaseWaitEnd => exact h.endReleaseWait.lawful
  case identificationRead b0 b1 b2 => exact (h.takeIdentification b0 b1 b2).lawful
  case imageHeaderRead header => exact (h.takeHeader header).lawful
  case imageRead rest => exact (h.drawn.takeImageRead _ rest).lawful
  case frameSync interval slots => exact (h.takeSync _ interval slots).lawful
  case frameSyncGap => exact h.takeGap.lawful
  case outputFrameTick => exact h.outputTick.lawful
  case blockCompletion => exact (h.drawn.takeCompletion _ _ _ hn hm).lawful
  case settleExpiry => exact h.settleExpires.lawful
  case linkSilenceExpiry => exact (h.drawn.linkSilenceExpires hn hm _).lawful
  case freshnessExpiry source => exact (h.drawn.freshnessExpires _ source).lawful
  case lifetimeExpiry key => exact (h.lifetimeExpires key).lawful
  case silenceExpiry station => exact h.drawn.silenceExpires _ _ station
  case latenessExpiry place => exact (h.latenessExpires place).lawful
  case silentExpiry => exact h.silentExpires.lawful
  case sendingStart => exact h.startSending.lawful
  case frameSent => exact h.finishSending.lawful
  case contentionLost => exact h.loseContention.lawful
  case transmitError => exact (h.drawn.failSending _).lawful
  case invalidFrame frame => exact (h.discardInvalid frame).lawful
  case imageCue => cases hc
  case paceCue => cases hc
  case dipApply => cases hc
  case dipRelease => cases hc
  case headroomCue => cases hc
  case sleepCue origin => exact (h.drawn.receive origin false fun hu _ => hu.takeSleep hn hm _).lawful
  case wakeCue origin => exact (h.drawn.receive origin true fun hu _ => hu.takeWake _).lawful
  case queryCue origin target group index flags =>
    exact (h.receive origin false fun hu _ => hu.whenTaken (hu.takeQuery _)).lawful
  case reportFrame origin payload => exact (h.receive origin false fun hu _ => hu).lawful
  case fillStart => exact h.startFill.lawful
  case fillCompletion record => exact (h.drawn.finishFill _ record).lawful
  case deepPowerDown => exact h.powerDown.lawful

end State.Regular

/-- A command that a recipient of absence reports takes, whether a report waits for it or none does. -/
theorem State.ReadyFor.exec {s t : State} {o : Station} {r : Recipient} (h : s.ReadyFor o r) {c : Instr}
    (ho : frameOrigin c = some o) (hr : cueRecipient c = some r) (ht : exec c s = .next t) :
    t.Regular (heldReport none) none := by
  unfold cueRecipient at hr
  split at hr <;> cases hr <;> obtain rfl := Option.some.inj ho <;> obtain rfl := Host.Outcome.next.inj ht
  · exact h.drawn.receive fun hu hears => hu.takeImage hears _ _
  · exact h.drawn.receive fun hu _ => hu.takePace _ _ _
  · exact h.receive fun hu hears => hu.takeDipApply hears _
  · exact h.receive fun hu _ => hu.takeDipRelease _ _
  · exact h.receive fun hu hears => hu.takeHeadroom hears _

/-- A recipient's cue is a frame of a station. -/
theorem exists_frameOrigin {c : Instr} {r : Recipient} (h : cueRecipient c = some r) : ∃ o, frameOrigin c = some o := by
  unfold cueRecipient at h
  split at h
  · exact ⟨_, rfl⟩
  · exact ⟨_, rfl⟩
  · exact ⟨_, rfl⟩
  · exact ⟨_, rfl⟩
  · exact ⟨_, rfl⟩
  · cases h

/-- The invariant is kept by every step: a held report waits for the command that is taken. -/
theorem State.Lawful.step {s t : State} (h : s.Lawful) (ht : step s = .next t) : t.Lawful := by
  obtain ⟨hregular, hawaits⟩ := h
  generalize s.link.owed = w at hregular hawaits
  unfold Machine.step at ht
  split at ht
  · next hempty =>
    obtain rfl := Host.Outcome.next.inj ht
    cases w with
    | none => exact hregular.idle.lawful
    | some x =>
      obtain ⟨-, -, -, c, rest, hpending, -⟩ := hawaits x.1 x.2 rfl
      rw [hempty] at hpending
      cases hpending
  · next c rest hpending =>
    have htaken : State.Regular (heldReport w) w { s with pending := rest } := hregular.congr
    cases w with
    | none =>
      cases hc : cueRecipient c with
      | none => exact htaken.exec_other hc ht
      | some r =>
        obtain ⟨o, ho⟩ := exists_frameOrigin hc
        exact (State.ReadyFor.exec (.inl htaken) ho hc ht).lawful
    | some x =>
      obtain ⟨hreleased, htakes, hother, d, rest', hnext, ho, hc⟩ := hawaits x.1 x.2 rfl
      obtain ⟨rfl, -⟩ := List.cons.inj (hpending.symm.trans hnext)
      exact (State.ReadyFor.exec (.inr ⟨htaken, hreleased, htakes, hother⟩) ho hc ht).lawful

/-- Settles O59: the invariant holds where the laws do, every step keeps it, and it gives the laws back. -/
theorem stepKeepsImageAndRangeLaw : Obligations.StepKeepsImageAndRangeLaw := by
  intro s t htable hlimiters himage hpresence hrange hstep
  exact ((State.lawful_of_laws htable hlimiters himage hpresence hrange).step hstep).laws

end Sys2Proof.Machine
end

section
/-!
An image cue at the image handler (R37, R38, R41 to R43, R167): its payload read back field by field, the judgement of
its stamp, and what becomes of a cue that is not accepted.
-/
namespace Sys2Proof.Machine

/-! ### The payload -/

theorem flagCount_eq_countP (flags : Byte) : flagCount flags = (List.range 5).countP (fun i => flags.getLsbD i) := by
  rw [show List.range 5 = [0, 1, 2, 3, 4] from rfl]
  simp only [List.countP_cons, List.countP_nil, flagCount, Bool.toNat, Bool.cond_eq_ite,
    BitVec.getLsbD_eq_getElem, Nat.reduceLT]
  omega

theorem reduceOption_cons {α : Type} (x : Option α) (l : List (Option α)) :
    (x :: l).reduceOption = x.toList ++ l.reduceOption := by cases x <;> rfl

/-- A field that is present takes one byte, one that is absent none (R37, R38). -/
theorem takeField_toList (x : Option Byte) (rest : List Byte) : takeField x.isSome (x.toList ++ rest) = (x, rest) := by
  cases x <;> rfl

/-- The presence flags say which fields are there. -/
structure ImageFields.FlaggedBy (f : ImageFields) (flags : Byte) : Prop where
  volume  : flags[0] = f.volume.isSome
  step    : flags[1] = f.step.isSome
  fade    : flags[2] = f.fade.isSome
  balance : flags[3] = f.balance.isSome
  preset  : flags[4] = f.preset.isSome

/-- The bytes of the fields that are there, in order. -/
def ImageFields.bytes (f : ImageFields) : List Byte := [f.volume, f.step, f.fade, f.balance, f.preset].reduceOption

theorem imageFields_bytes {f : ImageFields} {flags : Byte} (h : f.FlaggedBy flags) : imageFields flags f.bytes = f := by
  simp only [imageFields, ImageFields.bytes, reduceOption_cons, h.volume, h.step, h.fade, h.balance, h.preset,
    takeField_toList]

theorem ImageFields.bytes_length {f : ImageFields} {flags : Byte} (h : f.FlaggedBy flags) :
    f.bytes.length = flagCount flags := by
  have hlength : ∀ x : Option Byte, x.toList.length = x.isSome.toNat := by rintro (_ | x) <;> rfl
  simp only [ImageFields.bytes, reduceOption_cons, List.length_append, hlength, flagCount, h.volume, h.step, h.fade,
    h.balance, h.preset, List.reduceOption_nil, List.length_nil]
  omega

/-! ### The judgement of the stamp (R42, R43) -/

theorem lastStamp_of_first {origins before after : List OriginRecord} {o : Station} {r : OriginRecord}
    (h : origins = before ++ r :: after) (hr : r.origin = o) (hbefore : ∀ x ∈ before, x.origin ≠ o) :
    lastStamp origins o = some r.stamp := by
  have hnone : before.find? (fun x => x.origin == o) = none :=
    List.find?_eq_none.mpr fun x hx => by simpa using hbefore x hx
  rw [lastStamp, h, List.find?_append, hnone, List.find?_cons_of_pos (by simpa using hr)]
  rfl

theorem mem_of_lastStamp {origins : List OriginRecord} {o : Station} {b : Byte} (h : lastStamp origins o = some b) :
    ∃ r ∈ origins, r.origin = o ∧ r.stamp = b := by
  obtain ⟨r, hfound, hstamp⟩ := Option.map_eq_some_iff.mp h
  exact ⟨r, List.mem_of_find?_eq_some hfound, by simpa using List.find?_some hfound, hstamp⟩

theorem stampClass_repeated (b : Byte) : stampClass (some b) b = .repeated := by simp [stampClass]

theorem stampClass_stale {b stamp : Byte} (h : 128 ≤ (stamp - b).toNat) : stampClass (some b) stamp = .stale := by
  simp only [stampClass]
  rw [if_neg (by omega), if_neg (by omega)]

/-- A stamp is accepted where the origin has no record, or one whose stamp is 1 to 127 before it. -/
theorem stampClass_accepted {origins : List OriginRecord} {o : Station} {stamp : Byte}
    (h : ∀ r ∈ origins, r.origin = o → 1 ≤ (stamp - r.stamp).toNat ∧ (stamp - r.stamp).toNat ≤ 127) :
    stampClass (lastStamp origins o) stamp = .newOrigin ∨ stampClass (lastStamp origins o) stamp = .fresh := by
  cases hlast : lastStamp origins o with
  | none => exact .inl rfl
  | some b =>
    obtain ⟨r, hr, ho, rfl⟩ := mem_of_lastStamp hlast
    obtain ⟨hlow, hhigh⟩ := h r hr ho
    right
    simp only [stampClass]
    rw [if_neg (by omega), if_pos hhigh]

/-! ### A cue at the handler -/

/-- What the handler does with a well-formed cue, by the class of its stamp. -/
def State.judged (ord : List Channel) (z : Zone) (o : Station) (stamp : Byte) (f : ImageFields) (s : State) :
    StampClass → State
  | .repeated => s
  | .stale => s.countLink .staleImageCues
  | .newOrigin | .fresh => (s.recordStamp z o stamp).applyImage ord z f

theorem finField_eq_none {n : Nat} {b : Byte} (h : n ≤ b.toNat) : finField n b = none := dif_neg (by omega)

theorem finField_eq_some {n : Nat} {b : Byte} {x : Fin n} (h : b.toNat = x.val) : finField n b = some x := by
  rw [finField, dif_pos (by omega)]
  exact congrArg some (Fin.ext h)

theorem State.takeImage_malformed (s : State) (ord : List Channel) (o : Station) {zone stamp flags : Byte}
    {fields : List Byte} (h : fields.length ≠ flagCount flags ∨ 4 ≤ zone.toNat) :
    s.takeImage ord o (zone :: stamp :: flags :: fields) = s.countLink .formatErrors := by
  unfold State.takeImage
  dsimp only
  split
  · rfl
  · next hlength =>
    have hfields : fields.length = flagCount flags := by
      have : fields.length + 3 = 3 + flagCount flags := not_not.mp hlength
      omega
    have hzone : 4 ≤ zone.toNat := h.resolve_left (not_not.mpr hfields)
    rw [show finField 4 (byteAt (zone :: stamp :: flags :: fields) 0) = none from finField_eq_none hzone]

theorem State.takeImage_wellFormed (s : State) (ord : List Channel) (o : Station) {zone flags : Byte} (stamp : Byte)
    {fields : List Byte} {z : Zone} (hfields : fields.length = flagCount flags) (hzone : zone.toNat = z.val) :
    s.takeImage ord o (zone :: stamp :: flags :: fields) =
      s.judged ord z o stamp (imageFields flags fields) (stampClass (lastStamp s.image[z].origins o) stamp) := by
  have hlength : (zone :: stamp :: flags :: fields).length =
      3 + flagCount (byteAt (zone :: stamp :: flags :: fields) 2) := by
    show fields.length + 3 = 3 + flagCount flags
    omega
  unfold State.takeImage
  dsimp only
  rw [if_neg (not_not.mpr hlength),
    show finField 4 (byteAt (zone :: stamp :: flags :: fields) 0) = some z from finField_eq_some hzone]
  rfl

/-- Every image cue that the handler takes is heard, and the payload is the handler's. -/
theorem State.exec_imageCue {s : State} {o : Station} (h : s.TakesAt o .image) (zone stamp flags : Byte)
    (fields : List Byte) : exec (.imageCue o zone stamp flags fields) s =
      .next ((s.drawn.heard o).takeImage (channelOrder s.draws) o (zone :: stamp :: flags :: fields)) := by
  rw [exec, execImageCue, State.receive_cue h.drawn]

/-- Settles O33: a malformed payload, the last accepted stamp, and a stamp outside the window. -/
theorem imageCueNotAccepted : Obligations.ImageCueNotAccepted := by
  rintro s o zone stamp flags fields count h rfl
  rw [← flagCount_eq_countP, State.exec_imageCue h]
  refine ⟨fun hmalformed => ?_, fun z before after r hlength hzone horigins hr hbefore => ?_⟩
  · rw [State.takeImage_malformed _ _ _ hmalformed]
  · have hlast : lastStamp (s.drawn.heard o).image[z].origins o = some r.stamp :=
      lastStamp_of_first (by rw [State.heard_image]; exact horigins) hr hbefore
    rw [State.takeImage_wellFormed _ _ _ _ hlength hzone, hlast]
    refine ⟨fun hstamp => ?_, fun hstale => ?_⟩
    · rw [hstamp, stampClass_repeated]; rfl
    · rw [stampClass_stale hstale]; rfl

end Sys2Proof.Machine
end

section
/-!
An accepted image cue (R42, R43, R45 to R48): the zone's new image, the targets of the values that changed, and a
changed preset handed to the zone's channels.
-/
namespace Sys2Proof.Machine

/-! ### The origin table (R42, R43) -/

theorem removeOrigin_eq_filter (o : Station) (l : List OriginRecord) :
    removeOrigin o l = l.filter fun r => r.origin ≠ o := by
  refine List.filter_congr fun r _ => ?_
  by_cases h : r.origin = o <;> simp [h]

theorem acceptStamp_room {o : Station} {stamp : Byte} {l : List OriginRecord} (h : (removeOrigin o l).length < 4) :
    acceptStamp o stamp l = removeOrigin o l ++ [{ origin := o, stamp := stamp }] := by
  rw [acceptStamp, if_pos h]

theorem acceptStamp_full {o : Station} {stamp : Byte} {l : List OriginRecord} (h : 4 ≤ (removeOrigin o l).length) :
    acceptStamp o stamp l = (removeOrigin o l).tail ++ [{ origin := o, stamp := stamp }] := by
  rw [acceptStamp, if_neg (by omega)]

/-! ### The fields (R45, R47, R48) -/

theorem newVolume_volume {f : ImageFields} {v : Byte} (h : f.volume = some v) (im : ZoneImage) :
    newVolume f im = min v.toNat im.maxVolume := by rw [newVolume, h]

theorem newVolume_step {f : ImageFields} {d : Byte} (hv : f.volume = none) (hd : f.step = some d) (im : ZoneImage) :
    (newVolume f im : Int) = max 0 (min (im.maxVolume : Int) ((im.volume : Int) + d.toInt)) := by
  rw [newVolume, hv, hd, ← clampInt_eq (Int.natCast_nonneg _)]
  exact Int.toNat_of_nonneg (clampInt_between (Int.natCast_nonneg _) _).1

theorem newVolume_none {f : ImageFields} (hv : f.volume = none) (hd : f.step = none) (im : ZoneImage) :
    newVolume f im = im.volume := by rw [newVolume, hv, hd]

theorem newStep_some {field : Option Byte} {b : Byte} (h : field = some b) (old : Int) :
    newStep field old = max (-32) (min 32 b.toInt) := by
  subst h
  exact clampInt_eq (by decide) _

theorem newStep_none {field : Option Byte} (h : field = none) (old : Int) : newStep field old = old := by subst h; rfl

theorem newPreset_val {field : Option Byte} {b : Byte} (h : field = some b) (hb : b.toNat < 16) (old : Fin 16) :
    (newPreset field old).val = b.toNat := by
  subst h
  exact congrArg Fin.val (dif_pos hb)

theorem newPreset_ignored {field : Option Byte} {b : Byte} (h : field = some b) (hb : 16 ≤ b.toNat) (old : Fin 16) :
    newPreset field old = old := by
  subst h
  exact dif_neg (by omega)

theorem newPreset_none {field : Option Byte} (h : field = none) (old : Fin 16) : newPreset field old = old := by
  subst h; rfl

/-! ### The targets (R46) -/

theorem State.written_writeIfChanged (s : State) (b : Bool) {i j : SlotId} (h : i ≠ j) (v w : Int) :
    (s.writeIfChanged b i v).written j w = s.written j w := by
  unfold State.writeIfChanged
  split
  · exact State.written_writeTarget s h v w
  · rfl

theorem State.writeIfChanged_profile (s : State) (b : Bool) (i : SlotId) (v : Int) :
    (s.writeIfChanged b i v).ramp.profile = s.ramp.profile := by
  unfold State.writeIfChanged
  split <;> rfl

/-- A slot is written where its value has changed, and stays as it is where it has not. -/
theorem State.slot_writeIfChanged_same {α : Type} [DecidableEq α] (s : State) (i : SlotId) (v : Int) (new old : α) :
    (s.writeIfChanged (new != old) i v).slot i = if new = old then s.slot i else s.written i v := by
  rw [State.slot_writeIfChanged]
  by_cases h : new = old <;> simp [h]

/-! ### The cue -/

/-- The state of an accepted cue before a changed preset is handed on: the stamp recorded, image and targets as the
fields ask. -/
def State.accepted (z : Zone) (o : Station) (stamp : Byte) (f : ImageFields) (s : State) : State :=
  (s.recordStamp z o stamp).imageTaken z f

theorem State.image_recordStamp (s : State) (z : Zone) (o : Station) (stamp : Byte) :
    (s.recordStamp z o stamp).image[z] =
      { s.image[z] with origins := acceptStamp o stamp s.image[z].origins } := by
  rw [State.recordStamp, State.image_setImage, if_pos rfl]

theorem State.image_accepted (s : State) (z : Zone) (o : Station) (stamp : Byte) (f : ImageFields) :
    (s.accepted z o stamp f).image[z] =
      { s.image[z].applied f with origins := acceptStamp o stamp s.image[z].origins } := by
  rw [State.accepted, State.image_imageTaken, if_pos rfl, State.image_recordStamp]
  rfl

theorem State.image_accepted_other (s : State) {y z : Zone} (h : y ≠ z) (o : Station) (stamp : Byte) (f : ImageFields) :
    (s.accepted z o stamp f).image[y] = s.image[y] := by
  rw [State.accepted, State.image_imageTaken, if_neg h.symm, State.recordStamp, State.image_setImage, if_neg h.symm]

theorem State.slot_accepted_vol (s : State) (z : Zone) (o : Station) (stamp : Byte) (f : ImageFields) :
    (s.accepted z o stamp f).slot (.vol z) = if newVolume f s.image[z] = s.image[z].volume then s.slot (.vol z)
      else s.written (.vol z) (volumeTarget (newVolume f s.image[z])) := by
  simp only [State.accepted, State.imageTaken, State.image_recordStamp, State.slot_writeIfChanged_other,
    State.slot_writeIfChanged_same, ne_eq, reduceCtorEq, not_false_eq_true]
  rfl

theorem State.slot_accepted_fade (s : State) (z : Zone) (o : Station) (stamp : Byte) (f : ImageFields) :
    (s.accepted z o stamp f).slot (.fade z) = if newStep f.fade s.image[z].fade = s.image[z].fade then s.slot (.fade z)
      else s.written (.fade z) (stepTarget (newStep f.fade s.image[z].fade)) := by
  simp only [State.accepted, State.imageTaken, State.image_recordStamp, State.slot_writeIfChanged_other,
    State.slot_writeIfChanged_same, State.written_writeIfChanged, ne_eq, reduceCtorEq, not_false_eq_true]
  rfl

theorem State.slot_accepted_bal (s : State) (z : Zone) (o : Station) (stamp : Byte) (f : ImageFields) :
    (s.accepted z o stamp f).slot (.bal z) =
      if newStep f.balance s.image[z].balance = s.image[z].balance then s.slot (.bal z)
      else s.written (.bal z) (stepTarget (newStep f.balance s.image[z].balance)) := by
  simp only [State.accepted, State.imageTaken, State.image_recordStamp, State.slot_writeIfChanged_other,
    State.slot_writeIfChanged_same, State.written_writeIfChanged, ne_eq, reduceCtorEq, not_false_eq_true]
  rfl

theorem State.slot_accepted_other (s : State) {z : Zone} {o : Station} {stamp : Byte} {f : ImageFields} {i : SlotId}
    (hvol : i ≠ .vol z) (hfade : i ≠ .fade z) (hbal : i ≠ .bal z) : (s.accepted z o stamp f).slot i = s.slot i := by
  rw [State.accepted, State.imageTaken, State.slot_writeIfChanged_other _ _ hbal.symm,
    State.slot_writeIfChanged_other _ _ hfade.symm, State.slot_writeIfChanged_other _ _ hvol.symm]
  rfl

theorem State.accepted_profile (s : State) (z : Zone) (o : Station) (stamp : Byte) (f : ImageFields) :
    (s.accepted z o stamp f).ramp.profile = s.ramp.profile := by
  rw [State.accepted, State.imageTaken, State.writeIfChanged_profile, State.writeIfChanged_profile,
    State.writeIfChanged_profile]
  rfl

/-- An acceptance touches images and slots alone. -/
theorem State.accepted_rest (s : State) (z : Zone) (o : Station) (stamp : Byte) (f : ImageFields) :
    s.accepted z o stamp f =
      { s with ramp := (s.accepted z o stamp f).ramp, image := (s.accepted z o stamp f).image } := by
  rw [State.accepted, State.imageTaken_rest]
  rfl

/-- A cue whose stamp is accepted: the acceptance, and the preset handed on if it has changed. -/
theorem State.judged_accepted {k : StampClass} (h : k = .newOrigin ∨ k = .fresh) (s : State) (ord : List Channel)
    (z : Zone) (o : Station) (stamp : Byte) (f : ImageFields) : s.judged ord z o stamp f k =
      if newPreset f.preset s.image[z].preset = s.image[z].preset then s.accepted z o stamp f
      else (s.accepted z o stamp f).handPreset ord z (newPreset f.preset s.image[z].preset) := by
  have hjudged : s.judged ord z o stamp f k = (s.recordStamp z o stamp).applyImage ord z f := by
    rcases h with rfl | rfl <;> rfl
  rw [hjudged, State.applyImage_eq, State.image_recordStamp]
  rfl

/-- What handing on a preset that may have changed does to the state `w` of the acceptance. -/
structure State.PresetHanded (z : Zone) (old p : Fin 16) (w t : State) : Prop where
  turns  : w.CacheStep t
  wanted : ∀ c, (t.channel c).wanted =
    if (w.channel c).record.zone = z ∧ p ≠ old then { (w.channel c).wanted with preset := p } else (w.channel c).wanted
  same   : p = old → t = w
  handed : p ≠ old → ∃ ord : List Channel, ord.Nodup ∧ (∀ c, c ∈ ord) ∧ t = w.handPreset ord z p

theorem State.presetHanded {ord : List Channel} (hn : ord.Nodup) (hm : ∀ c, c ∈ ord) (z : Zone) (old p : Fin 16)
    (w : State) : w.PresetHanded z old p (if p = old then w else w.handPreset ord z p) := by
  split
  · next hp => exact ⟨.refl w, fun c => (if_neg fun h => h.2 hp).symm, fun _ => rfl, fun h => absurd hp h⟩
  · next hp =>
    refine ⟨.handPreset w ord z p, fun c => ?_, fun h => absurd h hp, fun _ => ⟨ord, hn, hm, rfl⟩⟩
    rw [State.handPreset_wanted hn hm]
    simp only [ne_eq, hp, not_false_eq_true, and_true]

/-- An accepted cue runs as the acceptance by the state that has heard it, and a changed preset handed on. -/
theorem State.exec_imageCue_accepted {s : State} {o : Station} {z : Zone} {stamp flags : Byte} {f : ImageFields}
    (h : s.TakesAt o .image) (hflags : f.FlaggedBy flags)
    (hstamp : ∀ r ∈ s.image[z].origins, r.origin = o → 1 ≤ (stamp - r.stamp).toNat ∧ (stamp - r.stamp).toNat ≤ 127) :
    ∃ t, exec (.imageCue o (BitVec.ofNat 8 z.val) stamp flags f.bytes) s = .next t ∧
      ((s.drawn.heard o).accepted z o stamp f).PresetHanded z s.image[z].preset
        (newPreset f.preset s.image[z].preset) t := by
  have hzone : (BitVec.ofNat 8 z.val).toNat = z.val := by
    rw [BitVec.toNat_ofNat, Nat.mod_eq_of_lt (by omega)]
  have himage : (s.drawn.heard o).image = s.image := State.heard_image _ _
  refine ⟨_, ?_, State.presetHanded (channelOrder_nodup s.draws) (mem_channelOrder s.draws) ..⟩
  rw [State.exec_imageCue h, State.takeImage_wellFormed _ _ _ _ (ImageFields.bytes_length hflags) hzone,
    imageFields_bytes hflags, himage, State.judged_accepted (stampClass_accepted hstamp), himage]

/-- Settles O32: the acceptance writes image and targets, and the channels' turns leave both as they are. -/
theorem imageCueAccepted : Obligations.ImageCueAccepted := by
  rintro s o z stamp flags f im fields h hf0 hf1 hf2 hf3 hf4 rfl rfl hstamp
  obtain ⟨t, hexec, ht⟩ := State.exec_imageCue_accepted h ⟨hf0, hf1, hf2, hf3, hf4⟩ hstamp
  obtain ⟨w, hw⟩ : ∃ w, w = (s.drawn.heard o).accepted z o stamp f := ⟨_, rfl⟩
  rw [← hw] at ht
  have hturns := ht.turns
  have hheard : (s.drawn.heard o).image = s.image := State.heard_image _ _
  have himage : t.image[z] = { s.image[z].applied f with origins := acceptStamp o stamp s.image[z].origins } := by
    rw [hturns.image, hw, State.image_accepted, hheard]
  have hpreset : t.image[z].preset = newPreset f.preset s.image[z].preset := congrArg ZoneImage.preset himage
  have hrest : w = { s.heard o with ramp := w.ramp, image := w.image, draws := w.draws } := by
    rw [hw, State.accepted_rest, State.heard_drawn]
  have hchannel : ∀ c, w.channel c = s.channel c := fun c => by
    rw [hrest]; exact State.heard_channel s o c
  have hslot : ∀ i, t.slot i = ((s.drawn.heard o).accepted z o stamp f).slot i := fun i => by rw [hturns.slot, hw]
  refine ⟨t, _, hexec, ?rest, fun y hy => ?others, ?maximum, rfl, fun hroom => ?room, fun hfull => ?full,
    fun v hv => ?volume, fun d hv hd => ?step, fun hv hd => ?novolume, fun b hb => ?fade, fun hb => ?nofade,
    fun b hb => ?balance, fun hb => ?nobalance, fun b hb hlow => ?preset, fun b hb hhigh => ?ignored,
    fun hb => ?nopreset, ?volSlot, ?fadeSlot, ?balSlot, fun i hvol hfade hbal => ?otherSlots, ?profile, fun c => ?wanted, fun hp => ?same, fun hp => ?handed⟩
  case rest =>
    rw [hturns.ramp, hturns.image, hturns.draws]
    refine hturns.rest.trans ?_
    rw [hrest]
  case others => rw [hturns.image, hw, State.image_accepted_other _ hy, hheard]
  case maximum => rw [himage]; rfl
  case room =>
    rw [← removeOrigin_eq_filter] at hroom ⊢
    rw [himage]; exact acceptStamp_room hroom
  case full =>
    rw [← removeOrigin_eq_filter] at hfull ⊢
    rw [himage]; exact acceptStamp_full hfull
  case volume => rw [himage]; exact newVolume_volume hv _
  case step => rw [himage]; exact newVolume_step hv hd _
  case novolume => rw [himage]; exact newVolume_none hv hd _
  case fade => rw [himage]; exact newStep_some hb _
  case nofade => rw [himage]; exact newStep_none hb _
  case balance => rw [himage]; exact newStep_some hb _
  case nobalance => rw [himage]; exact newStep_none hb _
  case preset => rw [hpreset]; exact newPreset_val hb hlow _
  case ignored => rw [hpreset]; exact newPreset_ignored hb hhigh _
  case nopreset => rw [hpreset]; exact newPreset_none hb _
  case volSlot =>
    rw [hslot, State.slot_accepted_vol, hheard, State.heard_slot, State.heard_written, State.slot_writeTarget,
      if_pos rfl, himage]
    rfl
  case fadeSlot =>
    rw [hslot, State.slot_accepted_fade, hheard, State.heard_slot, State.heard_written, State.slot_writeTarget,
      if_pos rfl, himage]
    rfl
  case balSlot =>
    rw [hslot, State.slot_accepted_bal, hheard, State.heard_slot, State.heard_written, State.slot_writeTarget,
      if_pos rfl, himage]
    rfl
  case otherSlots =>
    rw [hslot, State.slot_accepted_other _ hvol hfade hbal, State.heard_slot, State.drawn_slot]
  case profile =>
    rw [hturns.ramp, hw, State.accepted_profile, State.heard_ramp, State.drawn_ramp]
  case wanted => rw [hpreset, ht.wanted, hchannel]
  case same =>
    obtain rfl : t = w := ht.same (hpreset ▸ hp)
    rw [hrest]
    exact ⟨State.heard_channels s o, State.heard_library s o, State.heard_cacheCounters s o⟩
  case handed =>
    obtain ⟨ord, hn, hm, hhanded⟩ := ht.handed (hpreset ▸ hp)
    refine ⟨ord, hn, hm, ?_⟩
    rw [hpreset, hturns.ramp, hturns.image, hturns.draws, ← hrest]
    exact hhanded

end Sys2Proof.Machine
end

section
/-!
Valid frames by their handlers (R39, R53, R69, R144, R153, R154, R163): what each frame's handler leaves of the stations, and
the frames that reach none.
-/
namespace Sys2Proof.Machine

/-! ### What the blocks leave of the link interface -/

theorem State.applyImage_link (s : State) (ord : List Channel) (z : Zone) (f : ImageFields) :
    (s.applyImage ord z f).link = s.link := by
  have htaken : (s.imageTaken z f).link = s.link := by rw [State.imageTaken_rest]; rfl
  rw [State.applyImage_eq]
  split
  · exact htaken
  · exact (State.CacheStep.handPreset _ ord z _).link.trans htaken

theorem State.takeImage_link (s : State) (ord : List Channel) (o : Station) (payload : List Byte) :
    (s.takeImage ord o payload).link = s.link := by
  unfold State.takeImage
  dsimp only
  split
  · exact State.countLink_link s _
  · split
    · exact State.countLink_link s _
    · split
      · rfl
      · exact State.countLink_link s _
      · exact State.applyImage_link _ ord _ _
      · exact State.applyImage_link _ ord _ _

theorem State.select_link {ord : List Channel} (hn : ord.Nodup) (hm : ∀ c, c ∈ ord) (s : State) :
    (s.select ord).link = s.link := by
  have h := congrArg State.link (State.select_spec hn hm s s.pace s.draws).rest
  exact h

theorem State.takePace_link {ord : List Channel} (hn : ord.Nodup) (hm : ∀ c, c ∈ ord) (o : Station) (payload : List Byte)
    (s : State) : (s.takePace ord o payload).link = s.link := by
  unfold State.takePace
  split
  · exact State.countLink_link s _
  · split
    · exact State.select_link hn hm _
    · split
      · exact State.select_link hn hm _
      · exact State.countLink_link s _

theorem State.recomputeTargets_keepsLink (s : State) : s.recomputeTargets.link = s.link := by
  rw [State.recomputeTargets_ramp]

theorem State.releaseDip_link (s : State) (o : Station) (id : Fin 8) : (s.releaseDip o id).link = s.link := by
  unfold State.releaseDip
  split
  · rfl
  · exact State.recomputeTargets_keepsLink _

theorem State.takeDipApply_link (s : State) (o : Station) (payload : List Byte) :
    (s.takeDipApply o payload).link = s.link := by
  unfold State.takeDipApply State.applyDip
  split
  · split
    · exact State.releaseDip_link s o _
    · exact (State.recomputeTargets_keepsLink _).trans (State.putEntry_link _ s)
  · exact State.countLink_link s _

theorem State.takeDipRelease_link (s : State) (o : Station) (payload : List Byte) :
    (s.takeDipRelease o payload).link = s.link := by
  unfold State.takeDipRelease
  split
  · exact State.releaseDip_link s o _
  · exact State.countLink_link s _

theorem State.applyGroup_link (s : State) (o : Station) (g : Group) (v : Nat) : (s.applyGroup o g v).link = s.link := by
  unfold State.applyGroup
  split
  · rfl
  · exact State.putEntry_link _ s

theorem State.takeHeadroom_link (s : State) (o : Station) (payload : List Byte) :
    (s.takeHeadroom o payload).link = s.link := by
  rw [State.takeHeadroom, State.recomputeTargets_keepsLink, State.applyGroup_link, State.applyGroup_link,
    State.applyGroup_link, State.applyGroup_link]

theorem State.enterQuiet_stations {ord : List Channel} (hn : ord.Nodup) (hm : ∀ c, c ∈ ord) (clearFirst : Bool) (s : State) :
    (s.enterQuiet ord clearFirst).link.stations = s.link.stations := by
  unfold State.enterQuiet
  dsimp only
  split
  · obtain ⟨-, -, -, -, -, -, hstations, -⟩ := (State.enterDormant_falls _ hn hm clearFirst).entry.link
    exact hstations
  · rfl

theorem State.takeSleep_stations {ord : List Channel} (hn : ord.Nodup) (hm : ∀ c, c ∈ ord) (clearFirst : Bool) (s : State) :
    (s.takeSleep ord clearFirst).link.stations = s.link.stations := by
  unfold State.takeSleep
  split
  · exact State.enterQuiet_stations hn hm clearFirst s
  · exact State.enterQuiet_stations hn hm clearFirst s
  · rfl
  · rfl
  · rfl
  · rfl

/-- A wake cue that does not end DORMANT leaves the link interface alone. -/
theorem State.takeWake_link {s : State} (h : s.node.state ≠ .dormant) (ord : List Channel) :
    (s.takeWake ord).link = s.link := by
  unfold State.takeWake
  split
  · rfl
  · next hd => exact absurd hd h
  · rfl
  · rfl
  · rfl
  · rfl

theorem State.clearReported_link (s : State) (group index : Nat) : (s.clearReported group index).link = s.link := by
  unfold State.clearReported
  split
  · rfl
  · split <;> rfl
  · rfl
  · rfl

theorem State.takeQuery_stations (s : State) (payload : List Byte) :
    (s.takeQuery payload).link.stations = s.link.stations := by
  unfold State.takeQuery State.handAnswer
  split
  · rfl
  · split
    · rw [State.countLink_link]
    · split
      · rw [State.countLink_link]
      · next l haccept =>
        have hstations : l.stations = s.link.stations := by rw [LinkInterface.acceptAnswer_rest haccept]
        split
        · rw [State.clearReported_link]; exact hstations
        · exact hstations

/-! ### The handler of a frame -/

/-- The state with the counter of the free values at `d`. -/
def State.redrawn (d : Nat) (s : State) : State := { s with draws := d }

theorem State.redrawn_redrawn (s : State) (d e : Nat) : (s.redrawn d).redrawn e = s.redrawn e := rfl

theorem State.redrawn_self (s : State) : s.redrawn s.draws = s := rfl

/-- The frame `c` of station `o`, taken where the counter of the free values stands at `n`, leaves it at `d` and is received
for the handler `f`; `b` says that it is a wake cue. In START the handler does nothing; outside DORMANT it leaves the stations
as they are, where it has no absence report to take; and a cue of a recipient of absence reports is taken as one. -/
structure HandledBy (c : Instr) (o : Station) (n d : Nat) (b : Bool) (f : State → State) : Prop where
  runs     : ∀ s : State, s.draws = n → exec c s = .next ((s.redrawn d).receive o b f)
  wake     : b = true → c = .wakeCue o
  start    : ∀ s : State, s.node.state = .start → f s = s
  stations : ∀ s : State, s.node.state ≠ .dormant → (∀ r, cueRecipient c = some r → s.link.owed ≠ some (o, r)) →
    (f s).link.stations = s.link.stations
  cue      : ∀ r, cueRecipient c = some r → ∃ g, f = State.whenTaken (State.takeCue r o g)

theorem State.whenTaken_start {s : State} (h : s.node.state = .start) (f : State → State) : s.whenTaken f = s :=
  if_neg (by simp [State.takesCues, h])

theorem State.whenTaken_stations {f : State → State} {s : State} (h : (f s).link.stations = s.link.stations) :
    (s.whenTaken f).link.stations = s.link.stations := by
  unfold State.whenTaken
  split
  · exact h
  · rfl

/-- A cue of a recipient of absence reports is handled where cues are taken. -/
theorem HandledBy.of_cue {c : Instr} {o : Station} {r : Recipient} {n d : Nat} {g : State → State}
    (hrecipient : cueRecipient c = some r) (hlink : ∀ s, (g s).link = s.link)
    (hruns : ∀ s : State, s.draws = n →
      exec c s = .next ((s.redrawn d).receive o false (State.whenTaken (State.takeCue r o g)))) :
    HandledBy c o n d false (State.whenTaken (State.takeCue r o g)) where
  runs := hruns
  wake := nofun
  start s hs := s.whenTaken_start hs _
  stations s _ howed := State.whenTaken_stations (by rw [State.takeCue_noneOwed (howed r hrecipient), hlink])
  cue q hq := by
    obtain rfl := Option.some.inj (hrecipient.symm.trans hq)
    exact ⟨g, rfl⟩

/-- A frame that no recipient of absence reports takes. -/
theorem HandledBy.of_noCue {c : Instr} {o : Station} {n d : Nat} {b : Bool} {f : State → State}
    (hrecipient : cueRecipient c = none) (hwake : b = true → c = .wakeCue o)
    (hstart : ∀ s : State, s.node.state = .start → f s = s)
    (hstations : ∀ s : State, s.node.state ≠ .dormant → (f s).link.stations = s.link.stations)
    (hruns : ∀ s : State, s.draws = n → exec c s = .next ((s.redrawn d).receive o b f)) :
    HandledBy c o n d b f where
  runs := hruns
  wake := hwake
  start := hstart
  stations s hs _ := hstations s hs
  cue r hr := by rw [hrecipient] at hr; cases hr

/-- Every valid frame has a handler (R154). -/
theorem exists_handledBy {c : Instr} {o : Station} (h : frameOrigin c = some o) (n : Nat) :
    ∃ d b f, HandledBy c o n d b f := by
  have hn := channelOrder_nodup n
  have hm := mem_channelOrder n
  unfold frameOrigin at h
  split at h <;> cases h
  · next zone stamp flags fields =>
    exact ⟨n + 1, _, _, .of_cue rfl (fun s => s.takeImage_link (channelOrder n) o (zone :: stamp :: flags :: fields))
      (by rintro s rfl; rfl)⟩
  · next validity speed =>
    exact ⟨n + 1, _, _, .of_cue rfl (State.takePace_link hn hm o [validity, speed.1, speed.2]) (by rintro s rfl; rfl)⟩
  · next op masks depth hold =>
    exact ⟨n, _, _, .of_cue rfl (fun s => s.takeDipApply_link o [op, masks, depth.1, depth.2, hold])
      (by rintro s rfl; rfl)⟩
  · next op => exact ⟨n, _, _, .of_cue rfl (fun s => s.takeDipRelease_link o [op]) (by rintro s rfl; rfl)⟩
  · next v0 v1 v2 v3 code flags =>
    exact ⟨n, _, _, .of_cue rfl (fun s => s.takeHeadroom_link o
      [v0.1, v0.2, v1.1, v1.2, v2.1, v2.2, v3.1, v3.2, code, flags]) (by rintro s rfl; rfl)⟩
  · exact ⟨n + 1, false, State.takeSleep (channelOrder n) (Config.clearFirst n), .of_noCue rfl nofun
      (fun s hs => by rw [State.takeSleep, hs]) (fun s _ => s.takeSleep_stations hn hm _) (by rintro s rfl; rfl)⟩
  · exact ⟨n + 1, true, State.takeWake (channelOrder n), .of_noCue rfl (fun _ => rfl)
      (fun s hs => by rw [State.takeWake, hs]) (fun s hs => by rw [State.takeWake_link hs]) (by rintro s rfl; rfl)⟩
  · next target group index flags =>
    exact ⟨n, false, State.whenTaken (State.takeQuery [target, group, index, flags]), .of_noCue rfl nofun
      (fun s hs => s.whenTaken_start hs _) (fun s _ => State.whenTaken_stations (s.takeQuery_stations _))
      (by rintro s rfl; rfl)⟩
  · exact ⟨n, false, id, .of_noCue rfl nofun (fun _ _ => rfl) (fun _ _ => rfl) (by rintro s rfl; rfl)⟩

/-! ### Frames that reach no handler -/

theorem State.countLink_redrawn (s : State) (d : Nat) (k : LinkCounter) :
    (s.redrawn d).countLink k = (s.countLink k).redrawn d := by
  unfold State.countLink
  rw [show (s.redrawn d).dormant = s.dormant from rfl]
  split <;> rfl

theorem State.heard_redrawn (s : State) (d : Nat) (o : Station) : (s.redrawn d).heard o = (s.heard o).redrawn d := by
  rw [State.heard_rest (s.redrawn d), State.heard_rest s, State.heard_linkSilence, State.heard_linkSilence,
    State.countLink_redrawn]
  rfl

/-- While a reset is held nothing is received (R153). -/
theorem State.receive_inReset {s : State} (h : s.inReset = true) (o : Station) (b : Bool) (f : State → State) :
    s.receive o b f = s := by
  simp only [State.receive, State.reception, h, if_true]

/-- In DORMANT only a wake cue of another station is received (R144, R154). -/
theorem State.receive_dormant {s : State} {o : Station} {b : Bool} (hr : s.inReset = false)
    (hd : s.node.state = .dormant) (h : b = true → o = s.loader.station) (f : State → State) :
    s.receive o b f = s.endFrame := by
  have hdormant : s.dormant = true := by rw [State.dormant, hd]; rfl
  have hwake : (b && o != s.loader.station) = false := by
    cases b with
    | false => rfl
    | true => simp [h rfl]
  simp [State.receive, State.reception, hr, hdormant, hwake]

/-- A frame of the node's own origin is a clash (R154). -/
theorem State.receive_own {s : State} {o : Station} (hr : s.inReset = false) (hd : s.node.state ≠ .dormant)
    (ho : o = s.loader.station) (b : Bool) (f : State → State) : s.receive o b f = s.clashed := by
  have hdormant : s.dormant = false := by simp [State.dormant, hd]
  simp [State.receive, State.reception, hr, hdormant, ho]

theorem State.clashed_eq (s : State) :
    s.clashed = { s.countLink .clashes with link := { s.link with inFrame := false, clash := true } } := by
  unfold State.clashed State.countLink
  rw [State.setLink_dormant]
  split <;> rfl

theorem State.clashed_redrawn (s : State) (d : Nat) : (s.redrawn d).clashed = s.clashed.redrawn d := by
  rw [State.clashed_eq, State.clashed_eq, State.countLink_redrawn]
  rfl

theorem State.clashed_draws (s : State) : s.clashed.draws = s.draws := by rw [State.clashed_eq, State.countLink_draws]

/-- Settles O31: the outcome of the reception in each case, with the counter of the free values put back. -/
theorem framesNotDispatched : Obligations.FramesNotDispatched := by
  intro s c o hc
  obtain ⟨d, b, f, hf⟩ := exists_handledBy hc s.draws
  refine ⟨_, ((s.redrawn d).receive o b f).redrawn s.draws, hf.runs s rfl, rfl, fun hr => ?reset,
    fun hr hd hwake => ?dormant, fun hr hd ho => ?own, fun hr hs ho => ?start⟩
  case reset => rw [State.receive_inReset (s := s.redrawn d) hr]; rfl
  case dormant =>
    have hown : b = true → o = s.loader.station := fun hb => hwake.resolve_left (not_not.mpr (hf.wake hb))
    rw [State.receive_dormant (s := s.redrawn d) hr hd hown]
    rfl
  case own =>
    rw [State.receive_own (s := s.redrawn d) hr hd ho, State.clashed_redrawn, State.redrawn_redrawn,
      ← State.clashed_draws, State.redrawn_self, State.clashed_eq]
  case start =>
    have hd : s.node.state ≠ .dormant := by rw [hs]; nofun
    have hidle : f ((s.redrawn d).heard o) = (s.redrawn d).heard o := hf.start _ ((State.heard_state _ o).trans hs)
    rw [State.receive_heard (s := s.redrawn d) hr hd ho, hidle, State.heard_redrawn, State.redrawn_redrawn,
      ← State.heard_draws s o, State.redrawn_self]

end Sys2Proof.Machine
end

section
/-!
Silence expiries (R49, R58, R77, R80, R155; log 32): a due expiry and its report, a frame taken before it, and a report taken
after the cue that it has come with.
-/
namespace Sys2Proof.Machine

/-! ### The expiry -/

theorem State.silenceExpires_due {s : State} {st : Station} (hr : s.inReset = false) (hd : s.node.state ≠ .dormant)
    (hpresent : s.link.stations[st].present = true) (hage : 2000 ≤ s.link.stations[st].age) (ord : List Channel)
    (cueFirst : Bool) : s.silenceExpires ord cueFirst st = s.reportAbsence ord cueFirst st :=
  if_pos (by simpa [State.silenceDue, State.dormant, hr, hd] using ⟨hpresent, hage⟩)

/-- A station that was heard less than 2000 ms ago has no expiry. -/
theorem State.silenceExpires_notDue {s : State} {st : Station} (h : s.link.stations[st].age < 2000) (ord : List Channel)
    (cueFirst : Bool) : s.silenceExpires ord cueFirst st = s :=
  if_neg (by simpa [State.silenceDue] using fun _ _ _ => h)

/-- The station marked absent, its age stopped (R155). -/
def State.markAbsent (st : Station) (s : State) : State :=
  s.setPresence st { s.link.stations[st] with present := false }

/-- A report is told to all three recipients at once, or to all but the one that a cue of the station meets, which is owed
it (R155; log 32). -/
theorem State.reportAbsence_spec {ord : List Channel} (hn : ord.Nodup) (hm : ∀ c, c ∈ ord) (cueFirst : Bool) (st : Station)
    (s : State) : State.ToldInTurn st Recipient.all (s.markAbsent st) (s.reportAbsence ord cueFirst st) ∨
      ∃ (r : Recipient) (v : State), s.meetsAt st = some r ∧
        State.ToldInTurn st (Recipient.all.filter (· ≠ r)) (s.markAbsent st) v ∧
        s.reportAbsence ord cueFirst st = v.setOwed (some (st, r)) := by
  have hall := State.tellAll_spec hn hm st Recipient.all (s.markAbsent st)
  unfold State.reportAbsence
  dsimp only
  split
  · exact .inl hall
  · next r hmeets =>
    split
    · exact .inr ⟨r, _, hmeets, State.tellAll_spec hn hm st _ _, rfl⟩
    · exact .inl hall

/-! ### A frame before the expiry -/

/-- What a presence record held before its station was heard is lost. -/
theorem State.heard_setPresence (s : State) (o : Station) (x : PresenceRecord) : (s.setPresence o x).heard o = s.heard o := by
  have hcount : (s.setPresence o x).countLink .framesHeard = (s.countLink .framesHeard).setPresence o x := by
    unfold State.countLink
    rw [State.setPresence_dormant]
    split <;> rfl
  have hmark : ∀ u : State, (u.setPresence o x).endFrame.markPresent o = u.endFrame.markPresent o := fun u => by
    simp only [State.endFrame, State.markPresent, State.setPresence, State.setLink, Vector.set_set]
  rw [State.heard, State.heard, hcount, hmark]

/-- A frame of another station is handled in the state that has heard it, whatever the station's record was before. -/
theorem HandledBy.exec_heard {c : Instr} {s : State} {o : Station} {d : Nat} {b : Bool} {f : State → State}
    (hf : HandledBy c o s.draws d b f) (hr : s.inReset = false) (hd : s.node.state ≠ .dormant)
    (ho : o ≠ s.loader.station) (x : PresenceRecord) :
    exec c (s.setPresence o x) = .next (f ((s.redrawn d).heard o)) := by
  rw [hf.runs (s.setPresence o x) rfl, State.receive_heard (s := (s.setPresence o x).redrawn d) hr hd ho]
  exact congrArg (fun u => Host.Outcome.next (f u)) (State.heard_setPresence (s.redrawn d) o x)

theorem State.setPresence_self (s : State) (o : Station) : s.setPresence o s.link.stations[o] = s := by
  simp only [State.setPresence, State.setLink, Fin.getElem_fin, Vector.set_getElem_self]

/-- A frame before its station's expiry does what it does with no expiry due, and no expiry occurs (R155). -/
theorem State.frame_before_expiry {c : Instr} {s : State} {o : Station} (hc : frameOrigin c = some o)
    (hr : s.inReset = false) (hd : s.node.state ≠ .dormant) (ho : o ≠ s.loader.station)
    (howed : ∀ r, cueRecipient c = some r → s.link.owed ≠ some (o, r)) :
    ∃ t, exec c s = .next t ∧ t.link.stations[o] = { present := true, age := 0 } ∧
      exec c (s.setPresence o { present := true, age := 0 }) = .next t ∧ exec (.silenceExpiry o) t = .next t.drawn := by
  obtain ⟨d, b, f, hf⟩ := exists_handledBy hc s.draws
  have hstation : (f ((s.redrawn d).heard o)).link.stations[o] = { present := true, age := 0 } := by
    rw [hf.stations _ (by rw [State.heard_state]; exact hd) (by rw [State.heard_owed]; exact howed),
      State.heard_stations, if_pos rfl]
  refine ⟨_, ?_, hstation, hf.exec_heard hr hd ho _, ?_⟩
  · have h := hf.exec_heard hr hd ho s.link.stations[o]
    rwa [State.setPresence_self] at h
  · rw [exec, execSilenceExpiry, State.silenceExpires_notDue]
    rw [State.drawn_link, hstation]
    exact Nat.zero_lt_succ _

/-! ### A report after the cue -/

/-- A recipient that is owed the report takes the cue as with none owed, and then the report (R49, R58, R77; log 32). -/
theorem State.report_after_cue {c : Instr} {s : State} {o : Station} {r : Recipient} (hc : frameOrigin c = some o)
    (hcue : cueRecipient c = some r) (h : s.Takes o) (howed : s.link.owed = some (o, r)) :
    ∃ (u t : State) (d : Nat), exec c (s.setOwed none) = .next u ∧ exec c s = .next t ∧
      State.ToldAbsent o r { u with draws := d } t := by
  obtain ⟨d, b, f, hf⟩ := exists_handledBy hc s.draws
  obtain ⟨g, rfl⟩ := hf.cue r hcue
  have hfree : ((s.redrawn d).setOwed none).TakesAt o r := ⟨⟨h.released, h.state, h.other⟩, nofun⟩
  obtain ⟨u, hu⟩ : ∃ u, u = g (((s.redrawn d).setOwed none).heard o) := ⟨_, rfl⟩
  have hcueAlone : exec c (s.setOwed none) = .next u := by
    rw [hf.runs (s.setOwed none) rfl, hu]
    exact congrArg _ (State.receive_cue hfree b g)
  have hboth : exec c s = .next (u.drawn.tellAbsence (channelOrder u.draws) o r) := by
    rw [hf.runs s rfl, State.receive_owed (s := s.redrawn d) ⟨h.released, h.state, h.other⟩ howed, hu]
  exact ⟨u, _, _, hcueAlone, hboth, State.tellAbsence_spec (channelOrder_nodup _) (mem_channelOrder _) o u.drawn r⟩

/-- Settles O22: the report of a due expiry, a frame before one, and a cue whose recipient is owed the report. -/
theorem silenceExpiryReportsAbsence : Obligations.SilenceExpiryReportsAbsence := by
  intro s st hr hd
  refine ⟨fun hpresent hage => ?_, fun c hc hst => ⟨fun howed => State.frame_before_expiry hc hr hd hst howed,
    fun r hcue howed htakes => State.report_after_cue hc hcue ⟨hr, htakes, hst⟩ howed⟩⟩
  have hexec : exec (.silenceExpiry st) s =
      .next (s.drawn.reportAbsence (channelOrder s.draws) (Config.cueFirst s.draws) st) := by
    rw [exec, execSilenceExpiry, State.silenceExpires_due (s := s.drawn) hr hd hpresent hage]
  refine ⟨_, s.drawn.markAbsent st, hexec, rfl, fun i => State.stations_setPresence s.drawn st i _, ?_⟩
  refine (State.reportAbsence_spec (channelOrder_nodup s.draws) (mem_channelOrder s.draws) _ st s.drawn).imp id ?_
  rintro ⟨r, v, hmeets, htold, howed⟩
  obtain ⟨-, htakes, hother, c, rest, hpending, horigin, hcue⟩ := State.awaits_of_meetsAt (s := s.drawn) hr hmeets
  exact ⟨c, rest, r, _, v, hpending, horigin, hother, htakes, hcue, rfl, htold, howed⟩

end Sys2Proof.Machine
end

section
/-!
The boost of a pace curve with rising speeds (R59): on each segment the interpolation between its two breakpoints, and
the ends' own boosts beyond them.
-/
namespace Sys2Proof.Machine

/-! ### The segments -/

/-- An interpolation starts at the boost of its lower breakpoint. -/
theorem interpolateBoost_start (p q : Breakpoint) : interpolateBoost p q p.speed = p.boost := by
  rw [interpolateBoost, Int.sub_self, Int.mul_zero, Int.zero_tdiv, Int.add_zero]

/-- The search for the segment stops at the first breakpoint above the speed. -/
theorem boostFrom_segment {speed : Nat} {l : List Breakpoint} {p : Breakpoint} {k : Nat}
    (hsorted : (p :: l).Pairwise fun x y => x.speed < y.speed) (hk : k + 1 < (p :: l).length)
    (hlow : (p :: l)[k].speed ≤ speed) (hhigh : speed < (p :: l)[k + 1].speed) :
    boostFrom p speed l = interpolateBoost (p :: l)[k] (p :: l)[k + 1] speed := by
  induction l generalizing p k with
  | nil => simp at hk
  | cons q l ih =>
    rw [boostFrom]
    cases k with
    | zero => exact if_pos hhigh
    | succ k =>
      obtain ⟨-, hrest⟩ := List.pairwise_cons.mp hsorted
      have hk' : k < (q :: l).length := Nat.lt_of_succ_lt (Nat.lt_of_succ_lt_succ hk)
      have hfirst : q.speed ≤ (q :: l)[k].speed := by
        cases k with
        | zero => exact le_rfl
        | succ k => exact (List.rel_of_pairwise_cons hrest (List.getElem_mem _)).le
      rw [if_neg (Nat.not_lt.mpr (hfirst.trans hlow))]
      exact ih hrest (Nat.lt_of_succ_lt_succ hk) hlow hhigh

/-- Past every breakpoint the search ends at the last one. -/
theorem boostFrom_last {speed : Nat} {l : List Breakpoint} {p : Breakpoint} (h : ∀ q ∈ l, q.speed ≤ speed) :
    boostFrom p speed l = ((p :: l).getLast (List.cons_ne_nil p l)).boost := by
  induction l generalizing p with
  | nil => rfl
  | cons q l ih =>
    rw [boostFrom, if_neg (Nat.not_lt.mpr (h q List.mem_cons_self)), List.getLast_cons (List.cons_ne_nil q l)]
    exact ih fun r hr => h r (List.mem_cons_of_mem q hr)

/-! ### The whole curve -/

/-- The breakpoints stand at strictly rising speeds. -/
def Curve.Rising (curve : Curve) : Prop := ∀ j k : Fin 8, j < k → curve[j].speed < curve[k].speed

theorem Curve.Rising.le {curve : Curve} (h : Curve.Rising curve) {j k : Fin 8} (hjk : j ≤ k) : curve[j].speed ≤ curve[k].speed := by
  rcases hjk.lt_or_eq with hlt | rfl
  · exact (h j k hlt).le
  · exact le_rfl

theorem Curve.toList_eq_cons (curve : Curve) : curve.toList = curve[0] :: curve.toList.tail := by
  have hne : curve.toList ≠ [] := List.ne_nil_of_length_pos (by simp)
  rw [← List.cons_head_tail hne]
  simp [List.head_eq_getElem]

theorem Curve.Rising.pairwise {curve : Curve} (h : Curve.Rising curve) : curve.toList.Pairwise fun x y => x.speed < y.speed := by
  rw [List.pairwise_iff_getElem]
  intro i j hi hj hij
  have hj8 : j < 8 := by simpa using hj
  exact h ⟨i, by omega⟩ ⟨j, hj8⟩ hij

theorem curveBoost_first (curve : Curve) {speed : Nat} (h : speed ≤ curve[0].speed) :
    curveBoost curve speed = curve[0].boost := if_pos h

theorem curveBoost_last {curve : Curve} (hrise : Curve.Rising curve) {speed : Nat} (h : curve[7].speed ≤ speed) :
    curveBoost curve speed = curve[7].boost := by
  have hfirst : curve[0].speed < curve[7].speed := hrise 0 7 (by decide)
  have hbelow : ∀ q ∈ curve.toList.tail, q.speed ≤ speed := fun q hq => by
    obtain ⟨k, hk, rfl⟩ := List.getElem_of_mem (List.mem_of_mem_tail hq)
    have hk8 : k < 8 := by simpa using hk
    exact (hrise.le (j := ⟨k, hk8⟩) (k := 7) (Nat.le_of_lt_succ hk8)).trans h
  rw [curveBoost, if_neg (by omega), boostFrom_last hbelow]
  simp only [← Curve.toList_eq_cons]
  simp [List.getLast_eq_getElem]

/-- Between two neighbouring breakpoints the boost is their interpolation. -/
theorem curveBoost_segment {curve : Curve} (hrise : Curve.Rising curve) {k j : Fin 8} (hj : j.val = k.val + 1) {speed : Nat}
    (hlow : curve[k].speed ≤ speed) (hhigh : speed < curve[j].speed) :
    curveBoost curve speed = interpolateBoost curve[k] curve[j] speed := by
  unfold curveBoost
  split
  · next hs =>
    have hk : k = 0 := by
      by_contra hne
      have := hrise 0 k (Fin.pos_iff_ne_zero.mpr hne)
      have hs' : speed ≤ curve[(0 : Fin 8)].speed := hs
      omega
    subst hk
    rw [show speed = curve[(0 : Fin 8)].speed from Nat.le_antisymm hs hlow, interpolateBoost_start]
    rfl
  · obtain ⟨j, hj8⟩ := j
    obtain rfl : j = k.val + 1 := hj
    have hcons := Curve.toList_eq_cons curve
    have hk : ∀ i (hi : i < 8), (curve[0] :: curve.toList.tail)[i]'(by rw [← hcons]; simpa using hi) = curve[i] :=
      fun i hi => by simp only [← hcons]; simp
    have hseg := boostFrom_segment (speed := speed) (hcons ▸ hrise.pairwise) (k := k.val)
      (by rw [← hcons]; simpa using hj8) (by rw [hk _ k.isLt]; exact hlow) (by rw [hk _ hj8]; exact hhigh)
    rw [hseg, hk _ k.isLt, hk _ hj8]
    rfl

/-- At its own speed each breakpoint gives its own boost. -/
theorem curveBoost_breakpoint {curve : Curve} (hrise : Curve.Rising curve) (k : Fin 8) :
    curveBoost curve curve[k].speed = curve[k].boost := by
  by_cases hk : k.val + 1 < 8
  · rw [curveBoost_segment hrise (j := ⟨k.val + 1, hk⟩) rfl le_rfl (hrise k _ (Nat.lt_succ_self k.val)),
      interpolateBoost_start]
  · obtain rfl : k = 7 := Fin.ext (by have := k.isLt; omega)
    exact curveBoost_last hrise le_rfl

/-- Settles O35: the ends, the breakpoints and the segments of the curve. -/
theorem boostFollowsTheCurve : Obligations.BoostFollowsTheCurve := by
  intro curve speed hrise
  refine ⟨curveBoost_first curve, curveBoost_last hrise, curveBoost_breakpoint hrise, fun k j hj hlow hhigh => ?_⟩
  rw [curveBoost_segment hrise hj hlow hhigh]
  exact ⟨rfl, interpolateBoost_between hlow hhigh⟩

end Sys2Proof.Machine
end

section
/-!
The band of a zone (R61): what each of the two passes leaves, and a band that neither of them moves.
-/
namespace Sys2Proof.Machine

/-! ### The passes -/

/-- No breakpoint above the band is reached. -/
def NotRaised (curve : Curve) (speed : Nat) (b : Fin 8) : Prop :=
  ∀ j : Fin 8, j.val = b.val + 1 → speed < bandSpeed curve j

/-- The speed is not more than 10 below the band's own, or the band is the lowest. -/
def NotLowered (curve : Curve) (speed : Nat) (b : Fin 8) : Prop := 0 < b.val → bandSpeed curve b ≤ speed + 10

theorem bandUp_of_notRaised {curve : Curve} {speed : Nat} {b : Fin 8} (h : NotRaised curve speed b) (fuel : Nat) :
    bandUp curve speed fuel b = b := by
  cases fuel with
  | zero => rfl
  | succ fuel =>
    rw [bandUp]
    split
    · next hb => exact if_neg (Nat.not_le.mpr (h ⟨b.val + 1, hb⟩ rfl))
    · rfl

theorem bandDown_of_notLowered {curve : Curve} {speed : Nat} {b : Fin 8} (h : NotLowered curve speed b) (fuel : Nat) :
    bandDown curve speed fuel b = b := by
  cases fuel with
  | zero => rfl
  | succ fuel => exact if_neg fun hlow => Nat.not_lt.mpr (h hlow.1) hlow.2

/-- The upward pass with room to the last band ends where no breakpoint above is reached; a band it rises to is reached. -/
theorem bandUp_spec (curve : Curve) (speed fuel : Nat) (b : Fin 8) (hfuel : 7 ≤ b.val + fuel) :
    NotRaised curve speed (bandUp curve speed fuel b) ∧
      (bandUp curve speed fuel b = b ∨
        b < bandUp curve speed fuel b ∧ bandSpeed curve (bandUp curve speed fuel b) ≤ speed) := by
  induction fuel generalizing b with
  | zero => exact ⟨fun j hj => absurd (hj ▸ j.isLt) (by rw [bandUp]; omega), .inl rfl⟩
  | succ fuel ih =>
    by_cases hstay : NotRaised curve speed b
    · rw [bandUp_of_notRaised hstay]
      exact ⟨hstay, .inl rfl⟩
    · obtain ⟨j, hj, hreached⟩ : ∃ j : Fin 8, j.val = b.val + 1 ∧ bandSpeed curve j ≤ speed := by
        simpa [NotRaised] using hstay
      have hbj : b < j := by rw [Fin.lt_def]; omega
      have hmove : bandUp curve speed (fuel + 1) b = bandUp curve speed fuel j := by
        obtain ⟨j, hj8⟩ := j
        obtain rfl : j = b.val + 1 := hj
        rw [bandUp, dif_pos hj8]
        exact if_pos hreached
      rw [hmove]
      obtain ⟨hstop, hrise⟩ := ih j (by omega)
      refine ⟨hstop, .inr ?_⟩
      rcases hrise with hsame | ⟨hlt, hle⟩
      · rw [hsame]; exact ⟨hbj, hreached⟩
      · exact ⟨hbj.trans hlt, hle⟩

/-- The downward pass with room to band 0 ends at a band that holds; each band it leaves is more than 10 above the speed. -/
theorem bandDown_spec (curve : Curve) (speed fuel : Nat) (b : Fin 8) (hfuel : b.val ≤ fuel) :
    NotLowered curve speed (bandDown curve speed fuel b) ∧
      (bandDown curve speed fuel b = b ∨ bandDown curve speed fuel b < b ∧
        ∀ j : Fin 8, j.val = (bandDown curve speed fuel b).val + 1 → speed + 10 < bandSpeed curve j) := by
  induction fuel generalizing b with
  | zero => exact ⟨fun h => absurd h (by rw [bandDown]; omega), .inl rfl⟩
  | succ fuel ih =>
    by_cases hstay : NotLowered curve speed b
    · rw [bandDown_of_notLowered hstay]
      exact ⟨hstay, .inl rfl⟩
    · obtain ⟨hpos, hlow⟩ : 0 < b.val ∧ speed + 10 < bandSpeed curve b := by simpa [NotLowered] using hstay
      obtain ⟨a, ha⟩ : ∃ a : Fin 8, a.val = b.val - 1 := ⟨⟨b.val - 1, by omega⟩, rfl⟩
      have hab : a < b := by rw [Fin.lt_def]; omega
      have hmove : bandDown curve speed (fuel + 1) b = bandDown curve speed fuel a := by
        rw [bandDown, if_pos ⟨hpos, hlow⟩]
        exact congrArg _ (Fin.ext ha.symm)
      rw [hmove]
      obtain ⟨hstop, hfall⟩ := ih a (by omega)
      refine ⟨hstop, .inr ?_⟩
      rcases hfall with hsame | ⟨hlt, hleft⟩
      · rw [hsame]
        refine ⟨hab, fun j hj => ?_⟩
        obtain rfl : j = b := Fin.ext (by omega)
        exact hlow
      · exact ⟨hlt.trans hab, hleft⟩

/-! ### The new band -/

/-- The band stays, rises to one that the speed reaches, or falls past bands that are more than 10 above the speed; neither
pass would move the result. -/
theorem newBand_cases (curve : Curve) (speed : Nat) (b : Fin 8) :
    NotRaised curve speed (newBand curve speed b) ∧
      ((newBand curve speed b = b ∧ NotLowered curve speed b) ∨
        (b < newBand curve speed b ∧ bandSpeed curve (newBand curve speed b) ≤ speed) ∨
        (newBand curve speed b < b ∧ NotLowered curve speed (newBand curve speed b) ∧
          ∀ j : Fin 8, j.val = (newBand curve speed b).val + 1 → speed + 10 < bandSpeed curve j)) := by
  obtain ⟨hup, hrise⟩ := bandUp_spec curve speed 7 b (Nat.le_add_left 7 _)
  obtain ⟨hdown, hfall⟩ := bandDown_spec curve speed 7 b (Nat.le_of_lt_succ b.isLt)
  unfold newBand
  split
  · next hsame =>
    rw [hsame] at hup
    rcases hfall with hstay | ⟨hlt, hleft⟩
    · rw [hstay] at hdown ⊢
      exact ⟨hup, .inl ⟨rfl, hdown⟩⟩
    · exact ⟨fun j hj => (Nat.le_add_right speed 10).trans_lt (hleft j hj), .inr (.inr ⟨hlt, hdown, hleft⟩)⟩
  · next hmoved => exact ⟨hup, .inr (.inl (hrise.resolve_left hmoved))⟩

/-- A band that neither pass moves stays. -/
theorem newBand_stable {curve : Curve} {speed : Nat} {b : Fin 8} (hup : NotRaised curve speed b)
    (hdown : NotLowered curve speed b) : newBand curve speed b = b := by
  rw [newBand, if_pos (bandUp_of_notRaised hup 7), bandDown_of_notLowered hdown]

/-- Settles O36: the three outcomes of a change of band, which exclude each other on a rising curve. -/
theorem bandHasHysteresis : Obligations.BandHasHysteresis := by
  intro curve speed b d hrise hd
  obtain ⟨hup, hcases⟩ := newBand_cases curve speed b
  rw [← hd] at hup hcases
  have hnext : ∀ a c : Fin 8, a < c → ∃ j : Fin 8, j.val = a.val + 1 ∧ curve[j].speed ≤ curve[c].speed := fun a c hac =>
    have hac' : a.val < c.val := hac
    ⟨⟨a.val + 1, by omega⟩, rfl, Curve.Rising.le hrise hac⟩
  have hdown : NotLowered curve speed d := by
    rcases hcases with ⟨rfl, hstay⟩ | ⟨-, hreached⟩ | ⟨-, hstay, -⟩
    · exact hstay
    · exact fun _ => hreached.trans (Nat.le_add_right speed 10)
    · exact hstay
  refine ⟨newBand_stable hup hdown, hup, hdown, ?_⟩
  rcases hcases with ⟨rfl, hstay⟩ | ⟨hlt, hreached⟩ | ⟨hlt, -, hleft⟩
  · refine ⟨⟨fun h => absurd h (lt_irrefl _), ?_⟩, fun h => absurd h (lt_irrefl _),
      ⟨fun h => absurd h (lt_irrefl _), ?_⟩, fun h => absurd h (lt_irrefl _)⟩
    · rintro ⟨j, hj, hle⟩
      exact absurd hle (Nat.not_le.mpr (hup j hj))
    · rintro ⟨hpos, hlow⟩
      exact absurd (hstay hpos) (Nat.not_le.mpr hlow)
  · obtain ⟨j, hj, hle⟩ := hnext b d hlt
    refine ⟨⟨fun _ => ⟨j, hj, hle.trans hreached⟩, fun _ => hlt⟩, fun _ => hreached, ⟨fun h => absurd h hlt.asymm, ?_⟩,
      fun h => absurd h hlt.asymm⟩
    rintro ⟨-, hlow⟩
    have hbelow : curve[b].speed < speed := (hrise b d hlt).trans_le hreached
    omega
  · obtain ⟨j, hj, hle⟩ := hnext d b hlt
    have hlow : speed + 10 < curve[b].speed := (hleft j hj).trans_le hle
    refine ⟨⟨fun h => absurd h hlt.asymm, ?_⟩, fun h => absurd h hlt.asymm,
      ⟨fun _ => ⟨Nat.zero_lt_of_lt hlt, hlow⟩, fun _ => hlt⟩, fun _ => hleft⟩
    rintro ⟨i, hi, hreached⟩
    have := hrise b i (by rw [Fin.lt_def]; omega)
    omega

end Sys2Proof.Machine
end

section
/-!
Selections of the pace unit (R54 to R57): the freshness expiry of a source, and a pace cue by the source its station
feeds and its validity.
-/
namespace Sys2Proof.Machine

/-- A selection on changed source records, with its turns in the order of the free values. -/
theorem State.select_speedTaken (s : State) (p : PaceUnit) (n : Nat) :
    State.SpeedTaken p s (State.select (channelOrder n) { s with pace := p, draws := n + 1 }) :=
  State.select_spec (channelOrder_nodup n) (mem_channelOrder n) s p (n + 1)

/-! ### Freshness expiries -/

theorem State.freshnessExpires_due {s : State} {w : Source} (ord : List Channel) (hr : s.inReset = false)
    (hvalid : (s.pace.source w).valid = true) (hrun : (s.pace.source w).freshness = 0) :
    s.freshnessExpires ord w = (s.clearSource w).select ord := by
  unfold State.freshnessExpires SpeedSource.expired
  rw [hr, hvalid, hrun]
  rfl

/-- Settles O20: the due expiry is the selection on the cleared source. -/
theorem freshnessExpirySelects : Obligations.FreshnessExpirySelects := by
  intro s w hr hvalid hrun
  refine ⟨_, rfl, ?_⟩
  rw [State.freshnessExpires_due (s := s.drawn) _ hr hvalid hrun]
  exact s.select_speedTaken _ s.draws

/-! ### Pace cues -/

/-- A station feeds PRIMARY where that is its source, else SECONDARY (R52, R55). -/
theorem PaceUnit.sourceOf_eq_some {p : PaceUnit} {o : Station} {w : Source}
    (h : (w = .primary ∧ p.primary.station = some o) ∨
      (w = .secondary ∧ p.primary.station ≠ some o ∧ p.secondary.station = some o)) : p.sourceOf o = some w := by
  unfold PaceUnit.sourceOf
  rcases h with ⟨rfl, hprimary⟩ | ⟨rfl, hprimary, hsecondary⟩
  · exact if_pos hprimary
  · rw [if_neg hprimary, if_pos hsecondary]

theorem PaceUnit.sourceOf_eq_none {p : PaceUnit} {o : Station} (hprimary : p.primary.station ≠ some o)
    (hsecondary : p.secondary.station ≠ some o) : p.sourceOf o = none := by
  rw [PaceUnit.sourceOf, if_neg hprimary, if_neg hsecondary]

section
variable {s : State} {o : Station} {w : Source}

theorem State.takePace_noSource (h : s.pace.sourceOf o = none) (ord : List Channel) (payload : List Byte) :
    s.takePace ord o payload = s.countLink .unexpectedPaceSources := by
  rw [State.takePace, h]

theorem State.takePace_valid (h : s.pace.sourceOf o = some w) (ord : List Channel) (hi lo : Byte) :
    s.takePace ord o [1#8, hi, lo] =
      (s.setPace (s.pace.setSource w ((s.pace.source w).hear (hi.toNat * 256 + lo.toNat)))).select ord := by
  have hspeed : (halfAt [1#8, hi, lo] 1).toNat = hi.toNat * 256 + lo.toNat := by
    rw [halfAt_toNat]
    show 256 * (256 * 0 + hi.toNat) + lo.toNat = _
    omega
  rw [State.takePace, h]
  dsimp only
  rw [hspeed]
  rfl

theorem State.takePace_unavailable (h : s.pace.sourceOf o = some w) (ord : List Channel) (hi lo : Byte) :
    s.takePace ord o [0#8, hi, lo] = (s.clearSource w).select ord := by
  rw [State.takePace, h]
  rfl

theorem State.takePace_malformed (h : s.pace.sourceOf o = some w) (ord : List Channel) {validity : Byte} (hi lo : Byte)
    (h0 : validity ≠ 0#8) (h1 : validity ≠ 1#8) :
    s.takePace ord o [validity, hi, lo] = s.countLink .formatErrors := by
  rw [State.takePace, h]
  exact (if_neg h1).trans (if_neg h0)

/-- Every pace cue that the unit takes is heard, and the payload is the unit's. -/
theorem State.exec_paceCue (h : s.TakesAt o .pace) (validity hi lo : Byte) :
    exec (.paceCue o validity (hi, lo)) s =
      .next ((s.drawn.heard o).takePace (channelOrder s.draws) o [validity, hi, lo]) := by
  rw [exec, execPaceCue, State.receive_cue h.drawn]

end

theorem State.sourceOf_heard (s : State) (o : Station) : (s.drawn.heard o).pace.sourceOf o = s.pace.sourceOf o := by
  rw [State.heard_pace, State.drawn_pace]

/-- Settles O34: a cue by the source that its station feeds, and by its validity. -/
theorem paceCueSelects : Obligations.PaceCueSelects := by
  rintro s o validity hi lo speed h rfl
  refine ⟨fun w hw => ?_, fun hprimary hsecondary => ?_⟩
  · have hsource := (s.sourceOf_heard o).trans (PaceUnit.sourceOf_eq_some hw)
    refine ⟨?_, ?_, fun h0 h1 => ?_⟩
    · rintro rfl
      refine ⟨_, State.exec_paceCue h _ hi lo, ?_⟩
      rw [State.takePace_valid hsource, State.heard_drawn, ← State.heard_pace s o]
      exact (s.heard o).select_speedTaken _ s.draws
    · rintro rfl
      refine ⟨_, State.exec_paceCue h _ hi lo, ?_⟩
      rw [State.takePace_unavailable hsource, State.heard_drawn, ← State.heard_pace s o]
      exact (s.heard o).select_speedTaken _ s.draws
    · rw [State.exec_paceCue h, State.takePace_malformed hsource _ _ _ h0 h1]
  · have hsource := (s.sourceOf_heard o).trans (PaceUnit.sourceOf_eq_none hprimary hsecondary)
    rw [State.exec_paceCue h, State.takePace_noSource hsource]

end Sys2Proof.Machine
end

section
/-!
The idle millisecond (R56, R75, R91, R136 to R138, R150, R152, R155): what one millisecond of the internal reference
moves in each block, and the output frames it asks for.
-/
namespace Sys2Proof.Machine

theorem tickTimer_eq_map : tickTimer = Option.map (· - 1) := by
  funext t
  cases t <;> rfl

theorem State.source_advance (s : State) (w : Source) : s.advance.pace.source w =
    if (s.pace.source w).valid then { s.pace.source w with freshness := (s.pace.source w).freshness - 1 }
    else s.pace.source w := by
  cases w <;> rfl

theorem State.dormant_eq_true_iff (s : State) : s.dormant = true ↔ s.node.state = .dormant := beq_iff_eq

theorem State.stations_advance (s : State) (st : Station) : s.advance.link.stations[st] =
    if s.link.stations[st].present ∧ s.node.state ≠ .dormant then
      { s.link.stations[st] with age := min 2000 (s.link.stations[st].age + 1) }
    else s.link.stations[st] := by
  show (if s.dormant then s.link.stations else Vector.ofFn fun i => s.link.stations[i].tick)[st] = _
  by_cases hd : s.node.state = .dormant
  · rw [if_pos (s.dormant_eq_true_iff.mpr hd), if_neg fun h => h.2 hd]
  · rw [if_neg fun h => hd (s.dormant_eq_true_iff.mp h)]
    simp [PresenceRecord.tick, hd]

theorem State.age_advance (s : State) : s.advance.emission.age =
    if s.node.state = .dormant then s.emission.age else min 500 (s.emission.age + 1) := by
  show (if s.dormant then _ else _) = _
  simp only [State.dormant_eq_true_iff]

/-- With no reset held, blocks end and output frames go out at the reference alone exactly while blocks are paced and input
audio is lost (R136, R137). -/
theorem State.paced_lost_iff {s : State} (hr : s.inReset = false) :
    (s.paced && s.ports.presence == .lost) = true ↔ s.node.state ≠ .start ∧ s.ports.presence = .lost := by
  simp [State.paced, hr]

/-- A step with nothing waiting and nothing due lets one millisecond pass. -/
theorem step_of_nothingDue {s : State} (hpending : s.pending = []) (hr : s.inReset = false) (hdue : s.ownEvents = []) :
    step s = .next { s.advance with pending := s.outputTicks } := by
  simp only [step, hpending, State.idle, hdue, hr, Bool.false_eq_true, if_false]

/-- Settles O2: the idle step block by block. -/
theorem idleStepPassesOneMillisecond : Obligations.IdleStepPassesOneMillisecond := by
  intro s hpending hr hdue
  refine ⟨_, step_of_nothingDue hpending hr hdue, rfl, fun hlost => if_pos ((State.paced_lost_iff hr).mpr hlost),
    fun hkept => if_neg fun h => hkept ((State.paced_lost_iff hr).mp h), ?_, State.source_advance s, rfl, ?_, ?_, rfl,
    ?_, rfl, s.stations_advance, rfl⟩
  · rw [← tickTimer_eq_map]; rfl
  · rw [← tickTimer_eq_map]; rfl
  · rw [← s.age_advance]; rfl
  · rw [← tickTimer_eq_map]; rfl

end Sys2Proof.Machine
end

section
/-!
The reduction table as a list (R66 to R68, R73, R75, R77): what keeps it in order.
-/
namespace Sys2Proof.Machine

/-- A table that R66 allows at a node of the given station number. -/
structure TableSound (station : Station) (table : List Entry) : Prop where
  size    : table.length ≤ 24
  keys    : (table.map (·.key)).Nodup
  entries : ∀ e ∈ table, e.Sound station

theorem State.tableLaw_iff (s : State) : s.TableLaw ↔ TableSound s.loader.station s.table :=
  ⟨fun h => ⟨h.size, h.keys, h.entries⟩, fun h => ⟨h.size, h.keys, h.entries⟩⟩

namespace TableSound

variable {station : Station} {before after : List Entry}

theorem nil (station : Station) : TableSound station [] := ⟨Nat.zero_le _, List.nodup_nil, nofun⟩

/-- Removals keep the order (R72, R75, R77). -/
theorem sublist (h : TableSound station before) (hsub : after.Sublist before) : TableSound station after where
  size := hsub.length_le.trans h.size
  keys := h.keys.sublist (hsub.map _)
  entries e he := h.entries e (hsub.subset he)

/-- An entry of a new key after those that are kept, of which there are fewer than 24 (R68). -/
theorem append {e : Entry} (h : TableSound station before) (hsub : after.Sublist before) (hroom : after.length < 24)
    (hnew : ∀ x ∈ before, x.key ≠ e.key) (he : e.Sound station) : TableSound station (after ++ [e]) where
  size := by rw [List.length_append]; exact hroom
  keys := by
    rw [List.map_append, List.map_singleton, ← List.concat_eq_append]
    refine (h.sublist hsub).keys.concat fun hmem => ?_
    obtain ⟨x, hx, hkey⟩ := List.mem_map.mp hmem
    exact hnew x (hsub.subset hx) hkey
  entries x hx := by
    rcases List.mem_append.mp hx with hold | hlast
    · exact h.entries x (hsub.subset hold)
    · rwa [List.mem_singleton.mp hlast]

/-- Entries changed in place, each with its key and still allowed (R67, R75). -/
theorem map {f : Entry → Entry} (h : TableSound station before) (hkey : ∀ x, (f x).key = x.key)
    (hsound : ∀ x ∈ before, (f x).Sound station) : TableSound station (before.map f) where
  size := by rw [List.length_map]; exact h.size
  keys := by
    rw [List.map_map, show (fun x : Entry => x.key) ∘ f = (·.key) from funext hkey]
    exact h.keys
  entries x hx := by
    obtain ⟨y, hy, rfl⟩ := List.mem_map.mp hx
    exact hsound y hy

end TableSound

/-- An allowed entry keeps the table in order, whichever of the four it meets (R68). -/
theorem EntryTaken.sound {station : Station} {e : Entry} {before after : List Entry} {refused : Bool}
    (h : EntryTaken e before after refused) (hbefore : TableSound station before) (he : e.Sound station) :
    TableSound station after := by
  by_cases hpresent : ∃ x ∈ before, x.key = e.key
  · obtain ⟨-, rfl⟩ := h.update hpresent
    refine hbefore.map (fun x => ?_) fun x hx => ?_
    · split
      · next hkey => exact hkey.symm
      · rfl
    · split
      · exact he
      · exact hbefore.entries x hx
  · have hnew : ∀ x ∈ before, x.key ≠ e.key := fun x hx hkey => hpresent ⟨x, hx, hkey⟩
    by_cases hroom : before.length < 24
    · obtain ⟨-, rfl⟩ := h.room hnew hroom
      exact hbefore.append (List.Sublist.refl _) hroom hnew he
    · by_cases hshallow : ∃ x ∈ before, x.depth < e.depth
      · obtain ⟨-, l, v, r, rfl, -, -, rfl⟩ := h.displace hnew (Nat.not_lt.mp hroom) hshallow
        refine hbefore.append ((List.sublist_cons_self v r).append_left l) ?_ hnew he
        have hsize := hbefore.size
        rw [List.length_append, List.length_cons] at hsize
        rw [List.length_append]
        omega
      · obtain ⟨-, rfl⟩ := h.refuse hnew (Nat.not_lt.mp hroom) fun x hx =>
          Nat.not_lt.mp fun hlt => hshallow ⟨x, hx, hlt⟩
        exact hbefore

/-- A group value of another station keeps the table in order (R73). -/
theorem GroupTaken.sound {station o : Station} {g : Group} {v : Nat} {before after : List Entry} {refused : Bool}
    (h : GroupTaken o g v before after refused) (hbefore : TableSound station before) (ho : o ≠ station) :
    TableSound station after := by
  obtain ⟨hzero, hwrite⟩ := h
  by_cases hv : v = 0
  · obtain ⟨-, rfl⟩ := hzero hv
    exact hbefore.sublist List.filter_sublist
  · refine (hwrite hv).sound hbefore ⟨ho, ?_, min_le_right _ _⟩
    show 1 ≤ min v 384
    omega

end Sys2Proof.Machine
end

section
/-!
What the laws of the reduction table read of the state: a view of it, and the operations that leave the view as it is.
-/
namespace Sys2Proof.Machine

/-! ### The view -/

/-- The parts of the state that the laws of the reduction table speak of (R66, R78, R79, R83, R89): node state, station
number, entries, own values, and the targets of the DIP and LINK slots. -/
structure TableView where
  state   : NodeState
  station : Station
  table   : List Entry
  own     : Vector Nat 4
  dip     : Zone → ChannelClass → Int
  link    : Group → Int

/-- The view of a state. -/
def State.tableView (s : State) : TableView where
  state := s.node.state
  station := s.loader.station
  table := s.table
  own := s.emission.own
  dip z k := (s.slot (.dip z k)).target
  link g := (s.slot (.link g)).target

/-- The entries are in order, the targets are those of the entries and own values, and before the hand-over there are no
entries and no own values. -/
structure TableView.Lawful (v : TableView) : Prop where
  table : TableSound v.station v.table
  dip   : ∀ z k, v.dip z k = dipTarget v.table z k
  link  : ∀ g : Group, v.link g = linkTarget v.own[g] v.table g
  start : v.state = .start → v.table = [] ∧ v.own = Vector.replicate 4 0

/-- The largest depth is one value (R78). -/
theorem DipTargetIs.unique {table : List Entry} {z : Zone} {k : ChannelClass} {v w : Int} (hv : DipTargetIs table z k v)
    (hw : DipTargetIs table z k w) : v = w := by
  have hle : ∀ {v w : Int}, DipTargetIs table z k v → DipTargetIs table z k w → v ≤ w := fun hv hw => by
    rcases hv.attained with rfl | ⟨e, he, hcovers, rfl⟩
    · exact hw.bound.1
    · exact hw.bound.2 e he hcovers
  exact le_antisymm (hle hv hw) (hle hw hv)

/-- So is the largest among the own value and the depths (R79). -/
theorem LinkTargetIs.unique {own : Nat} {table : List Entry} {g : Group} {v w : Int} (hv : LinkTargetIs own table g v)
    (hw : LinkTargetIs own table g w) : v = w := by
  have hle : ∀ {v w : Int}, LinkTargetIs own table g v → LinkTargetIs own table g w → v ≤ w := fun hv hw => by
    rcases hv.attained with rfl | ⟨e, he, hkey, rfl⟩
    · exact hw.bound.1
    · exact hw.bound.2 e he hkey
  exact le_antisymm (hle hv hw) (hle hw hv)

/-- The two laws are a law of the view. -/
theorem State.tableView_lawful_iff (s : State) : s.tableView.Lawful ↔ s.TableLaw ∧ s.TargetLaw := by
  rw [State.tableLaw_iff]
  constructor
  · rintro ⟨htable, hdip, hlink, hstart⟩
    refine ⟨htable, fun z k => ?_, fun g => ?_, hstart⟩
    · rw [show (s.slot (.dip z k)).target = _ from hdip z k]; exact dipTarget_is _ z k
    · rw [show (s.slot (.link g)).target = _ from hlink g]; exact linkTarget_is _ _ g
  · rintro ⟨htable, hdip, hlink, hstart⟩
    exact ⟨htable, fun z k => (hdip z k).unique (dipTarget_is _ z k), fun g => (hlink g).unique (linkTarget_is _ _ g),
      hstart⟩

/-- Equal parts make equal views. -/
theorem State.tableView_congr {s t : State} (hdip : ∀ z k, (t.slot (.dip z k)).target = (s.slot (.dip z k)).target)
    (hlink : ∀ g, (t.slot (.link g)).target = (s.slot (.link g)).target)
    (hstate : t.node.state = s.node.state := by rfl) (hstation : t.loader.station = s.loader.station := by rfl)
    (htable : t.table = s.table := by rfl) (hown : t.emission.own = s.emission.own := by rfl) :
    t.tableView = s.tableView := by
  unfold State.tableView
  simp only [hdip, hlink, hstate, hstation, htable, hown]

/-- Where the slots are the same, their targets are. -/
theorem State.tableView_of_ramp {s t : State} (hramp : t.ramp = s.ramp)
    (hstate : t.node.state = s.node.state := by rfl) (hstation : t.loader.station = s.loader.station := by rfl)
    (htable : t.table = s.table := by rfl) (hown : t.emission.own = s.emission.own := by rfl) :
    t.tableView = s.tableView :=
  State.tableView_congr (fun z k => by rw [State.slot, State.slot, hramp]) (fun g => by rw [State.slot, State.slot, hramp])
    hstate hstation htable hown

section
variable (s : State)

/-! ### Single parts -/

@[simp] theorem State.tableView_drawn : s.drawn.tableView = s.tableView := rfl
@[simp] theorem State.tableView_setLink (l : LinkInterface) : (s.setLink l).tableView = s.tableView := rfl
@[simp] theorem State.tableView_setOwed (o : Option (Station × Recipient)) : (s.setOwed o).tableView = s.tableView := rfl
@[simp] theorem State.tableView_endFrame : s.endFrame.tableView = s.tableView := rfl
@[simp] theorem State.tableView_setPace (p : PaceUnit) : (s.setPace p).tableView = s.tableView := rfl
@[simp] theorem State.tableView_clearSource (w : Source) : (s.clearSource w).tableView = s.tableView := rfl
@[simp] theorem State.tableView_setPorts (p : AudioPorts) : (s.setPorts p).tableView = s.tableView := rfl
@[simp] theorem State.tableView_setImage (z : Zone) (x : ZoneImage) : (s.setImage z x).tableView = s.tableView := rfl
@[simp] theorem State.tableView_recordStamp (z : Zone) (o : Station) (b : Byte) :
    (s.recordStamp z o b).tableView = s.tableView := rfl
@[simp] theorem State.tableView_setNode (n : NodeControl) :
    (s.setNode n).tableView = { s.tableView with state := n.state } := rfl

@[simp] theorem State.tableView_countLink (k : LinkCounter) : (s.countLink k).tableView = s.tableView := by
  rw [State.countLink_rest]; rfl

@[simp] theorem State.tableView_removeOrigins (o : Station) : (s.removeOrigins o).tableView = s.tableView := by
  rw [State.removeOrigins]; rfl

theorem State.tableView_cacheStep {s t : State} (h : s.CacheStep t) : t.tableView = s.tableView :=
  State.tableView_of_ramp h.ramp (by rw [h.node]) (by rw [h.loader]) h.table (by rw [h.emission])

@[simp] theorem State.tableView_countCache (k : CacheCounter) : (s.countCache k).tableView = s.tableView :=
  State.tableView_cacheStep (.countCache s k)

@[simp] theorem State.tableView_heard (o : Station) : (s.heard o).tableView = s.tableView := by
  rw [State.heard_rest]; rfl

@[simp] theorem State.tableView_clashed : s.clashed.tableView = s.tableView := by
  rw [State.clashed, State.tableView_countLink]; rfl

/-! ### Slots -/

/-- A slot whose target stays. -/
theorem State.tableView_setSlot_target {i : SlotId} {x : TermSlot} (hx : x.target = (s.slot i).target) :
    (s.setSlot i x).tableView = s.tableView := by
  have htarget : ∀ j, ((s.setSlot i x).slot j).target = (s.slot j).target := fun j => by
    rw [State.slot_setSlot]
    split
    · next hij => rw [hx, hij]
    · rfl
  exact State.tableView_congr (fun z k => htarget _) fun g => htarget _

/-- A written target of another block's slot. -/
theorem State.tableView_writeTarget {i : SlotId} (hdip : ∀ z k, i ≠ .dip z k) (hlink : ∀ g, i ≠ .link g) (v : Int) :
    (s.writeTarget i v).tableView = s.tableView :=
  State.tableView_congr (fun z k => by rw [State.slot_writeTarget_other _ (hdip z k)])
    fun g => by rw [State.slot_writeTarget_other _ (hlink g)]

@[simp] theorem State.tableView_formNodeTarget : s.formNodeTarget.tableView = s.tableView :=
  s.tableView_writeTarget (i := .node) nofun nofun _

theorem State.stepped_target (i : SlotId) : (s.stepped i).target = (s.slot i).target := by
  unfold State.stepped
  split
  · rfl
  · exact TermSlot.step_target _ _

@[simp] theorem State.tableView_settleSlots : s.settleSlots.tableView = s.tableView := by
  have htarget : ∀ i, (s.settleSlots.slot i).target = (s.slot i).target := fun i => by
    rw [State.slot_settleSlots]
    split
    · rfl
    · rfl
  exact State.tableView_congr (fun z k => htarget _) (fun g => htarget _) (by simp) (by simp) (by simp) (by simp)

/-! ### Image handler and pace unit -/

@[simp] theorem State.tableView_imageTaken (z : Zone) (f : ImageFields) : (s.imageTaken z f).tableView = s.tableView := by
  have hwrite : ∀ (u : State) (b : Bool) (i : SlotId) (v : Int), (∀ y k, i ≠ .dip y k) → (∀ g, i ≠ .link g) →
      (u.writeIfChanged b i v).tableView = u.tableView := fun u b i v hdip hlink => by
    unfold State.writeIfChanged
    split
    · exact u.tableView_writeTarget hdip hlink v
    · rfl
  unfold State.imageTaken
  rw [hwrite _ _ (.bal z) _ nofun nofun, hwrite _ _ (.fade z) _ nofun nofun, hwrite _ _ (.vol z) _ nofun nofun,
    State.tableView_setImage]

@[simp] theorem State.tableView_applyImage (ord : List Channel) (z : Zone) (f : ImageFields) :
    (s.applyImage ord z f).tableView = s.tableView := by
  rw [State.applyImage_eq]
  split
  · exact s.tableView_imageTaken z f
  · rw [State.tableView_cacheStep (.handPreset _ ord z _), State.tableView_imageTaken]

@[simp] theorem State.tableView_takeImage (ord : List Channel) (o : Station) (payload : List Byte) :
    (s.takeImage ord o payload).tableView = s.tableView := by
  unfold State.takeImage
  dsimp only
  split
  · exact s.tableView_countLink _
  · split
    · exact s.tableView_countLink _
    · split
      · rfl
      · exact s.tableView_countLink _
      · rw [State.tableView_applyImage, State.tableView_recordStamp]
      · rw [State.tableView_applyImage, State.tableView_recordStamp]

@[simp] theorem State.tableView_formPace (ord : List Channel) : (s.formPace ord).tableView = s.tableView := by
  have hwritten : ∀ curves speed, (s.writePaceTargets curves speed).tableView = s.tableView := fun curves speed => by
    have hpace : ∀ (u : State) (z : Zone) (v : Int), (u.writeTarget (.pace z) v).tableView = u.tableView :=
      fun u z v => u.tableView_writeTarget (i := .pace z) nofun nofun v
    simp only [State.writePaceTargets, List.foldl_cons, List.foldl_nil, hpace]
  unfold State.formPace
  split
  · rfl
  · rw [State.tableView_cacheStep (.handBands _ ord _ _), State.tableView_setPace, hwritten]

@[simp] theorem State.tableView_select (ord : List Channel) : (s.select ord).tableView = s.tableView := by
  unfold State.select
  dsimp only
  split
  · rfl
  · rw [State.tableView_formPace, State.tableView_setPace]

@[simp] theorem State.tableView_takePace (ord : List Channel) (o : Station) (payload : List Byte) :
    (s.takePace ord o payload).tableView = s.tableView := by
  unfold State.takePace
  split
  · exact s.tableView_countLink _
  · split
    · rw [State.tableView_select, State.tableView_setPace]
    · split
      · rw [State.tableView_select, State.tableView_clearSource]
      · exact s.tableView_countLink _

@[simp] theorem State.tableView_sourceAbsent (ord : List Channel) (o : Station) (w : Source) :
    (s.sourceAbsent ord o w).tableView = s.tableView := by
  unfold State.sourceAbsent
  split
  · rw [State.tableView_select, State.tableView_clearSource]
  · rfl

@[simp] theorem State.tableView_freshnessExpires (ord : List Channel) (w : Source) :
    (s.freshnessExpires ord w).tableView = s.tableView := by
  unfold State.freshnessExpires
  split
  · rw [State.tableView_select, State.tableView_clearSource]
  · rfl

/-! ### Link interface and statistics block -/

@[simp] theorem State.tableView_latenessExpires (place : Nat) : (s.latenessExpires place).tableView = s.tableView := by
  unfold State.latenessExpires State.makeLate
  split
  · split
    · rfl
    · rw [State.tableView_countLink, State.tableView_setLink]
  · rfl

@[simp] theorem State.tableView_silentExpires : s.silentExpires.tableView = s.tableView := by
  unfold State.silentExpires
  split
  · rfl
  · rfl

@[simp] theorem State.tableView_startSending : s.startSending.tableView = s.tableView := by
  unfold State.startSending
  split
  · rfl
  · rfl

@[simp] theorem State.tableView_endUnsent (b : Bool) (a : Attempt) : (s.endUnsent b a).tableView = s.tableView := by
  unfold State.endUnsent
  split
  · rw [State.tableView_countLink, State.tableView_setLink]
  · rfl

@[simp] theorem State.tableView_finishSending : s.finishSending.tableView = s.tableView := by
  unfold State.finishSending
  split
  · rfl
  · rw [State.tableView_countLink, State.tableView_setLink]

@[simp] theorem State.tableView_loseContention : s.loseContention.tableView = s.tableView := by
  unfold State.loseContention
  split
  · rfl
  · rw [State.tableView_countLink, State.tableView_endUnsent]

@[simp] theorem State.tableView_failSending (b : Bool) : (s.failSending b).tableView = s.tableView := by
  unfold State.failSending
  split
  · rfl
  · rw [State.tableView_setLink, State.tableView_countLink, State.tableView_endUnsent]

@[simp] theorem State.tableView_discardInvalid (f : RawFrame) : (s.discardInvalid f).tableView = s.tableView := by
  unfold State.discardInvalid
  split
  · rfl
  · split
    · rfl
    · rw [State.tableView_endFrame, State.tableView_countLink]

@[simp] theorem State.tableView_takeQuery (payload : List Byte) : (s.takeQuery payload).tableView = s.tableView := by
  unfold State.takeQuery State.handAnswer
  split
  · rfl
  · split
    · exact s.tableView_countLink _
    · split
      · exact s.tableView_countLink _
      · split
        · rw [State.clearReported_rest]; rfl
        · rfl

/-! ### Library port -/

@[simp] theorem State.tableView_startFill : s.startFill.tableView = s.tableView := by
  unfold State.startFill
  split
  · split
    · rfl
    · rfl
  · rfl

@[simp] theorem State.tableView_powerDown : s.powerDown.tableView = s.tableView := by
  unfold State.powerDown
  split
  · rfl
  · rfl

@[simp] theorem State.tableView_wayFree (i : Fin 16) : (s.wayFree i).tableView = s.tableView :=
  State.tableView_cacheStep (.wayFree s i)

@[simp] theorem State.tableView_fillPasses (ord : List Channel) (f : Fill) (coefs : List Coefs) :
    (s.fillPasses ord f coefs).tableView = s.tableView := by
  have hturns : ∀ u : State, (u.inTurn (State.takeIfAttached f.line) ord).tableView = u.tableView := fun u =>
    State.tableView_cacheStep (.inTurn (fun c x => .takeIfAttached x f.line c) ord u)
  unfold State.fillPasses
  dsimp only
  split
  · rw [State.tableView_wayFree, hturns]; rfl
  · rw [hturns]; rfl

@[simp] theorem State.tableView_fillFails (f : Fill) : (s.fillFails f).tableView = s.tableView := by
  have hcounted : ((s.invalidate f.line).countCache .fillErrors).tableView = s.tableView := by
    rw [State.tableView_countCache]; rfl
  unfold State.fillFails
  dsimp only
  generalize (s.invalidate f.line).countCache .fillErrors = u at hcounted
  split
  · exact hcounted
  · rw [State.tableView_wayFree]; exact hcounted

@[simp] theorem State.tableView_finishFill (ord : List Channel) (record : List Byte) :
    (s.finishFill ord record).tableView = s.tableView := by
  unfold State.finishFill
  split
  · rfl
  · split
    · exact s.tableView_fillPasses ord _ _
    · exact s.tableView_fillFails _

@[simp] theorem State.tableView_endReleaseWait : s.endReleaseWait.tableView = s.tableView := by
  unfold State.endReleaseWait
  split
  · dsimp only
    split
    · rfl
    · rfl
  · rfl

/-! ### Audio ports -/

@[simp] theorem State.tableView_runFrame (word : Channel → Int) : (s.runFrame word).tableView = s.tableView :=
  State.tableView_of_ramp (by simp) (by simp) (by simp) (by simp) (by simp)

@[simp] theorem State.tableView_inputFrame (slots : Vector SlotWord 16) : (s.inputFrame slots).tableView = s.tableView := by
  unfold State.inputFrame
  split
  · rw [State.tableView_setPorts, State.tableView_runFrame]
  · rfl

@[simp] theorem State.tableView_outputTick : s.outputTick.tableView = s.tableView := by
  unfold State.outputTick
  split
  · rw [State.tableView_setPorts, State.tableView_runFrame]
  · rfl

@[simp] theorem State.tableView_audioLoss : s.audioLoss.tableView = s.tableView := by
  unfold State.audioLoss
  rw [State.tableView_countCache, State.forceNodeMute, State.tableView_setSlot_target _ (TermSlot.force_target _ _),
    State.tableView_formNodeTarget, State.tableView_setPorts]

@[simp] theorem State.tableView_audioReturn (b : Bool) : (s.audioReturn b).tableView = s.tableView := by
  unfold State.audioReturn
  rw [State.tableView_formNodeTarget, State.tableView_setPorts, State.tableView_drawn]
  split
  · exact s.tableView_setSlot_target (TermSlot.step_target _ _)
  · rfl

@[simp] theorem State.tableView_takeSync (b : Bool) (interval : Nat) (slots : Vector SlotWord 16) :
    (s.takeSync b interval slots).tableView = s.tableView := by
  unfold State.takeSync
  dsimp only
  split
  · rfl
  · split
    · unfold State.syncPresent
      split
      · rw [State.tableView_inputFrame, State.tableView_setPorts]
      · rw [State.tableView_audioLoss, State.tableView_setPorts]
    · unfold State.syncLost
      split
      · split
        · rw [State.tableView_audioReturn, State.tableView_setPorts]
        · rfl
      · rfl

@[simp] theorem State.tableView_takeGap : s.takeGap.tableView = s.tableView := by
  unfold State.takeGap
  dsimp only
  split
  · rfl
  · split
    · rw [State.tableView_audioLoss, State.tableView_setPorts]
    · rfl

@[simp] theorem State.tableView_blockStart : s.blockStart.tableView = s.tableView := by
  rw [State.blockStart_rest]; rfl

@[simp] theorem State.tableView_emit : s.emit.tableView = s.tableView := by
  rw [State.emit_rest]; rfl

@[simp] theorem State.tableView_evaluateTurns (ord : List Channel) :
    (s.inTurn State.evaluate ord).tableView = s.tableView :=
  State.tableView_cacheStep (State.evaluateTurns_cacheStep ord s)

end

end Sys2Proof.Machine
end

section
/-!
Every step keeps the reduction table in order, with the targets of its entries and own values (R66 to R68, R78 to R80, R82,
R83, R87, R90): the operations that change what the laws read, and the step.
-/
namespace Sys2Proof.Machine

/-- Another node state than START. -/
theorem TableView.Lawful.setState {v : TableView} (h : v.Lawful) {state : NodeState} (hstate : state ≠ .start) :
    ({ v with state := state } : TableView).Lawful :=
  ⟨h.table, h.dip, h.link, fun hs => absurd hs hstate⟩

/-- With no entries and no own values all targets are 0 (R78, R79). -/
theorem State.tableLawful_of_empty {s : State} (htable : s.table = []) (hown : ∀ g : Group, s.emission.own[g] = 0)
    (hdip : ∀ z k, (s.slot (.dip z k)).target = 0) (hlink : ∀ g, (s.slot (.link g)).target = 0) : s.tableView.Lawful := by
  have hzero : s.emission.own = Vector.replicate 4 0 := Vector.ext fun i hi => by
    rw [Vector.getElem_replicate]
    exact hown ⟨i, hi⟩
  refine (s.tableView_lawful_iff).mpr ⟨s.tableLaw_iff.mpr ?_, fun z k => ?_, fun g => ?_, fun _ => ⟨htable, hzero⟩⟩
  · rw [htable]; exact .nil _
  · rw [hdip, htable]; exact dipTarget_is [] z k
  · rw [hlink, htable, hown]; exact linkTarget_is 0 [] g

/-! ### Recomputations (R80) -/

/-- The entries are in order and, before the hand-over, there are none and no own values; the targets may still be those of
other entries. -/
structure TableView.Held (v : TableView) : Prop where
  table : TableSound v.station v.table
  start : v.state = .start → v.table = [] ∧ v.own = Vector.replicate 4 0

theorem TableView.Lawful.held {v : TableView} (h : v.Lawful) : v.Held := ⟨h.table, h.start⟩

/-- A recomputation brings the targets to the entries. -/
theorem State.recomputeTargets_tableLawful {s : State} (h : s.tableView.Held) : s.recomputeTargets.tableView.Lawful := by
  have hview : s.recomputeTargets.tableView = { s.tableView with
      dip := fun z k => dipTarget s.table z k, link := fun g => linkTarget s.emission.own[g] s.table g } := by
    unfold State.tableView
    simp only [State.recomputeTargets_dip, State.recomputeTargets_link]
    rw [State.recomputeTargets_ramp]
  rw [hview]
  exact ⟨h.table, fun _ _ => rfl, fun _ => rfl, h.start⟩

/-- Removed entries, then a recomputation (R72, R75, R77). -/
theorem State.keepEntries_tableLawful {s : State} (h : s.tableView.Held) {table : List Entry} (hsub : table.Sublist s.table) :
    (s.setTable table).recomputeTargets.tableView.Lawful := by
  refine State.recomputeTargets_tableLawful ⟨h.table.sublist hsub, fun hs => ?_⟩
  obtain ⟨htable, hown⟩ := h.start hs
  exact ⟨List.sublist_nil.mp (htable ▸ hsub), hown⟩

theorem State.purgeStation_tableLawful {s : State} (h : s.tableView.Held) (o : Station) : (s.purgeStation o).tableView.Lawful :=
  State.keepEntries_tableLawful h List.filter_sublist

theorem State.lifetimeExpires_tableLawful {s : State} (h : s.tableView.Lawful) (key : EntryKey) :
    (s.lifetimeExpires key).tableView.Lawful := by
  unfold State.lifetimeExpires
  split
  · exact State.keepEntries_tableLawful h.held List.filter_sublist
  · exact h

/-! ### Dip and headroom cues (R69 to R73) -/

/-- The table takes cues of a station: it is another one, and the node is past START (R69, R154). -/
structure State.TableTakes (s : State) (o : Station) : Prop where
  other : o ≠ s.loader.station
  state : s.node.state ≠ .start

/-- Past START a table in order is all that a recomputation needs. -/
theorem State.TableTakes.held {s t : State} {o : Station} (h : s.TableTakes o) (hnode : t.node = s.node)
    (htable : TableSound t.loader.station t.table) : t.tableView.Held :=
  ⟨htable, fun hs => absurd hs (by rw [State.tableView, hnode]; exact h.state)⟩

/-- Writing an entry changes the table and the LINK counters alone (R68). -/
theorem State.putEntry_rest (e : Entry) (s : State) : s.putEntry e = { s with
    table := (s.putEntry e).table, stats := { s.stats with link := (s.putEntry e).stats.link } } := by
  obtain ⟨refused, -, hrest⟩ := State.putEntry_spec e s
  rw [hrest]
  cases refused with
  | false => rfl
  | true => rw [if_pos rfl, State.countLink_rest]

theorem State.releaseDip_tableLawful {s : State} (h : s.tableView.Lawful) (o : Station) (id : Fin 8) :
    (s.releaseDip o id).tableView.Lawful := by
  unfold State.releaseDip
  split
  · exact h
  · exact State.keepEntries_tableLawful h.held List.filter_sublist

theorem State.takeDipRelease_tableLawful {s : State} (h : s.tableView.Lawful) (o : Station) (payload : List Byte) :
    (s.takeDipRelease o payload).tableView.Lawful := by
  unfold State.takeDipRelease
  split
  · exact State.releaseDip_tableLawful h o _
  · rw [State.tableView_countLink]; exact h

theorem State.takeDipApply_tableLawful {s : State} (h : s.tableView.Lawful) {o : Station} (ho : s.TableTakes o)
    (payload : List Byte) : (s.takeDipApply o payload).tableView.Lawful := by
  unfold State.takeDipApply State.applyDip
  split
  · split
    · exact State.releaseDip_tableLawful h o _
    · next hnonzero =>
      obtain ⟨hdepth, hzones, hclasses⟩ : _ ∧ _ ∧ _ := by simpa only [not_or] using hnonzero
      generalize he : Entry.mk _ _ _ _ _ = e
      have hsound : e.Sound s.loader.station := by
        rw [← he]
        refine ⟨ho.other, ?_, min_le_right _ _, hzones, hclasses⟩
        show 1 ≤ min _ 1600
        omega
      obtain ⟨refused, htaken, -⟩ := State.putEntry_spec e s
      refine State.recomputeTargets_tableLawful (ho.held (by rw [State.putEntry_rest]) ?_)
      rw [State.putEntry_loader]
      exact htaken.sound h.table hsound
  · rw [State.tableView_countLink]; exact h

/-- A group value keeps the table in order, and the cues of the station are still taken. -/
theorem State.applyGroup_keeps {s : State} {o : Station} (ho : s.TableTakes o)
    (htable : TableSound s.loader.station s.table) (g : Group) (v : Nat) :
    (s.applyGroup o g v).TableTakes o ∧ TableSound (s.applyGroup o g v).loader.station (s.applyGroup o g v).table := by
  obtain ⟨refused, htaken, -⟩ := State.applyGroup_spec o g v s
  have hparts : (s.applyGroup o g v).node = s.node ∧ (s.applyGroup o g v).loader = s.loader := by
    unfold State.applyGroup
    split
    · exact ⟨rfl, rfl⟩
    · rw [State.putEntry_rest]; exact ⟨rfl, rfl⟩
  obtain ⟨hnode, hloader⟩ := hparts
  refine ⟨⟨by rw [hloader]; exact ho.other, by rw [hnode]; exact ho.state⟩, ?_⟩
  rw [hloader]
  exact htaken.sound htable ho.other

theorem State.takeHeadroom_tableLawful {s : State} (h : s.tableView.Lawful) {o : Station} (ho : s.TableTakes o)
    (payload : List Byte) : (s.takeHeadroom o payload).tableView.Lawful := by
  obtain ⟨ho0, h0⟩ := State.applyGroup_keeps ho h.table 0 (halfAt payload 0).toNat
  obtain ⟨ho1, h1⟩ := State.applyGroup_keeps ho0 h0 1 (halfAt payload 2).toNat
  obtain ⟨ho2, h2⟩ := State.applyGroup_keeps ho1 h1 2 (halfAt payload 4).toNat
  obtain ⟨ho3, h3⟩ := State.applyGroup_keeps ho2 h2 3 (halfAt payload 6).toNat
  exact State.recomputeTargets_tableLawful (ho3.held rfl h3)

/-! ### Absence reports and reception (R77, R154, R155) -/

theorem State.tellAbsence_tableLawful {s : State} (h : s.tableView.Lawful) (ord : List Channel) (o : Station) (r : Recipient) :
    (s.tellAbsence ord o r).tableView.Lawful := by
  cases r with
  | image => rw [State.tellAbsence, State.tableView_removeOrigins]; exact h
  | pace =>
    rw [State.tellAbsence, State.paceAbsence, State.tableView_sourceAbsent, State.tableView_sourceAbsent]
    exact h
  | table => exact State.purgeStation_tableLawful h.held o

theorem State.tellAll_tableLawful {s : State} (h : s.tableView.Lawful) (ord : List Channel) (o : Station)
    (rs : List Recipient) : (s.tellAll ord o rs).tableView.Lawful := by
  unfold State.tellAll
  induction rs generalizing s with
  | nil => exact h
  | cons r rs ih => exact ih (State.tellAbsence_tableLawful h ord o r)

theorem State.silenceExpires_tableLawful {s : State} (h : s.tableView.Lawful) (ord : List Channel) (cueFirst : Bool)
    (o : Station) : (s.silenceExpires ord cueFirst o).tableView.Lawful := by
  have hold : ∀ rs, ((s.setPresence o { s.link.stations[o] with present := false }).tellAll ord o rs).tableView.Lawful :=
    fun rs => State.tellAll_tableLawful (s := s.setPresence o _) h ord o rs
  unfold State.silenceExpires State.reportAbsence
  dsimp only
  split
  · split
    · exact hold _
    · split
      · rw [State.tableView_setOwed]; exact hold _
      · exact hold _
  · exact h

/-- A received frame whose block keeps the laws. -/
theorem State.receive_tableLawful {s : State} (h : s.tableView.Lawful) (o : Station) (b : Bool) {f : State → State}
    (hf : ∀ {u : State}, u.tableView.Lawful → o ≠ u.loader.station → (f u).tableView.Lawful) :
    (s.receive o b f).tableView.Lawful := by
  unfold State.receive
  split
  · split
    · exact h
    · exact h
  · rw [State.tableView_clashed]; exact h
  · next htaken =>
    refine hf (by rw [State.tableView_heard]; exact h) ?_
    rw [State.heard_loader]
    exact State.reception_taken_other htaken

/-- A received cue of a recipient of absence reports, with the report that may follow it. -/
theorem State.receiveCue_tableLawful {s : State} (h : s.tableView.Lawful) (r : Recipient) (o : Station) {f : State → State}
    (hf : ∀ {u : State}, u.tableView.Lawful → u.TableTakes o → (f u).tableView.Lawful) :
    (s.receive o false (State.whenTaken (State.takeCue r o f))).tableView.Lawful := by
  refine State.receive_tableLawful h o false fun {u} hu ho => ?_
  unfold State.whenTaken State.takeCue
  split
  · next htakes =>
    have htable : u.TableTakes o := ⟨ho, fun hs => by rw [State.takesCues, hs] at htakes; cases htakes⟩
    split
    · have hcue := hf (u := u.setOwed none) hu ⟨htable.other, htable.state⟩
      exact State.tellAbsence_tableLawful (s := (f (u.setOwed none)).drawn) hcue _ o r
    · exact hf hu htable
  · exact hu

/-! ### Node states (R82, R83, R139 to R145) -/

theorem State.enterActive_tableLawful {s : State} (h : s.tableView.Lawful) : s.enterActive.tableView.Lawful := by
  rw [State.enterActive, State.tableView_formNodeTarget, State.tableView_setNode]
  exact h.setState nofun

/-- The entry to DORMANT leaves no entries, no own values and no targets (R82, R87). -/
theorem State.enterDormant_tableLawful (s : State) {ord : List Channel} (hn : ord.Nodup) (hm : ∀ c, c ∈ ord) (b : Bool) :
    (s.enterDormant ord b).tableView.Lawful := by
  have hentry := (s.enterDormant_falls hn hm b).entry
  obtain ⟨hdip, hlink⟩ := hentry.targets
  exact State.tableLawful_of_empty hentry.table (fun g => (hentry.emission g).1) hdip hlink

theorem State.enterQuiet_tableLawful {s : State} (h : s.tableView.Lawful) {ord : List Channel} (hn : ord.Nodup)
    (hm : ∀ c, c ∈ ord) (b : Bool) : (s.enterQuiet ord b).tableView.Lawful := by
  unfold State.enterQuiet
  dsimp only
  split
  · exact State.enterDormant_tableLawful _ hn hm b
  · rw [State.tableView_formNodeTarget, State.tableView_setNode]
    exact h.setState nofun

theorem State.wake_tableLawful {s : State} (h : s.tableView.Lawful) (ord : List Channel) : (s.wake ord).tableView.Lawful := by
  have hwaking : s.enterWaking.tableView.Lawful := h.setState (state := .waking) nofun
  unfold State.wake
  dsimp only
  rw [State.tableView_evaluateTurns]
  show (s.enterWaking.settleSlots).tableView.Lawful
  rw [State.tableView_settleSlots]
  exact hwaking

theorem State.takeSleep_tableLawful {s : State} (h : s.tableView.Lawful) {ord : List Channel} (hn : ord.Nodup)
    (hm : ∀ c, c ∈ ord) (b : Bool) : (s.takeSleep ord b).tableView.Lawful := by
  unfold State.takeSleep
  split
  · exact State.enterQuiet_tableLawful h hn hm b
  · exact State.enterQuiet_tableLawful h hn hm b
  · exact h
  · exact h
  · exact h
  · exact h

theorem State.takeWake_tableLawful {s : State} (h : s.tableView.Lawful) (ord : List Channel) :
    (s.takeWake ord).tableView.Lawful := by
  unfold State.takeWake
  split
  · exact State.enterActive_tableLawful h
  · exact State.wake_tableLawful h ord
  · exact h
  · exact h
  · exact h
  · exact h

theorem State.settleExpires_tableLawful {s : State} (h : s.tableView.Lawful) : s.settleExpires.tableView.Lawful := by
  unfold State.settleExpires
  split
  · split
    · exact State.enterActive_tableLawful h
    · exact h
  · exact h

theorem State.linkSilenceExpires_tableLawful {s : State} (h : s.tableView.Lawful) {ord : List Channel} (hn : ord.Nodup)
    (hm : ∀ c, c ∈ ord) (b : Bool) : (s.linkSilenceExpires ord b).tableView.Lawful := by
  unfold State.linkSilenceExpires
  dsimp only
  split
  · split
    · exact State.enterQuiet_tableLawful (s := s.setNode { s.node with linkSilence := none }) h hn hm b
    · exact h
  · exact h

/-! ### Reset and start-up (R83, R89, R138, R158 to R161) -/

theorem State.resetTo_tableLawful {cause : ResetCause} {station : Station} {supply pin : Bool} {flash : FlashPower}
    {mosi : List Byte} {draws : Nat} {pending : List Instr} :
    (State.resetTo cause station supply pin flash mosi draws pending).tableView.Lawful :=
  (State.tableView_lawful_iff _).mpr ⟨State.tableLaw_resetTo, State.targetLaw_resetTo⟩

theorem State.assertReset_tableLawful (cause : ResetCause) (s : State) : (s.assertReset cause).tableView.Lawful := by
  rw [State.assertReset_eq]
  exact State.resetTo_tableLawful

theorem State.releaseReset_tableLawful {s : State} (h : s.tableView.Lawful) (straps : BitVec 4) :
    (s.releaseReset straps).tableView.Lawful := by
  rw [State.releaseReset_eq]
  split
  · exact State.resetTo_tableLawful
  · exact h

theorem State.enterHeld_tableLawful (s : State) (code : FaultCode) : (s.enterHeld code).tableView.Lawful := by
  have hheld := s.enterHeld_heldWith code
  have hslot : ∀ i, i ≠ .node → ((s.enterHeld code).slot i).target = 0 := fun i hi => by
    rw [hheld.slots, if_neg hi]; rfl
  exact State.tableLawful_of_empty hheld.table (fun g => (hheld.emission.1 g).1) (fun z k => hslot (.dip z k) nofun)
    fun g => hslot (.link g) nofun

theorem State.takeIdentification_tableLawful {s : State} (h : s.tableView.Lawful) (b0 b1 b2 : Byte) :
    (s.takeIdentification b0 b1 b2).tableView.Lawful := by
  unfold State.takeIdentification
  split
  · split
    · exact s.enterHeld_tableLawful _
    · exact h
  · exact h

theorem State.takeHeader_tableLawful {s : State} (h : s.tableView.Lawful) (header : List Byte) :
    (s.takeHeader header).tableView.Lawful := by
  unfold State.takeHeader
  split
  · split
    · exact h
    · exact s.enterHeld_tableLawful _
  · exact h

/-- In START the own values are 0, so that the hand-over, which sets the DIP and LINK slots to 0, leaves them right (R31,
R83, R89). -/
theorem State.handed_tableLawful {s : State} (h : s.tableView.Lawful) (hs : s.node.state = .start) (cfg : NodeConfig) :
    (s.handed cfg).tableView.Lawful := by
  obtain ⟨-, hdip, hlink⟩ := not_mem_startSlots
  have hown : s.emission.own = Vector.replicate 4 0 := (h.start hs).2
  refine State.tableLawful_of_empty ?_ (fun g => ?_) (fun z k => ?_) fun g => ?_
  · rw [State.handed_rest]; rfl
  · have hkept : (s.handed cfg).emission.own = s.emission.own := by rw [State.handed_rest]
    rw [hkept, hown]
    simp
  · rw [State.slot_handed, if_neg (hdip z k)]; rfl
  · rw [State.slot_handed, if_neg (hlink g)]; rfl

theorem State.takeImageRead_tableLawful {s : State} (h : s.tableView.Lawful) (ord : List Channel) (rest : List Byte) :
    (s.takeImageRead ord rest).tableView.Lawful := by
  unfold State.takeImageRead
  split
  · next hloading =>
    have hs : s.node.state = .start := by
      simp only [State.loading, Bool.and_eq_true, beq_iff_eq] at hloading
      exact hloading.1.2
    split
    · next cfg _ =>
      rw [State.handOver_eq, State.tableView_evaluateTurns]
      exact State.handed_tableLawful h hs cfg
    · exact s.enterHeld_tableLawful _
  · exact h

/-! ### Block completion (R27, R90) -/

/-- Whatever the order of step and retarget, the LINK target of each group is that of its own value (R27, R79, R90). -/
theorem State.stepAndUpdate_tableLawful {s : State} (h : s.tableView.Lawful) (hs : s.node.state ≠ .start)
    (b : Group → Bool) : (s.stepAndUpdate b).tableView.Lawful := by
  have hspec := s.stepAndUpdate_spec b
  generalize s.stepAndUpdate b = t at hspec
  have htable : t.table = s.table := by rw [hspec.rest]
  refine ⟨?_, fun z k => ?_, fun g => ?_, fun ht => ?_⟩
  · show TableSound t.loader.station t.table
    rw [hspec.rest]; exact h.table
  · show (t.slot (.dip z k)).target = dipTarget t.table z k
    rw [hspec.slots (.dip z k) nofun, State.stepped_target, htable]
    exact h.dip z k
  · show (t.slot (.link g)).target = linkTarget t.emission.own[g] t.table g
    obtain ⟨hsame, hchanged⟩ := hspec.links g
    rw [htable]
    by_cases hown : t.emission.own[g] = s.emission.own[g]
    · rw [hsame hown, TermSlot.step_target, hown]
      exact h.link g
    · rcases hchanged hown with hlate | hearly
      · rw [hlate, State.written_target]
      · rw [hearly, TermSlot.step_target, State.written_target]
  · have hstate : t.node.state = s.node.state := by rw [hspec.rest]
    exact absurd (hstate.symm.trans ht) hs

theorem State.dormantIfFaded_tableLawful {s : State} (h : s.tableView.Lawful) {ord : List Channel} (hn : ord.Nodup)
    (hm : ∀ c, c ∈ ord) (b : Bool) : (s.dormantIfFaded ord b).tableView.Lawful := by
  unfold State.dormantIfFaded
  split
  · exact s.enterDormant_tableLawful hn hm b
  · exact h

theorem State.completeBlock_tableLawful {s : State} (h : s.tableView.Lawful) (hs : s.node.state ≠ .start)
    (stepFirst : Group → Bool) (entryFirst clearFirst : Bool) {ord : List Channel} (hn : ord.Nodup) (hm : ∀ c, c ∈ ord) :
    (s.completeBlock stepFirst entryFirst clearFirst ord).tableView.Lawful := by
  have hcrossfades : ∀ u : State, (u.inTurn State.advanceCrossfade ord).tableView = u.tableView := fun u =>
    State.tableView_cacheStep (.inTurn (fun c x => .advanceCrossfade x c) ord u)
  unfold State.completeBlock
  dsimp only
  split
  · rw [State.tableView_blockStart]
    exact State.enterDormant_tableLawful _ hn hm clearFirst
  · rw [State.tableView_blockStart]
    refine State.dormantIfFaded_tableLawful ?_ hn hm clearFirst
    rw [hcrossfades, State.tableView_emit]
    exact State.stepAndUpdate_tableLawful h hs stepFirst

theorem State.takeCompletion_tableLawful {s : State} (h : s.tableView.Lawful) (stepFirst : Group → Bool)
    (entryFirst clearFirst : Bool) {ord : List Channel} (hn : ord.Nodup) (hm : ∀ c, c ∈ ord) :
    (s.takeCompletion stepFirst entryFirst clearFirst ord).tableView.Lawful := by
  unfold State.takeCompletion
  split
  · next hdue =>
    have hs : s.node.state ≠ .start := fun hs => by simp [State.paced, hs] at hdue
    exact State.completeBlock_tableLawful (s := s.setPorts { s.ports with blockDue := false }) h hs stepFirst entryFirst
      clearFirst hn hm
  · exact h

/-! ### The clock -/

/-- A millisecond of the lifetimes leaves keys, masks and depths (R75), so the targets too. -/
theorem State.advance_tableLawful {s : State} (h : s.tableView.Lawful) : s.advance.tableView.Lawful where
  table := h.table.map (fun _ => rfl) fun e he => h.table.entries e he
  dip z k := by
    show (s.slot (.dip z k)).target = dipTarget (s.table.map _) z k
    rw [dipTarget, List.foldl_map]
    exact h.dip z k
  link g := by
    show (s.slot (.link g)).target = linkTarget s.emission.own[g] (s.table.map _) g
    rw [linkTarget, List.foldl_map]
    exact h.link g
  start hs := by
    obtain ⟨htable, hown⟩ := h.start hs
    exact ⟨List.map_eq_nil_iff.mpr htable, hown⟩

theorem State.idle_tableLawful {s : State} (h : s.tableView.Lawful) : s.idle.tableView.Lawful := by
  unfold State.idle
  split
  · exact h
  · split
    · exact h
    · exact State.advance_tableLawful h

/-! ### The step -/

theorem State.exec_tableLawful {s t : State} (h : s.tableView.Lawful) (c : Instr) (ht : exec c s = .next t) :
    t.tableView.Lawful := by
  have hn := channelOrder_nodup s.draws
  have hm := mem_channelOrder s.draws
  have hd : s.drawn.tableView.Lawful := h
  have hkept : ∀ {u : State}, u.tableView = s.tableView → u.tableView.Lawful := fun hu => by rw [hu]; exact h
  cases c <;> obtain rfl := Host.Outcome.next.inj ht
  case resetAssert cause => exact s.assertReset_tableLawful cause
  case resetRelease straps => exact State.releaseReset_tableLawful h straps
  case releaseWaitEnd => exact hkept s.tableView_endReleaseWait
  case identificationRead b0 b1 b2 => exact State.takeIdentification_tableLawful h b0 b1 b2
  case imageHeaderRead header => exact State.takeHeader_tableLawful h header
  case imageRead rest => exact State.takeImageRead_tableLawful hd _ rest
  case frameSync interval slots => exact hkept (s.tableView_takeSync _ interval slots)
  case frameSyncGap => exact hkept s.tableView_takeGap
  case outputFrameTick => exact hkept s.tableView_outputTick
  case blockCompletion => exact State.takeCompletion_tableLawful hd _ _ _ hn hm
  case settleExpiry => exact State.settleExpires_tableLawful h
  case linkSilenceExpiry => exact State.linkSilenceExpires_tableLawful hd hn hm _
  case freshnessExpiry source => exact hkept (s.drawn.tableView_freshnessExpires _ source)
  case lifetimeExpiry key => exact State.lifetimeExpires_tableLawful h key
  case silenceExpiry station => exact State.silenceExpires_tableLawful hd _ _ station
  case latenessExpiry place => exact hkept (s.tableView_latenessExpires place)
  case silentExpiry => exact hkept s.tableView_silentExpires
  case sendingStart => exact hkept s.tableView_startSending
  case frameSent => exact hkept s.tableView_finishSending
  case contentionLost => exact hkept s.tableView_loseContention
  case transmitError => exact hkept (s.drawn.tableView_failSending _)
  case invalidFrame frame => exact hkept (s.tableView_discardInvalid frame)
  case imageCue origin zone stamp flags fields =>
    exact State.receiveCue_tableLawful hd .image origin fun {u} hu _ => by rw [State.tableView_takeImage]; exact hu
  case paceCue origin validity speed =>
    exact State.receiveCue_tableLawful hd .pace origin fun {u} hu _ => by rw [State.tableView_takePace]; exact hu
  case dipApply origin op masks depth hold =>
    exact State.receiveCue_tableLawful h .table origin fun hu ho => State.takeDipApply_tableLawful hu ho _
  case dipRelease origin op =>
    exact State.receiveCue_tableLawful h .table origin fun hu _ => State.takeDipRelease_tableLawful hu origin _
  case headroomCue origin v0 v1 v2 v3 code flags =>
    exact State.receiveCue_tableLawful h .table origin fun hu ho => State.takeHeadroom_tableLawful hu ho _
  case sleepCue origin => exact State.receive_tableLawful hd origin false fun hu _ => State.takeSleep_tableLawful hu hn hm _
  case wakeCue origin => exact State.receive_tableLawful hd origin true fun hu _ => State.takeWake_tableLawful hu _
  case queryCue origin target group index flags =>
    refine State.receive_tableLawful h origin false fun {u} hu _ => ?_
    unfold State.whenTaken
    split
    · rw [State.tableView_takeQuery]; exact hu
    · exact hu
  case reportFrame origin payload => exact State.receive_tableLawful h origin false fun hu _ => hu
  case fillStart => exact hkept s.tableView_startFill
  case fillCompletion record => exact hkept (s.drawn.tableView_finishFill _ record)
  case deepPowerDown => exact hkept s.tableView_powerDown

/-- Settles O58: the view of the two laws, kept by every command and by the clock. -/
theorem stepKeepsTableLaw : Obligations.StepKeepsTableLaw := by
  intro s t htable htargets hstep
  have h := s.tableView_lawful_iff.mpr ⟨htable, htargets⟩
  rw [← State.tableView_lawful_iff]
  unfold step at hstep
  split at hstep
  · obtain rfl := Host.Outcome.next.inj hstep
    exact State.idle_tableLawful h
  · next c rest _ => exact State.exec_tableLawful (s := { s with pending := rest }) h c hstep

end Sys2Proof.Machine
end

section
/-!
Single entries of the reduction table (R67, R68, R70 to R75): lifetime expiries, and dip and headroom cues at the table.
-/
namespace Sys2Proof.Machine

/-! ### Entries by their keys -/

theorem findEntry_eq_none_iff {key : EntryKey} {table : List Entry} :
    findEntry key table = none ↔ ∀ e ∈ table, e.key ≠ key := by
  simp [findEntry]

theorem removeEntry_eq_filter (key : EntryKey) (table : List Entry) :
    removeEntry key table = table.filter fun e => e.key ≠ key :=
  List.filter_congr fun e _ => by by_cases h : e.key = key <;> simp [h]

section
variable {before after : List Entry} {e : Entry} (hother : ∀ x ∈ before ++ after, x.key ≠ e.key)
include hother

theorem findEntry_middle : findEntry e.key (before ++ e :: after) = some e := by
  have hbefore : findEntry e.key before = none :=
    findEntry_eq_none_iff.mpr fun x hx => hother x (List.mem_append_left after hx)
  rw [findEntry, List.find?_append, show before.find? _ = none from hbefore]
  simp

theorem removeEntry_middle : removeEntry e.key (before ++ e :: after) = before ++ after := by
  have hkept : ∀ l : List Entry, (∀ x ∈ l, x.key ≠ e.key) → l.filter (fun x => x.key != e.key) = l := fun l hl =>
    List.filter_eq_self.mpr fun x hx => bne_iff_ne.mpr (hl x hx)
  rw [removeEntry, List.filter_append, List.filter_cons_of_neg (by simp), hkept before, hkept after]
  · exact fun x hx => hother x (List.mem_append_right before hx)
  · exact fun x hx => hother x (List.mem_append_left after hx)

end

/-- Settles O21: the entry found is the one removed, and the recomputation is made on the slots as they are. -/
theorem lifetimeExpiryRemovesTheEntry : Obligations.LifetimeExpiryRemovesTheEntry := by
  intro s before after e hr htable hother hlifetime
  have hexpired : s.entryExpired e.key = true := by
    rw [State.entryExpired, htable, findEntry_middle hother]
    exact beq_iff_eq.mpr hlifetime
  have hexec : exec (.lifetimeExpiry e.key) s = .next (s.setTable (before ++ after)).recomputeTargets := by
    rw [exec, execLifetimeExpiry, State.lifetimeExpires, hr, hexpired, State.expireEntry, htable,
      removeEntry_middle hother]
    rfl
  refine ⟨_, hexec, ?_, State.recomputeTargets_retargets rfl⟩
  exact State.recomputeTargets_ramp (s.setTable (before ++ after))

/-! ### Dip cues (R70 to R72) -/

theorem State.releaseDip_found {s : State} {o : Station} {id : Fin 8} (h : ∃ e ∈ s.table, e.key = .dip o id) :
    s.releaseDip o id = (s.setTable (s.table.filter fun e => e.key ≠ .dip o id)).recomputeTargets := by
  rw [State.releaseDip, removeEntry_eq_filter]
  split
  · next hnone =>
    obtain ⟨e, he, hkey⟩ := h
    exact absurd hkey (findEntry_eq_none_iff.mp hnone e he)
  · rfl

theorem State.releaseDip_absent {s : State} {o : Station} {id : Fin 8} (h : ∀ e ∈ s.table, e.key ≠ .dip o id) :
    s.releaseDip o id = s := by
  rw [State.releaseDip, findEntry_eq_none_iff.mpr h]

/-- A dip cue of one payload byte: its operation must be RELEASE (R70). -/
theorem State.exec_dipRelease {s : State} {o : Station} {op : Byte} {id : Fin 8} (h : s.TakesAt o .table)
    (hid : id.val = op.toNat % 8) : exec (.dipRelease o op) s = .next
      (if op.toNat / 16 = 2 then (s.heard o).releaseDip o id else (s.heard o).countLink .formatErrors) := by
  rw [exec, execDipRelease, State.receive_cue h, State.takeDipRelease]
  simp only [show byteAt [op] 0 = op from rfl, dipOp_iff, dipId_eq op id hid]

/-- Settles O38: a present entry removed and the targets recomputed, an absent one left, another operation counted. -/
theorem dipReleaseRemovesTheEntry : Obligations.DipReleaseRemovesTheEntry := by
  intro s o op id h hid
  have hexec := State.exec_dipRelease h hid
  have htable : (s.heard o).table = s.table := State.heard_table s o
  refine ⟨fun hop hpresent => ?_, fun hop habsent => ?_, fun hop => ?_⟩
  · have hrelease := State.releaseDip_found (s := s.heard o) (htable ▸ hpresent)
    rw [htable] at hrelease
    refine ⟨_, by rw [hexec, if_pos hop], rfl, ?_, ?_⟩
    · rw [hrelease]
      exact State.recomputeTargets_ramp _
    · rw [hrelease]
      exact State.recomputeTargets_retargets (State.heard_ramp s o)
  · have hrelease := State.releaseDip_absent (s := s.heard o) (htable ▸ habsent)
    exact ⟨by rw [hexec, if_pos hop, hrelease], hrelease⟩
  · rw [hexec, if_neg hop]

/-- A dip cue of five payload bytes: its operation must be APPLY (R70). -/
theorem State.exec_dipApply {s : State} {o : Station} {op hi lo : Byte} {id : Fin 8} (h : s.TakesAt o .table)
    (hid : id.val = op.toNat % 8) (masks hold : Byte) : exec (.dipApply o op masks (hi, lo) hold) s = .next
      (if op.toNat / 16 = 1 then (s.heard o).applyDip o id (masks.extractLsb' 0 4) (masks.extractLsb' 4 4)
        (hi.toNat * 256 + lo.toNat) hold
      else (s.heard o).countLink .formatErrors) := by
  have hdepth : (halfAt [op, masks, hi, lo, hold] 2).toNat = hi.toNat * 256 + lo.toNat := by
    rw [show halfAt [op, masks, hi, lo, hold] 2 = hi ++ lo from rfl, append_toNat]
    omega
  rw [exec, execDipApply, State.receive_cue h, State.takeDipApply, hdepth]
  simp only [show byteAt [op, masks, hi, lo, hold] 0 = op from rfl, show byteAt [op, masks, hi, lo, hold] 1 = masks from rfl,
    show byteAt [op, masks, hi, lo, hold] 4 = hold from rfl, dipOp_iff, dipId_eq op id hid]

/-- The entry that a dip cue asks for (R71). -/
def dipEntry (o : Station) (id : Fin 8) (zones classes : BitVec 4) (depth : Nat) (hold : Byte) : Entry where
  key := .dip o id
  zones := zones
  classes := classes
  depth := min depth 1600
  lifetime := if hold = 0#8 then none else some (hold.toNat * 100)

theorem State.applyDip_nothing {depth : Nat} {zones classes : BitVec 4} (h : depth = 0 ∨ zones = 0#4 ∨ classes = 0#4)
    (o : Station) (id : Fin 8) (hold : Byte) (s : State) :
    s.applyDip o id zones classes depth hold = s.releaseDip o id := if_pos h

theorem State.applyDip_something {depth : Nat} {zones classes : BitVec 4} (hd : depth ≠ 0) (hz : zones ≠ 0#4)
    (hc : classes ≠ 0#4) (o : Station) (id : Fin 8) (hold : Byte) (s : State) : s.applyDip o id zones classes depth hold =
      (s.putEntry (dipEntry o id zones classes depth hold)).recomputeTargets :=
  if_neg (by simp only [hd, hz, hc, or_self, not_false_eq_true])

/-- An entry written and the targets recomputed, from the slots of `s` (R68, R80). -/
theorem State.putEntry_recompute {s u : State} (hramp : u.ramp = s.ramp) (e : Entry) : ∃ (t : State) (refused : Bool),
    (u.putEntry e).recomputeTargets = t ∧
    t = { (if refused = true then u.countLink .reductionsRefused else u) with table := t.table, ramp := t.ramp } ∧
    EntryTaken e u.table t.table refused ∧ s.Retargeted t := by
  obtain ⟨refused, htaken, hput⟩ := State.putEntry_spec e u
  have hrecomputed := State.recomputeTargets_ramp (u.putEntry e)
  have hretargets := State.recomputeTargets_retargets (s := s) (u := u.putEntry e) (by rw [State.putEntry_rest, hramp])
  generalize (u.putEntry e).recomputeTargets = t at hrecomputed hretargets
  refine ⟨t, refused, rfl, ?_, ?_, hretargets⟩
  · rw [hrecomputed, hput]
  · rw [hrecomputed]; exact htaken

/-- Settles O37: an APPLY with something to apply writes its entry, one with nothing releases, another operation is
counted. -/
theorem dipApplyWritesTheEntry : Obligations.DipApplyWritesTheEntry := by
  intro s o op masks hi lo hold depth id h hid hdepth
  have hexec := State.exec_dipApply (hi := hi) (lo := lo) h hid masks hold
  rw [← hdepth] at hexec
  refine ⟨fun hop hd hz hc => ?_, fun hop hnothing => ?_, fun hop => ?_⟩
  · obtain ⟨t, refused, ht, hrest, htaken, hretargets⟩ := State.putEntry_recompute (State.heard_ramp s o)
      (dipEntry o id (masks.extractLsb' 0 4) (masks.extractLsb' 4 4) depth hold)
    rw [State.heard_table] at htaken
    exact ⟨t, refused, by rw [hexec, if_pos hop, State.applyDip_something hd hz hc, ht], hrest, htaken, hretargets⟩
  · rw [hexec, if_pos hop, State.applyDip_nothing hnothing]
  · rw [hexec, if_neg hop]

/-! ### Headroom cues (R73) -/

/-- A LINK counter after an event is counted, outside DORMANT (R162). -/
theorem State.counter_countLink {s : State} (hd : s.dormant = false) (k : LinkCounter) (i : Fin 12) :
    (s.countLink k).stats.link[i] = if i = k.index then bump s.stats.link[i] else s.stats.link[i] := by
  simp only [State.countLink, hd, Bool.false_eq_true, if_false]
  by_cases hi : i = k.index
  · subst hi; simp
  · have hv : (k.index : Nat) ≠ i := fun e => hi (Fin.ext e.symm)
    simp [hi, hv]

/-- The table of `s` has met entries, of which `n` were refused and counted; nothing else has changed (R68, R162). -/
structure State.Refused (n : Nat) (s t : State) : Prop where
  rest    : t = { s with table := t.table, stats := { s.stats with link := t.stats.link } }
  others  : ∀ i : Fin 12, i ≠ LinkCounter.reductionsRefused.index → t.stats.link[i] = s.stats.link[i]
  counted : s.stats.link[7] ≤ 65535 → t.stats.link[7] = min 65535 (s.stats.link[7] + n)

theorem State.Refused.trans {m n : Nat} {s t u : State} (h : s.Refused m t) (k : t.Refused n u) : s.Refused (m + n) u where
  rest := by rw [k.rest, h.rest]
  others i hi := (k.others i hi).trans (h.others i hi)
  counted hs := by
    have ht := h.counted hs
    have hu := k.counted (by omega)
    omega

/-- A group value of a headroom cue at the table, refused or not (R73). -/
theorem State.applyGroup_refused {s : State} (hd : s.dormant = false) (o : Station) (g : Group) (v : Nat) :
    ∃ r, GroupTaken o g v s.table (s.applyGroup o g v).table r ∧ State.Refused r.toNat s (s.applyGroup o g v) := by
  obtain ⟨r, htaken, hrest⟩ := State.applyGroup_spec o g v s
  generalize s.applyGroup o g v = t at htaken hrest
  refine ⟨r, htaken, ?_⟩
  cases r with
  | false =>
    have hstats : t.stats = s.stats := by rw [hrest]; rfl
    refine ⟨by rw [hrest]; rfl, fun i _ => by rw [hstats], fun hs => ?_⟩
    rw [hstats, Bool.toNat_false]
    omega
  | true =>
    have hcounter : ∀ i : Fin 12, t.stats.link[i] =
        if i = LinkCounter.reductionsRefused.index then bump s.stats.link[i] else s.stats.link[i] := fun i => by
      rw [← State.counter_countLink hd, hrest]; rfl
    refine ⟨by rw [hrest, if_pos rfl, State.countLink_rest], fun i hi => by rw [hcounter, if_neg hi], fun hs => ?_⟩
    rw [show t.stats.link[7] = bump s.stats.link[7] from hcounter 7, Bool.toNat_true, bump]
    split <;> omega

theorem State.Refused.dormant {n : Nat} {s t : State} (h : s.Refused n t) : t.dormant = s.dormant := by
  rw [h.rest]; rfl

theorem State.TakesAt.dormant {s : State} {o : Station} {r : Recipient} (h : s.TakesAt o r) : s.dormant = false := by
  have htakes := h.state
  unfold State.takesCues at htakes
  unfold State.dormant
  cases hs : s.node.state <;> simp_all

/-- Of the LINK counters a frame heard raises its own alone (R154). -/
theorem State.counter_heard {s : State} (hd : s.dormant = false) (o : Station) {i : Fin 12}
    (hi : i ≠ LinkCounter.framesHeard.index) : (s.heard o).stats.link[i] = s.stats.link[i] := by
  rw [State.heard_rest]
  exact (State.counter_countLink hd .framesHeard i).trans (if_neg hi)

/-- A headroom cue reaches the table with its four values, most significant bytes first (R73, R167). -/
theorem State.exec_headroomCue {s : State} {o : Station} (h : s.TakesAt o .table)
    (h0 l0 h1 l1 h2 l2 h3 l3 code flags : Byte) :
    exec (.headroomCue o (h0, l0) (h1, l1) (h2, l2) (h3, l3) code flags) s = .next
      (((((s.heard o).applyGroup o 0 (h0.toNat * 256 + l0.toNat)).applyGroup o 1 (h1.toNat * 256 + l1.toNat)).applyGroup
        o 2 (h2.toNat * 256 + l2.toNat)).applyGroup o 3 (h3.toNat * 256 + l3.toNat)).recomputeTargets := by
  have hvalue : ∀ hi lo : Byte, (hi ++ lo : Half).toNat = hi.toNat * 256 + lo.toNat := fun hi lo => by
    rw [append_toNat]; omega
  rw [exec, execHeadroomCue, State.receive_cue h, ← hvalue, ← hvalue, ← hvalue, ← hvalue]
  rfl

/-- Settles O39: the four values at the table one after the other, the refusals added up, and one recomputation. -/
theorem headroomCueWritesFourEntries : Obligations.HeadroomCueWritesFourEntries := by
  intro s o h0 l0 h1 l1 h2 l2 h3 l3 code flags h
  have hexec := State.exec_headroomCue h h0 l0 h1 l1 h2 l2 h3 l3 code flags
  have hd : (s.heard o).dormant = false := (State.heard_dormant s o).trans h.dormant
  obtain ⟨r0, taken0, refused0⟩ := State.applyGroup_refused hd o 0 (h0.toNat * 256 + l0.toNat)
  obtain ⟨r1, taken1, refused1⟩ := State.applyGroup_refused (refused0.dormant.trans hd) o 1 (h1.toNat * 256 + l1.toNat)
  have refused01 := refused0.trans refused1
  obtain ⟨r2, taken2, refused2⟩ := State.applyGroup_refused (refused01.dormant.trans hd) o 2 (h2.toNat * 256 + l2.toNat)
  have refused02 := refused01.trans refused2
  obtain ⟨r3, taken3, refused3⟩ := State.applyGroup_refused (refused02.dormant.trans hd) o 3 (h3.toNat * 256 + l3.toNat)
  have refused := refused02.trans refused3
  rw [State.heard_table] at taken0
  generalize ((((s.heard o).applyGroup o 0 _).applyGroup o 1 _).applyGroup o 2 _).applyGroup o 3 _ = u at *
  have hrest := State.recomputeTargets_ramp u
  have hretargets := State.recomputeTargets_retargets (s := s) (u := u) (by rw [refused.rest, State.heard_ramp])
  generalize u.recomputeTargets = t at hexec hrest hretargets
  have htable : t.table = u.table := by rw [hrest]
  have hstats : t.stats = u.stats := by rw [hrest]
  have hheard : (s.heard o).stats.link[7] = s.stats.link[7] := State.counter_heard (i := 7) h.dormant o (by decide)
  rw [← htable] at taken3
  refine ⟨t, _, _, _, r0, r1, r2, r3, hexec, taken0, taken1, taken2, taken3, hretargets, ?_, fun i hi => ?_, fun hs => ?_⟩
  · rw [hrest, refused.rest]
  · rw [hstats]; exact refused.others i hi
  · rw [hstats, refused.counted (hheard ▸ hs), hheard]
    omega

end Sys2Proof.Machine
end

section
/-!
The item table of the statistics block (R84, R164, R166, R167): which queries have an answer, how its values are cut into
frames, and how each value is encoded.
-/
namespace Sys2Proof.Machine

/-! ### Values in two bytes (R166, R167) -/

theorem flatMap_reportNat (values : List Nat) : (values.map reportNat).flatMap halfBytes = values.flatMap twoBytes := by
  rw [List.flatMap_map]
  exact List.flatMap_congr fun v _ => halfBytes_ofNat v

theorem reportInt_eq (v : Int) : reportInt v = reportNat (v % 65536).toNat := by
  apply BitVec.eq_of_toNat_eq
  rw [reportInt, reportNat, BitVec.toNat_ofInt, BitVec.toNat_ofNat]
  omega

/-- A byte as a report value. -/
theorem reportNat_byte (b : Byte) : (0#8 ++ b : Half) = reportNat b.toNat := by
  apply BitVec.eq_of_toNat_eq
  rw [append_toNat, reportNat, BitVec.toNat_ofNat, BitVec.toNat_ofNat]
  omega

/-- The flags byte has the flags at their places (R167). -/
theorem State.flagsByte_flags (s : State) : s.FlagsAre s.flagsByte := by
  have hbits : ∀ a b c d e : Bool,
      let byte := 0#3 ++ BitVec.ofBool a ++ BitVec.ofBool b ++ BitVec.ofBool c ++ BitVec.ofBool d ++ BitVec.ofBool e
      byte[0] = e ∧ byte[1] = d ∧ byte[2] = c ∧ byte[3] = b ∧ byte[4] = a ∧ byte[5] = false ∧ byte[6] = false ∧
        byte[7] = false := by decide
  obtain ⟨hclash, hsilent, hlibrary, hconfig, haudio, hreserved⟩ :=
    hbits s.flagAudioLost s.flagConfigFault s.flagLibraryFault s.flagSilent s.link.clash
  refine ⟨?_, ?_, ?_, ?_, ?_, hreserved⟩
  · exact iff_of_eq (congrArg (· = true) hclash)
  · rw [State.flagsByte, hsilent, State.flagSilent, Option.isSome_iff_ne_none]
  · rw [State.flagsByte, hlibrary, State.flagLibraryFault, beq_iff_eq]
  · rw [State.flagsByte, hconfig, State.flagConfigFault, Bool.and_eq_true, beq_iff_eq, bne_iff_ne]
  · rw [State.flagsByte, haudio, State.flagAudioLost, beq_iff_eq]

theorem State.length_stateValues (s : State) : s.stateValues.length = 8 := rfl

theorem State.length_zoneValues (s : State) (z : Zone) : (s.zoneValues z).length = 7 := rfl

/-- The values of item group STATE are a report of it (R164, R167). -/
theorem State.stateValues_report (s : State) : ∃ values, s.StateReport values ∧ s.stateValues = values.map reportNat := by
  have hnode : ∀ x : NodeState, (x, x.code) ∈ ([(.start, 0), (.held, 1), (.waking, 2), (.active, 3), (.quiet, 4),
      (.dormant, 5)] : List (NodeState × Nat)) := fun x => by cases x <;> decide
  have hcause : ∀ x : ResetCause, (x, causeCode x) ∈ ([(.powerOn, 0), (.pin, 1)] : List (ResetCause × Nat)) :=
    fun x => by cases x <;> decide
  have hlibrary : ∀ x : LibraryState, (x, x.code) ∈ ([(.absent, 0), (.ready, 1), (.faulty, 2)] :
      List (LibraryState × Nat)) := fun x => by cases x <;> decide
  have hspeed : ∀ x : SpeedState, (x, x.code) ∈ ([(.noSpeed, 0), (.primary, 1), (.secondary, 2), (.hold, 3)] :
      List (SpeedState × Nat)) := fun x => by cases x <;> decide
  have hfault : ∀ x : FaultCode, (x, x.code) ∈ ([(.noFault, 0), (.noMemory, 1), (.badSignature, 2), (.badLength, 3),
      (.badCheck, 4), (.badRange, 5), (.badLaw, 6), (.badCurve, 7), (.badRamp, 8)] : List (FaultCode × Nat)) :=
    fun x => by cases x <;> decide
  refine ⟨_, ⟨_, _, _, _, _, _, rfl, hnode _, hcause _, hlibrary _, hspeed _, hfault _, s.flagsByte_flags⟩, ?_⟩
  rw [State.stateValues, reportNat_byte]
  rfl

theorem State.zoneValues_report (s : State) (z : Zone) : s.zoneValues z = (s.zoneReport z).map reportNat := by
  simp only [State.zoneValues, State.zoneReport, reportInt_eq, List.map_cons, List.map_nil]

theorem entryValues_eq (e : Entry) : entryValues e =
    [entryHead e.key, reportNat e.depth, entryMasks e, reportNat (e.lifetime.getD 0xFFFF)] := by
  unfold entryValues
  cases e.lifetime <;> rfl

theorem entryMasks_dip {e : Entry} {o : Station} {i : Fin 8} (h : e.key = .dip o i) :
    entryMasks e = reportNat (16 * e.classes.toNat + e.zones.toNat) := by
  apply BitVec.eq_of_toNat_eq
  simp only [entryMasks, h]
  rw [append_toNat, append_toNat, reportNat, BitVec.toNat_ofNat, BitVec.toNat_ofNat]
  omega

theorem entryMasks_link {e : Entry} {o : Station} {g : Group} (h : e.key = .link o g) : entryMasks e = reportNat 0 := by
  simp only [entryMasks, h]
  rfl

/-- The values of a reduction entry are a report of it (R84, R164, R167). -/
theorem entryValues_report (e : Entry) : ∃ values, e.Report values ∧ entryValues e = values.map reportNat := by
  rw [entryValues_eq]
  cases hkey : e.key with
  | link o g =>
    refine ⟨_, ⟨256 * o.val + g.val, 0, rfl, fun _ _ h => ?_, fun _ _ h => ?_⟩, ?_⟩
    · rw [hkey] at h; cases h; exact ⟨rfl, rfl⟩
    · rw [hkey] at h; cases h
    · rw [entryMasks_link hkey]; rfl
  | dip o i =>
    refine ⟨_, ⟨32768 + 256 * o.val + i.val, 16 * e.classes.toNat + e.zones.toNat, rfl, fun _ _ h => ?_,
      fun _ _ h => ?_⟩, ?_⟩
    · rw [hkey] at h; cases h
    · rw [hkey] at h; cases h; exact ⟨rfl, rfl⟩
    · rw [entryMasks_dip hkey]; rfl

/-! ### Frames (R164) -/

/-- Values cut into frames: four in every frame but the last, which carries one to four. -/
inductive CutInFours : List (List Half) → Prop
  | nil : CutInFours []
  | last {values : List Half} : 1 ≤ values.length → values.length ≤ 4 → CutInFours [values]
  | cons {values : List Half} {frames : List (List Half)} :
      values.length = 4 → CutInFours frames → CutInFours (values :: frames)

theorem CutInFours.length_getElem {frames : List (List Half)} (h : CutInFours frames) {i : Nat} {values : List Half}
    (hi : frames[i]? = some values) :
    1 ≤ values.length ∧ values.length ≤ 4 ∧ (i + 1 < frames.length → values.length = 4) := by
  induction h generalizing i with
  | nil => cases hi
  | last hlow hhigh =>
    cases i with
    | zero => obtain rfl := Option.some.inj hi; exact ⟨hlow, hhigh, fun hlt => absurd hlt (Nat.lt_irrefl 1)⟩
    | succ i => cases hi
  | cons hfour _ ih =>
    cases i with
    | zero => obtain rfl := Option.some.inj hi; omega
    | succ i =>
      obtain ⟨hlow, hhigh, hwhole⟩ := ih hi
      exact ⟨hlow, hhigh, fun hlt => hwhole (Nat.lt_of_succ_lt_succ hlt)⟩

/-- Fewer than four values remain for the last frame. -/
theorem length_of_noFour {rest : List Half} (hnil : rest = [] → False)
    (hfour : ∀ a b c d more, rest = a :: b :: c :: d :: more → False) : 1 ≤ rest.length ∧ rest.length ≤ 3 := by
  match rest, hnil, hfour with
  | [], hnil, _ => exact (hnil rfl).elim
  | [_], _, _ => simp
  | [_, _], _, _ => simp
  | [_, _, _], _, _ => simp
  | a :: b :: c :: d :: more, _, hfour => exact (hfour a b c d more rfl).elim

theorem cutInFours_inFours (values : List Half) : CutInFours (inFours values) := by
  fun_induction inFours values with
  | case1 => exact .nil
  | case2 a b c d rest ih => exact .cons rfl ih
  | case3 rest hnil hfour =>
    obtain ⟨hlow, hhigh⟩ := length_of_noFour hnil hfour
    exact .last hlow (by omega)

theorem flatten_inFours (values : List Half) : (inFours values).flatten = values := by
  fun_induction inFours values with
  | case1 => rfl
  | case2 a b c d rest ih => rw [List.flatten_cons, ih]; rfl
  | case3 rest _ _ => rw [List.flatten_cons, List.flatten_nil, List.append_nil]

theorem length_inFours (values : List Half) : (inFours values).length = (values.length + 3) / 4 := by
  fun_induction inFours values with
  | case1 => rfl
  | case2 a b c d rest ih =>
    simp only [List.length_cons, ih]
    omega
  | case3 rest hnil hfour =>
    obtain ⟨hlow, hhigh⟩ := length_of_noFour hnil hfour
    rw [List.length_singleton]
    omega

theorem cutInFours_entries (table : List Entry) : CutInFours (table.map entryValues) := by
  induction table with
  | nil => exact .nil
  | cons e table ih => exact .cons rfl ih

/-- The frames of a REDUCTION answer: the entries at up to four positions, or the entry count (R84, R164). -/
theorem reductionFrames_entries {table : List Entry} {i : Nat} (h : i < table.length) :
    reductionFrames table i = (entriesFrom table i).map entryValues := by
  unfold reductionFrames
  split
  · next hnone =>
    rw [entriesFrom, List.take_eq_nil_iff, List.drop_eq_nil_iff] at hnone
    omega
  · rfl

theorem reductionFrames_count {table : List Entry} {i : Nat} (h : table.length ≤ i) :
    reductionFrames table i = [[reportNat table.length]] := by
  rw [reductionFrames, entriesFrom, List.drop_eq_nil_of_le h]
  rfl

theorem getElem?_entriesFrom {table : List Entry} {i n : Nat} {e : Entry} (h : (entriesFrom table i)[n]? = some e) :
    table[i + n]? = some e := by
  rw [entriesFrom, List.getElem?_take] at h
  split at h
  · rwa [List.getElem?_drop] at h
  · cases h

theorem cutInFours_reductionFrames (table : List Entry) (i : Nat) : CutInFours (reductionFrames table i) := by
  rcases Nat.lt_or_ge i table.length with h | h
  · rw [reductionFrames_entries h]; exact cutInFours_entries _
  · rw [reductionFrames_count h]; exact .last le_rfl (by simp)

theorem length_reductionFrames (table : List Entry) (i : Nat) :
    1 ≤ (reductionFrames table i).length ∧ (reductionFrames table i).length ≤ 4 := by
  rcases Nat.lt_or_ge i table.length with h | h
  · rw [reductionFrames_entries h, List.length_map, entriesFrom, List.length_take, List.length_drop]
    omega
  · rw [reductionFrames_count h]
    simp

/-! ### The item table (R163, R164) -/

/-- The answers of a node, frame by frame, by item group and index. -/
inductive State.Answers (s : State) : Nat → Nat → List (List Half) → Prop
  | state : s.Answers 0 0 (inFours s.stateValues)
  | link : s.Answers 1 0 (inFours (s.stats.link.toList.map reportNat))
  | channel (c : Channel) : s.Answers 2 c.val (inFours (s.stats.channel[c].toList.map reportNat))
  | cacheAudio : s.Answers 3 0 (inFours (s.stats.cacheAudio.toList.map reportNat))
  | reduction {i : Nat} : i < 24 → s.Answers 4 i (reductionFrames s.table i)
  | zone (z : Zone) : s.Answers 5 z.val (inFours (s.zoneValues z))

theorem State.answerValues_eq_some_iff (s : State) (g i : Nat) (frames : List (List Half)) :
    s.answerValues g i = some frames ↔ s.Answers g i frames := by
  constructor
  · intro h
    unfold State.answerValues at h
    split at h
    · split at h
      · next hi => obtain rfl := Option.some.inj h; subst hi; exact .state
      · cases h
    · split at h
      · next hi => obtain rfl := Option.some.inj h; subst hi; exact .link
      · cases h
    · split at h
      · next hi => obtain rfl := Option.some.inj h; exact .channel ⟨i, hi⟩
      · cases h
    · split at h
      · next hi => obtain rfl := Option.some.inj h; subst hi; exact .cacheAudio
      · cases h
    · split at h
      · next hi => obtain rfl := Option.some.inj h; exact .reduction hi
      · cases h
    · split at h
      · next hi => obtain rfl := Option.some.inj h; exact .zone ⟨i, hi⟩
      · cases h
    · cases h
  · intro h
    cases h with
    | state => rfl
    | link => rfl
    | channel c => exact dif_pos c.isLt
    | cacheAudio => rfl
    | reduction hi => exact if_pos hi
    | zone z => exact dif_pos z.isLt

/-- A query has an answer exactly for the groups and indices of the item table. -/
theorem State.exists_answers_iff (s : State) (g i : Nat) : (∃ frames, s.Answers g i frames) ↔
    (g ∈ [0, 1, 3] ∧ i = 0) ∨ (g = 2 ∧ i < 8) ∨ (g = 4 ∧ i < 24) ∨ (g = 5 ∧ i < 4) := by
  constructor
  · rintro ⟨frames, h⟩
    cases h with
    | state => exact .inl ⟨by decide, rfl⟩
    | link => exact .inl ⟨by decide, rfl⟩
    | channel c => exact .inr (.inl ⟨rfl, c.isLt⟩)
    | cacheAudio => exact .inl ⟨by decide, rfl⟩
    | reduction hi => exact .inr (.inr (.inl ⟨rfl, hi⟩))
    | zone z => exact .inr (.inr (.inr ⟨rfl, z.isLt⟩))
  · rintro (⟨hg, rfl⟩ | ⟨rfl, hi⟩ | ⟨rfl, hi⟩ | ⟨rfl, hi⟩)
    · simp only [List.mem_cons, List.not_mem_nil, or_false] at hg
      rcases hg with rfl | rfl | rfl
      · exact ⟨_, .state⟩
      · exact ⟨_, .link⟩
      · exact ⟨_, .cacheAudio⟩
    · exact ⟨_, .channel ⟨i, hi⟩⟩
    · exact ⟨_, .reduction hi⟩
    · exact ⟨_, .zone ⟨i, hi⟩⟩

theorem State.Answers.cutInFours {s : State} {g i : Nat} {frames : List (List Half)} (h : s.Answers g i frames) :
    CutInFours frames := by
  cases h with
  | reduction _ => exact cutInFours_reductionFrames _ _
  | _ => exact cutInFours_inFours _

/-- An answer has one to four frames. -/
theorem State.Answers.length {s : State} {g i : Nat} {frames : List (List Half)} (h : s.Answers g i frames) :
    1 ≤ frames.length ∧ frames.length ≤ 4 := by
  cases h with
  | reduction _ => exact length_reductionFrames _ _
  | _ => simp [length_inFours, State.stateValues, State.zoneValues]

/-! ### Report payloads (R164, R167) -/

/-- The bytes of the part number and the part count, four bits each. -/
theorem partByte (part count : Nat) (h : count < 16) :
    (BitVec.ofNat 4 part ++ BitVec.ofNat 4 count : Byte) = BitVec.ofNat 8 (16 * part + count) := by
  apply BitVec.eq_of_toNat_eq
  rw [append_toNat, BitVec.toNat_ofNat, BitVec.toNat_ofNat, BitVec.toNat_ofNat]
  omega

theorem length_flatMap_halfBytes (values : List Half) : (values.flatMap halfBytes).length = 2 * values.length := by
  induction values with
  | nil => rfl
  | cons v values ih =>
    rw [List.flatMap_cons, List.length_append, ih, List.length_cons]
    simp only [halfBytes, List.length_cons, List.length_nil]
    omega

theorem length_reportPayload (group index : Byte) (part count : Nat) (values : List Half) :
    (reportPayload group index part count values).length = 3 + 2 * values.length := by
  rw [reportPayload, List.length_append, length_flatMap_halfBytes]
  rfl

theorem drop_reportPayload (group index : Byte) (part count : Nat) (values : List Half) :
    (reportPayload group index part count values).drop 3 = values.flatMap halfBytes := rfl

theorem length_reportPayloads (group index : Byte) (count part : Nat) (frames : List (List Half)) :
    (reportPayloads group index count part frames).length = frames.length := by
  induction frames generalizing part with
  | nil => rfl
  | cons values frames ih => rw [reportPayloads, List.length_cons, ih, List.length_cons]

theorem getElem?_reportPayloads (group index : Byte) (count part : Nat) (frames : List (List Half)) (i : Nat) :
    (reportPayloads group index count part frames)[i]? =
      frames[i]?.map (reportPayload group index (part + i) count) := by
  induction frames generalizing part i with
  | nil => rfl
  | cons values frames ih =>
    cases i with
    | zero => rfl
    | succ i =>
      rw [reportPayloads, List.getElem?_cons_succ, List.getElem?_cons_succ, ih, Nat.add_right_comm, Nat.add_assoc]

theorem flatMap_drop_reportPayloads (group index : Byte) (count part : Nat) (frames : List (List Half)) :
    (reportPayloads group index count part frames).flatMap (List.drop 3) = frames.flatten.flatMap halfBytes := by
  induction frames generalizing part with
  | nil => rfl
  | cons values frames ih =>
    rw [reportPayloads, List.flatMap_cons, ih, drop_reportPayload, List.flatten_cons, List.flatMap_append]

/-! ### Answers (R163, R164) -/

/-- The answer of a query: the frames of the item table, each a report payload. -/
theorem State.answer_eq_some_iff (s : State) (group index : Byte) (payloads : List (List Byte)) :
    s.answer group index = some payloads ↔ ∃ frames, s.Answers group.toNat index.toNat frames ∧
      payloads = reportPayloads group index frames.length 1 frames := by
  rw [State.answer, Option.map_eq_some_iff]
  exact exists_congr fun frames => and_congr (s.answerValues_eq_some_iff _ _ frames) eq_comm

theorem State.answer_eq_none_iff (s : State) (group index : Byte) :
    s.answer group index = none ↔ ¬ ∃ frames, s.Answers group.toNat index.toNat frames := by
  rw [State.answer, Option.map_eq_none_iff, Option.eq_none_iff_forall_ne_some, not_exists]
  exact forall_congr' fun frames => not_congr (s.answerValues_eq_some_iff _ _ frames)

/-- The payloads of an answer carry its values in order. -/
theorem flatMap_drop_inFours (group index : Byte) (count : Nat) (values : List Nat) :
    (reportPayloads group index count 1 (inFours (values.map reportNat))).flatMap (List.drop 3) =
      values.flatMap twoBytes := by
  rw [flatMap_drop_reportPayloads, flatten_inFours, flatMap_reportNat]

/-- Each payload of an answer has its heading, and four values where it is not the last (R164, R167). -/
theorem State.Answers.payload {s : State} {g i : Nat} {frames : List (List Half)} (h : s.Answers g i frames)
    {group index : Byte} {n : Nat} {p : List Byte}
    (hp : (reportPayloads group index frames.length 1 frames)[n]? = some p) :
    p.take 3 = [group, index, BitVec.ofNat 8 (16 * (n + 1) + frames.length)] ∧ p.length ∈ [5, 7, 9, 11] ∧
      (n + 1 < frames.length → p.length = 11) := by
  obtain ⟨-, hcount⟩ := h.length
  rw [getElem?_reportPayloads, Option.map_eq_some_iff] at hp
  obtain ⟨values, hvalues, rfl⟩ := hp
  obtain ⟨hlow, hhigh, hwhole⟩ := h.cutInFours.length_getElem hvalues
  rw [length_reportPayload]
  refine ⟨?_, ?_, fun hlt => by rw [hwhole hlt]⟩
  · rw [← partByte _ _ (by omega), Nat.add_comm n 1]
    rfl
  · simp only [List.mem_cons, List.not_mem_nil, or_false]
    omega

/-- Settles O43: an answer is one of the item table, taken apart by its group. -/
theorem answersFollowTheItemTable : Obligations.AnswersFollowTheItemTable := by
  intro s group index
  refine ⟨by rw [s.answer_eq_none_iff, s.exists_answers_iff], fun payloads hanswer => ?_⟩
  obtain ⟨frames, h, rfl⟩ := (s.answer_eq_some_iff group index payloads).mp hanswer
  obtain ⟨hlow, hhigh⟩ := h.length
  rw [length_reportPayloads]
  refine ⟨hlow, hhigh, ?state, ?link, fun c => ?channel, ?cacheAudio, ?entries, ?noEntries, fun z => ?zone,
    fun n p hp => h.payload hp⟩
  case state =>
    rintro rfl
    generalize index.toNat = i at h
    cases h
    obtain ⟨values, hreport, hvalues⟩ := s.stateValues_report
    exact ⟨⟨values, hreport, by rw [hvalues, flatMap_drop_inFours]⟩, by rw [length_inFours, State.length_stateValues]⟩
  case link =>
    rintro rfl
    generalize index.toNat = i at h
    cases h
    exact ⟨flatMap_drop_inFours _ _ _ _, by simp [length_inFours]⟩
  case channel =>
    rintro rfl hc
    generalize index.toNat = i at h hc
    cases h with
    | channel d =>
      obtain rfl := Fin.ext hc
      exact ⟨flatMap_drop_inFours _ _ _ _, by simp [length_inFours]⟩
  case cacheAudio =>
    rintro rfl
    generalize index.toNat = i at h
    cases h
    exact ⟨flatMap_drop_inFours _ _ _ _, by simp [length_inFours]⟩
  case entries =>
    rintro rfl hi
    generalize index.toNat = i at h hi
    cases h
    rw [reductionFrames_entries hi]
    refine ⟨by rw [List.length_map, entriesFrom, List.length_take, List.length_drop], fun n p hp => ?_⟩
    rw [getElem?_reportPayloads, Option.map_eq_some_iff] at hp
    obtain ⟨_, hvalues, rfl⟩ := hp
    obtain ⟨e, he, rfl⟩ := Option.map_eq_some_iff.mp (List.getElem?_map.symm.trans hvalues)
    obtain ⟨values, hreport, hencoded⟩ := entryValues_report e
    exact ⟨e, values, getElem?_entriesFrom he, hreport, by rw [drop_reportPayload, hencoded, flatMap_reportNat]⟩
  case noEntries =>
    rintro rfl hi
    generalize index.toNat = i at h hi
    cases h
    rw [reductionFrames_count hi]
    refine ⟨?_, rfl⟩
    rw [flatMap_drop_reportPayloads]
    exact (flatMap_reportNat [s.table.length]).trans (List.flatMap_singleton _ _)
  case zone =>
    rintro rfl hz
    generalize index.toNat = i at h hz
    cases h with
    | zone y =>
      obtain rfl := Fin.ext hz
      refine ⟨?_, by rw [length_inFours, State.length_zoneValues]⟩
      rw [s.zoneValues_report, flatMap_drop_inFours]

end Sys2Proof.Machine
end

section
/-!
The transmit queue (R94, R151): when a headroom cue replaces the queued one, is queued or is refused, and when an answer is
queued.
-/
namespace Sys2Proof.Machine

theorem hasHeadroom_iff (q : List TxEntry) : hasHeadroom q = true ↔ ∃ e ∈ q, e.kind = .headroom := by
  simp only [hasHeadroom, List.any_eq_true, beq_iff_eq]

theorem not_hasHeadroom {q : List TxEntry} (h : ∀ e ∈ q, e.kind ≠ .headroom) : ¬ hasHeadroom q = true := by
  rw [hasHeadroom_iff]
  rintro ⟨e, he, hk⟩
  exact h e he hk

theorem replaceHeadroom_of_none {q : List TxEntry} (h : ∀ e ∈ q, e.kind ≠ .headroom) (payload : List Byte) :
    replaceHeadroom payload q = q :=
  (List.map_congr_left fun e he => if_neg (h e he)).trans (List.map_id' q)

/-- The one queued cue is replaced in its place (R151). -/
theorem replaceHeadroom_single {before after : List TxEntry} {e : TxEntry} (he : e.kind = .headroom)
    (h : ∀ x ∈ before ++ after, x.kind ≠ .headroom) (payload : List Byte) :
    replaceHeadroom payload (before ++ e :: after) =
      before ++ { e with payload := payload, age := 0, late := false } :: after := by
  calc replaceHeadroom payload (before ++ e :: after)
      = replaceHeadroom payload before ++
          (if e.kind = .headroom then { e with payload := payload, age := 0, late := false } else e) ::
          replaceHeadroom payload after := List.map_append
    _ = _ := by
      rw [if_pos he, replaceHeadroom_of_none fun x hx => h x (List.mem_append_left _ hx),
        replaceHeadroom_of_none fun x hx => h x (List.mem_append_right _ hx)]

/-- An attempt is marked where it sends the headroom entry at the head (R151). -/
theorem markReplaced_cons (e : TxEntry) (rest : List TxEntry) (a : Attempt) :
    markReplaced (e :: rest) (some a) =
      some (if a.gone = false ∧ e.kind = .headroom then { a with replaced := true } else a) := by
  have hmark : (headIsHeadroom (e :: rest) && !a.gone) = true ↔ a.gone = false ∧ e.kind = .headroom := by
    rw [headIsHeadroom, Bool.and_eq_true, beq_iff_eq, Bool.not_eq_true', and_comm]
  rw [markReplaced, apply_ite some]
  exact if_congr hmark rfl rfl

theorem LinkInterface.acceptHeadroom_replaces {l : LinkInterface} (h : ∃ e ∈ l.queue, e.kind = .headroom)
    (payload : List Byte) : l.acceptHeadroom payload =
      some { l with queue := replaceHeadroom payload l.queue, sending := markReplaced l.queue l.sending } :=
  if_pos ((hasHeadroom_iff _).mpr h)

theorem LinkInterface.acceptHeadroom_appends {l : LinkInterface} (h : ∀ e ∈ l.queue, e.kind ≠ .headroom)
    (hroom : l.queue.length < 8) (payload : List Byte) : l.acceptHeadroom payload =
      some { l with queue := l.queue ++ [{ kind := .headroom, payload := payload, age := 0, late := false }] } := by
  rw [LinkInterface.acceptHeadroom, if_neg (not_hasHeadroom h), if_pos hroom]
  rfl

theorem LinkInterface.acceptHeadroom_refuses {l : LinkInterface} (h : ∀ e ∈ l.queue, e.kind ≠ .headroom)
    (hfull : 8 ≤ l.queue.length) (payload : List Byte) : l.acceptHeadroom payload = none := by
  rw [LinkInterface.acceptHeadroom, if_neg (not_hasHeadroom h), if_neg (Nat.not_lt.mpr hfull)]

/-- An answer is queued behind the other frames where there is room for the whole of it (R151). -/
theorem LinkInterface.acceptAnswer_appends {l : LinkInterface} {frames : List (List Byte)}
    (hroom : l.queue.length + frames.length ≤ 8) : l.acceptAnswer frames = some { l with
      queue := l.queue ++ frames.map fun p => { kind := .report, payload := p, age := 0, late := false } } :=
  if_pos hroom

theorem LinkInterface.acceptAnswer_refuses {l : LinkInterface} {frames : List (List Byte)}
    (hfull : 8 < l.queue.length + frames.length) : l.acceptAnswer frames = none :=
  if_neg (Nat.not_le.mpr hfull)

/-- Settles O28: the queued cue stands between entries of the other kind, or the queue holds none. -/
theorem transmitQueueAccepts : Obligations.TransmitQueueAccepts := by
  intro l payload frames
  refine ⟨fun before e after hq he hothers => ?_, fun hnone =>
    ⟨fun hroom => LinkInterface.acceptHeadroom_appends hnone hroom payload,
      fun hfull => LinkInterface.acceptHeadroom_refuses hnone hfull payload⟩,
    LinkInterface.acceptAnswer_appends, LinkInterface.acceptAnswer_refuses⟩
  have hqueued : ∃ x ∈ l.queue, x.kind = .headroom := ⟨e, by rw [hq]; exact List.mem_append_cons_self, he⟩
  refine ⟨_, LinkInterface.acceptHeadroom_replaces hqueued payload, ?_, rfl, fun hs => ?_, fun a hs => ?_⟩
  all_goals dsimp only
  · rw [hq, replaceHeadroom_single he hothers]
  · rw [hs, markReplaced_none]
  · rw [hq, hs]
    cases before with
    | nil => simp [markReplaced_cons, he]
    | cons x before =>
      have hx : x.kind ≠ .headroom := hothers x List.mem_cons_self
      simp [markReplaced_cons, hx]

end Sys2Proof.Machine
end

section
/-!
The emission of headroom cues (R91 to R96): when one is due, what it holds, and what a block completion makes of it.
-/
namespace Sys2Proof.Machine

/-! ### When a cue is due (R92, R93) -/

theorem significantGroup_iff (h sent : Nat) : significantGroup h sent = true ↔
    (h = 0 ∧ sent ≠ 0) ∨ (h ≠ 0 ∧ sent = 0) ∨ sent + 8 ≤ h ∨ h + 8 ≤ sent := by
  rw [significantGroup, Bool.or_eq_true, Bool.or_eq_true, bne_iff_ne, Ne, Bool.eq_iff_iff, beq_iff_eq, beq_iff_eq,
    decide_eq_true_eq, decide_eq_true_eq]
  omega

theorem any_groups_iff (p : Group → Bool) : ([0, 1, 2, 3] : List Group).any p = true ↔ ∃ g, p g = true := by
  rw [List.any_eq_true]
  exact exists_congr fun g => and_iff_right (mem_allGroups g)

theorem Emission.significant_iff (e : Emission) : e.significant = true ↔ ∃ g : Group,
    (e.own[g] = 0 ∧ e.sent[g] ≠ 0) ∨ (e.own[g] ≠ 0 ∧ e.sent[g] = 0) ∨ e.sent[g] + 8 ≤ e.own[g] ∨
      e.own[g] + 8 ≤ e.sent[g] :=
  (any_groups_iff _).trans (exists_congr fun _ => significantGroup_iff _ _)

theorem Emission.limiting_iff (e : Emission) : e.limiting = true ↔ ∃ g : Group, e.own[g] ≠ 0 :=
  (any_groups_iff _).trans (exists_congr fun _ => decide_eq_true_iff.trans Nat.pos_iff_ne_zero)

/-- A limiting node refreshes after 100 ms, another one reports its presence after 500 ms (R93). -/
theorem Emission.refreshDue_iff (e : Emission) : e.refreshDue = true ↔
    (100 ≤ e.age ∧ ∃ g : Group, e.own[g] ≠ 0) ∨ (500 ≤ e.age ∧ ∀ g : Group, e.own[g] = 0) := by
  rw [Emission.refreshDue]
  by_cases hl : ∃ g : Group, e.own[g] ≠ 0
  · have hsome : ¬ ∀ g : Group, e.own[g] = 0 := not_forall.mpr hl
    rw [if_pos (e.limiting_iff.mpr hl), decide_eq_true_eq, and_iff_left hl]
    exact (or_iff_left fun h => hsome h.2).symm
  · have hall : ∀ g : Group, e.own[g] = 0 := by simpa using hl
    rw [if_neg fun h => hl (e.limiting_iff.mp h), decide_eq_true_eq, and_iff_left hall]
    exact (or_iff_right fun h => hl h.2).symm

/-- In the states that send headroom cues, the presence report alone does not ask for WAKING, ACTIVE or QUIET (R92, R93,
R96). -/
theorem State.emissionDue_iff {s : State} (hs : s.takesCues = true) : s.emissionDue = true ↔
    (s.awake = true ∧ 10 ≤ s.emission.age ∧ s.emission.significant = true) ∨ s.emission.refreshDue = true := by
  simp only [State.emissionDue, hs, Bool.true_and, Bool.or_eq_true, Bool.and_eq_true, decide_eq_true_eq, and_assoc,
    and_comm (a := s.emission.significant = true)]

/-! ### What a cue holds (R95, R167) -/

theorem State.headroomPayload_content {s : State} (hs : s.takesCues = true) :
    s.HeadroomContent s.emission.own s.headroomPayload := by
  refine ⟨s.node.state.code, s.flagsByte, ?_, ?_, s.flagsByte_flags⟩
  · simp only [State.headroomPayload, halfBytes_ofNat]
  · unfold State.takesCues at hs
    cases hstate : s.node.state <;> simp_all [NodeState.code]

/-- The content is one of the parts whose values it carries. -/
theorem State.HeadroomContent.congr {s t : State} {own : Vector Nat 4} {payload : List Byte}
    (h : t.HeadroomContent own payload) (hnode : t.node = s.node) (hlink : t.link = s.link)
    (hlibrary : t.library = s.library) (hloader : t.loader = s.loader)
    (hpresence : t.ports.presence = s.ports.presence) : s.HeadroomContent own payload := by
  obtain ⟨code, flags, hp, hcode, hflags⟩ := h
  obtain ⟨hclash, hsilent, hfaulty, hconfig, haudio, hreserved⟩ := hflags
  rw [hnode] at hcode hconfig
  rw [hlink] at hclash hsilent
  rw [hlibrary] at hfaulty
  rw [hloader] at hconfig
  rw [hpresence] at haudio
  exact ⟨code, flags, hp, hcode, hclash, hsilent, hfaulty, hconfig, haudio, hreserved⟩

/-! ### The decision (R92 to R94) -/

theorem State.emit_not_due {s : State} (h : ¬ s.emissionDue = true) : s.emit = s := if_neg h

/-- A refused cue changes nothing (R94). -/
theorem State.emit_refused {s : State} (h : s.link.acceptHeadroom s.headroomPayload = none) : s.emit = s := by
  rw [State.emit, State.handHeadroom, h, ite_self]

/-- An accepted cue is the last accepted one (R94). -/
theorem State.emit_accepted {s : State} {l : LinkInterface} (hdue : s.emissionDue = true)
    (h : s.link.acceptHeadroom s.headroomPayload = some l) :
    s.emit = { s with link := l, emission := { s.emission with sent := s.emission.own, age := 0 } } := by
  rw [State.emit, if_pos hdue, State.handHeadroom, h]
  rfl

/-! ### The decision at a block completion -/

theorem State.takesCues_iff (s : State) : s.takesCues = true ↔ s.awake = true ∨ s.node.state = .held := by
  unfold State.takesCues State.awake
  cases s.node.state <;> simp

theorem State.awake_iff_not_held {s : State} (h : s.takesCues = true) : s.awake = true ↔ s.node.state ≠ .held := by
  unfold State.takesCues at h
  unfold State.awake
  cases hstate : s.node.state <;> simp_all

namespace State.Completed

variable {s u v t : State} (h : s.Completed u v t)
include h

/-- After the emission a completion leaves the transmit queue and the emission's record alone. -/
theorem link_emission : t.link = u.emit.link ∧ t.emission = u.emit.emission := by
  rw [h.start, State.blockStart_rest, h.turns.rest]
  exact ⟨rfl, rfl⟩

/-- At the emission the queue is as before the completion, S and the age stand, and the own values are the new ones. -/
theorem before_emit : u.node = s.node ∧ u.link = s.link ∧
    u.emission = { s.emission with own := t.emission.own } := by
  rw [h.own, h.update.rest]
  exact ⟨rfl, rfl, rfl⟩

theorem takesCues_before_emit : u.takesCues = s.takesCues ∧ u.awake = s.awake := by
  obtain ⟨hnode, -, -⟩ := h.before_emit
  simp only [State.takesCues, State.awake, hnode, and_self]

theorem emissionDue_iff (hs : s.takesCues = true) : u.emissionDue = true ↔
    (s.node.state ≠ .held ∧ 10 ≤ s.emission.age ∧ ∃ g : Group,
      ((t.emission.own[g] = 0 ∧ s.emission.sent[g] ≠ 0) ∨ (t.emission.own[g] ≠ 0 ∧ s.emission.sent[g] = 0) ∨
        s.emission.sent[g] + 8 ≤ t.emission.own[g] ∨ t.emission.own[g] + 8 ≤ s.emission.sent[g])) ∨
    (100 ≤ s.emission.age ∧ ∃ g : Group, t.emission.own[g] ≠ 0) ∨
    (500 ≤ s.emission.age ∧ ∀ g : Group, t.emission.own[g] = 0) := by
  obtain ⟨htakes, hawake⟩ := h.takesCues_before_emit
  obtain ⟨-, -, hemission⟩ := h.before_emit
  rw [State.emissionDue_iff (htakes.trans hs), hawake, State.awake_iff_not_held hs, Emission.significant_iff,
    Emission.refreshDue_iff, hemission]

/-- The content is fixed from the values of the completion (R95). -/
theorem headroomContent (hs : s.takesCues = true) : s.HeadroomContent t.emission.own u.headroomPayload := by
  obtain ⟨htakes, -⟩ := h.takesCues_before_emit
  have hcontent := State.headroomPayload_content (htakes.trans hs)
  rw [← h.own] at hcontent
  refine hcontent.congr ?_ ?_ ?_ ?_ ?_ <;> rw [h.update.rest] <;> rfl

/-- No cue is handed over, or the queue refuses it: S, the age and the queue stay (R94). -/
theorem emission_kept (hkept : u.emit = u) : t.emission.sent = s.emission.sent ∧ t.emission.age = s.emission.age ∧
    t.link = s.link := by
  obtain ⟨hlink, hemission⟩ := h.link_emission
  obtain ⟨-, hlink', hemission'⟩ := h.before_emit
  rw [hlink, hemission, hkept, hemission', hlink']
  exact ⟨rfl, rfl, rfl⟩

/-- A cue that is handed over and accepted: S takes the own values, the age restarts (R94). -/
theorem emission_accepted {l : LinkInterface} (hdue : u.emissionDue = true)
    (hl : s.link.acceptHeadroom u.headroomPayload = some l) :
    t.emission.sent = t.emission.own ∧ t.emission.age = 0 ∧ t.link = l := by
  obtain ⟨hlink, hemission⟩ := h.link_emission
  obtain ⟨-, hlink', -⟩ := h.before_emit
  rw [hlink, hemission, State.emit_accepted hdue (by rw [hlink', hl])]
  exact ⟨rfl, rfl, rfl⟩

end State.Completed

/-- Settles O16: the decision is that of the state after the updates; the queue then replaces, appends or refuses. -/
theorem blockCompletionDecidesEmission : Obligations.BlockCompletionDecidesEmission := by
  intro s hr hblock hstates hq
  have hs : s.takesCues = true := s.takesCues_iff.mpr (hstates.imp_right And.left)
  have hst : s.node.state ≠ .start := by
    intro e
    rw [State.takesCues, e] at hs
    cases hs
  obtain ⟨u, v, t, hexec, h⟩ := State.exists_completed hr hst hblock hq
  refine ⟨t, hexec, fun hheld g => ?held, fun due hdue => ?_⟩
  case held =>
    have hasleep : s.awake = false := by simp [State.awake, hheld]
    rw [h.own_asleep hasleep]
    exact (hstates.resolve_left (by simp [hasleep])).2 g
  rw [← h.emissionDue_iff hs] at hdue
  refine ⟨fun hnot => h.emission_kept (State.emit_not_due (hdue.not.mp hnot)), fun _ hfull hnone => ?refused,
    fun hd hroom hnone => ?appended, fun hd hqueued => ?replaced⟩
  case refused =>
    obtain ⟨-, hlink, -⟩ := h.before_emit
    exact h.emission_kept (State.emit_refused (by rw [hlink, LinkInterface.acceptHeadroom_refuses hnone hfull]))
  case appended =>
    obtain ⟨hsent, hage, hlink⟩ :=
      h.emission_accepted (hdue.mp hd) (LinkInterface.acceptHeadroom_appends hnone hroom _)
    exact ⟨hsent, hage, _, h.headroomContent hs, hlink⟩
  case replaced =>
    obtain ⟨hsent, hage, hlink⟩ := h.emission_accepted (hdue.mp hd) (LinkInterface.acceptHeadroom_replaces hqueued _)
    refine ⟨hsent, hage, ⟨_, h.headroomContent hs, by rw [hlink]; rfl⟩, fun hidle => ?_,
      fun a e rest hsending hqueue => ?_⟩
    · rw [hlink, hidle, markReplaced_none]
    · rw [hlink, hsending, hqueue, markReplaced_cons]

end Sys2Proof.Machine
end

section
/-!
The course of a limiter after an attack (R86, R88).
-/
namespace Sys2Proof.Machine

/-- The course of a limiter whose overshoot stays at e, at most the reduction: the hold count runs down, and each completion
after that takes the release off the reduction, down to e (R88). -/
theorem ChannelState.limit_iterate {x : ChannelState} {e : Nat} (he : e ≤ x.reduction) (n : Nat) :
    (fun x => ChannelState.limit x e)^[n] x = { x with
      reduction := max e (x.reduction - (n - x.holdCount) * x.record.release), holdCount := x.holdCount - n } := by
  induction n with
  | zero => simp [he]
  | succ n ih =>
    rw [Function.iterate_succ_apply', ih]
    by_cases hhold : n < x.holdCount
    · rw [ChannelState.limit_hold (le_max_left _ _) (Nat.sub_pos_of_lt hhold), Nat.sub_eq_zero_of_le hhold.le,
        Nat.sub_eq_zero_of_le hhold]
      rfl
    · have hover : x.holdCount ≤ n := Nat.not_lt.mp hhold
      rw [ChannelState.limit_release (le_max_left _ _) (Nat.sub_eq_zero_of_le hover), Nat.succ_sub hover, Nat.succ_mul,
        Nat.sub_eq_zero_of_le (hover.trans n.le_succ)]
      congr 1
      dsimp only
      omega

/-- The reduction has gone after m releases, the least number of them that covers it (R88). -/
theorem released_eq_zero_iff {r q m : Nat} (hcover : r ≤ m * q) (hleast : (m - 1) * q < r) (k : Nat) :
    r - k * q = 0 ↔ m ≤ k := by
  rw [Nat.sub_eq_zero_iff_le]
  constructor
  · intro hk
    by_contra hlt
    have : k * q ≤ (m - 1) * q := Nat.mul_le_mul_right q (by omega)
    omega
  · intro hk
    exact hcover.trans (Nat.mul_le_mul_right q hk)

/-- Settles O54: the closed form of the limiter's course, before and after the hold has run down. -/
theorem limiterHoldsAndReleases : Obligations.LimiterHoldsAndReleases := by
  intro x
  refine ⟨fun e => ChannelState.limit_attack, fun e n he => ⟨_, rfl, ?_⟩, fun m hm hr hcover hleast n hn => ?_⟩
  · rw [ChannelState.limit_iterate he]
    refine ⟨rfl, fun hholds => ⟨?_, rfl⟩, fun hover => ⟨rfl, Nat.sub_eq_zero_of_le hover⟩⟩
    rw [Nat.sub_eq_zero_of_le hholds, Nat.zero_mul, Nat.sub_zero]
    exact max_eq_right he
  · rw [ChannelState.limit_iterate (Nat.zero_le _)]
    dsimp only
    rw [Nat.zero_max, released_eq_zero_iff hcover hleast]
    omega

end Sys2Proof.Machine
end

section
/-!
The ways of the cache and their takers (R107, R115, R118 to R121): which way a miss takes, to which waiting entry a free way
goes, when a way comes free, and what is pruned from a full fill queue.
-/
namespace Sys2Proof.Machine

/-! ### Searches through the ways (R117, R118) -/

/-- A search in way order finds the lowest way that qualifies. -/
theorem find_allWays {p : Fin 4 → Bool} {w : Fin 4} (hw : p w = true) (hlow : ∀ v, v < w → ¬ p v = true) :
    allWays.find? p = some w := by
  simp only [Bool.not_eq_true] at hlow
  rw [List.find?_eq_some_iff_append]
  refine ⟨hw, ?_⟩
  match w, hlow with
  | 0, _ => exact ⟨[], [1, 2, 3], rfl, by simp⟩
  | 1, hlow => exact ⟨[0], [2, 3], rfl, by simp [hlow 0 (by decide)]⟩
  | 2, hlow => exact ⟨[0, 1], [3], rfl, by simp [hlow 0 (by decide), hlow 1 (by decide)]⟩
  | 3, hlow => exact ⟨[0, 1, 2], [], rfl, by simp [hlow 0 (by decide), hlow 1 (by decide), hlow 2 (by decide)]⟩

theorem mem_allWays (w : Fin 4) : w ∈ allWays := by fin_cases w <;> decide

theorem find_allWays_eq_none {p : Fin 4 → Bool} : allWays.find? p = none ↔ ∀ w, ¬ p w = true := by
  rw [List.find?_eq_none]
  exact ⟨fun h w => h w (mem_allWays w), fun h w _ => h w⟩

theorem waysFrom_eq (p : Fin 4) : waysFrom p = allWays.map (p + ·) := by simp [waysFrom, allWays]

theorem CacheSet.invalidWay_eq {x : CacheSet} {w : Fin 4} (hw : x.ways[w].state = .invalid)
    (hlow : ∀ v : Fin 4, v < w → x.ways[v].state ≠ .invalid) : x.invalidWay = some w :=
  find_allWays (beq_iff_eq.mpr hw) fun v hv => by rw [beq_iff_eq]; exact hlow v hv

theorem CacheSet.invalidWay_eq_none {x : CacheSet} : x.invalidWay = none ↔ ∀ v : Fin 4, x.ways[v].state ≠ .invalid := by
  unfold CacheSet.invalidWay
  rw [find_allWays_eq_none]
  simp only [beq_iff_eq, ne_eq]

/-- A VALID line that no channel holds: what an allocation may take when no way is INVALID (R118). -/
def Line.Unheld (x : Line) : Prop := x.state = .valid ∧ x.pins = 0

theorem CacheSet.victim_eq {x : CacheSet} {i : Fin 4} (hi : x.ways[x.pointer + i].Unheld)
    (hlow : ∀ j : Fin 4, j < i → ¬ x.ways[x.pointer + j].Unheld) : x.victim = some (x.pointer + i) := by
  unfold CacheSet.victim
  rw [waysFrom_eq, List.find?_map, find_allWays (w := i)]
  · rfl
  · simpa [Line.Unheld] using hi
  · intro j hj
    simpa [Line.Unheld] using hlow j hj

theorem CacheSet.victim_eq_none {x : CacheSet} (h : ∀ v : Fin 4, ¬ x.ways[v].Unheld) : x.victim = none := by
  unfold CacheSet.victim
  rw [List.find?_eq_none]
  intro v _
  simpa [Line.Unheld] using h v

theorem CacheSet.allocate_invalid {x : CacheSet} {w : Fin 4} (h : x.invalidWay = some w) (key : CoefKey) :
    x.allocate key = some (w, x.take w key) := by rw [CacheSet.allocate, h]

theorem CacheSet.allocate_victim {x : CacheSet} {w : Fin 4} (hinvalid : x.invalidWay = none) (h : x.victim = some w)
    (key : CoefKey) : x.allocate key = some (w, { x.take w key with pointer := w + 1 }) := by
  rw [CacheSet.allocate, hinvalid, h]

theorem CacheSet.allocate_none {x : CacheSet} (hinvalid : x.invalidWay = none) (h : x.victim = none) (key : CoefKey) :
    x.allocate key = none := by rw [CacheSet.allocate, hinvalid, h]

/-! ### A way of a set come free (R107, R121) -/

/-- The entries of the queue that wait for a way of a set (R121). -/
def QueueEntry.WaitsIn (e : QueueEntry) (i : Fin 16) : Prop := e.line = none ∧ e.key.set = i

theorem QueueEntry.waitsIn_iff {e : QueueEntry} {i : Fin 16} :
    (e.line == none && e.key.set == i) = true ↔ e.WaitsIn i := by
  rw [Bool.and_eq_true, beq_iff_eq, beq_iff_eq]
  rfl

theorem State.wayFree_none {s : State} {i : Fin 16} (h : ∀ e ∈ s.library.queue, ¬ e.WaitsIn i) : s.wayFree i = s := by
  have hfind : (s.library.queue.find? fun e => e.line == none && e.key.set == i) = none := by
    rw [List.find?_eq_none]
    intro e he
    rw [QueueEntry.waitsIn_iff]
    exact h e he
  unfold State.wayFree
  rw [hfind]

theorem giveLine_middle {before : List QueueEntry} {key : CoefKey} (l : LineRef) (after : List QueueEntry)
    (h : ∀ e ∈ before, ¬ (e.key = key ∧ e.line = none)) :
    giveLine key l (before ++ { key := key, line := none } :: after) =
      before ++ { key := key, line := some l } :: after := by
  induction before with
  | nil => simp [giveLine]
  | cons e es ih =>
    rw [List.cons_append, giveLine, if_neg (h e (by simp)), ih fun x hx => h x (by simp [hx])]
    rfl

section
variable {s : State} {before after : List QueueEntry} {key : CoefKey}
  (hq : s.library.queue = before ++ { key := key, line := none } :: after)
  (hbefore : ∀ e ∈ before, ¬ e.WaitsIn key.set)
include hq hbefore

theorem State.find_waiting : (s.library.queue.find? fun e => e.line == none && e.key.set == key.set) =
    some { key := key, line := none } := by
  rw [List.find?_eq_some_iff_append]
  refine ⟨by simp, before, after, hq, fun e he => ?_⟩
  rw [Bool.not_eq_true', ← Bool.not_eq_true, QueueEntry.waitsIn_iff]
  exact hbefore e he

theorem State.wayFree_noWay (hnone : s.library.sets[key.set].allocate key = none) : s.wayFree key.set = s := by
  rw [State.wayFree, State.find_waiting hq hbefore]
  dsimp only
  rw [State.allocate, hnone]

/-- The oldest entry that waits in the set is given the way, and the channels QUEUED on its key attach to the line
(R107, R121). -/
theorem State.wayFree_way {w : Fin 4} {x : CacheSet} (hsome : s.library.sets[key.set].allocate key = some (w, x)) :
    s.wayFree key.set = ((s.setCacheSet key.set x).setQueue
      (before ++ { key := key, line := some { set := key.set, way := w } } :: after)).attachQueued key
        { set := key.set, way := w } := by
  rw [State.wayFree, State.find_waiting hq hbefore]
  dsimp only
  rw [State.allocate, hsome]
  dsimp only
  rw [show (s.setCacheSet key.set x).library.queue = s.library.queue from rfl, hq, giveLine_middle]
  rintro e he ⟨hkey, hline⟩
  exact hbefore e he ⟨hline, by rw [hkey]⟩

end

theorem State.attachQueued_rest (s : State) (key : CoefKey) (l : LineRef) :
    s.attachQueued key l = { s with channels := (s.attachQueued key l).channels } := by
  simp only [State.attachQueued, State.mapChannels]

theorem State.channel_attachQueued (s : State) (key : CoefKey) (l : LineRef) (c : Channel) :
    (s.attachQueued key l).channel c = if (s.channel c).request = .queued ∧ (s.channel c).wanted = key then
      { s.channel c with request := .waitingFill l } else s.channel c := by
  rw [State.attachQueued, State.channel_mapChannels]

/-! ### A reference given up (R115, R121) -/

/-- A line with one pin fewer. -/
def State.lowerPin (s : State) (l : LineRef) : State := s.setLine l { s.line l with pins := (s.line l).pins - 1 }

theorem State.line_lowerPin (s : State) (l : LineRef) : (s.lowerPin l).line l = { s.line l with pins := (s.line l).pins - 1 } := by
  rw [State.lowerPin, State.line_setLine, if_pos rfl]

theorem State.unpin_last {s : State} {l : LineRef} (hvalid : (s.line l).state = .valid) (hpins : (s.line l).pins ≤ 1) :
    s.unpin l = (s.lowerPin l).wayFree l.set := by
  unfold State.unpin
  refine if_pos ?_
  rw [← State.lowerPin, State.line_lowerPin]
  exact ⟨hvalid, Nat.sub_eq_zero_of_le hpins⟩

theorem State.unpin_held {s : State} {l : LineRef} (h : (s.line l).state ≠ .valid ∨ 2 ≤ (s.line l).pins) :
    s.unpin l = s.lowerPin l := by
  unfold State.unpin
  refine if_neg ?_
  rw [← State.lowerPin, State.line_lowerPin]
  rintro ⟨hvalid, hpins⟩
  dsimp only at hvalid hpins
  rcases h with h | h
  · exact h hvalid
  · omega

/-! ### A full fill queue (R119, R120) -/

theorem pruneQueue_first {wanted : CoefKey → Bool} {before after : List QueueEntry} {old : QueueEntry}
    (hbefore : ∀ e ∈ before, wanted e.key = true) (hold : wanted old.key = false) :
    pruneQueue wanted (before ++ old :: after) = (some old, before ++ after) := by
  induction before with
  | nil => rw [List.nil_append, pruneQueue, if_neg (by simp [hold])]; rfl
  | cons e es ih =>
    rw [List.cons_append, pruneQueue, if_pos (hbefore e (by simp)), ih fun x hx => hbefore x (by simp [hx])]
    rfl

theorem State.wantedBySome_iff (s : State) (key : CoefKey) :
    s.wantedBySome key = true ↔ ∃ c, (s.channel c).record.enabled = true ∧ (s.channel c).wanted = key := by
  unfold State.wantedBySome State.channel
  rw [List.any_eq_true]
  constructor
  · rintro ⟨x, hx, hwants⟩
    obtain ⟨i, hi, rfl⟩ := List.getElem_of_mem hx
    have hlt : i < 8 := by simpa using hi
    rw [Bool.and_eq_true, beq_iff_eq] at hwants
    exact ⟨⟨i, hlt⟩, by simpa using hwants⟩
  · rintro ⟨c, henabled, hkey⟩
    exact ⟨s.channels[c], by simp, by rw [Bool.and_eq_true, beq_iff_eq]; exact ⟨henabled, hkey⟩⟩

theorem State.enqueueFill_room {s : State} (h : s.library.queue.length < 16) (e : QueueEntry) :
    s.enqueueFill e = s.setQueue (s.library.queue ++ [e]) := if_pos h

section
variable {s : State} {before after : List QueueEntry} {old : QueueEntry} (hfull : 16 ≤ s.library.queue.length)
  (hq : s.library.queue = before ++ old :: after) (hbefore : ∀ x ∈ before, s.wantedBySome x.key = true)
  (hold : s.wantedBySome old.key = false)
include hfull hq hbefore hold

/-- The oldest entry whose key no enabled channel wants leaves a full queue (R120). -/
theorem State.enqueueFill_prunes_lineless (hline : old.line = none) (e : QueueEntry) :
    s.enqueueFill e = s.setQueue (before ++ after ++ [e]) := by
  rw [State.enqueueFill, if_neg (by omega), hq, pruneQueue_first hbefore hold]
  dsimp only
  rw [hline]

/-- The line of a pruned entry is then a way come free (R120, R121). -/
theorem State.enqueueFill_prunes_line {l : LineRef} (hline : old.line = some l) (e : QueueEntry) :
    s.enqueueFill e = ((s.setQueue (before ++ after ++ [e])).invalidate l).wayFree l.set := by
  rw [State.enqueueFill, if_neg (by omega), hq, pruneQueue_first hbefore hold]
  dsimp only
  rw [hline]

end

/-! ### The statement -/

/-- Settles O47: the choice of a way, its taker, the pin that falls, and the pruning, each from its own rule above. -/
theorem waysGoToTheirTakers : Obligations.WaysGoToTheirTakers := by
  refine ⟨?_, ?_, fun s i h => State.wayFree_none fun e he hw => h e he hw.1 hw.2, ?_, ?_⟩
  · rintro x key _ rfl
    refine ⟨fun w hw hlow => CacheSet.allocate_invalid (CacheSet.invalidWay_eq hw hlow) key, fun hfull => ⟨?_, fun hheld => ?_⟩⟩
    · rintro i _ rfl hvalid hpins hlow
      exact CacheSet.allocate_victim (CacheSet.invalidWay_eq_none.mpr hfull)
        (CacheSet.victim_eq ⟨hvalid, hpins⟩ fun j hj hunheld => hlow j hj _ rfl hunheld) key
    · exact CacheSet.allocate_none (CacheSet.invalidWay_eq_none.mpr hfull) (CacheSet.victim_eq_none hheld) key
  · rintro s _ before after key hq rfl hbefore
    have hwaits : ∀ e ∈ before, ¬ e.WaitsIn key.set := fun e he hw => hbefore e he hw.1 hw.2
    refine ⟨State.wayFree_noWay hq hwaits, ?_⟩
    rintro w x l hsome rfl
    refine ⟨_, (State.wayFree_way hq hwaits hsome).symm, ?_, fun c => ?_⟩
    · exact State.attachQueued_rest _ _ _
    · rw [State.channel_attachQueued]
      rfl
  · rintro s _ l rfl
    exact ⟨State.unpin_last, State.unpin_held⟩
  · intro s e wanted hwanted
    refine ⟨fun hroom => State.enqueueFill_room hroom e, fun before old after hfull hq hbefore hold => ?_⟩
    have hkept : ∀ x ∈ before, s.wantedBySome x.key = true := fun x hx =>
      (s.wantedBySome_iff _).mpr ((hwanted _).mp (hbefore x hx))
    have hgone : s.wantedBySome old.key = false := by
      rw [← Bool.not_eq_true, s.wantedBySome_iff, ← hwanted]
      exact hold
    exact ⟨fun hline => State.enqueueFill_prunes_lineless hfull hq hkept hgone hline e,
      fun l hline => State.enqueueFill_prunes_line hfull hq hkept hgone hline e⟩

end Sys2Proof.Machine
end

section
/-!
Evaluations and key changes (R102 to R106, R116 to R119): what a channel finds when it asks the cache, case by case.
-/
namespace Sys2Proof.Machine

/-! ### Lookups in a set (R117) -/

theorem CacheSet.find_eq {x : CacheSet} {st : LineState} {key : CoefKey} {w : Fin 4}
    (hw : x.ways[w].state = st ∧ x.ways[w].key = key)
    (hlow : ∀ v : Fin 4, v < w → ¬ (x.ways[v].state = st ∧ x.ways[v].key = key)) : x.find st key = some w :=
  find_allWays (by rw [Bool.and_eq_true, beq_iff_eq, beq_iff_eq]; exact hw) fun v hv => by
    rw [Bool.and_eq_true, beq_iff_eq, beq_iff_eq]; exact hlow v hv

theorem CacheSet.find_eq_none {x : CacheSet} {st : LineState} {key : CoefKey} :
    x.find st key = none ↔ ∀ v : Fin 4, ¬ (x.ways[v].state = st ∧ x.ways[v].key = key) := by
  unfold CacheSet.find
  rw [find_allWays_eq_none]
  simp only [Bool.and_eq_true, beq_iff_eq]

/-! ### When an evaluation asks the cache (R104) -/

/-- The channel's active set is already the wanted one, or its wanted key has failed (R104). -/
def State.Settled (s : State) (c : Channel) : Prop :=
  s.activeKey c = some (s.channel c).wanted ∨ (s.channel c).failed = some (s.channel c).wanted

theorem State.evaluate_disabled {s : State} {c : Channel} (h : (s.channel c).record.enabled = false) :
    s.evaluate c = s := by rw [State.evaluate, if_pos h]

theorem State.evaluate_absent {s : State} (h : s.library.state = .absent) (c : Channel) : s.evaluate c = s := by
  rw [State.evaluate, if_pos h, ite_self]

theorem State.evaluate_settled {s : State} {c : Channel} (henabled : (s.channel c).record.enabled = true)
    (hlib : s.library.state ≠ .absent) (h : s.Settled c) : s.evaluate c = s.setRequest c .idle := by
  unfold State.evaluate
  rw [if_neg (by simp [henabled]), if_neg hlib]
  split
  · rfl
  · next hactive => rw [if_pos (h.resolve_left hactive)]

theorem State.evaluate_asks {s : State} {c : Channel} (henabled : (s.channel c).record.enabled = true)
    (hlib : s.library.state ≠ .absent) (h : ¬ s.Settled c) : s.evaluate c = s.lookup c (s.channel c).wanted := by
  unfold State.evaluate
  rw [if_neg (by simp [henabled]), if_neg hlib, if_neg fun ha => h (.inl ha), if_neg fun hf => h (.inr hf)]

theorem State.settled_iff (s : State) (c : Channel) : s.Settled c ↔
    (∃ a, (s.channel c).active = some a ∧ (s.line a).key = (s.channel c).wanted) ∨
      (s.channel c).failed = some (s.channel c).wanted := by
  rw [State.Settled, State.activeKey, Option.map_eq_some_iff]

/-! ### What the cache answers (R105, R117, R118) -/

section
variable {s : State} {c : Channel} {key : CoefKey}

theorem State.lookup_valid {w : Fin 4} (h : s.library.sets[key.set].find .valid key = some w) :
    s.lookup c key = (s.countCache .hits).takeIncoming c { set := key.set, way := w } := by
  rw [State.lookup, h]

theorem State.lookup_filling {w : Fin 4} (hvalid : s.library.sets[key.set].find .valid key = none)
    (h : s.library.sets[key.set].find .filling key = some w) :
    s.lookup c key = (s.countCache .hits).setRequest c (.waitingFill { set := key.set, way := w }) := by
  rw [State.lookup, hvalid, h]

/-- No line of the set is VALID or FILLING for the key. -/
def CacheSet.Misses (x : CacheSet) (key : CoefKey) : Prop := x.find .valid key = none ∧ x.find .filling key = none

theorem State.lookup_miss (h : s.library.sets[key.set].Misses key) (hlib : s.library.state ≠ .ready) :
    s.lookup c key = (s.countCache .misses).setRequest c .idle := by
  obtain ⟨hvalid, hfilling⟩ := h
  rw [State.lookup, hvalid, hfilling]
  exact if_neg hlib

theorem State.lookup_missReady (h : s.library.sets[key.set].Misses key) (hlib : s.library.state = .ready) :
    s.lookup c key = (s.countCache .misses).missReady c key := by
  obtain ⟨hvalid, hfilling⟩ := h
  rw [State.lookup, hvalid, hfilling]
  exact if_pos hlib

theorem State.missReady_queued (h : ∃ e ∈ s.library.queue, e.key = key) : s.missReady c key = s.setRequest c .queued := by
  refine if_pos (List.any_eq_true.mpr ?_)
  simpa using h

theorem not_any_key {queue : List QueueEntry} (h : ∀ e ∈ queue, e.key ≠ key) :
    ¬ queue.any (fun e => e.key == key) = true := by
  simpa using h

theorem State.missReady_noWay (h : ∀ e ∈ s.library.queue, e.key ≠ key)
    (hnone : s.library.sets[key.set].allocate key = none) : s.missReady c key =
      ((s.countCache .noWayWaits).setRequest c .queued).enqueueFill { key := key, line := none } := by
  unfold State.missReady
  rw [if_neg (not_any_key h), State.allocate, hnone]

theorem State.missReady_way (h : ∀ e ∈ s.library.queue, e.key ≠ key) {w : Fin 4} {x : CacheSet}
    (hsome : s.library.sets[key.set].allocate key = some (w, x)) : s.missReady c key =
      ((s.setCacheSet key.set x).setRequest c (.waitingFill { set := key.set, way := w })).enqueueFill
        { key := key, line := some { set := key.set, way := w } } := by
  unfold State.missReady
  rw [if_neg (not_any_key h), State.allocate, hsome]

theorem State.takeIncoming_eq (s : State) (c : Channel) (l : LineRef) : s.takeIncoming c l =
    (s.setLine l { s.line l with pins := (s.line l).pins + 1 }).setChannel c { s.channel c with
      incoming := some { line := l, k := 1, running := false }, request := .idle,
      incomingStates := SectionState.zeros } := rfl

/-- A request replaced after an event is counted. -/
theorem State.setRequest_countCache (s : State) (k : CacheCounter) (c : Channel) (r : Request) :
    (s.countCache k).setRequest c r = (s.countCache k).setChannel c { s.channel c with request := r } := by
  rw [State.setRequest, State.countCache_channel]

theorem State.lookup_noWay (h : s.library.sets[key.set].Misses key) (hready : s.library.state = .ready)
    (hnew : ∀ e ∈ s.library.queue, e.key ≠ key) (hnone : s.library.sets[key.set].allocate key = none) : s.lookup c key =
      (((s.countCache .misses).countCache .noWayWaits).setChannel c { s.channel c with request := .queued }).enqueueFill
        { key := key, line := none } := by
  rw [State.lookup_missReady h hready, State.missReady_noWay (by rw [State.countCache_library]; exact hnew)
    (by simpa only [State.countCache_library] using hnone), State.setRequest_countCache, State.countCache_channel]

theorem State.lookup_way (h : s.library.sets[key.set].Misses key) (hready : s.library.state = .ready)
    (hnew : ∀ e ∈ s.library.queue, e.key ≠ key) {w : Fin 4} {x : CacheSet}
    (hsome : s.library.sets[key.set].allocate key = some (w, x)) : s.lookup c key =
      (((s.countCache .misses).setCacheSet key.set x).setChannel c
        { s.channel c with request := .waitingFill { set := key.set, way := w } }).enqueueFill
          { key := key, line := some { set := key.set, way := w } } := by
  rw [State.lookup_missReady h hready, State.missReady_way (by rw [State.countCache_library]; exact hnew)
    (by simpa only [State.countCache_library] using hsome), State.setRequest, State.setCacheSet_channel,
    State.countCache_channel]

end

/-! ### Changes of the wanted key (R103, R106) -/

section
variable {s : State} {c : Channel} {key : CoefKey}

/-- A channel with a new wanted key: no key has failed (R103). -/
def State.newKey (s : State) (c : Channel) (key : CoefKey) : State :=
  s.setChannel c { s.channel c with wanted := key, failed := none }

theorem State.changeKey_same (h : key = (s.channel c).wanted) : s.changeKey c key = s := if_pos h

theorem State.changeKey_recorded (h : key ≠ (s.channel c).wanted)
    (hlater : (s.channel c).record.enabled = false ∨ (s.channel c).incoming ≠ none) :
    s.changeKey c key = s.newKey c key := by
  unfold State.changeKey
  rw [if_neg h]
  dsimp only
  split
  · rfl
  · next henabled => exact if_pos (Option.isSome_iff_ne_none.mpr (hlater.resolve_left henabled))

theorem State.changeKey_evaluated (h : key ≠ (s.channel c).wanted) (henabled : (s.channel c).record.enabled = true)
    (hincoming : (s.channel c).incoming = none) :
    s.changeKey c key = ((s.newKey c key).setRequest c .idle).evaluate c := by
  unfold State.changeKey
  rw [if_neg h]
  dsimp only
  rw [if_neg (by simp [henabled]), if_neg (by simp [hincoming])]
  rfl

end

/-! ### The statement -/

theorem CoefKey.set_val (key : CoefKey) :
    key.set.val = (key.profile.val + 3 * key.band.val + 5 * key.preset.val) % 16 := rfl

/-- Settles O46: the key change and each outcome of an evaluation, as the equations above give them. -/
theorem evaluationAsksTheCache : Obligations.EvaluationAsksTheCache := by
  refine ⟨CoefKey.set_val, ?_, ?_⟩
  · rintro s _ c key rfl
    exact ⟨State.changeKey_same, fun h => ⟨State.changeKey_recorded h, State.changeKey_evaluated h⟩⟩
  · rintro s c _ _ henabled rfl rfl
    refine ⟨fun hlib => State.evaluate_absent hlib c, fun hlib hsettled => ?_, fun hlib hactive hfailed => ?_⟩
    · exact State.evaluate_settled henabled hlib ((s.settled_iff c).mpr hsettled)
    have hunsettled : ¬ s.Settled c := by
      rw [s.settled_iff]
      rintro (⟨a, ha, hkey⟩ | hf)
      · exact hactive a ha hkey
      · exact hfailed hf
    rw [State.evaluate_asks henabled hlib hunsettled]
    generalize (s.channel c).wanted = key
    refine ⟨?_, fun hvalid => ⟨fun w hstate hkey hlow => ?_, fun hfilling => ?_⟩⟩
    · rintro w _ rfl hstate hkey hlow
      rw [State.lookup_valid (CacheSet.find_eq ⟨hstate, hkey⟩ hlow), State.takeIncoming_eq, State.countCache_line,
        State.countCache_channel]
    · rw [State.lookup_filling (CacheSet.find_eq_none.mpr hvalid) (CacheSet.find_eq ⟨hstate, hkey⟩ hlow),
        State.setRequest_countCache]
    have hmiss : s.library.sets[key.set].Misses key :=
      ⟨CacheSet.find_eq_none.mpr hvalid, CacheSet.find_eq_none.mpr hfilling⟩
    refine ⟨fun hfaulty => ?_, fun hready hqueued => ?_, fun hready hnew hroom => ⟨fun hnone => ?_, fun w after hsome => ?_⟩,
      fun hready hnew _ => ⟨State.lookup_noWay hmiss hready hnew, fun w after => State.lookup_way hmiss hready hnew⟩⟩
    · rw [State.lookup_miss hmiss (by rw [hfaulty]; nofun), State.setRequest_countCache]
    · rw [State.lookup_missReady hmiss hready, State.missReady_queued (by rw [State.countCache_library]; exact hqueued),
        State.setRequest_countCache]
    · have hsame : (((s.countCache .misses).countCache .noWayWaits).setChannel c
          { s.channel c with request := .queued }).library.queue = s.library.queue := by
        rw [State.setChannel_library, State.countCache_library, State.countCache_library]
      rw [State.lookup_noWay hmiss hready hnew hnone, State.enqueueFill_room (by rw [hsame]; exact hroom), hsame]
    · have hsame : (((s.countCache .misses).setCacheSet key.set after).setChannel c
          { s.channel c with request := .waitingFill { set := key.set, way := w } }).library.queue = s.library.queue := by
        rw [State.setChannel_library, State.setCacheSet, State.countCache_library]
      rw [State.lookup_way hmiss hready hnew hsome, State.enqueueFill_room (by rw [hsame]; exact hroom), hsame]

end Sys2Proof.Machine
end

section
/-!
The outcome of a fill (R108, R109, R121, R124, R125, R127, R168): a record's checks, the line that becomes VALID with the
channels attached to it, and the errors that end with the library FAULTY.
-/
namespace Sys2Proof.Machine

/-! ### The record (R124, R168) -/

theorem recordPasses_iff (key : CoefKey) (record : List Byte) : recordPasses key record = true ↔ RecordPasses key record := by
  have hcheck : (crcBytes (record.take 126) == halfAt record 126) = true ↔
      (crcBytes (record.take 126)).toNat = unsignedAt record 126 2 := by
    rw [beq_iff_eq, BitVec.toNat_eq, halfAt_toNat]
  have hkey : (recordKey record == key) = true ↔ _ := beq_iff_eq.trans (recordKey_iff record key)
  have hcount : decide ((byteAt record 2).toNat ≤ 6) = true ↔ unsignedAt record 2 1 ≤ 6 := by
    rw [decide_eq_true_eq, byteAt_toNat]
  rw [recordPasses, Bool.and_eq_true, Bool.and_eq_true, hcheck, hkey, hcount]
  constructor
  · rintro ⟨⟨check, preset, band, profile⟩, count⟩
    exact ⟨check, preset, band, profile, count⟩
  · rintro ⟨check, preset, band, profile, count⟩
    exact ⟨⟨check, preset, band, profile⟩, count⟩

theorem recordCoefs_eq (record : List Byte) : recordCoefs record = recordSet record := by
  rw [recordCoefs, recordSet, byteAt_toNat]
  exact List.map_congr_left fun i _ => by simp only [recordSection, wordAt_toInt]

/-! ### Lines and pointers -/

theorem State.pointer_setLine (s : State) (l : LineRef) (x : Line) (i : Fin 16) :
    (s.setLine l x).library.sets[i].pointer = s.library.sets[i].pointer := by
  by_cases hi : l.set = i
  · subst hi; simp [State.setLine]
  · have hi' : (l.set : Nat) ≠ i := fun e => hi (Fin.ext e)
    simp [State.setLine, hi']

theorem State.line_setLine_same (s : State) (l : LineRef) (x : Line) : (s.setLine l x).line l = x := by
  rw [State.line_setLine, if_pos rfl]

theorem State.line_setLine_other (s : State) {l m : LineRef} (h : m ≠ l) (x : Line) : (s.setLine l x).line m = s.line m := by
  rw [State.line_setLine, if_neg (Ne.symm h)]

/-! ### The attached channels take the line (R108) -/

/-- A channel that has taken a line as incoming, with k = 1 (R108). -/
def ChannelState.taking (x : ChannelState) (l : LineRef) : ChannelState :=
  { x with incoming := some { line := l, k := 1, running := false }, request := .idle,
           incomingStates := SectionState.zeros }

/-- The channels of a list that are attached to the line have taken it, each with a pin of its own. -/
structure State.TakenBy (s : State) (l : LineRef) (cs : List Channel) (u : State) : Prop where
  rest     : u = { s with channels := u.channels, library := { s.library with sets := u.library.sets } }
  channels : ∀ c, u.channel c = if c ∈ cs ∧ (s.channel c).request = .waitingFill l then (s.channel c).taking l else s.channel c
  line     : u.line l = { s.line l with
    pins := (s.line l).pins + cs.countP fun c => (s.channel c).request == .waitingFill l }
  lines    : ∀ m, m ≠ l → u.line m = s.line m
  pointers : ∀ i : Fin 16, u.library.sets[i].pointer = s.library.sets[i].pointer

theorem State.takeIfAttached_of {s : State} {l : LineRef} {c : Channel} (h : (s.channel c).request = .waitingFill l) :
    s.takeIfAttached l c = (s.pin l).setChannel c ((s.channel c).taking l) := if_pos h

theorem State.takeIfAttached_not {s : State} {l : LineRef} {c : Channel} (h : (s.channel c).request ≠ .waitingFill l) :
    s.takeIfAttached l c = s := if_neg h

theorem State.takenBy_turns (l : LineRef) {cs : List Channel} (hn : cs.Nodup) (s : State) :
    s.TakenBy l cs (s.inTurn (State.takeIfAttached l) cs) := by
  induction cs generalizing s with
  | nil => exact ⟨rfl, fun c => by simp, rfl, fun _ _ => rfl, fun _ => rfl⟩
  | cons d ds ih =>
    obtain ⟨hd, hds⟩ := List.nodup_cons.mp hn
    rw [State.inTurn_cons]
    by_cases hreq : (s.channel d).request = .waitingFill l
    · rw [State.takeIfAttached_of hreq]
      obtain ⟨hrest, hchannels, hline, hlines, hpointers⟩ := ih hds ((s.pin l).setChannel d ((s.channel d).taking l))
      generalize ((s.pin l).setChannel d ((s.channel d).taking l)).inTurn (State.takeIfAttached l) ds = u at *
      have hother : ∀ c ∈ ds, ((s.pin l).setChannel d ((s.channel d).taking l)).channel c = s.channel c := fun c hc => by
        rw [State.channel_setChannel_other _ (by rintro rfl; exact hd hc)]
        rfl
      refine ⟨hrest, fun c => ?_, ?_, fun m hm => ?_, fun i => ?_⟩
      · rw [hchannels]
        by_cases hc : c = d
        · subst hc
          rw [if_neg (by simp [hd]), if_pos ⟨by simp, hreq⟩, State.channel_setChannel_same]
        · rw [State.channel_setChannel_other _ (Ne.symm hc)]
          exact if_congr (by simp [hc]) rfl rfl
      · have hcount : ds.countP (fun c => (((s.pin l).setChannel d ((s.channel d).taking l)).channel c).request == .waitingFill l) =
            ds.countP fun c => (s.channel c).request == .waitingFill l :=
          List.countP_congr fun c hc => by rw [hother c hc]
        rw [hline, hcount, List.countP_cons_of_pos (by simp [hreq])]
        rw [State.setChannel_line, State.pin, State.line_setLine_same]
        simp only [Line.mk.injEq, true_and, and_true]
        omega
      · rw [hlines m hm, State.setChannel_line, State.pin, State.line_setLine_other _ hm]
      · rw [hpointers]
        exact s.pointer_setLine l _ i
    · rw [State.takeIfAttached_not hreq]
      obtain ⟨hrest, hchannels, hline, hlines, hpointers⟩ := ih hds s
      refine ⟨hrest, fun c => ?_, ?_, hlines, hpointers⟩
      · rw [hchannels]
        by_cases hc : c = d
        · subst hc; simp [hd, hreq]
        · simp [hc]
      · rw [hline, List.countP_cons_of_neg (by simpa using hreq)]

/-! ### A fill that passes (R124) -/

/-- The line of a fill that passes has its set; the attached channels have not taken it yet. -/
def State.lineBrought (f : Fill) (coefs : List Coefs) (s : State) : State :=
  { s.setLine f.line { s.line f.line with state := .valid, coefs := coefs } with
    library := { (s.setLine f.line { s.line f.line with state := .valid, coefs := coefs }).library with
      errors := 0, fill := none, selected := false } }

/-- The attached channels have taken the line of a fill that passes. -/
def State.lineTaken (ord : List Channel) (f : Fill) (coefs : List Coefs) (s : State) : State :=
  (s.lineBrought f coefs).inTurn (State.takeIfAttached f.line) ord

theorem State.line_lineBrought (f : Fill) (coefs : List Coefs) (s : State) (l : LineRef) : (s.lineBrought f coefs).line l =
    if f.line = l then { s.line f.line with state := .valid, coefs := coefs } else s.line l :=
  s.line_setLine f.line l _

theorem State.fillPasses_pinned {ord : List Channel} {f : Fill} {coefs : List Coefs} {s : State}
    (h : 0 < ((s.lineTaken ord f coefs).line f.line).pins) : s.fillPasses ord f coefs = s.lineTaken ord f coefs :=
  if_neg (Nat.pos_iff_ne_zero.mp h)

theorem State.fillPasses_unpinned {ord : List Channel} {f : Fill} {coefs : List Coefs} {s : State}
    (h : ((s.lineTaken ord f coefs).line f.line).pins = 0) :
    s.fillPasses ord f coefs = (s.lineTaken ord f coefs).wayFree f.line.set := if_pos h

theorem State.exec_fill_passes {s : State} {f : Fill} {record : List Byte} (hf : s.library.fill = some f)
    (hpasses : RecordPasses f.key record) : exec (.fillCompletion record) s =
      .next (s.drawn.fillPasses (channelOrder s.draws) f (recordSet record)) := by
  rw [exec, execFillCompletion, State.finishFill, State.drawn_library, hf]
  dsimp only
  rw [if_pos ((recordPasses_iff _ _).mpr hpasses), recordCoefs_eq]

/-- Settles O44: the line's values after the fill, with the attached channels' turns. -/
theorem fillCompletionBringsTheLine : Obligations.FillCompletionBringsTheLine := by
  refine ⟨fun key record => ⟨recordPasses_iff key record, recordCoefs_eq record⟩, fun s f record hf hpasses => ?_⟩
  obtain ⟨hrest, hchannels, hline, hlines, hpointers⟩ := State.takenBy_turns f.line (channelOrder_nodup s.draws)
    (s.drawn.lineBrought f (recordSet record))
  have hexec := State.exec_fill_passes hf hpasses
  refine ⟨s.drawn.lineTaken (channelOrder s.draws) f (recordSet record), ?_, fun c => ?_, ?_, fun l hl => ?_, fun i => ?_,
    fun h => hexec.trans (congrArg _ (State.fillPasses_pinned h)),
    fun h => hexec.trans (congrArg _ (State.fillPasses_unpinned h))⟩
  · have hdraws : (s.drawn.lineTaken (channelOrder s.draws) f (recordSet record)).draws = s.draws + 1 := congrArg State.draws hrest
    rw [hdraws]
    exact hrest
  · refine (hchannels c).trans ?_
    simp only [mem_channelOrder, true_and]
    rfl
  · refine hline.trans ?_
    rw [(channelOrder_perm s.draws).countP_eq, State.line_lineBrought, if_pos rfl]
    rfl
  · exact (hlines l hl).trans ((s.drawn.line_lineBrought f _ l).trans (if_neg (Ne.symm hl)))
  · exact (hpointers i).trans (s.drawn.pointer_setLine f.line _ i)

/-! ### A fill that fails (R109, R125, R127) -/

/-- A channel attached to the line of a fill that fails records the failed key (R109). -/
def ChannelState.failing (x : ChannelState) (f : Fill) : ChannelState :=
  if x.request = .waitingFill f.line then { x with request := .idle, failed := some f.key } else x

/-- A fill error before the count of errors is looked at: the line INVALID, the error counted, the attached channels' failed
key recorded. -/
def State.fillDropped (f : Fill) (s : State) : State :=
  let u := (s.invalidate f.line).countCache .fillErrors
  State.mapChannels (fun _ x => x.failing f)
    { u with library := { u.library with errors := u.library.errors + 1, fill := none, selected := false } }

theorem State.fillFails_eq (f : Fill) (s : State) : s.fillFails f =
    if 3 ≤ (s.fillDropped f).library.errors then (s.fillDropped f).becomeFaulty else (s.fillDropped f).wayFree f.line.set := rfl

theorem State.invalidate_countCache (s : State) (l : LineRef) (k : CacheCounter) :
    (s.invalidate l).countCache k = (s.countCache k).invalidate l := by
  unfold State.countCache
  split
  · next h => rw [if_pos (show s.dormant = true from h)]
  · next h => rw [if_neg (show ¬ s.dormant = true from h)]; rfl

theorem State.fillDropped_rest (f : Fill) (s : State) : s.fillDropped f = { s.countCache .fillErrors with
    channels := (s.fillDropped f).channels
    library := { s.library with
      sets := (s.invalidate f.line).library.sets, fill := none, errors := s.library.errors + 1, selected := false } } := by
  simp only [State.fillDropped, State.invalidate_countCache, State.mapChannels]
  simp only [State.invalidate, State.setLine, State.countCache_library, State.countCache_line]

theorem State.channel_fillDropped (f : Fill) (s : State) (c : Channel) :
    (s.fillDropped f).channel c = (s.channel c).failing f := by
  rw [State.fillDropped, State.channel_mapChannels]
  congr 1
  exact (State.countCache_channel _ _ _).trans rfl

theorem State.line_fillDropped (f : Fill) (s : State) (l : LineRef) :
    (s.fillDropped f).line l = (s.invalidate f.line).line l := by
  rw [State.fillDropped, State.mapChannels_line]
  exact State.countCache_line _ _ _

theorem State.line_invalidate (s : State) (l m : LineRef) : (s.invalidate l).line m =
    if l = m then { s.line l with state := .invalid, coefs := [] } else s.line m := s.line_setLine l m _

theorem State.line_becomeFaulty (s : State) (l : LineRef) : s.becomeFaulty.line l = (s.line l).dropFilling := by
  rw [State.becomeFaulty, State.mapChannels_line]
  simp [State.line]

theorem State.channel_becomeFaulty (s : State) (c : Channel) :
    s.becomeFaulty.channel c = { s.channel c with request := .idle } := by
  rw [State.becomeFaulty, State.channel_mapChannels]
  rfl

theorem State.becomeFaulty_rest (s : State) : s.becomeFaulty = { s with
    channels := s.becomeFaulty.channels
    library := { s.library with state := .faulty, queue := [], sets := s.becomeFaulty.library.sets } } := by
  simp only [State.becomeFaulty, State.mapChannels]

theorem Line.dropFilling_pins (x : Line) : x.dropFilling.pins = x.pins := by
  unfold Line.dropFilling; split <;> rfl

theorem Line.dropFilling_state (x : Line) :
    x.dropFilling.state = if x.state = .filling then .invalid else x.state := by
  unfold Line.dropFilling; split <;> rfl

theorem Line.dropFilling_of_ne {x : Line} (h : x.state ≠ .filling) : x.dropFilling = x := if_neg h

theorem ChannelState.failing_idle (x : ChannelState) (f : Fill) : { x.failing f with request := .idle } =
    { x with request := .idle, failed := if x.request = .waitingFill f.line then some f.key else x.failed } := by
  unfold ChannelState.failing; split <;> rfl

theorem State.exec_fill_fails {s : State} {f : Fill} {record : List Byte} (hf : s.library.fill = some f)
    (hfails : ¬ RecordPasses f.key record) : exec (.fillCompletion record) s = .next (s.drawn.fillFails f) := by
  rw [exec, execFillCompletion, State.finishFill, State.drawn_library, hf]
  dsimp only
  rw [if_neg fun h => hfails ((recordPasses_iff _ _).mp h)]

/-- Settles O45: before the third error the way has come free, at it the library becomes FAULTY. -/
theorem fillErrorsMakeTheLibraryFaulty : Obligations.FillErrorsMakeTheLibraryFaulty := by
  intro s f record hf hfails
  have hexec := State.exec_fill_fails hf hfails
  rw [State.fillFails_eq] at hexec
  have hrest := s.drawn.fillDropped_rest f
  have herrors : (s.drawn.fillDropped f).library.errors = s.library.errors + 1 := congrArg (·.library.errors) hrest
  have hchannel : ∀ c, (s.drawn.fillDropped f).channel c = (s.channel c).failing f := s.drawn.channel_fillDropped f
  have hline : ∀ l, (s.drawn.fillDropped f).line l =
      if f.line = l then { s.line f.line with state := .invalid, coefs := [] } else s.line l := fun l =>
    (s.drawn.line_fillDropped f l).trans (s.drawn.line_invalidate f.line l)
  have hcounted : s.drawn.countCache .fillErrors = { s.countCache .fillErrors with draws := s.draws + 1 } := by
    unfold State.countCache
    rw [State.drawn_dormant]
    split
    · rfl
    · rfl
  have hdraws : (s.drawn.fillDropped f).draws = s.draws + 1 :=
    (congrArg State.draws hrest).trans (s.drawn.countCache_draws _)
  have hsets : (s.drawn.fillDropped f).library.sets = (s.invalidate f.line).library.sets := congrArg (·.library.sets) hrest
  rw [herrors] at hexec
  refine ⟨fun hfew => ?_, fun hmany => ?_⟩
  · rw [if_neg (by omega)] at hexec
    refine ⟨_, hexec, ?_, hchannel, ?_, ?_, fun l hl => ?_, fun i => ?_⟩
    · rw [hdraws, hsets]
      exact hrest.trans (by rw [hcounted]; rfl)
    · rw [hline, if_pos rfl]
    · rw [hline, if_pos rfl]
    · rw [hline, if_neg (Ne.symm hl)]
    · rw [hsets]
      exact s.pointer_setLine f.line _ i
  · rw [if_pos (by omega)] at hexec
    refine ⟨_, hexec, ?_, fun c => ?_, fun l => ⟨?_, ?_⟩, fun l hl hvalid => ?_⟩
    · have hfaulty := (s.drawn.fillDropped f).becomeFaulty_rest
      rw [show (s.drawn.fillDropped f).becomeFaulty.draws = s.draws + 1 from (congrArg State.draws hfaulty).trans hdraws]
      refine hfaulty.trans ?_
      generalize (s.drawn.fillDropped f).becomeFaulty.channels = channels
      generalize (s.drawn.fillDropped f).becomeFaulty.library.sets = sets
      rw [hrest, hcounted]
      rfl
    · rw [State.channel_becomeFaulty, hchannel, ChannelState.failing_idle]
    · rw [State.line_becomeFaulty, Line.dropFilling_pins, hline]
      split
      · next h => rw [h]
      · rfl
    · rw [State.line_becomeFaulty, Line.dropFilling_state, hline]
      by_cases h : f.line = l
      · rw [if_pos h, if_pos (Or.inl h.symm)]; rfl
      · rw [if_neg h]
        simp [Ne.symm h]
    · rw [State.line_becomeFaulty, hline, if_neg (Ne.symm hl), Line.dropFilling_of_ne]
      rw [hvalid]; nofun

end Sys2Proof.Machine
end

section
/-!
The equaliser's arithmetic (R99 to R101, R110): the rounded division, a section's word, the running of the sections, and the
blend of a crossfade.
-/
namespace Sys2Proof.Machine

/-! ### Division rounded to nearest -/

/-- The rounded quotient q of the magnitudes, with n's sign: q × d is within d / 2 of |n|, and never the lower one of two
that are equally near. -/
theorem roundDiv_spec (n : Int) {d : Nat} (hd : 1 ≤ d) : ∃ q : Nat, roundDiv n d = (if n < 0 then -(q : Int) else q) ∧
    2 * (q * d) ≤ 2 * n.natAbs + d ∧ 2 * n.natAbs < 2 * (q * d) + d := by
  refine ⟨(2 * n.natAbs + d) / (2 * d), rfl, ?_⟩
  have hlow := Nat.div_mul_le_self (2 * n.natAbs + d) (2 * d)
  have hhigh := Nat.lt_div_mul_add (a := 2 * n.natAbs + d) (b := 2 * d) (by omega)
  have hproduct : (2 * n.natAbs + d) / (2 * d) * (2 * d) = 2 * ((2 * n.natAbs + d) / (2 * d) * d) := by ring
  rw [hproduct] at hlow hhigh
  omega

theorem roundDiv_nearest (n : Int) {d : Nat} (hd : 1 ≤ d) : 2 * (roundDiv n d * d - n).natAbs ≤ d := by
  obtain ⟨q, hq, hlow, hhigh⟩ := roundDiv_spec n hd
  rw [hq]
  split
  · have : (-(q : Int) * d) = -((q * d : Nat) : Int) := by push_cast; ring
    rw [this]; omega
  · rw [← Nat.cast_mul]; omega

theorem roundDiv_tie (n : Int) {d : Nat} (hd : 1 ≤ d) (h : 2 * (roundDiv n d * d - n).natAbs = d) :
    n.natAbs ≤ (roundDiv n d).natAbs * d := by
  obtain ⟨q, hq, hlow, hhigh⟩ := roundDiv_spec n hd
  rw [hq] at h ⊢
  split at h
  · next hn =>
    have hneg : (-(q : Int) * d) = -((q * d : Nat) : Int) := by push_cast; ring
    rw [if_pos hn, Int.natAbs_neg, Int.natAbs_natCast]
    rw [hneg] at h
    omega
  · next hn =>
    rw [if_neg hn, Int.natAbs_natCast]
    rw [← Nat.cast_mul] at h
    omega

/-! ### A section's word (R99) -/

theorem saturateWord_eq (v : Int) : saturateWord v = max (-(2 ^ 31 - 1)) (min (2 ^ 31 - 1) v) := clampInt_eq (by decide) v

theorem saturateWord_ne_iff (v : Int) : saturateWord v ≠ v ↔ 2 ^ 31 - 1 < v.natAbs := by
  rw [saturateWord_eq]
  omega

theorem sectionSaturated_iff (k : Coefs) (st : SectionState) (x : Int) :
    sectionSaturated k st x = true ↔ 2 ^ 31 - 1 < (sectionSum k st x).natAbs := by
  rw [sectionSaturated, bne_iff_ne, sectionOut, saturateWord_ne_iff]

/-! ### The blend (R110) -/

section
variable (a b : Int) {k : Nat} (hk : k ≤ 8)
include hk

theorem blend_sum_between : 8 * min a b ≤ a * (8 - (k : Int)) + b * k ∧ a * (8 - (k : Int)) + b * k ≤ 8 * max a b := by
  have hactive : (0 : Int) ≤ 8 - k := by omega
  have hincoming : (0 : Int) ≤ k := by omega
  constructor
  · calc 8 * min a b = min a b * (8 - (k : Int)) + min a b * k := by ring
      _ ≤ a * (8 - (k : Int)) + b * k := by gcongr; exacts [min_le_left a b, min_le_right a b]
  · calc a * (8 - (k : Int)) + b * k ≤ max a b * (8 - (k : Int)) + max a b * k := by
          gcongr; exacts [le_max_left a b, le_max_right a b]
      _ = 8 * max a b := by ring

/-- The blend is the multiple of 8 nearest to a sum that lies between 8 times the two words, so it lies between them. -/
theorem blend_between : min a b ≤ blend a b k ∧ blend a b k ≤ max a b := by
  obtain ⟨hlow, hhigh⟩ := blend_sum_between a b hk
  have hnear := roundDiv_nearest (a * (8 - (k : Int)) + b * k) (d := 8) (by decide)
  rw [← blend] at hnear
  push_cast at hnear
  omega

end

theorem blend_start (a b : Int) : blend a b 0 = a := by
  have hnear := roundDiv_nearest (a * (8 - ((0 : Nat) : Int)) + b * (0 : Nat)) (d := 8) (by decide)
  rw [← blend] at hnear
  push_cast at hnear
  omega

theorem blend_end (a b : Int) : blend a b 8 = b := by
  have hnear := roundDiv_nearest (a * (8 - ((8 : Nat) : Int)) + b * (8 : Nat)) (d := 8) (by decide)
  rw [← blend] at hnear
  push_cast at hnear
  omega

/-- Settles O53: the division's two facts, the section's word by its clamp, the sections in order by the recursion, and the
blend by the division. -/
theorem equaliserArithmetic : Obligations.EqualiserArithmetic := by
  refine ⟨fun n d hd => ⟨roundDiv_nearest n hd, roundDiv_tie n hd⟩, ?_, fun _ _ => rfl, ?_, ?_,
    fun a b => ⟨blend_start a b, blend_end a b⟩⟩
  · rintro k st x _ rfl
    exact ⟨saturateWord_eq _, sectionSaturated_iff k st x, rfl⟩
  · rintro k ks st sts x _ rfl
    rfl
  · rintro a b _ k hk rfl
    exact ⟨roundDiv_nearest _ (by decide), roundDiv_tie _ (by decide), blend_between a b hk⟩

end Sys2Proof.Machine
end

section
/-!
The course of a crossfade through the block completions (R104, R110, R111): a channel's turn, and what the next block starts
with.
-/
namespace Sys2Proof.Machine

/-! ### A channel's own turn (R110, R111) -/

section
variable {s : State} {c : Channel} {inc : Incoming} (hinc : (s.channel c).incoming = some inc)
include hinc

theorem State.runningIncoming_of (h : inc.running = true) : (s.channel c).runningIncoming = some inc := by
  simp [ChannelState.runningIncoming, hinc, h]

theorem State.advanceCrossfade_waits (h : inc.running = false) : s.advanceCrossfade c = s := by
  have hnone : (s.channel c).runningIncoming = none := by simp [ChannelState.runningIncoming, hinc, h]
  rw [State.advanceCrossfade, hnone]

theorem State.advanceCrossfade_counts (h : inc.running = true) (hk : inc.k < 8) : s.advanceCrossfade c =
    s.setChannel c { s.channel c with incoming := some { inc with k := inc.k + 1 } } := by
  rw [State.advanceCrossfade, State.runningIncoming_of hinc h]
  exact if_pos hk

theorem State.advanceCrossfade_ends (h : inc.running = true) (hk : 8 ≤ inc.k) :
    s.advanceCrossfade c = s.endCrossfade c inc := by
  rw [State.advanceCrossfade, State.runningIncoming_of hinc h]
  exact if_neg (Nat.not_lt.mpr hk)

end

/-- The channel after the end of its crossfade: the incoming set is active with its states, and what the evaluation may
have taken starts at k = 1 (R108, R111). -/
theorem State.channel_endCrossfade (s : State) (c : Channel) (inc : Incoming) :
    ((s.endCrossfade c inc).channel c).active = some inc.line ∧
    ((s.endCrossfade c inc).channel c).activeStates = (s.channel c).incomingStates ∧
    ∀ next, ((s.endCrossfade c inc).channel c).incoming = some next → next.k = 1 := by
  obtain ⟨z, hend, -, hz⟩ := s.before_evaluate c inc
  rw [hend]
  refine ⟨?_, ?_, fun next hnext => ?_⟩
  · rw [(State.SearchStep.evaluate z c).own, hz]; rfl
  · rw [(State.SearchStep.evaluate z c).own, hz]; rfl
  · rcases z.evaluate_takesValid c with hkept | ⟨l, htaken, -⟩
    · rw [hkept, hz] at hnext
      cases hnext
    · rw [htaken] at hnext
      obtain rfl := Option.some.inj hnext
      rfl

/-! ### All turns of a completion -/

/-- What the turns of a completion leave a channel with, which had an incoming set before them: a set that waits is as it
was, a running one has counted its block or has become the active one (R110, R111). -/
structure ChannelState.Advanced (x : ChannelState) (inc : Incoming) (y : ChannelState) : Prop where
  waits  : inc.running = false → y.incoming = some inc ∧ y.active = x.active ∧
    y.activeStates = x.activeStates ∧ y.incomingStates = x.incomingStates
  counts : inc.running = true → inc.k < 8 → y.incoming = some { inc with k := inc.k + 1 } ∧ y.active = x.active ∧
    y.activeStates = x.activeStates ∧ y.incomingStates = x.incomingStates
  ends   : inc.running = true → 8 ≤ inc.k → y.active = some inc.line ∧ y.activeStates = x.incomingStates ∧
    ∀ next, y.incoming = some next → next.k = 1

theorem State.advanceCrossfade_advanced {s : State} {c : Channel} {inc : Incoming}
    (hinc : (s.channel c).incoming = some inc) : (s.channel c).Advanced inc ((s.advanceCrossfade c).channel c) where
  waits h := by rw [State.advanceCrossfade_waits hinc h]; exact ⟨hinc, rfl, rfl, rfl⟩
  counts h hk := by
    rw [State.advanceCrossfade_counts hinc h hk, State.channel_setChannel_same]
    exact ⟨rfl, rfl, rfl, rfl⟩
  ends h hk := by
    rw [State.advanceCrossfade_ends hinc h hk]
    exact s.channel_endCrossfade c inc

/-- The turns of the other channels change nothing of it. -/
theorem State.turns_advanced {ord : List Channel} (hn : ord.Nodup) (hm : ∀ c, c ∈ ord) {s : State} {c : Channel}
    {inc : Incoming} (hinc : (s.channel c).incoming = some inc) :
    (s.channel c).Advanced inc ((s.inTurn State.advanceCrossfade ord).channel c) := by
  obtain ⟨u, -, hu, hown⟩ :=
    State.inTurn_own (f := State.advanceCrossfade) (fun c s => .advanceCrossfade s c) hn (hm c) s
  obtain ⟨hwaits, hcounts, hends⟩ := State.advanceCrossfade_advanced (s := u) (c := c) (inc := inc) (by rw [hu]; exact hinc)
  rw [hu] at hwaits hcounts hends
  rw [hown]
  exact ⟨hwaits, hcounts, hends⟩

/-! ### The next block start -/

theorem State.composing_of_awake {s : State} (h : s.awake = true) : s.composing = true := by
  revert h
  unfold State.composing State.takesCues State.awake
  generalize s.node.state = n
  cases n <;> decide

/-- The incoming set of an enabled channel runs from the block start on, that of another stays as it is (R108, R110). -/
theorem ChannelState.startBlock_incoming (x : ChannelState) (m : Composed) : (x.startBlock
    (if x.record.enabled = true then some m else none)).incoming =
      x.incoming.map fun i => { i with running := i.running || x.record.enabled } := by
  unfold ChannelState.startBlock
  cases x.record.enabled <;> cases x.incoming <;> simp

theorem State.Completed.startBlock {s u v t : State} (h : s.Completed u v t) (ha : s.awake = true) (c : Channel) :
    t.channel c = { v.channel c with
      composed := (t.channel c).composed, peak := 0, clip := false, overflow := false,
      incoming := (v.channel c).incoming.map fun i => { i with running := i.running || (v.channel c).record.enabled } } := by
  have hchannel := h.channel c
  rw [State.composing_of_awake ha, Bool.true_and] at hchannel
  rw [← ChannelState.startBlock_incoming (v.channel c) (v.compose c), hchannel]
  rfl

/-- Settles O17: the completion taken apart, the turns in the terms of the statement, and the block start after them. -/
theorem crossfadeTakesEightBlocks : Obligations.CrossfadeTakesEightBlocks := by
  intro s c inc hr ha hd hq hinc
  have hst : s.node.state ≠ .start := fun hs => by simp [State.awake, hs] at ha
  obtain ⟨u, v, ord, hn, hm, hu, hv, hexec⟩ := State.completion_spec hr hst hd hq
  have h : s.Completed u v v.blockStart := ⟨hu, by rw [hv]; exact .inTurn (fun c s => .advanceCrossfade s c) ord _, rfl⟩
  have hbefore : ∀ d, u.emit.channel d = { s.channel d with
      reduction := (v.blockStart.channel d).reduction, holdCount := (v.blockStart.channel d).holdCount } := fun d => by
    rw [h.channel_before, h.reduction, h.holdCount, ← ChannelState.limited_rest]
  have hturns := State.turns_advanced hn hm (s := u.emit) (c := c) (inc := inc) (by rw [hbefore]; exact hinc)
  have hrecord : (v.channel c).record = (s.channel c).record := by rw [h.turns.record, hbefore]
  rw [← hv, hbefore] at hturns
  obtain ⟨hwaits, hcounts, hends⟩ := hturns
  have hstart := h.startBlock ha
  refine ⟨v.blockStart, u.emit, v, ord, hexec, hn, hm, ?_, ?_, ?_, hbefore, ?_, ?_, ?_, hstart, ?_, ?_, ?_⟩
  · rw [State.emit_rest, hu.rest]
  · rw [State.emit_rest, hu.rest]
  · rw [State.emit_rest, hu.rest]
  · rw [hv, State.inTurn]
    congr 1
    funext x d
    exact State.advanceCrossfade_eq x d
  · rw [State.blockStart_rest]
  · rw [State.blockStart_rest]
  · intro hrunning
    obtain ⟨hincoming, hactive, hstates, hstates'⟩ := hwaits hrunning
    rw [hstart c, hincoming, hrecord, Option.map_some, hrunning, Bool.false_or]
    exact ⟨rfl, hactive, hstates, hstates'⟩
  · intro hrunning hk
    obtain ⟨hincoming, hactive, hstates, hstates'⟩ := hcounts hrunning hk
    rw [hstart c, hincoming, Option.map_some]
    exact ⟨by simp only [hrunning, Bool.true_or], hactive, hstates, hstates'⟩
  · intro hrunning hk
    obtain ⟨hactive, hstates, hnext⟩ := hends hrunning hk
    rw [hstart c]
    refine ⟨hactive, hstates, fun next hmap => ?_⟩
    obtain ⟨i, hi, rfl⟩ := Option.map_eq_some_iff.mp hmap
    exact hnext i hi

end Sys2Proof.Machine
end

section
/-!
Lines, fill queue, fill in flight and references in accord (R102, R105, R115 to R119, R122): the laws of the cache as facts
about these four parts alone, and what each change of the cache makes of them.
-/
namespace Sys2Proof.Machine

/-! ### The accord -/

/-- No line that is not INVALID holds the key (R117, R118). -/
def FreshKey (line : LineRef → Line) (key : CoefKey) : Prop := ∀ l, (line l).state ≠ .invalid → (line l).key ≠ key

/-- The laws of pins, keys and fills, and of the entries that wait for a way, without the size of the fill queue. -/
structure CacheSound (line : LineRef → Line) (queue : List QueueEntry) (fill : Option Fill) (refs : LineRef → Nat) :
    Prop where
  count    : ∀ l, (line l).pins = refs l
  pinned   : ∀ l, 0 < (line l).pins → (line l).state = .valid
  place    : ∀ l, (line l).state ≠ .invalid → (line l).key.set = l.set
  single   : ∀ l m : LineRef, l.set = m.set → (line l).state ≠ .invalid → (line m).state ≠ .invalid →
    (line l).key = (line m).key → l = m
  keys     : (queue.map (·.key)).Nodup
  queued   : ∀ e ∈ queue, ∀ l, e.line = some l → (line l).state = .filling ∧ (line l).key = e.key
  flying   : ∀ f, fill = some f → (line f.line).state = .filling ∧ (line f.line).key = f.key ∧ ∀ e ∈ queue, e.key ≠ f.key
  filling  : ∀ l, (line l).state = .filling → (∃ e ∈ queue, e.line = some l) ∨ ∃ f, fill = some f ∧ f.line = l
  lineless : ∀ e ∈ queue, e.line = none → FreshKey line e.key

theorem LineState.ne_invalid_of_filling {x : LineState} (h : x = .filling) : x ≠ .invalid := by rw [h]; nofun

theorem mem_middle_iff {α : Type} {before after : List α} {x y : α} :
    x ∈ before ++ y :: after ↔ x = y ∨ x ∈ before ++ after := by
  rw [List.mem_append, List.mem_cons, List.mem_append, or_left_comm]

theorem sublist_middle {α : Type} (before after : List α) (y : α) : (before ++ after).Sublist (before ++ y :: after) :=
  (List.sublist_cons_self y after).append_left before

/-- The queue holds one entry per key. -/
theorem QueueEntry.eq_of_key {queue : List QueueEntry} (h : (queue.map (·.key)).Nodup) {e d : QueueEntry} (he : e ∈ queue)
    (hd : d ∈ queue) (hkey : e.key = d.key) : e = d := List.inj_on_of_nodup_map h he hd hkey

namespace CacheSound

variable {line line' : LineRef → Line} {queue queue' : List QueueEntry} {fill fill' : Option Fill}
  {refs refs' : LineRef → Nat}

/-- A line that is not VALID is held by no channel. -/
theorem unpinned (h : CacheSound line queue fill refs) {l : LineRef} (hl : (line l).state ≠ .valid) : (line l).pins = 0 := by
  by_contra hpins
  exact hl (h.pinned l (Nat.pos_of_ne_zero hpins))

/-- A key that no line of its set holds is held by none. -/
theorem fresh_of_set (h : CacheSound line queue fill refs) {key : CoefKey}
    (hset : ∀ l, l.set = key.set → (line l).state ≠ .invalid → (line l).key ≠ key) : FreshKey line key := fun l hl hkey =>
  hset l (by rw [← h.place l hl, hkey]) hl hkey

/-- An entry for a key that no line holds waits for a way. -/
theorem line_none_of_fresh (h : CacheSound line queue fill refs) {e : QueueEntry} (he : e ∈ queue)
    (hfresh : FreshKey line e.key) : e.line = none := by
  by_contra hline
  obtain ⟨l, hl⟩ := Option.ne_none_iff_exists'.mp hline
  obtain ⟨hstate, hkey⟩ := h.queued e he l hl
  exact hfresh l (LineState.ne_invalid_of_filling hstate) hkey

/-- A free way made FILLING for a key that is on no line, with the key's one entry given the line (R118, R121). -/
theorem takeWay (h : CacheSound line queue fill refs) {l : LineRef} {key : CoefKey}
    (hline : ∀ m, line' m = if m = l then Line.fillingFor key else line m) (hfree : (line l).state ≠ .filling)
    (hpins : (line l).pins = 0) (hset : key.set = l.set) (hfresh : FreshKey line key)
    (hkeys : (queue'.map (·.key)).Nodup) (hnew : { key := key, line := some l } ∈ queue')
    (hold : ∀ e ∈ queue', e ∈ queue ∨ e = { key := key, line := some l })
    (hkept : ∀ e ∈ queue, e.key ≠ key → e ∈ queue') : CacheSound line' queue' fill refs := by
  have hsame : line' l = Line.fillingFor key := by rw [hline, if_pos rfl]
  have hother : ∀ {m}, m ≠ l → line' m = line m := fun hm => by rw [hline, if_neg hm]
  have hfilling : ∀ {m}, (line m).state = .filling → m ≠ l := by rintro m hm rfl; exact hfree hm
  refine ⟨fun m => ?_, fun m hm => ?_, fun m hm => ?_, fun m n hmn hm hn hkey => ?_, hkeys, fun e he m hm => ?_,
    fun f hf => ?_, fun m hm => ?_, fun e he hnone m hm hkey => ?_⟩
  · by_cases hml : m = l
    · rw [hml, hsame, ← h.count, hpins]; rfl
    · rw [hother hml, h.count]
  · by_cases hml : m = l
    · rw [hml, hsame] at hm; cases hm
    · rw [hother hml] at hm ⊢; exact h.pinned m hm
  · by_cases hml : m = l
    · rw [hml, hsame]; exact hset
    · rw [hother hml] at hm ⊢; exact h.place m hm
  · by_cases hml : m = l
    · by_cases hnl : n = l
      · rw [hml, hnl]
      · rw [hml, hsame, hother hnl] at hkey
        rw [hother hnl] at hn
        exact absurd hkey.symm (hfresh n hn)
    · rw [hother hml] at hm hkey
      by_cases hnl : n = l
      · rw [hnl, hsame] at hkey
        exact absurd hkey (hfresh m hm)
      · rw [hother hnl] at hn hkey
        exact h.single m n hmn hm hn hkey
  · rcases hold e he with hmem | rfl
    · obtain ⟨hstate, hkey⟩ := h.queued e hmem m hm
      rw [hother (hfilling hstate)]
      exact ⟨hstate, hkey⟩
    · obtain rfl := Option.some.inj hm
      rw [hsame]
      exact ⟨rfl, rfl⟩
  · obtain ⟨hstate, hkey, hqueue⟩ := h.flying f hf
    rw [hother (hfilling hstate)]
    refine ⟨hstate, hkey, fun e he => ?_⟩
    rcases hold e he with hmem | rfl
    · exact hqueue e hmem
    · rw [← hkey]
      exact (hfresh _ (LineState.ne_invalid_of_filling hstate)).symm
  · by_cases hml : m = l
    · exact .inl ⟨_, hnew, by rw [hml]⟩
    · rw [hother hml] at hm
      refine (h.filling m hm).imp_left ?_
      rintro ⟨e, he, hem⟩
      obtain ⟨-, hkey⟩ := h.queued e he m hem
      refine ⟨e, hkept e he ?_, hem⟩
      rw [← hkey]
      exact hfresh m (LineState.ne_invalid_of_filling hm)
  · rcases hold e he with hmem | rfl
    · by_cases hml : m = l
      · rw [hml, hsame] at hkey
        have heq := QueueEntry.eq_of_key hkeys hnew he hkey
        rw [← heq] at hnone
        cases hnone
      · rw [hother hml] at hm hkey
        exact h.lineless e hmem hnone m hm hkey
    · cases hnone

/-- Entries leave the queue or the fill in flight ends, and FILLING lines that none of what stays is for become INVALID
(R120, R125, R127, R130). -/
theorem drop (h : CacheSound line queue fill refs)
    (hline : ∀ m, line' m = line m ∨
      (line m).state = .filling ∧ (line' m).state = .invalid ∧ (line' m).pins = (line m).pins)
    (hqueue : queue'.Sublist queue) (hfill : ∀ f, fill' = some f → fill = some f)
    (hqueued : ∀ e ∈ queue', ∀ l, e.line = some l → line' l = line l)
    (hflying : ∀ f, fill' = some f → line' f.line = line f.line)
    (hfilling : ∀ m, (line' m).state = .filling → (∃ e ∈ queue', e.line = some m) ∨ ∃ f, fill' = some f ∧ f.line = m) :
    CacheSound line' queue' fill' refs := by
  have hpins : ∀ m, (line' m).pins = (line m).pins := fun m => by
    rcases hline m with heq | ⟨-, -, heq⟩
    · rw [heq]
    · exact heq
  have hstays : ∀ {m}, (line' m).state ≠ .invalid → line' m = line m := fun {m} hm =>
    (hline m).resolve_right fun hgone => hm hgone.2.1
  refine ⟨fun m => (hpins m).trans (h.count m), fun m hm => ?_, fun m hm => ?_, fun m n hmn hm hn hkey => ?_,
    (hqueue.map _).nodup h.keys, fun e he l hl => ?_, fun f hf => ?_, hfilling, fun e he hnone m hm => ?_⟩
  · rw [hpins] at hm
    rcases hline m with heq | ⟨hfill, -, -⟩
    · rw [heq]; exact h.pinned m hm
    · rw [h.pinned m hm] at hfill; cases hfill
  · have heq := hstays hm
    rw [heq] at hm ⊢; exact h.place m hm
  · have heqm := hstays hm
    have heqn := hstays hn
    rw [heqm] at hm hkey
    rw [heqn] at hn hkey
    exact h.single m n hmn hm hn hkey
  · rw [hqueued e he l hl]; exact h.queued e (hqueue.subset he) l hl
  · obtain ⟨hstate, hkey, hother⟩ := h.flying f (hfill f hf)
    rw [hflying f hf]
    exact ⟨hstate, hkey, fun e he => hother e (hqueue.subset he)⟩
  · have heq := hstays hm
    rw [heq] at hm ⊢; exact h.lineless e (hqueue.subset he) hnone m hm

/-- The line of a fill that has passed is VALID (R124). -/
theorem pass {f : Fill} (h : CacheSound line queue (some f) refs)
    (hsame : (line' f.line).state = .valid ∧ (line' f.line).key = (line f.line).key ∧ (line' f.line).pins = (line f.line).pins)
    (hother : ∀ m, m ≠ f.line → line' m = line m) : CacheSound line' queue none refs := by
  obtain ⟨hvalid, hkey, hpins⟩ := hsame
  obtain ⟨hstate, hfkey, hqueue⟩ := h.flying f rfl
  have hkeys : ∀ m, (line' m).key = (line m).key := fun m => by
    by_cases hm : m = f.line
    · rw [hm, hkey]
    · rw [hother m hm]
  have hheld : ∀ m, (line' m).state ≠ .invalid → (line m).state ≠ .invalid := fun m hm => by
    by_cases hmf : m = f.line
    · rw [hmf]; exact LineState.ne_invalid_of_filling hstate
    · rw [← hother m hmf]; exact hm
  refine ⟨fun m => ?_, fun m hm => ?_, fun m hm => ?_, fun m n hmn hm hn hmkey => ?_, h.keys, fun e he l hl => ?_, nofun,
    fun m hm => ?_, fun e he hnone m hm => ?_⟩
  · by_cases hmf : m = f.line
    · rw [hmf, hpins, h.count]
    · rw [hother m hmf, h.count]
  · by_cases hmf : m = f.line
    · rw [hmf]; exact hvalid
    · rw [hother m hmf] at hm ⊢; exact h.pinned m hm
  · rw [hkeys]; exact h.place m (hheld m hm)
  · rw [hkeys, hkeys] at hmkey
    exact h.single m n hmn (hheld m hm) (hheld n hn) hmkey
  · obtain ⟨hlstate, hlkey⟩ := h.queued e he l hl
    have hlf : l ≠ f.line := by
      rintro rfl
      exact hqueue e he (hlkey.symm.trans hfkey)
    rw [hother l hlf]
    exact ⟨hlstate, hlkey⟩
  · have hmf : m ≠ f.line := by
      rintro rfl
      rw [hvalid] at hm
      cases hm
    rw [hother m hmf] at hm
    refine (h.filling m hm).imp_right ?_
    rintro ⟨g, hg, hgm⟩
    obtain rfl := Option.some.inj hg
    exact absurd hgm.symm hmf
  · rw [hkeys]
    exact h.lineless e he hnone m (hheld m hm)

/-- Pins and references change together, on VALID lines (R115). -/
theorem repin (h : CacheSound line queue fill refs) (hline : ∀ m, line' m = { line m with pins := refs' m })
    (hvalid : ∀ m, 0 < refs' m → (line m).state = .valid) : CacheSound line' queue fill refs' := by
  have hkey : ∀ m, (line' m).key = (line m).key := fun m => by rw [hline]
  have hstate : ∀ m, (line' m).state = (line m).state := fun m => by rw [hline]
  have hpins : ∀ m, (line' m).pins = refs' m := fun m => by rw [hline]
  refine ⟨hpins, ?_, ?_, ?_, h.keys, ?_, ?_, ?_, ?_⟩ <;> simp only [FreshKey, hkey, hstate, hpins]
  · exact hvalid
  · exact h.place
  · exact h.single
  · exact h.queued
  · exact h.flying
  · exact h.filling
  · exact h.lineless

/-- An entry without a line for a key that is on no line and in no entry (R118, R119). -/
theorem enqueue (h : CacheSound line queue fill refs) {key : CoefKey} (hfresh : FreshKey line key)
    (hnew : ∀ e ∈ queue, e.key ≠ key) : CacheSound line (queue ++ [{ key := key, line := none }]) fill refs := by
  have hmem : ∀ {e}, e ∈ queue ++ [{ key := key, line := none }] → e ∈ queue ∨ e = { key := key, line := none } :=
    fun he => by simpa using he
  refine ⟨h.count, h.pinned, h.place, h.single, ?_, fun e he l hl => ?_, fun f hf => ?_, fun l hl => ?_,
    fun e he hnone => ?_⟩
  · rw [List.map_append, List.nodup_append]
    refine ⟨h.keys, by simp, ?_⟩
    simpa using hnew
  · rcases hmem he with hold | rfl
    · exact h.queued e hold l hl
    · cases hl
  · obtain ⟨hstate, hkey, hqueue⟩ := h.flying f hf
    refine ⟨hstate, hkey, fun e he => ?_⟩
    rcases hmem he with hold | rfl
    · exact hqueue e hold
    · rw [← hkey]
      exact (hfresh _ (LineState.ne_invalid_of_filling hstate)).symm
  · refine (h.filling l hl).imp_left ?_
    rintro ⟨e, he, hel⟩
    exact ⟨e, List.mem_append_left _ he, hel⟩
  · rcases hmem he with hold | rfl
    · exact h.lineless e hold hnone
    · exact hfresh

/-- An entry's fill is in flight (R122). -/
theorem launch {before after : List QueueEntry} {f : Fill}
    (h : CacheSound line (before ++ { key := f.key, line := some f.line } :: after) none refs) :
    CacheSound line (before ++ after) (some f) refs := by
  have hsub := sublist_middle before after { key := f.key, line := some f.line }
  obtain ⟨hstate, hkey⟩ := h.queued { key := f.key, line := some f.line } (by simp) f.line rfl
  refine ⟨h.count, h.pinned, h.place, h.single, (hsub.map _).nodup h.keys, fun e he => h.queued e (hsub.subset he),
    fun g hg => ?_, fun l hl => ?_, fun e he => h.lineless e (hsub.subset he)⟩
  · obtain rfl := Option.some.inj hg
    refine ⟨hstate, hkey, fun e he hek => ?_⟩
    have hkeys := h.keys
    rw [List.map_append, List.map_cons] at hkeys
    refine (List.nodup_middle.mp hkeys).notMem ?_
    rw [← List.map_append]
    exact List.mem_map.mpr ⟨e, he, hek⟩
  · rcases h.filling l hl with ⟨e, he, hel⟩ | ⟨g, hg, -⟩
    · rcases mem_middle_iff.mp he with rfl | hrest
      · exact .inr ⟨f, rfl, Option.some.inj hel⟩
      · exact .inl ⟨e, hrest, hel⟩
    · cases hg

end CacheSound

/-! ### Channels that wait -/

/-- A channel that waits for a fill waits on the FILLING line of its wanted key, a QUEUED one on an entry without a line for
it; neither runs a crossfade, and both are enabled (R102, R105, R107). -/
structure ChannelState.Served (x : ChannelState) (line : LineRef → Line) (queue : List QueueEntry) : Prop where
  waiting : ∀ l, x.request = .waitingFill l → (line l).state = .filling ∧ (line l).key = x.wanted ∧
    x.incoming = none ∧ x.record.enabled = true
  queued  : x.request = .queued → (∃ e ∈ queue, e.key = x.wanted ∧ e.line = none) ∧
    x.incoming = none ∧ x.record.enabled = true

namespace ChannelState.Served

variable {x y : ChannelState} {line line' : LineRef → Line} {queue queue' : List QueueEntry}

theorem of_idle (h : x.request = .idle) : x.Served line queue :=
  ⟨fun l hl => (by rw [h] at hl; cases hl), fun hq => (by rw [h] at hq; cases hq)⟩

theorem idle_of_incoming (h : x.Served line queue) (hincoming : x.incoming ≠ none) : x.request = .idle := by
  cases hreq : x.request with
  | idle => rfl
  | waitingFill l => exact absurd (h.waiting l hreq).2.2.1 hincoming
  | queued => exact absurd (h.queued hreq).2.1 hincoming

theorem idle_of_disabled (h : x.Served line queue) (hdisabled : x.record.enabled = false) : x.request = .idle := by
  have hne : x.record.enabled ≠ true := by rw [hdisabled]; nofun
  cases hreq : x.request with
  | idle => rfl
  | waitingFill l => exact absurd (h.waiting l hreq).2.2.2 hne
  | queued => exact absurd (h.queued hreq).2.2 hne

/-- What the channel waits on stays: its line as it is but for the pins, its entry in the queue. -/
theorem keep (h : x.Served line queue)
    (hline : ∀ l, x.request = .waitingFill l → (line' l).state = (line l).state ∧ (line' l).key = (line l).key)
    (hqueue : x.request = .queued → ∀ e ∈ queue, e.key = x.wanted → e.line = none → e ∈ queue') : x.Served line' queue' := by
  refine ⟨fun l hl => ?_, fun hq => ?_⟩
  · obtain ⟨hstate, hkey⟩ := hline l hl
    rw [hstate, hkey]
    exact h.waiting l hl
  · obtain ⟨⟨e, he, hkey, hnone⟩, hrest⟩ := h.queued hq
    exact ⟨⟨e, hqueue hq e he hkey hnone, hkey, hnone⟩, hrest⟩

end ChannelState.Served

end Sys2Proof.Machine
end

section
/-!
The cache at work under its laws (R103 to R111, R115 to R121): placements, pins, evaluations, key changes and crossfade ends
keep lines, fill queue, references and requests in accord.
-/
namespace Sys2Proof.Machine

/-! ### References -/

theorem State.references_eq_sum (s : State) (l : LineRef) : s.references l = ∑ c : Channel, (s.channel c).references l := by
  have hlist : s.channels.toList = List.ofFn fun c : Channel => s.channels[c] := by
    apply List.ext_getElem
    · simp
    · intro i h1 h2
      simp only [List.getElem_ofFn, Vector.getElem_toList, Fin.getElem_fin]
  rw [State.references, hlist, List.map_ofFn, List.sum_ofFn]
  rfl

theorem State.references_congr {s t : State} {l : LineRef}
    (h : ∀ c, (t.channel c).references l = (s.channel c).references l) : t.references l = s.references l := by
  rw [State.references_eq_sum, State.references_eq_sum]
  exact Finset.sum_congr rfl fun c _ => h c

theorem State.references_setChannel (s : State) (c : Channel) (x : ChannelState) (l : LineRef) :
    (s.setChannel c x).references l + (s.channel c).references l = s.references l + x.references l := by
  have hrest : ∑ d ∈ Finset.univ.erase c, ((s.setChannel c x).channel d).references l =
      ∑ d ∈ Finset.univ.erase c, (s.channel d).references l :=
    Finset.sum_congr rfl fun d hd => by rw [State.channel_setChannel_other _ (Finset.ne_of_mem_erase hd).symm]
  rw [State.references_eq_sum, State.references_eq_sum, ← Finset.add_sum_erase _ _ (Finset.mem_univ c),
    ← Finset.add_sum_erase Finset.univ (fun d => (s.channel d).references l) (Finset.mem_univ c), hrest,
    State.channel_setChannel_same]
  omega

/-! ### Contexts -/

/-- What the laws of the cache speak of in a channel (R102). -/
structure CacheContext where
  enabled  : Bool
  active   : Option LineRef
  incoming : Option LineRef
  wanted   : CoefKey
  request  : Request

/-- The context of a channel. -/
def ChannelState.context (x : ChannelState) : CacheContext where
  enabled := x.record.enabled
  active := x.active
  incoming := x.incoming.map (·.line)
  wanted := x.wanted
  request := x.request

section
variable {x y : ChannelState} (h : y.context = x.context)
include h

theorem ChannelState.references_of_context (l : LineRef) : y.references l = x.references l := by
  have hactive : y.active = x.active := congrArg CacheContext.active h
  have hincoming : y.incoming.map (·.line) = x.incoming.map (·.line) := congrArg CacheContext.incoming h
  rw [ChannelState.references, hactive, hincoming, ChannelState.references]

theorem ChannelState.incoming_none_of_context : y.incoming = none ↔ x.incoming = none := by
  have hincoming : y.incoming.map (·.line) = x.incoming.map (·.line) := congrArg CacheContext.incoming h
  rw [← Option.map_eq_none_iff (f := (·.line)), hincoming, Option.map_eq_none_iff]

theorem ChannelState.Served.of_context {line : LineRef → Line} {queue : List QueueEntry} (hx : x.Served line queue) :
    y.Served line queue := by
  have henabled : y.record.enabled = x.record.enabled := congrArg CacheContext.enabled h
  have hwanted : y.wanted = x.wanted := congrArg CacheContext.wanted h
  have hrequest : y.request = x.request := congrArg CacheContext.request h
  have hincoming := ChannelState.incoming_none_of_context h
  refine ⟨fun l hl => ?_, fun hq => ?_⟩
  · rw [hincoming, hwanted, henabled]
    exact hx.waiting l (hrequest ▸ hl)
  · rw [hincoming, hwanted, henabled]
    exact hx.queued (hrequest ▸ hq)

end

/-! ### The laws of a state's cache -/

/-- Lines, fill queue, fill in flight and references of the state agree. -/
def State.CacheOrder (s : State) : Prop := CacheSound s.line s.library.queue s.library.fill s.references

/-- So do the channels' requests. -/
structure State.Accord (s : State) : Prop where
  order  : s.CacheOrder
  served : ∀ c, (s.channel c).Served s.line s.library.queue

/-- The laws of the cache that no node state plays in. -/
structure State.CacheCore (s : State) : Prop where
  accord : s.Accord
  size   : s.library.queue.length ≤ 16

section
variable {s t : State}

theorem State.CacheOrder.congr (h : s.CacheOrder) (hline : ∀ l, t.line l = s.line l)
    (hqueue : t.library.queue = s.library.queue) (hfill : t.library.fill = s.library.fill)
    (hrefs : ∀ c l, (t.channel c).references l = (s.channel c).references l) : t.CacheOrder := by
  have hreferences : t.references = s.references := funext fun l => State.references_congr fun c => hrefs c l
  rw [State.CacheOrder, funext hline, hqueue, hfill, hreferences]
  exact h

theorem State.CacheCore.congr (h : s.CacheCore) (hline : ∀ l, t.line l = s.line l)
    (hqueue : t.library.queue = s.library.queue) (hfill : t.library.fill = s.library.fill)
    (hcontext : ∀ c, (t.channel c).context = (s.channel c).context) : t.CacheCore := by
  refine ⟨⟨h.accord.order.congr hline hqueue hfill fun c => ChannelState.references_of_context (hcontext c), fun c => ?_⟩, ?_⟩
  · rw [funext hline, hqueue]
    exact (h.accord.served c).of_context (hcontext c)
  · rw [hqueue]; exact h.size

theorem State.RequestStep.references (h : s.RequestStep t) (c : Channel) (l : LineRef) :
    (t.channel c).references l = (s.channel c).references l := by rw [h c]; rfl

/-- One channel's context changed, with the references it had. -/
theorem State.Accord.setChannel (h : s.Accord) {c : Channel} {x : ChannelState}
    (hrefs : ∀ l, x.references l = (s.channel c).references l) (hserved : x.Served s.line s.library.queue) :
    (s.setChannel c x).Accord := by
  have hother : ∀ d, d ≠ c → (s.setChannel c x).channel d = s.channel d := fun d hd =>
    s.channel_setChannel_other (Ne.symm hd) x
  refine ⟨h.order.congr (fun _ => rfl) rfl rfl fun d l => ?_, fun d => ?_⟩
  · by_cases hd : d = c
    · rw [hd, State.channel_setChannel_same, hrefs]
    · rw [hother d hd]
  · by_cases hd : d = c
    · rw [hd, State.channel_setChannel_same]; exact hserved
    · rw [hother d hd]; exact h.served d

theorem State.CacheCore.setChannel (h : s.CacheCore) {c : Channel} {x : ChannelState}
    (hrefs : ∀ l, x.references l = (s.channel c).references l) (hserved : x.Served s.line s.library.queue) :
    (s.setChannel c x).CacheCore := ⟨h.accord.setChannel hrefs hserved, h.size⟩

theorem State.CacheCore.countCache (h : s.CacheCore) (k : CacheCounter) : (s.countCache k).CacheCore :=
  h.congr (fun l => s.countCache_line k l) (by rw [State.countCache_library]) (by rw [State.countCache_library])
    fun c => by rw [State.countCache_channel]

theorem State.CacheCore.dropRequest (h : s.CacheCore) (c : Channel) : (s.setRequest c .idle).CacheCore :=
  h.setChannel (fun _ => rfl) (.of_idle rfl)

end

/-! ### Allocations (R118) -/

theorem CacheSet.invalidWay_spec {x : CacheSet} {w : Fin 4} (h : x.invalidWay = some w) : x.ways[w].state = .invalid := by
  have hfound := List.find?_some h
  rwa [beq_iff_eq] at hfound

theorem CacheSet.victim_spec {x : CacheSet} {w : Fin 4} (h : x.victim = some w) : x.ways[w].Unheld := by
  have hfound := List.find?_some h
  rwa [Bool.and_eq_true, beq_iff_eq, beq_iff_eq] at hfound

theorem CacheSet.allocate_free {x y : CacheSet} {key : CoefKey} {w : Fin 4} (h : x.allocate key = some (w, y)) :
    x.ways[w].state = .invalid ∨ x.ways[w].Unheld := by
  unfold CacheSet.allocate at h
  split at h
  · next v hv =>
    obtain ⟨rfl, -⟩ := Prod.mk.inj (Option.some.inj h)
    exact .inl (CacheSet.invalidWay_spec hv)
  · split at h
    · next v hv =>
      obtain ⟨rfl, -⟩ := Prod.mk.inj (Option.some.inj h)
      exact .inr (CacheSet.victim_spec hv)
    · cases h

/-- A line that an allocation takes is not FILLING, and no channel holds it. -/
theorem State.CacheOrder.allocated_free {s : State} (h : s.CacheOrder) {key : CoefKey} {w : Fin 4} {x : CacheSet}
    (hsome : s.library.sets[key.set].allocate key = some (w, x)) :
    (s.line { set := key.set, way := w }).state ≠ .filling ∧ (s.line { set := key.set, way := w }).pins = 0 := by
  rcases CacheSet.allocate_free hsome with hinvalid | ⟨hvalid, hpins⟩
  · have hstate : (s.line { set := key.set, way := w }).state = .invalid := hinvalid
    exact ⟨by rw [hstate]; nofun, h.unpinned (by rw [hstate]; nofun)⟩
  · have hstate : (s.line { set := key.set, way := w }).state = .valid := hvalid
    exact ⟨by rw [hstate]; nofun, hpins⟩

theorem State.line_allocated {s : State} {key : CoefKey} {w : Fin 4} {x : CacheSet}
    (hsome : s.library.sets[key.set].allocate key = some (w, x)) (m : LineRef) :
    (s.setCacheSet key.set x).line m =
      if m = { set := key.set, way := w } then Line.fillingFor key else s.line m := by
  rw [State.line_setCacheSet]
  by_cases hset : m.set = key.set
  · rw [if_pos hset, CacheSet.allocate_way hsome, State.way_of_set s hset]
    obtain ⟨i, v⟩ := m
    obtain rfl : i = key.set := hset
    simp only [LineRef.mk.injEq, true_and]
  · rw [if_neg hset, if_neg fun hm => hset (by rw [hm])]

/-! ### A way come free (R107, R121) -/

/-- A way come free changes nothing, or the oldest entry that waits in the set is given a way. -/
theorem State.wayFree_cases (s : State) (i : Fin 16) : s.wayFree i = s ∨
    ∃ before after key w x, s.library.queue = before ++ { key := key, line := none } :: after ∧ key.set = i ∧
      s.library.sets[key.set].allocate key = some (w, x) ∧
      s.wayFree i = ((s.setCacheSet key.set x).setQueue
        (before ++ { key := key, line := some { set := key.set, way := w } } :: after)).attachQueued key
          { set := key.set, way := w } := by
  cases hfind : s.library.queue.find? fun e => e.line == none && e.key.set == i with
  | none =>
    left
    rw [State.wayFree, hfind]
  | some e =>
    obtain ⟨hwaits, before, after, hq, hbefore⟩ := List.find?_eq_some_iff_append.mp hfind
    obtain ⟨key, line⟩ := e
    obtain ⟨rfl, rfl⟩ := QueueEntry.waitsIn_iff.mp hwaits
    have hfirst : ∀ e ∈ before, ¬ e.WaitsIn key.set := fun e he hw => by
      have hnot := hbefore e he
      rw [QueueEntry.waitsIn_iff.mpr hw] at hnot
      cases hnot
    cases hsome : s.library.sets[key.set].allocate key with
    | none => exact .inl (State.wayFree_noWay hq hfirst hsome)
    | some r => exact .inr ⟨before, after, key, r.1, r.2, hq, rfl, hsome, State.wayFree_way hq hfirst hsome⟩

section
variable {s : State}

theorem State.CacheOrder.wayFree (h : s.CacheOrder) (i : Fin 16) : (s.wayFree i).CacheOrder := by
  rcases s.wayFree_cases i with heq | ⟨before, after, key, w, x, hq, -, hsome, heq⟩
  · rw [heq]; exact h
  · have hrefs : (s.wayFree i).references = s.references :=
      funext fun l => State.references_congr fun c => (State.RequestStep.wayFree s i).references c l
    obtain ⟨hfree, hpins⟩ := h.allocated_free hsome
    have hmem : { key := key, line := none } ∈ s.library.queue := by rw [hq]; simp
    have hkeys : (s.library.queue.map (·.key)).Nodup := h.keys
    rw [State.CacheOrder, hrefs, heq]
    refine CacheSound.takeWay h (l := { set := key.set, way := w }) (fun m => ?_) hfree hpins rfl
      (h.lineless _ hmem rfl) ?_ ?_ (fun e he => ?_) (fun e he hne => ?_)
    · rw [State.attachQueued_line]
      exact State.line_allocated hsome m
    · rw [hq] at hkeys
      rw [State.attachQueued_rest]
      simpa using hkeys
    · rw [State.attachQueued_rest]
      exact List.mem_append_right _ (List.mem_cons_self ..)
    · rw [State.attachQueued_rest] at he
      rw [hq, mem_middle_iff]
      exact (mem_middle_iff.mp he).symm.imp_left .inr
    · rw [State.attachQueued_rest]
      rw [hq] at he
      refine mem_middle_iff.mpr (.inr ((mem_middle_iff.mp he).resolve_left ?_))
      rintro rfl
      exact hne rfl

/-- The channels QUEUED on the key wait for its fill now; what the others wait on stays. -/
theorem State.Accord.wayFree (h : s.Accord) (i : Fin 16) : (s.wayFree i).Accord := by
  refine ⟨h.order.wayFree i, fun c => ?_⟩
  rcases s.wayFree_cases i with heq | ⟨before, after, key, w, x, hq, -, hsome, heq⟩
  · rw [heq]; exact h.served c
  · obtain ⟨hfree, -⟩ := h.order.allocated_free hsome
    have hline : ∀ m, (s.wayFree i).line m =
        if m = { set := key.set, way := w } then Line.fillingFor key else s.line m := fun m => by
      rw [heq, State.attachQueued_line]
      exact State.line_allocated hsome m
    have hqueue : (s.wayFree i).library.queue =
        before ++ { key := key, line := some { set := key.set, way := w } } :: after := by
      rw [heq, State.attachQueued_rest]; rfl
    have hchannel : (s.wayFree i).channel c = if (s.channel c).request = .queued ∧ (s.channel c).wanted = key then
        { s.channel c with request := .waitingFill { set := key.set, way := w } } else s.channel c := by
      rw [heq, State.channel_attachQueued]
      rfl
    rw [hchannel]
    split
    · next hattach =>
      obtain ⟨hqueued, hwanted⟩ := hattach
      refine ⟨fun l hl => ?_, nofun⟩
      obtain rfl := Request.waitingFill.inj hl
      rw [hline, if_pos rfl]
      exact ⟨rfl, hwanted.symm, ((h.served c).queued hqueued).2⟩
    · next hkept =>
      refine (h.served c).keep (fun l hl => ?_) fun hqueued e he hkey hnone => ?_
      · rw [hline, if_neg]
        · exact ⟨rfl, rfl⟩
        · rintro rfl
          exact hfree ((h.served c).waiting _ hl).1
      · have hne : e ≠ { key := key, line := none } := by
          rintro rfl
          exact hkept ⟨hqueued, hkey.symm⟩
        rw [hqueue]
        rw [hq] at he
        exact mem_middle_iff.mpr (.inr ((mem_middle_iff.mp he).resolve_left hne))

theorem State.length_wayFree (s : State) (i : Fin 16) : (s.wayFree i).library.queue.length = s.library.queue.length := by
  rcases s.wayFree_cases i with heq | ⟨before, after, key, w, x, hq, -, -, heq⟩
  · rw [heq]
  · rw [heq, State.attachQueued_rest, hq]
    show (before ++ _ :: after).length = _
    rw [List.length_append, List.length_append, List.length_cons, List.length_cons]

theorem State.CacheCore.wayFree (h : s.CacheCore) (i : Fin 16) : (s.wayFree i).CacheCore :=
  ⟨h.accord.wayFree i, by rw [State.length_wayFree]; exact h.size⟩

end

/-! ### References taken and given up (R105, R108, R111, R115) -/

theorem State.unpin_cases (s : State) (l : LineRef) :
    s.unpin l = (s.lowerPin l).wayFree l.set ∨ s.unpin l = s.lowerPin l := by
  by_cases h : (s.line l).state = .valid ∧ (s.line l).pins ≤ 1
  · exact .inl (State.unpin_last h.1 h.2)
  · refine .inr (State.unpin_held ?_)
    by_cases hvalid : (s.line l).state = .valid
    · exact .inr (not_le.mp fun hpins => h ⟨hvalid, hpins⟩)
    · exact .inl hvalid

section
variable {s : State}

/-- Channel c has given up one reference that the line's pin still counts, and takes none. -/
theorem State.CacheOrder.lowerPin (h : s.CacheOrder) {c : Channel} {x : ChannelState} {l : LineRef}
    (hrefs : ∀ m, x.references m + (if m = l then 1 else 0) = (s.channel c).references m) :
    ((s.setChannel c x).lowerPin l).CacheOrder := by
  have hsum : ∀ m, (s.setChannel c x).references m + (if m = l then 1 else 0) = s.references m := fun m => by
    have := s.references_setChannel c x m
    have := hrefs m
    omega
  have hlowered : ((s.setChannel c x).lowerPin l).references = (s.setChannel c x).references :=
    funext fun m => State.references_congr fun d => rfl
  rw [State.CacheOrder, hlowered]
  refine CacheSound.repin h (fun m => ?_) fun m hm => h.pinned m ?_
  · have hcount : (s.line m).pins = s.references m := h.count m
    have := hsum m
    rw [State.lowerPin, State.line_setLine]
    split
    · next hlm =>
      subst hlm
      rw [if_pos rfl] at this
      rw [State.setChannel_line, show (s.setChannel c x).references l = (s.line l).pins - 1 by omega]
    · next hlm =>
      rw [if_neg (Ne.symm hlm)] at this
      rw [State.setChannel_line, show (s.setChannel c x).references m = (s.line m).pins by omega]
  · have hcount : (s.line m).pins = s.references m := h.count m
    have := hsum m
    omega

theorem State.Accord.lowerPin (h : s.Accord) {c : Channel} {x : ChannelState} {l : LineRef}
    (hrefs : ∀ m, x.references m + (if m = l then 1 else 0) = (s.channel c).references m) (hidle : x.request = .idle) :
    ((s.setChannel c x).lowerPin l).Accord := by
  refine ⟨h.order.lowerPin hrefs, fun d => ?_⟩
  have hline : ∀ m, (((s.setChannel c x).lowerPin l).line m).state = (s.line m).state ∧
      (((s.setChannel c x).lowerPin l).line m).key = (s.line m).key := fun m => by
    rw [State.lowerPin, State.line_setLine]
    split
    · next hlm => subst hlm; exact ⟨rfl, rfl⟩
    · exact ⟨rfl, rfl⟩
  by_cases hd : d = c
  · subst hd
    refine .of_idle ?_
    rw [State.lowerPin, State.setLine_channel, State.channel_setChannel_same, hidle]
  · rw [State.lowerPin, State.setLine_channel, State.channel_setChannel_other _ (Ne.symm hd)]
    exact (h.served d).keep (fun m _ => hline m) fun _ e he _ _ => he

/-- A channel that has given up its old active line, if it had one. -/
theorem State.CacheOrder.unpinActive (h : s.CacheOrder) {c : Channel} {x : ChannelState} {old : Option LineRef}
    (hrefs : ∀ m, x.references m + (if old = some m then 1 else 0) = (s.channel c).references m) :
    ((s.setChannel c x).unpinActive old).CacheOrder := by
  cases old with
  | none =>
    refine h.congr (fun _ => rfl) rfl rfl fun d m => ?_
    by_cases hd : d = c
    · subst hd; rw [State.unpinActive, State.channel_setChannel_same]; simpa using hrefs m
    · rw [State.unpinActive, State.channel_setChannel_other _ (Ne.symm hd)]
  | some l =>
    have hlow := h.lowerPin (c := c) (x := x) (l := l) fun m => by simpa [eq_comm] using hrefs m
    rcases (s.setChannel c x).unpin_cases l with heq | heq
    · rw [State.unpinActive, heq]; exact hlow.wayFree _
    · rw [State.unpinActive, heq]; exact hlow

theorem State.CacheCore.unpinActive (h : s.CacheCore) {c : Channel} {x : ChannelState} {old : Option LineRef}
    (hrefs : ∀ m, x.references m + (if old = some m then 1 else 0) = (s.channel c).references m)
    (hidle : x.request = .idle) : ((s.setChannel c x).unpinActive old).CacheCore := by
  cases old with
  | none => exact h.setChannel (fun m => by simpa using hrefs m) (.of_idle hidle)
  | some l =>
    have hlow : ((s.setChannel c x).lowerPin l).CacheCore :=
      ⟨h.accord.lowerPin (fun m => by simpa [eq_comm] using hrefs m) hidle, h.size⟩
    rcases (s.setChannel c x).unpin_cases l with heq | heq
    · rw [State.unpinActive, heq]; exact hlow.wayFree _
    · rw [State.unpinActive, heq]; exact hlow

/-- A channel without an incoming set takes a VALID line (R105, R108). -/
theorem State.CacheOrder.takeIncoming (h : s.CacheOrder) {c : Channel} (hincoming : (s.channel c).incoming = none)
    {l : LineRef} (hvalid : (s.line l).state = .valid) : (s.takeIncoming c l).CacheOrder := by
  have htaking : ∀ m, ((s.channel c).taking l).references m =
      (s.channel c).references m + if m = l then 1 else 0 := fun m => by
    simp [ChannelState.references, ChannelState.taking, hincoming, eq_comm]
  have hsum : ∀ m, (s.takeIncoming c l).references m = s.references m + if m = l then 1 else 0 := fun m => by
    have hset := (s.pin l).references_setChannel c ((s.channel c).taking l) m
    have hpin : (s.pin l).references m = s.references m := State.references_congr fun d => rfl
    have htaken := htaking m
    rw [hpin, State.pin_channel] at hset
    show ((s.pin l).setChannel c ((s.channel c).taking l)).references m = _
    omega
  refine CacheSound.repin h (fun m => ?_) fun m hm => ?_
  · have hcount : (s.line m).pins = s.references m := h.count m
    rw [hsum, State.takeIncoming_eq, State.setChannel_line, State.line_setLine, ← hcount]
    by_cases hlm : l = m
    · subst hlm; rw [if_pos rfl, if_pos rfl]
    · rw [if_neg hlm, if_neg (Ne.symm hlm), Nat.add_zero]
  · by_cases hml : m = l
    · rw [hml]; exact hvalid
    · refine h.pinned m ?_
      have hcount : (s.line m).pins = s.references m := h.count m
      rw [hsum, if_neg hml, Nat.add_zero] at hm
      rw [hcount]; exact hm

theorem State.takeIncoming_line_same (c : Channel) (l m : LineRef) :
    ((s.takeIncoming c l).line m).state = (s.line m).state ∧ ((s.takeIncoming c l).line m).key = (s.line m).key := by
  rw [State.takeIncoming_eq, State.setChannel_line, State.line_setLine]
  split
  · next hlm => subst hlm; exact ⟨rfl, rfl⟩
  · exact ⟨rfl, rfl⟩

theorem State.CacheCore.takeIncoming (h : s.CacheCore) {c : Channel} (hincoming : (s.channel c).incoming = none)
    {l : LineRef} (hvalid : (s.line l).state = .valid) : (s.takeIncoming c l).CacheCore := by
  refine ⟨⟨h.accord.order.takeIncoming hincoming hvalid, fun d => ?_⟩, h.size⟩
  by_cases hd : d = c
  · subst hd
    refine .of_idle ?_
    rw [State.takeIncoming_eq, State.channel_setChannel_same]
  · rw [State.takeIncoming_eq, State.channel_setChannel_other _ (Ne.symm hd), State.setLine_channel]
    exact (h.accord.served d).keep (fun m _ => s.takeIncoming_line_same c l m) fun _ e he _ _ => he

end

end Sys2Proof.Machine
end

section
/-!
Misses, evaluations, key changes and crossfade ends under the laws of the cache (R103 to R106, R111, R117 to R121): a full
fill queue always holds an entry that no enabled channel wants, since the channels want eight keys at most.
-/
namespace Sys2Proof.Machine

/-! ### A full fill queue (R119, R120) -/

/-- Entries of different keys that enabled channels want are no more than the channels. -/
theorem State.length_le_of_wanted {s : State} {queue : List QueueEntry} (hkeys : (queue.map (·.key)).Nodup)
    (hwanted : ∀ e ∈ queue, s.wantedBySome e.key = true) : queue.length ≤ 8 := by
  have hsubset : (queue.map (·.key)).toFinset ⊆ Finset.univ.image fun c : Channel => (s.channel c).wanted := fun k hk => by
    obtain ⟨e, he, rfl⟩ := List.mem_map.mp (List.mem_toFinset.mp hk)
    obtain ⟨c, -, hc⟩ := (s.wantedBySome_iff _).mp (hwanted e he)
    exact Finset.mem_image.mpr ⟨c, Finset.mem_univ c, hc⟩
  calc queue.length = (queue.map (·.key)).toFinset.card := by
        rw [List.toFinset_card_of_nodup hkeys, List.length_map]
    _ ≤ (Finset.univ.image fun c : Channel => (s.channel c).wanted).card := Finset.card_le_card hsubset
    _ ≤ (Finset.univ : Finset Channel).card := Finset.card_image_le
    _ = 8 := Finset.card_fin 8

/-- The entry that a pruning removes (R120). -/
theorem State.exists_prunable {s : State} {queue : List QueueEntry} (hkeys : (queue.map (·.key)).Nodup)
    (hfull : 16 ≤ queue.length) : ∃ before old after, queue = before ++ old :: after ∧
      (∀ x ∈ before, s.wantedBySome x.key = true) ∧ s.wantedBySome old.key = false := by
  cases hfind : queue.find? fun e => !s.wantedBySome e.key with
  | none =>
    have hwanted : ∀ e ∈ queue, s.wantedBySome e.key = true := by simpa using List.find?_eq_none.mp hfind
    have := State.length_le_of_wanted hkeys hwanted
    omega
  | some old =>
    obtain ⟨hold, before, after, hq, hbefore⟩ := List.find?_eq_some_iff_append.mp hfind
    exact ⟨before, old, after, hq, by simpa using hbefore, by simpa using hold⟩

/-- No enabled channel wants the key of what a pruning removes (R120). -/
theorem State.ne_wanted_of_prunable {s : State} {old : QueueEntry} (hold : s.wantedBySome old.key = false) {c : Channel}
    (henabled : (s.channel c).record.enabled = true) : old.key ≠ (s.channel c).wanted := fun hkey => by
  have hwants := (s.wantedBySome_iff old.key).mpr ⟨c, henabled, hkey.symm⟩
  rw [hold] at hwants
  cases hwants

section
variable {s : State} {before rest : List QueueEntry} {old : QueueEntry} (h : s.Accord)
  (hq : s.library.queue = before ++ old :: rest) (hold : s.wantedBySome old.key = false)
include h hq

theorem State.Accord.not_mem_pruned : old ∉ before ++ rest := fun hmem => by
  have hkeys : (s.library.queue.map (·.key)).Nodup := h.order.keys
  rw [hq, List.map_append, List.map_cons, List.nodup_middle, ← List.map_append] at hkeys
  exact (List.nodup_cons.mp hkeys).1 (List.mem_map_of_mem hmem)

include hold

theorem State.Accord.queued_not_pruned {c : Channel} (hreq : (s.channel c).request = .queued) {e : QueueEntry}
    (he : e ∈ s.library.queue) (hkey : e.key = (s.channel c).wanted) : e ∈ before ++ rest := by
  rw [hq] at he
  refine (mem_middle_iff.mp he).resolve_left ?_
  rintro rfl
  exact State.ne_wanted_of_prunable hold ((h.served c).queued hreq).2.2 hkey

theorem State.Accord.prune_lineless (hnone : old.line = none) : (s.setQueue (before ++ rest)).Accord := by
  refine ⟨?_, fun c => (h.served c).keep (fun _ _ => ⟨rfl, rfl⟩) fun hreq e he hkey _ =>
    h.queued_not_pruned hq hold hreq he hkey⟩
  have hsub : (before ++ rest).Sublist s.library.queue := hq ▸ sublist_middle before rest old
  have hrefs : (s.setQueue (before ++ rest)).references = s.references :=
    funext fun l => State.references_congr fun c => rfl
  rw [State.CacheOrder, hrefs]
  refine CacheSound.drop h.order (fun _ => .inl rfl) hsub (fun _ hf => hf) (fun _ _ _ _ => rfl)
    (fun _ _ => rfl) fun m hm => (h.order.filling m hm).imp_left ?_
  rintro ⟨e, he, hem⟩
  rw [hq] at he
  refine ⟨e, (mem_middle_iff.mp he).resolve_left ?_, hem⟩
  rintro rfl
  rw [hnone] at hem
  cases hem

theorem State.Accord.prune_line {l : LineRef} (hline : old.line = some l) :
    ((s.setQueue (before ++ rest)).invalidate l).Accord := by
  have hmem : old ∈ s.library.queue := by rw [hq]; simp
  have hsub : (before ++ rest).Sublist s.library.queue := hq ▸ sublist_middle before rest old
  obtain ⟨hstate, hkey⟩ := h.order.queued old hmem l hline
  have hlines : ∀ m, ((s.setQueue (before ++ rest)).invalidate l).line m =
      if l = m then { s.line l with state := .invalid, coefs := [] } else s.line m := fun m =>
    (s.setQueue (before ++ rest)).line_invalidate l m
  have hother : ∀ {m}, m ≠ l → ((s.setQueue (before ++ rest)).invalidate l).line m = s.line m := fun hm => by
    rw [hlines, if_neg (Ne.symm hm)]
  have hqueued : ∀ e ∈ before ++ rest, e.line ≠ some l := fun e he hel => by
    obtain ⟨-, hekey⟩ := h.order.queued e (hsub.subset he) l hel
    have heq := QueueEntry.eq_of_key h.order.keys (hsub.subset he) hmem (hekey.symm.trans hkey)
    rw [heq] at he
    exact h.not_mem_pruned hq he
  refine ⟨?_, fun c => (h.served c).keep (fun m hm => ?_) fun hreq e he hek _ => h.queued_not_pruned hq hold hreq he hek⟩
  · have hrefs : ((s.setQueue (before ++ rest)).invalidate l).references = s.references :=
      funext fun l => State.references_congr fun c => rfl
    rw [State.CacheOrder, hrefs]
    refine CacheSound.drop h.order (fun m => ?_) hsub (fun _ hf => hf) (fun e he m hem => hother ?_)
      (fun f hf => hother ?_) fun m hm => ?_
    · rw [hlines]
      split
      · next hlm => rw [← hlm]; exact .inr ⟨hstate, rfl, rfl⟩
      · exact .inl rfl
    · rintro rfl
      exact hqueued e he hem
    · obtain ⟨-, hfkey, hqueue⟩ := h.order.flying f hf
      intro hfl
      rw [hfl] at hfkey
      exact hqueue old hmem (hkey.symm.trans hfkey)
    · have hml : m ≠ l := by
        rintro rfl
        rw [hlines, if_pos rfl] at hm
        cases hm
      rw [hother hml] at hm
      refine (h.order.filling m hm).imp_left ?_
      rintro ⟨e, he, hem⟩
      rw [hq] at he
      refine ⟨e, (mem_middle_iff.mp he).resolve_left ?_, hem⟩
      rintro rfl
      exact hml (Option.some.inj (hem.symm.trans hline))
  · obtain ⟨-, hwanted, -, henabled⟩ := (h.served c).waiting m hm
    rw [hother]
    · exact ⟨rfl, rfl⟩
    · rintro rfl
      exact State.ne_wanted_of_prunable hold henabled (hkey.symm.trans hwanted)

end

/-- An entry added to the queue, in accord with the lines and the channels, with the pruning that a full queue asks for
(R119 to R121). -/
theorem State.CacheCore.enqueueFill {s : State} {e : QueueEntry} (h : (s.setQueue (s.library.queue ++ [e])).Accord)
    (hsize : s.library.queue.length ≤ 16) : (s.enqueueFill e).CacheCore := by
  by_cases hroom : s.library.queue.length < 16
  · rw [State.enqueueFill_room hroom]
    refine ⟨h, ?_⟩
    show (s.library.queue ++ [e]).length ≤ 16
    rw [List.length_append, List.length_singleton]
    omega
  · have hkeys : ((s.library.queue ++ [e]).map (·.key)).Nodup := h.order.keys
    rw [List.map_append, List.nodup_append] at hkeys
    obtain ⟨before, old, after, hq, hbefore, hold⟩ := State.exists_prunable (s := s) hkeys.1 (Nat.not_lt.mp hroom)
    have hq' : (s.setQueue (s.library.queue ++ [e])).library.queue = before ++ old :: (after ++ [e]) := by
      show s.library.queue ++ [e] = _
      rw [hq]; simp
    have hlength : (before ++ (after ++ [e])).length ≤ 16 := by
      have hlen := congrArg List.length hq
      simp only [List.length_append, List.length_cons, List.length_nil] at hlen ⊢
      omega
    cases hline : old.line with
    | none =>
      rw [State.enqueueFill_prunes_lineless (Nat.not_lt.mp hroom) hq hbefore hold hline, List.append_assoc]
      exact ⟨h.prune_lineless hq' hold hline, hlength⟩
    | some l =>
      rw [State.enqueueFill_prunes_line (Nat.not_lt.mp hroom) hq hbefore hold hline, List.append_assoc]
      have hcore : ((s.setQueue (before ++ (after ++ [e]))).invalidate l).CacheCore :=
        ⟨h.prune_line hq' hold hline, hlength⟩
      exact hcore.wayFree _

/-! ### Misses (R105, R118) -/

section
variable {s : State} {key : CoefKey}

theorem State.CacheOrder.fresh_of_misses (h : s.CacheOrder) (hmiss : s.library.sets[key.set].Misses key) :
    FreshKey s.line key := by
  obtain ⟨hvalid, hfilling⟩ := hmiss
  refine CacheSound.fresh_of_set h fun l hset hstate hkey => ?_
  rw [← State.way_of_set s hset] at hstate hkey
  cases hl : s.library.sets[key.set].ways[l.way].state with
  | invalid => exact hstate hl
  | valid => exact CacheSet.find_eq_none.mp hvalid l.way ⟨hl, hkey⟩
  | filling => exact CacheSet.find_eq_none.mp hfilling l.way ⟨hl, hkey⟩

/-- Channel c, without an incoming set, is given another request that is in accord. -/
theorem State.Accord.setRequest (h : s.Accord) {c : Channel} {r : Request}
    (hserved : ChannelState.Served { s.channel c with request := r } s.line s.library.queue) : (s.setRequest c r).Accord :=
  h.setChannel (fun _ => rfl) hserved

variable {c : Channel} (h : s.CacheCore) (henabled : (s.channel c).record.enabled = true)
  (hincoming : (s.channel c).incoming = none)
include h henabled hincoming

theorem State.CacheCore.joinQueue {e : QueueEntry} (he : e ∈ s.library.queue) (hkey : e.key = (s.channel c).wanted)
    (hnone : e.line = none) : (s.setRequest c .queued).CacheCore :=
  ⟨h.accord.setRequest ⟨nofun, fun _ => ⟨⟨e, he, hkey, hnone⟩, hincoming, henabled⟩⟩, h.size⟩

theorem State.CacheCore.waitFor {l : LineRef} (hstate : (s.line l).state = .filling)
    (hkey : (s.line l).key = (s.channel c).wanted) : (s.setRequest c (.waitingFill l)).CacheCore := by
  refine ⟨h.accord.setRequest ⟨fun m hm => ?_, nofun⟩, h.size⟩
  obtain rfl := Request.waitingFill.inj hm
  exact ⟨hstate, hkey, hincoming, henabled⟩

variable (hwanted : (s.channel c).wanted = key) (hfresh : FreshKey s.line key) (hnew : ∀ e ∈ s.library.queue, e.key ≠ key)
include hwanted hfresh hnew

/-- The wanted key queued without a line. -/
theorem State.CacheCore.missNoWay :
    ((s.setRequest c .queued).enqueueFill { key := key, line := none }).CacheCore := by
  have happended : (s.setQueue (s.library.queue ++ [{ key := key, line := none }])).Accord := by
    refine ⟨?_, fun d => (h.accord.served d).keep (fun _ _ => ⟨rfl, rfl⟩) fun _ e he _ _ => List.mem_append_left _ he⟩
    have hrefs : (s.setQueue (s.library.queue ++ [{ key := key, line := none }])).references =
        s.references := funext fun l => State.references_congr fun c => rfl
    rw [State.CacheOrder, hrefs]
    exact CacheSound.enqueue h.accord.order hfresh hnew
  refine State.CacheCore.enqueueFill ?_ h.size
  exact happended.setRequest (c := c) ⟨nofun, fun _ =>
    ⟨⟨_, List.mem_append_right _ (List.mem_singleton_self _), hwanted.symm, rfl⟩, hincoming, henabled⟩⟩

/-- The wanted key given a way. -/
theorem State.CacheCore.missWay {w : Fin 4} {x : CacheSet} (hsome : s.library.sets[key.set].allocate key = some (w, x)) :
    (((s.setCacheSet key.set x).setRequest c (.waitingFill { set := key.set, way := w })).enqueueFill
      { key := key, line := some { set := key.set, way := w } }).CacheCore := by
  obtain ⟨hfree, hpins⟩ := h.accord.order.allocated_free hsome
  have hline := State.line_allocated hsome
  have happended : ((s.setCacheSet key.set x).setQueue
      (s.library.queue ++ [{ key := key, line := some { set := key.set, way := w } }])).Accord := by
    refine ⟨?_, fun d => (h.accord.served d).keep (fun m hm => ?_) fun _ e he _ _ => List.mem_append_left _ he⟩
    · have hrefs : ((s.setCacheSet key.set x).setQueue
          (s.library.queue ++ [{ key := key, line := some { set := key.set, way := w } }])).references = s.references :=
        funext fun l => State.references_congr fun c => rfl
      rw [State.CacheOrder, hrefs]
      refine CacheSound.takeWay h.accord.order hline hfree hpins rfl hfresh ?_
        (List.mem_append_right _ (List.mem_singleton_self _)) (fun e he => ?_) fun e he _ => List.mem_append_left _ he
      · show (List.map QueueEntry.key (s.library.queue ++ [{ key := key, line := some { set := key.set, way := w } }])).Nodup
        rw [List.map_append, List.nodup_append]
        exact ⟨h.accord.order.keys, by simp, by simpa using hnew⟩
      · exact (List.mem_append.mp he).imp_right List.mem_singleton.mp
    · have hne : m ≠ { set := key.set, way := w } := by
        rintro rfl
        exact hfree ((h.accord.served d).waiting _ hm).1
      have hsame := hline m
      rw [if_neg hne] at hsame
      show ((s.setCacheSet key.set x).line m).state = _ ∧ ((s.setCacheSet key.set x).line m).key = _
      rw [hsame]
      exact ⟨rfl, rfl⟩
  refine State.CacheCore.enqueueFill ?_ h.size
  refine happended.setRequest (c := c) ⟨fun m hm => ?_, nofun⟩
  obtain rfl := Request.waitingFill.inj hm
  have hsame := hline { set := key.set, way := w }
  rw [if_pos rfl] at hsame
  show ((s.setCacheSet key.set x).line _).state = _ ∧ ((s.setCacheSet key.set x).line _).key = _ ∧ _
  rw [hsame]
  exact ⟨rfl, hwanted.symm, hincoming, henabled⟩

end

/-! ### Evaluations and key changes (R103, R104) -/

section
variable {s : State}

theorem State.CacheCore.missReady (h : s.CacheCore) {c : Channel} (henabled : (s.channel c).record.enabled = true)
    (hincoming : (s.channel c).incoming = none) {key : CoefKey} (hwanted : (s.channel c).wanted = key)
    (hmiss : s.library.sets[key.set].Misses key) : (s.missReady c key).CacheCore := by
  have hfresh := h.accord.order.fresh_of_misses hmiss
  by_cases hqueued : ∃ e ∈ s.library.queue, e.key = key
  · obtain ⟨e, he, hkey⟩ := hqueued
    rw [State.missReady_queued ⟨e, he, hkey⟩]
    exact h.joinQueue henabled hincoming he (hkey.trans hwanted.symm)
      (CacheSound.line_none_of_fresh h.accord.order he (hkey ▸ hfresh))
  · have hnew : ∀ e ∈ s.library.queue, e.key ≠ key := fun e he hkey => hqueued ⟨e, he, hkey⟩
    cases hsome : s.library.sets[key.set].allocate key with
    | none =>
      rw [State.missReady_noWay hnew hsome]
      refine (h.countCache .noWayWaits).missNoWay ?_ ?_ ?_ ?_ ?_
      · rw [State.countCache_channel]; exact henabled
      · rw [State.countCache_channel]; exact hincoming
      · rw [State.countCache_channel]; exact hwanted
      · rw [funext fun l => s.countCache_line .noWayWaits l]; exact hfresh
      · rw [State.countCache_library]; exact hnew
    | some r =>
      rw [State.missReady_way hnew hsome]
      exact h.missWay henabled hincoming hwanted hfresh hnew hsome

theorem State.CacheCore.lookup (h : s.CacheCore) {c : Channel} (henabled : (s.channel c).record.enabled = true)
    (hincoming : (s.channel c).incoming = none) : (s.lookup c (s.channel c).wanted).CacheCore := by
  have hsame : ∀ k, (s.countCache k).channel c = s.channel c := fun k => s.countCache_channel k c
  cases hvalid : s.library.sets[(s.channel c).wanted.set].find .valid (s.channel c).wanted with
  | some w =>
    rw [State.lookup_valid hvalid]
    refine (h.countCache .hits).takeIncoming (by rw [hsame]; exact hincoming) ?_
    rw [State.countCache_line]
    exact (CacheSet.find_spec hvalid).1
  | none =>
    cases hfilling : s.library.sets[(s.channel c).wanted.set].find .filling (s.channel c).wanted with
    | some w =>
      obtain ⟨hstate, hkey⟩ := CacheSet.find_spec hfilling
      rw [State.lookup_filling hvalid hfilling]
      refine (h.countCache .hits).waitFor (by rw [hsame]; exact henabled) (by rw [hsame]; exact hincoming) ?_ ?_
      · rw [State.countCache_line]; exact hstate
      · rw [State.countCache_line, hsame]; exact hkey
    | none =>
      by_cases hready : s.library.state = .ready
      · rw [State.lookup_missReady ⟨hvalid, hfilling⟩ hready]
        exact (h.countCache .misses).missReady (by rw [hsame]; exact henabled) (by rw [hsame]; exact hincoming)
          (by rw [hsame]) (by simpa only [State.countCache_library] using ⟨hvalid, hfilling⟩)
      · rw [State.lookup_miss ⟨hvalid, hfilling⟩ hready]
        exact (h.countCache .misses).dropRequest c

theorem State.CacheCore.evaluate (h : s.CacheCore) {c : Channel} (hincoming : (s.channel c).incoming = none) :
    (s.evaluate c).CacheCore := by
  by_cases henabled : (s.channel c).record.enabled = true
  · by_cases hlib : s.library.state = .absent
    · rw [State.evaluate_absent hlib]; exact h
    · by_cases hsettled : s.Settled c
      · rw [State.evaluate_settled henabled hlib hsettled]; exact h.dropRequest c
      · rw [State.evaluate_asks henabled hlib hsettled]; exact h.lookup henabled hincoming
  · rw [State.evaluate_disabled (Bool.not_eq_true _ ▸ henabled)]; exact h

theorem State.CacheCore.changeKey (h : s.CacheCore) (c : Channel) (key : CoefKey) : (s.changeKey c key).CacheCore := by
  by_cases hkey : key = (s.channel c).wanted
  · rw [State.changeKey_same hkey]; exact h
  · by_cases hlater : (s.channel c).record.enabled = false ∨ (s.channel c).incoming ≠ none
    · rw [State.changeKey_recorded hkey hlater]
      refine h.setChannel (fun _ => rfl) (.of_idle ?_)
      exact hlater.elim (h.accord.served c).idle_of_disabled (h.accord.served c).idle_of_incoming
    · rw [not_or, not_not, Bool.not_eq_false] at hlater
      obtain ⟨henabled, hincoming⟩ := hlater
      rw [State.changeKey_evaluated hkey henabled hincoming]
      have hrecorded : ((s.newKey c key).setRequest c .idle).CacheCore := by
        have heq : (s.newKey c key).setRequest c .idle =
            s.setChannel c { s.channel c with wanted := key, failed := none, request := .idle } := by
          simp [State.newKey, State.setRequest, State.setChannel, State.channel]
        rw [heq]
        exact h.setChannel (fun _ => rfl) (.of_idle rfl)
      refine hrecorded.evaluate ?_
      rw [State.setRequest, State.channel_setChannel_same, State.newKey, State.channel_setChannel_same]
      exact hincoming

theorem State.CacheCore.inTurn {f : Channel → State → State} (hf : ∀ c {u : State}, u.CacheCore → (f c u).CacheCore)
    (h : s.CacheCore) (ord : List Channel) : (s.inTurn f ord).CacheCore := by
  induction ord generalizing s with
  | nil => exact h
  | cons c cs ih => exact ih (hf c h)

theorem State.CacheCore.handPreset (h : s.CacheCore) (ord : List Channel) (z : Zone) (p : Fin 16) :
    (s.handPreset ord z p).CacheCore := by
  refine h.inTurn (fun c u hu => ?_) ord
  split
  · exact hu.changeKey c _
  · exact hu

theorem State.CacheCore.handBands (h : s.CacheCore) (ord : List Channel) (before after : Vector (Fin 8) 4) :
    (s.handBands ord before after).CacheCore := by
  refine h.inTurn (fun c u hu => ?_) ord
  dsimp only
  split
  · exact hu
  · exact hu.changeKey c _

/-- Channels without incoming sets evaluate in turn: no turn gives another channel an incoming set. -/
theorem State.CacheCore.evaluateTurns (h : s.CacheCore) {ord : List Channel} (hn : ord.Nodup)
    (hincoming : ∀ c ∈ ord, (s.channel c).incoming = none) : (s.inTurn State.evaluate ord).CacheCore := by
  induction ord generalizing s with
  | nil => exact h
  | cons c cs ih =>
    obtain ⟨hc, hcs⟩ := List.nodup_cons.mp hn
    refine ih (h.evaluate (hincoming c (List.mem_cons_self ..))) hcs fun d hd => ?_
    rw [(State.SearchStep.evaluate s c).others d (by rintro rfl; exact hc hd)]
    exact hincoming d (List.mem_cons_of_mem _ hd)

/-! ### Crossfades (R110, R111) -/

theorem State.CacheCore.endCrossfade (h : s.CacheCore) {c : Channel} {inc : Incoming}
    (hinc : (s.channel c).incoming = some inc) : (s.endCrossfade c inc).CacheCore := by
  have hidle : (s.channel c).request = .idle := (h.accord.served c).idle_of_incoming (by rw [hinc]; nofun)
  have hgiven : ((s.setChannel c ((s.channel c).crossfaded inc)).unpinActive (s.channel c).active).CacheCore := by
    refine h.unpinActive (fun m => ?_) hidle
    simp only [ChannelState.references, ChannelState.crossfaded, hinc, Option.map_some, Option.map_none]
    simp [Nat.add_comm]
  rw [State.endCrossfade_eq]
  refine hgiven.evaluate ?_
  rw [State.RequestStep.unpinActive _ _ c, State.channel_setChannel_same]
  rfl

theorem State.CacheCore.advanceCrossfade (h : s.CacheCore) (c : Channel) : (s.advanceCrossfade c).CacheCore := by
  cases hrun : (s.channel c).runningIncoming with
  | none => rw [State.advanceCrossfade, hrun]; exact h
  | some inc =>
    obtain ⟨hinc, hrunning⟩ := ChannelState.runningIncoming_eq_some hrun
    by_cases hk : inc.k < 8
    · rw [State.advanceCrossfade_counts hinc hrunning hk]
      refine h.setChannel (fun m => ?_) (.of_idle ((h.accord.served c).idle_of_incoming (by rw [hinc]; nofun)))
      simp only [ChannelState.references, hinc, Option.map_some]
    · rw [State.advanceCrossfade_ends hinc hrunning (Nat.not_lt.mp hk)]
      exact h.endCrossfade hinc

end

end Sys2Proof.Machine
end

section
/-!
Fills and sleep under the laws of the cache (R108, R109, R113, R122, R124, R125, R127, R130).
-/
namespace Sys2Proof.Machine

/-! ### The start of a fill (R122) -/

theorem oldestWithLine_some {queue rest : List QueueEntry} {key : CoefKey} {l : LineRef}
    (h : oldestWithLine queue = some (key, l, rest)) :
    ∃ before after, queue = before ++ { key := key, line := some l } :: after ∧ rest = before ++ after := by
  induction queue generalizing rest with
  | nil => cases h
  | cons e es ih =>
    obtain ⟨k, line⟩ := e
    cases line with
    | some m =>
      obtain ⟨rfl, rfl, rfl⟩ := h
      exact ⟨[], es, rfl, rfl⟩
    | none =>
      cases hes : oldestWithLine es with
      | none =>
        rw [oldestWithLine, hes] at h
        cases h
      | some r =>
        obtain ⟨k', m, rest'⟩ := r
        rw [oldestWithLine, hes] at h
        obtain ⟨rfl, rfl, rfl⟩ := h
        obtain ⟨before, after, rfl, rfl⟩ := ih hes
        exact ⟨{ key := k, line := none } :: before, after, rfl, rfl⟩

section
variable {s : State}

theorem Library.fill_of_mayFill {x : Library} (h : x.mayFill = true) : x.fill = none := by
  rw [Library.mayFill, Bool.and_eq_true, Bool.and_eq_true, Option.isNone_iff_eq_none] at h
  exact h.1.1

/-- A fill starts for the oldest entry that has a line, or nothing changes (R122). -/
theorem State.startFill_cases (s : State) : s.startFill = s ∨
    ∃ before after key l, s.library.queue = before ++ { key := key, line := some l } :: after ∧ s.library.fill = none ∧
      s.startFill = s.setLibrary { s.library with
        queue := before ++ after, fill := some { line := l, key := key, address := recordAddress key }, selected := true,
        mosi := readCommand (recordAddress key) } := by
  by_cases hmay : (!s.inReset && s.library.mayFill) = true
  · cases hold : oldestWithLine s.library.queue with
    | none =>
      left
      rw [State.startFill, if_pos hmay, hold]
    | some r =>
      obtain ⟨key, l, rest⟩ := r
      obtain ⟨before, after, hq, rfl⟩ := oldestWithLine_some hold
      refine .inr ⟨before, after, key, l, hq, Library.fill_of_mayFill (Bool.and_eq_true_iff.mp hmay).2, ?_⟩
      rw [State.startFill, if_pos hmay, hold]
  · exact .inl (if_neg hmay)

theorem State.CacheCore.startFill (h : s.CacheCore) : s.startFill.CacheCore := by
  rcases s.startFill_cases with heq | ⟨before, after, key, l, hq, hfill, heq⟩
  · rw [heq]; exact h
  · have hlaunched : s.startFill.CacheOrder := by
      have horder := h.accord.order
      rw [State.CacheOrder, hq, hfill] at horder
      rw [heq]
      exact CacheSound.launch (f := { line := l, key := key, address := recordAddress key }) horder
    refine ⟨⟨hlaunched, fun c => ?_⟩, ?_⟩
    · rw [heq]
      refine (h.accord.served c).keep (fun _ _ => ⟨rfl, rfl⟩) fun _ e he _ hnone => ?_
      rw [hq] at he
      refine (mem_middle_iff.mp he).resolve_left ?_
      rintro rfl
      cases hnone
    · rw [heq]
      exact (sublist_middle before after { key := key, line := some l }).length_le.trans (hq ▸ h.size)

/-! ### A fill that passes (R108, R124) -/

/-- A line is VALID, and some of the channels that waited for it have not taken it yet. -/
structure State.Bringing (l : LineRef) (cs : List Channel) (s : State) : Prop where
  order   : s.CacheOrder
  size    : s.library.queue.length ≤ 16
  brought : (s.line l).state = .valid
  served  : ∀ c, (s.channel c).Served s.line s.library.queue ∨
    c ∈ cs ∧ (s.channel c).request = .waitingFill l ∧ (s.channel c).incoming = none

theorem State.Bringing.takeIfAttached {l : LineRef} {c : Channel} {cs : List Channel} (h : s.Bringing l (c :: cs)) :
    (s.takeIfAttached l c).Bringing l cs := by
  by_cases hreq : (s.channel c).request = .waitingFill l
  · have hincoming : (s.channel c).incoming = none := by
      rcases h.served c with hserved | ⟨-, -, hnone⟩
      · exact (hserved.waiting l hreq).2.2.1
      · exact hnone
    rw [show s.takeIfAttached l c = s.takeIncoming c l from State.takeIfAttached_of hreq]
    refine ⟨h.order.takeIncoming hincoming h.brought, h.size, ?_, fun d => ?_⟩
    · rw [(s.takeIncoming_line_same c l l).1]; exact h.brought
    · by_cases hd : d = c
      · subst hd
        refine .inl (.of_idle ?_)
        rw [State.takeIncoming_eq, State.channel_setChannel_same]
      · have hother : (s.takeIncoming c l).channel d = s.channel d := by
          rw [State.takeIncoming_eq, State.channel_setChannel_other _ (Ne.symm hd), State.setLine_channel]
        rw [hother]
        refine (h.served d).imp (fun hserved => ?_) (And.imp_left fun hmem => List.mem_of_ne_of_mem hd hmem)
        exact hserved.keep (fun m _ => s.takeIncoming_line_same c l m) fun _ e he _ _ => he
  · rw [State.takeIfAttached_not hreq]
    refine ⟨h.order, h.size, h.brought, fun d => (h.served d).imp_right ?_⟩
    rintro ⟨hmem, hwaits, hnone⟩
    exact ⟨List.mem_of_ne_of_mem (by rintro rfl; exact hreq hwaits) hmem, hwaits, hnone⟩

theorem State.Bringing.turns {l : LineRef} {cs : List Channel} (h : s.Bringing l cs) :
    (s.inTurn (State.takeIfAttached l) cs).CacheCore := by
  induction cs generalizing s with
  | nil => exact ⟨⟨h.order, fun c => (h.served c).resolve_right fun hlate => nomatch hlate.1⟩, h.size⟩
  | cons c cs ih => exact ih h.takeIfAttached

theorem State.CacheCore.lineBrought (h : s.CacheCore) {f : Fill} (hf : s.library.fill = some f) (coefs : List Coefs)
    {ord : List Channel} (hm : ∀ c, c ∈ ord) : (s.lineBrought f coefs).Bringing f.line ord := by
  have hsame : (s.lineBrought f coefs).line f.line = { s.line f.line with state := .valid, coefs := coefs } := by
    rw [State.line_lineBrought, if_pos rfl]
  have hother : ∀ m, m ≠ f.line → (s.lineBrought f coefs).line m = s.line m := fun m hm => by
    rw [State.line_lineBrought, if_neg (Ne.symm hm)]
  refine ⟨?_, h.size, by rw [hsame], fun c => ?_⟩
  · have horder := h.accord.order
    rw [State.CacheOrder, hf] at horder
    have hrefs : (s.lineBrought f coefs).references = s.references :=
      funext fun l => State.references_congr fun c => rfl
    rw [State.CacheOrder, hrefs]
    exact CacheSound.pass horder (by rw [hsame]; exact ⟨rfl, rfl, rfl⟩) hother
  · by_cases hreq : (s.channel c).request = .waitingFill f.line
    · exact .inr ⟨hm c, hreq, ((h.accord.served c).waiting _ hreq).2.2.1⟩
    · refine .inl ((h.accord.served c).keep (fun l hl => ?_) fun _ e he _ _ => he)
      rw [hother l (by rintro rfl; exact hreq hl)]
      exact ⟨rfl, rfl⟩

theorem State.CacheCore.fillPasses (h : s.CacheCore) {f : Fill} (hf : s.library.fill = some f) (coefs : List Coefs)
    {ord : List Channel} (hm : ∀ c, c ∈ ord) : (s.fillPasses ord f coefs).CacheCore := by
  have htaken : (s.lineTaken ord f coefs).CacheCore := (h.lineBrought hf coefs hm).turns
  rcases Nat.eq_zero_or_pos ((s.lineTaken ord f coefs).line f.line).pins with hzero | hpos
  · rw [State.fillPasses_unpinned hzero]; exact htaken.wayFree _
  · rw [State.fillPasses_pinned hpos]; exact htaken

/-! ### A fill that fails (R109, R125, R127) -/

theorem ChannelState.failing_references (x : ChannelState) (f : Fill) (l : LineRef) :
    (x.failing f).references l = x.references l := by
  unfold ChannelState.failing; split <;> rfl

theorem State.CacheCore.fillDropped (h : s.CacheCore) {f : Fill} (hf : s.library.fill = some f) :
    (s.fillDropped f).CacheCore := by
  have hrest := s.fillDropped_rest f
  have hqueue : (s.fillDropped f).library.queue = s.library.queue := congrArg (·.library.queue) hrest
  have hfill : (s.fillDropped f).library.fill = none := congrArg (·.library.fill) hrest
  have hsame : (s.fillDropped f).line f.line = { s.line f.line with state := .invalid, coefs := [] } := by
    rw [State.line_fillDropped, State.line_invalidate, if_pos rfl]
  have hother : ∀ {m}, m ≠ f.line → (s.fillDropped f).line m = s.line m := fun hm => by
    rw [State.line_fillDropped, State.line_invalidate, if_neg (Ne.symm hm)]
  obtain ⟨hstate, hkey, hkeys⟩ := h.accord.order.flying f hf
  refine ⟨⟨?_, fun c => ?_⟩, by rw [hqueue]; exact h.size⟩
  · have hrefs : (s.fillDropped f).references = s.references := funext fun l => State.references_congr fun c => by
      rw [State.channel_fillDropped, ChannelState.failing_references]
    rw [State.CacheOrder, hqueue, hfill, hrefs]
    refine CacheSound.drop h.accord.order (fun m => ?_) (List.Sublist.refl _) nofun (fun e he l hl => hother ?_) nofun
      fun m hm => ?_
    · by_cases hmf : m = f.line
      · rw [hmf, hsame]; exact .inr ⟨hstate, rfl, rfl⟩
      · exact .inl (hother hmf)
    · rintro rfl
      exact hkeys e he ((h.accord.order.queued e he _ hl).2.symm.trans hkey)
    · have hmf : m ≠ f.line := by
        rintro rfl
        rw [hsame] at hm
        cases hm
      rw [hother hmf] at hm
      refine .inl ((h.accord.order.filling m hm).resolve_right ?_)
      rintro ⟨g, hg, hgm⟩
      obtain rfl := Option.some.inj (hf.symm.trans hg)
      exact hmf hgm.symm
  · rw [State.channel_fillDropped, ChannelState.failing, hqueue]
    split
    · exact .of_idle rfl
    · next hreq =>
      refine (h.accord.served c).keep (fun l hl => ?_) fun _ e he _ _ => he
      rw [hother (by rintro rfl; exact hreq hl)]
      exact ⟨rfl, rfl⟩

theorem State.CacheCore.becomeFaulty (h : s.CacheCore) (hfill : s.library.fill = none) : s.becomeFaulty.CacheCore := by
  have hrest := s.becomeFaulty_rest
  have hqueue : s.becomeFaulty.library.queue = [] := congrArg (·.library.queue) hrest
  have hfill' : s.becomeFaulty.library.fill = none := (congrArg (·.library.fill) hrest).trans hfill
  refine ⟨⟨?_, fun c => .of_idle (by rw [State.channel_becomeFaulty])⟩, by rw [hqueue]; exact Nat.zero_le _⟩
  have hrefs : s.becomeFaulty.references = s.references := funext fun l => State.references_congr fun c => by
    rw [State.channel_becomeFaulty]; rfl
  rw [State.CacheOrder, hqueue, hfill', hrefs]
  refine CacheSound.drop h.accord.order (fun m => ?_) (List.nil_sublist _) nofun nofun nofun fun m hm => ?_
  · by_cases hstate : (s.line m).state = .filling
    · refine .inr ⟨hstate, ?_, ?_⟩
      · rw [State.line_becomeFaulty, Line.dropFilling_state, if_pos hstate]
      · rw [State.line_becomeFaulty, Line.dropFilling_pins]
    · rw [State.line_becomeFaulty, Line.dropFilling_of_ne hstate]; exact .inl rfl
  · rw [State.line_becomeFaulty, Line.dropFilling_state] at hm
    split at hm
    · cases hm
    · next hne => exact absurd hm hne

theorem State.CacheCore.fillFails (h : s.CacheCore) {f : Fill} (hf : s.library.fill = some f) :
    (s.fillFails f).CacheCore := by
  have hdropped := h.fillDropped hf
  rw [State.fillFails_eq]
  split
  · exact hdropped.becomeFaulty (congrArg (·.library.fill) (s.fillDropped_rest f))
  · exact hdropped.wayFree _

theorem State.CacheCore.finishFill (h : s.CacheCore) {ord : List Channel} (hm : ∀ c, c ∈ ord) (record : List Byte) :
    (s.finishFill ord record).CacheCore := by
  unfold State.finishFill
  split
  · exact h
  · next f hf =>
    split
    · exact h.fillPasses hf _ hm
    · exact h.fillFails hf

/-! ### The entry to DORMANT (R113, R130) -/

theorem State.CacheOrder.sleepChannel (h : s.CacheOrder) (c : Channel) : (s.sleepChannel c).CacheOrder := by
  unfold State.sleepChannel
  dsimp only
  split
  · next hincoming =>
    refine h.congr (fun _ => rfl) rfl rfl fun d m => ?_
    by_cases hd : d = c
    · subst hd
      rw [State.channel_setChannel_same]
      simp only [ChannelState.references, hincoming]
    · rw [State.channel_setChannel_other _ (Ne.symm hd)]
  · next inc hincoming =>
    refine h.unpinActive fun m => ?_
    simp only [ChannelState.references, hincoming, Option.map_some, Option.map_none]
    simp [Nat.add_comm]

theorem State.CacheOrder.sleepTurns (h : s.CacheOrder) (ord : List Channel) :
    (s.inTurn State.sleepChannel ord).CacheOrder := by
  induction ord generalizing s with
  | nil => exact h
  | cons c cs ih => exact ih (h.sleepChannel c)

theorem State.line_clearFillQueue (s : State) (m : LineRef) : s.clearFillQueue.line m =
    if ∃ e ∈ s.library.queue, e.line = some m then { s.line m with state := .invalid, coefs := [] } else s.line m := by
  unfold State.clearFillQueue
  dsimp only
  show (List.foldl _ s s.library.queue).line m = _
  generalize s.library.queue = queue
  induction queue generalizing s with
  | nil => simp
  | cons e es ih =>
    rw [List.foldl_cons, ih]
    cases hline : e.line with
    | none => simp [hline]
    | some l =>
      dsimp only
      rw [State.line_invalidate]
      by_cases hlm : l = m
      · subst hlm; simp [hline]
      · simp [hline, hlm]

theorem State.clearFillQueue_fill (s : State) : s.clearFillQueue.library.fill = s.library.fill := by
  unfold State.clearFillQueue
  dsimp only
  show (List.foldl _ s s.library.queue).library.fill = s.library.fill
  generalize s.library.queue = queue
  induction queue generalizing s with
  | nil => rfl
  | cons e es ih =>
    rw [List.foldl_cons, ih]
    split <;> rfl

theorem State.CacheOrder.clearFillQueue (h : s.CacheOrder) : s.clearFillQueue.CacheOrder := by
  have hrefs : s.clearFillQueue.references = s.references := funext fun l => State.references_congr fun c => by
    rw [State.clearFillQueue_channel]
  rw [State.CacheOrder, State.clearFillQueue_queue, State.clearFillQueue_fill, hrefs]
  refine CacheSound.drop h (fun m => ?_) (List.nil_sublist _) (fun _ hf => hf) nofun (fun f hf => ?_) fun m hm => ?_
  · rw [State.line_clearFillQueue]
    split
    · next hentry =>
      obtain ⟨e, he, hem⟩ := hentry
      exact .inr ⟨(h.queued e he m hem).1, rfl, rfl⟩
    · exact .inl rfl
  · rw [State.line_clearFillQueue, if_neg]
    rintro ⟨e, he, hel⟩
    obtain ⟨-, hkey, hkeys⟩ := h.flying f hf
    exact hkeys e he ((h.queued e he _ hel).2.symm.trans hkey)
  · rw [State.line_clearFillQueue] at hm
    split at hm
    · cases hm
    · next hnone => exact .inr ((h.filling m hm).resolve_left hnone)

theorem State.CacheOrder.sleepCache (h : s.CacheOrder) (ord : List Channel) (b : Bool) : (s.sleepCache ord b).CacheOrder := by
  unfold State.sleepCache
  split
  · exact h.clearFillQueue.sleepTurns ord
  · exact (h.sleepTurns ord).clearFillQueue

theorem State.CacheOrder.core_sleepCache (h : s.CacheOrder) {ord : List Channel} (hn : ord.Nodup) (hm : ∀ c, c ∈ ord)
    (b : Bool) : (s.sleepCache ord b).CacheCore := by
  refine ⟨⟨h.sleepCache ord b, fun c => .of_idle ?_⟩, ?_⟩
  · rw [State.sleepCache_channel hn hm]; rfl
  · rw [State.sleepCache_queue]; exact Nat.zero_le _

end

end Sys2Proof.Machine
end

section
/-!
What the laws of the cache read of the state: a view of it, and the operations that leave the view as it is.
-/
namespace Sys2Proof.Machine

/-! ### The view -/

/-- The parts of the state that the laws of the cache speak of (R64, R102, R113, R115 to R119, R122): node state, lines, fill
queue, fill in flight, the channels' contexts, and which speed sources are fresh. -/
structure CacheView where
  state   : NodeState
  line    : LineRef → Line
  queue   : List QueueEntry
  fill    : Option Fill
  context : Channel → CacheContext
  fresh   : Source → Bool

/-- The view of a state. -/
def State.cacheView (s : State) : CacheView where
  state := s.node.state
  line := s.line
  queue := s.library.queue
  fill := s.library.fill
  context c := (s.channel c).context
  fresh w := (s.pace.source w).valid

/-- Equal parts make equal views. -/
theorem State.cacheView_congr {s t : State} (hcontext : ∀ c, (t.channel c).context = (s.channel c).context)
    (hstate : t.node.state = s.node.state := by rfl) (hsets : t.library.sets = s.library.sets := by rfl)
    (hqueue : t.library.queue = s.library.queue := by rfl) (hfill : t.library.fill = s.library.fill := by rfl)
    (hpace : t.pace = s.pace := by rfl) : t.cacheView = s.cacheView := by
  have hline : t.line = s.line := funext fun l => by rw [State.line, hsets, State.line]
  simp only [State.cacheView, hcontext, hstate, hline, hqueue, hfill, hpace]

/-- Where node, channels, library and pace unit are the same, the view is. -/
theorem State.cacheView_of_parts {s t : State} (hnode : t.node = s.node) (hchannels : t.channels = s.channels)
    (hlibrary : t.library = s.library) (hpace : t.pace = s.pace) : t.cacheView = s.cacheView :=
  State.cacheView_congr (fun c => by rw [State.channel, hchannels, State.channel]) (by rw [hnode]) (by rw [hlibrary])
    (by rw [hlibrary]) (by rw [hlibrary]) hpace

section
variable (s : State)

/-! ### Single parts -/

@[simp] theorem State.cacheView_drawn : s.drawn.cacheView = s.cacheView := rfl
@[simp] theorem State.cacheView_setLink (l : LinkInterface) : (s.setLink l).cacheView = s.cacheView := rfl
@[simp] theorem State.cacheView_setOwed (o : Option (Station × Recipient)) : (s.setOwed o).cacheView = s.cacheView := rfl
@[simp] theorem State.cacheView_endFrame : s.endFrame.cacheView = s.cacheView := rfl
@[simp] theorem State.cacheView_setPorts (p : AudioPorts) : (s.setPorts p).cacheView = s.cacheView := rfl
@[simp] theorem State.cacheView_formNodeTarget : s.formNodeTarget.cacheView = s.cacheView := rfl
@[simp] theorem State.cacheView_setTable (table : List Entry) : (s.setTable table).cacheView = s.cacheView := rfl

@[simp] theorem State.cacheView_countLink (k : LinkCounter) : (s.countLink k).cacheView = s.cacheView := by
  rw [State.countLink_rest]; rfl

@[simp] theorem State.cacheView_countCache (k : CacheCounter) : (s.countCache k).cacheView = s.cacheView := by
  unfold State.countCache
  split
  · rfl
  · rfl

@[simp] theorem State.cacheView_heard (o : Station) : (s.heard o).cacheView = s.cacheView := by
  rw [State.heard_rest]; rfl

@[simp] theorem State.cacheView_clashed : s.clashed.cacheView = s.cacheView := by
  rw [State.clashed, State.cacheView_countLink]; rfl

@[simp] theorem State.cacheView_removeOrigins (o : Station) : (s.removeOrigins o).cacheView = s.cacheView := rfl

/-! ### Reduction table and image handler -/

@[simp] theorem State.cacheView_recomputeTargets : s.recomputeTargets.cacheView = s.cacheView := by
  have hrest := s.recomputeTargets_ramp
  exact State.cacheView_of_parts (by rw [hrest]) (by rw [hrest]) (by rw [hrest]) (by rw [hrest])

@[simp] theorem State.cacheView_putEntry (e : Entry) : (s.putEntry e).cacheView = s.cacheView := by
  rw [State.putEntry_rest]; rfl

@[simp] theorem State.cacheView_applyGroup (o : Station) (g : Group) (v : Nat) :
    (s.applyGroup o g v).cacheView = s.cacheView := by
  unfold State.applyGroup
  split
  · rfl
  · exact s.cacheView_putEntry _

@[simp] theorem State.cacheView_purgeStation (o : Station) : (s.purgeStation o).cacheView = s.cacheView := by
  rw [State.purgeStation, State.cacheView_recomputeTargets, State.cacheView_setTable]

@[simp] theorem State.cacheView_lifetimeExpires (key : EntryKey) : (s.lifetimeExpires key).cacheView = s.cacheView := by
  unfold State.lifetimeExpires State.expireEntry
  split
  · rw [State.cacheView_recomputeTargets, State.cacheView_setTable]
  · rfl

@[simp] theorem State.cacheView_releaseDip (o : Station) (id : Fin 8) : (s.releaseDip o id).cacheView = s.cacheView := by
  unfold State.releaseDip
  split
  · rfl
  · rw [State.cacheView_recomputeTargets, State.cacheView_setTable]

@[simp] theorem State.cacheView_takeDipRelease (o : Station) (payload : List Byte) :
    (s.takeDipRelease o payload).cacheView = s.cacheView := by
  unfold State.takeDipRelease
  split
  · exact s.cacheView_releaseDip o _
  · exact s.cacheView_countLink _

@[simp] theorem State.cacheView_takeDipApply (o : Station) (payload : List Byte) :
    (s.takeDipApply o payload).cacheView = s.cacheView := by
  unfold State.takeDipApply State.applyDip
  split
  · split
    · exact s.cacheView_releaseDip o _
    · rw [State.cacheView_recomputeTargets, State.cacheView_putEntry]
  · exact s.cacheView_countLink _

@[simp] theorem State.cacheView_takeHeadroom (o : Station) (payload : List Byte) :
    (s.takeHeadroom o payload).cacheView = s.cacheView := by
  rw [State.takeHeadroom, State.cacheView_recomputeTargets, State.cacheView_applyGroup, State.cacheView_applyGroup,
    State.cacheView_applyGroup, State.cacheView_applyGroup]

@[simp] theorem State.cacheView_recordStamp (z : Zone) (o : Station) (b : Byte) :
    (s.recordStamp z o b).cacheView = s.cacheView := rfl

@[simp] theorem State.cacheView_imageTaken (z : Zone) (f : ImageFields) : (s.imageTaken z f).cacheView = s.cacheView := by
  rw [State.imageTaken_rest]; rfl

/-! ### Link interface and statistics block -/

@[simp] theorem State.cacheView_latenessExpires (place : Nat) : (s.latenessExpires place).cacheView = s.cacheView := by
  unfold State.latenessExpires State.makeLate
  split
  · split
    · rfl
    · rw [State.cacheView_countLink, State.cacheView_setLink]
  · rfl

@[simp] theorem State.cacheView_silentExpires : s.silentExpires.cacheView = s.cacheView := by
  unfold State.silentExpires
  split
  · rfl
  · rfl

@[simp] theorem State.cacheView_startSending : s.startSending.cacheView = s.cacheView := by
  unfold State.startSending
  split
  · rfl
  · rfl

@[simp] theorem State.cacheView_endUnsent (b : Bool) (a : Attempt) : (s.endUnsent b a).cacheView = s.cacheView := by
  unfold State.endUnsent
  split
  · rw [State.cacheView_countLink, State.cacheView_setLink]
  · rfl

@[simp] theorem State.cacheView_finishSending : s.finishSending.cacheView = s.cacheView := by
  unfold State.finishSending
  split
  · rfl
  · rw [State.cacheView_countLink, State.cacheView_setLink]

@[simp] theorem State.cacheView_loseContention : s.loseContention.cacheView = s.cacheView := by
  unfold State.loseContention
  split
  · rfl
  · rw [State.cacheView_countLink, State.cacheView_endUnsent]

@[simp] theorem State.cacheView_failSending (b : Bool) : (s.failSending b).cacheView = s.cacheView := by
  unfold State.failSending
  split
  · rfl
  · rw [State.cacheView_setLink, State.cacheView_countLink, State.cacheView_endUnsent]

@[simp] theorem State.cacheView_discardInvalid (f : RawFrame) : (s.discardInvalid f).cacheView = s.cacheView := by
  unfold State.discardInvalid
  split
  · rfl
  · split
    · rfl
    · rw [State.cacheView_endFrame, State.cacheView_countLink]

@[simp] theorem State.cacheView_takeQuery (payload : List Byte) : (s.takeQuery payload).cacheView = s.cacheView := by
  unfold State.takeQuery State.handAnswer
  split
  · rfl
  · split
    · exact s.cacheView_countLink _
    · split
      · exact s.cacheView_countLink _
      · split
        · rw [State.clearReported_rest]; rfl
        · rfl

/-! ### Library port -/

@[simp] theorem State.cacheView_powerDown : s.powerDown.cacheView = s.cacheView := by
  unfold State.powerDown
  split
  · rfl
  · rfl

@[simp] theorem State.cacheView_endReleaseWait : s.endReleaseWait.cacheView = s.cacheView := by
  unfold State.endReleaseWait
  split
  · dsimp only
    split
    · rfl
    · rfl
  · rfl

/-! ### Audio ports -/

theorem State.channelFrame_context (word : Channel → Int) (c : Channel) :
    (s.channelFrame word c).1.context = (s.channel c).context := by
  cases hc : (s.channel c).composed with
  | none => rw [State.channelFrame_none hc]
  | some held =>
    obtain ⟨y, xeq, heq, hframe, -⟩ := State.channelFrame_composed word hc
    rw [hframe, heq.1]
    rfl

@[simp] theorem State.cacheView_runFrame (word : Channel → Int) : (s.runFrame word).cacheView = s.cacheView :=
  State.cacheView_congr (fun c => by rw [State.channel_runFrame, State.channelFrame_context])
    (by rw [State.runFrame_node]) (by rw [State.runFrame_library]) (by rw [State.runFrame_library])
    (by rw [State.runFrame_library]) (s.runFrame_pace word)

@[simp] theorem State.cacheView_inputFrame (slots : Vector SlotWord 16) : (s.inputFrame slots).cacheView = s.cacheView := by
  unfold State.inputFrame
  split
  · rw [State.cacheView_setPorts, State.cacheView_runFrame]
  · rfl

@[simp] theorem State.cacheView_outputTick : s.outputTick.cacheView = s.cacheView := by
  unfold State.outputTick
  split
  · rw [State.cacheView_setPorts, State.cacheView_runFrame]
  · rfl

@[simp] theorem State.cacheView_audioLoss : s.audioLoss.cacheView = s.cacheView := by
  rw [State.audioLoss, State.cacheView_countCache]; rfl

@[simp] theorem State.cacheView_audioReturn (b : Bool) : (s.audioReturn b).cacheView = s.cacheView := by
  rw [State.audioReturn, State.cacheView_formNodeTarget, State.cacheView_setPorts, State.cacheView_drawn]
  split
  · rfl
  · rfl

@[simp] theorem State.cacheView_takeSync (b : Bool) (interval : Nat) (slots : Vector SlotWord 16) :
    (s.takeSync b interval slots).cacheView = s.cacheView := by
  unfold State.takeSync State.syncPresent State.syncLost
  dsimp only
  split
  · rfl
  · split
    · split
      · rw [State.cacheView_inputFrame, State.cacheView_setPorts]
      · rw [State.cacheView_audioLoss, State.cacheView_setPorts]
    · split
      · split
        · rw [State.cacheView_audioReturn, State.cacheView_setPorts]
        · rfl
      · rfl

@[simp] theorem State.cacheView_takeGap : s.takeGap.cacheView = s.cacheView := by
  unfold State.takeGap
  dsimp only
  split
  · rfl
  · split
    · rw [State.cacheView_audioLoss, State.cacheView_setPorts]
    · rfl

/-- A block start marks an incoming set as running and leaves the context (R110). -/
theorem ChannelState.startBlock_context (x : ChannelState) (held : Option Composed) :
    (x.startBlock held).context = x.context := by
  have hincoming : (x.startBlock held).incoming.map (·.line) = x.incoming.map (·.line) := by
    unfold ChannelState.startBlock
    dsimp only
    split
    · rw [Option.map_map]; rfl
    · rfl
  unfold ChannelState.context
  rw [hincoming]
  rfl

@[simp] theorem State.cacheView_blockStart : s.blockStart.cacheView = s.cacheView := by
  have hrest := s.blockStart_rest
  exact State.cacheView_congr (fun c => by rw [State.channel_blockStart, ChannelState.startBlock_context])
    (by rw [hrest]) (by rw [hrest]) (by rw [hrest]) (by rw [hrest]) (by rw [hrest])

@[simp] theorem State.cacheView_emit : s.emit.cacheView = s.cacheView := by
  rw [State.emit_rest]; rfl

@[simp] theorem State.cacheView_stepAndUpdate (b : Group → Bool) : (s.stepAndUpdate b).cacheView = s.cacheView := by
  have hrest := (s.stepAndUpdate_spec b).rest
  have hchannel : ∀ c, (s.stepAndUpdate b).channel c = (s.channel c).limited := fun c => by
    rw [State.channel, hrest]; simp [State.channel]
  exact State.cacheView_congr (fun c => by rw [hchannel, ChannelState.limited_rest]; rfl)
    (by rw [hrest]) (by rw [hrest]) (by rw [hrest]) (by rw [hrest]) (by rw [hrest])

/-! ### The clock -/

theorem SpeedSource.tick_valid (x : SpeedSource) : x.tick.valid = x.valid := by
  unfold SpeedSource.tick
  split
  · rfl
  · rfl

@[simp] theorem State.cacheView_advance : s.advance.cacheView = s.cacheView := by
  have hfresh : ∀ w, (s.advance.pace.source w).valid = (s.pace.source w).valid := fun w => by
    cases w with
    | primary => exact SpeedSource.tick_valid _
    | secondary => exact SpeedSource.tick_valid _
  unfold State.cacheView
  simp only [hfresh]
  rfl

end

end Sys2Proof.Machine
end

section
/-!
The law of the cache as a whole, under image and pace cues, absence reports, fills and the node states (R48, R62, R64, R103,
R111, R113, R130, R141, R145, R154, R155, R160).
-/
namespace Sys2Proof.Machine

/-! ### The law -/

/-- The law of the cache, with what holds in every node state in one. -/
structure State.CacheLawful (s : State) : Prop where
  core    : s.CacheCore
  start   : s.node.state = .start → s.library.queue = [] ∧ s.library.fill = none ∧
    ∀ l, (s.line l).state = .invalid ∧ (s.line l).pins = 0
  dormant : s.node.state = .dormant → ∀ c, (s.channel c).request = .idle ∧ (s.channel c).incoming = none
  sources : s.node.state = .start ∨ s.node.state = .dormant → ∀ w, (s.pace.source w).valid = false

theorem State.cacheLaw_iff (s : State) : s.CacheLaw ↔ s.CacheLawful := by
  constructor
  · intro h
    obtain ⟨⟨count, pinned⟩, ⟨place, single⟩, ⟨size, keys, queued, flying, filling⟩, hwaiting, hqueued, lineless, hstart,
      hdormant, hsources⟩ := h
    exact ⟨⟨⟨⟨count, pinned, place, single, keys, queued, flying, filling, lineless⟩,
      fun c => ⟨hwaiting c, hqueued c⟩⟩, size⟩, hstart, hdormant, hsources⟩
  · intro h
    obtain ⟨⟨⟨⟨count, pinned, place, single, keys, queued, flying, filling, lineless⟩, hserved⟩, size⟩, hstart, hdormant,
      hsources⟩ := h
    exact ⟨⟨count, pinned⟩, ⟨place, single⟩, ⟨size, keys, queued, flying, filling⟩, fun c => (hserved c).waiting,
      fun c => (hserved c).queued, lineless, hstart, hdormant, hsources⟩

/-- The law in the node states that put nothing more on the cache: neither START nor DORMANT. -/
structure State.CacheWorks (s : State) : Prop where
  core    : s.CacheCore
  started : s.node.state ≠ .start
  awake   : s.node.state ≠ .dormant

/-- What DORMANT puts on channels and speed sources (R64, R113, R130). -/
structure State.CacheSleeps (s : State) : Prop where
  state  : s.node.state = .dormant
  rests  : ∀ c, (s.channel c).request = .idle ∧ (s.channel c).incoming = none
  stale  : ∀ w, (s.pace.source w).valid = false

section
variable {s t : State}

theorem State.CacheCore.of_view (h : s.CacheCore) (hview : t.cacheView = s.cacheView) : t.CacheCore :=
  h.congr (fun l => congrFun (congrArg CacheView.line hview) l) (congrArg CacheView.queue hview)
    (congrArg CacheView.fill hview) fun c => congrFun (congrArg CacheView.context hview) c

theorem State.CacheLawful.of_view (h : s.CacheLawful) (hview : t.cacheView = s.cacheView) : t.CacheLawful := by
  have hstate : t.node.state = s.node.state := congrArg CacheView.state hview
  have hline : ∀ l, t.line l = s.line l := congrFun (congrArg CacheView.line hview)
  have hqueue : t.library.queue = s.library.queue := congrArg CacheView.queue hview
  have hfill : t.library.fill = s.library.fill := congrArg CacheView.fill hview
  have hcontext : ∀ c, (t.channel c).context = (s.channel c).context := congrFun (congrArg CacheView.context hview)
  have hfresh : ∀ w, (t.pace.source w).valid = (s.pace.source w).valid := congrFun (congrArg CacheView.fresh hview)
  refine ⟨h.core.of_view hview, ?_, ?_, ?_⟩
  · simp only [hstate, hline, hqueue, hfill]; exact h.start
  · rw [hstate]
    intro hd c
    obtain ⟨hrequest, hincoming⟩ := h.dormant hd c
    exact ⟨(congrArg CacheContext.request (hcontext c)).trans hrequest,
      (ChannelState.incoming_none_of_context (hcontext c)).mpr hincoming⟩
  · simp only [hstate, hfresh]; exact h.sources

theorem State.CacheWorks.of_view (h : s.CacheWorks) (hview : t.cacheView = s.cacheView) : t.CacheWorks := by
  have hstate : t.node.state = s.node.state := congrArg CacheView.state hview
  exact ⟨h.core.of_view hview, by rw [hstate]; exact h.started, by rw [hstate]; exact h.awake⟩

theorem State.CacheWorks.lawful (h : s.CacheWorks) : s.CacheLawful :=
  ⟨h.core, fun hs => absurd hs h.started, fun hd => absurd hd h.awake,
    fun hstate => (hstate.elim h.started h.awake).elim⟩

theorem State.CacheSleeps.lawful (h : s.CacheSleeps) (hcore : s.CacheCore) : s.CacheLawful :=
  ⟨hcore, fun hs => (nomatch h.state.symm.trans hs), fun _ => h.rests, fun _ => h.stale⟩

theorem State.CacheLawful.sleeps (h : s.CacheLawful) (hd : s.node.state = .dormant) : s.CacheSleeps :=
  ⟨hd, h.dormant hd, h.sources (.inr hd)⟩

/-- A fresh speed source, so neither START nor DORMANT (R64). -/
theorem State.CacheLawful.works_of_fresh (h : s.CacheLawful) {w : Source} (hw : (s.pace.source w).valid = true) :
    s.CacheWorks := by
  have hstale : ¬ (s.node.state = .start ∨ s.node.state = .dormant) := fun hstate => by
    rw [h.sources hstate w] at hw
    cases hw
  rw [not_or] at hstale
  exact ⟨h.core, hstale.1, hstale.2⟩

theorem State.CacheWorks.of_takesCues (h : s.CacheLawful) (htakes : s.takesCues = true) : s.CacheWorks := by
  refine ⟨h.core, fun hs => ?_, fun hd => ?_⟩
  · rw [State.takesCues, hs] at htakes; cases htakes
  · rw [State.takesCues, hd] at htakes; cases htakes

/-! ### Image and pace cues (R48, R54 to R62) -/

theorem State.CacheWorks.of_step (h : s.CacheWorks) (hcore : t.CacheCore) (hstep : s.CacheStep t) : t.CacheWorks :=
  ⟨hcore, by rw [hstep.node]; exact h.started, by rw [hstep.node]; exact h.awake⟩

theorem State.CacheWorks.setPace (h : s.CacheWorks) (p : PaceUnit) : (s.setPace p).CacheWorks :=
  ⟨h.core.congr (fun _ => rfl) rfl rfl fun _ => rfl, h.started, h.awake⟩

theorem State.CacheWorks.writePaceTargets (h : s.CacheWorks) (curves : Vector Curve 4) (speed : Nat) :
    (s.writePaceTargets curves speed).CacheWorks :=
  h.of_view (by rw [State.writePaceTargets_rest]; rfl)

theorem State.CacheWorks.formPace (h : s.CacheWorks) (ord : List Channel) : (s.formPace ord).CacheWorks := by
  unfold State.formPace
  split
  · exact h
  · next curves _ =>
    have hwritten := (h.writePaceTargets curves s.pace.usedSpeed).setPace { s.pace with
      bands := Vector.ofFn fun z => newBand curves[z] s.pace.usedSpeed s.pace.bands[z] }
    exact hwritten.of_step (hwritten.core.handBands ord _ _) (.handBands _ ord _ _)

theorem State.CacheWorks.select (h : s.CacheWorks) (ord : List Channel) : (s.select ord).CacheWorks := by
  unfold State.select
  dsimp only
  split
  · exact h.setPace _
  · exact (h.setPace _).formPace ord

theorem State.CacheWorks.takePace (h : s.CacheWorks) (ord : List Channel) (o : Station) (payload : List Byte) :
    (s.takePace ord o payload).CacheWorks := by
  unfold State.takePace State.clearSource
  split
  · exact h.of_view (s.cacheView_countLink _)
  · split
    · exact (h.setPace _).select ord
    · split
      · exact (h.setPace _).select ord
      · exact h.of_view (s.cacheView_countLink _)

theorem State.CacheWorks.applyImage (h : s.CacheWorks) (ord : List Channel) (z : Zone) (f : ImageFields) :
    (s.applyImage ord z f).CacheWorks := by
  have htaken : (s.imageTaken z f).CacheWorks := h.of_view (s.cacheView_imageTaken z f)
  rw [State.applyImage_eq]
  split
  · exact htaken
  · exact htaken.of_step (htaken.core.handPreset ord z _) (.handPreset _ ord z _)

theorem State.CacheWorks.takeImage (h : s.CacheWorks) (ord : List Channel) (o : Station) (payload : List Byte) :
    (s.takeImage ord o payload).CacheWorks := by
  have hcounted : ∀ k, (s.countLink k).CacheWorks := fun k => h.of_view (s.cacheView_countLink k)
  have hrecorded : ∀ z b, (s.recordStamp z o b).CacheWorks := fun z b => h.of_view (s.cacheView_recordStamp z o b)
  unfold State.takeImage
  dsimp only
  split
  · exact hcounted _
  · split
    · exact hcounted _
    · split
      · exact h
      · exact hcounted _
      · exact (hrecorded _ _).applyImage ord _ _
      · exact (hrecorded _ _).applyImage ord _ _

/-! ### Freshness expiries and absence reports (R56, R58, R155) -/

theorem State.CacheLawful.sourceAbsent (h : s.CacheLawful) (ord : List Channel) (o : Station) (w : Source) :
    (s.sourceAbsent ord o w).CacheLawful := by
  unfold State.sourceAbsent State.clearSource
  split
  · next hsource => exact (((h.works_of_fresh hsource.2).setPace _).select ord).lawful
  · exact h

theorem State.CacheLawful.freshnessExpires (h : s.CacheLawful) (ord : List Channel) (w : Source) :
    (s.freshnessExpires ord w).CacheLawful := by
  unfold State.freshnessExpires State.clearSource
  split
  · next hdue =>
    have hexpired : (s.pace.source w).expired = true := (Bool.and_eq_true_iff.mp hdue).2
    have hvalid : (s.pace.source w).valid = true := (Bool.and_eq_true_iff.mp hexpired).1
    exact (((h.works_of_fresh hvalid).setPace _).select ord).lawful
  · exact h

theorem State.CacheLawful.tellAbsence (h : s.CacheLawful) (ord : List Channel) (o : Station) (r : Recipient) :
    (s.tellAbsence ord o r).CacheLawful := by
  cases r with
  | image => exact h.of_view (s.cacheView_removeOrigins o)
  | pace => exact (h.sourceAbsent ord o .primary).sourceAbsent ord o .secondary
  | table => exact h.of_view (s.cacheView_purgeStation o)

theorem State.CacheLawful.tellAll (h : s.CacheLawful) (ord : List Channel) (o : Station) (rs : List Recipient) :
    (s.tellAll ord o rs).CacheLawful := by
  unfold State.tellAll
  induction rs generalizing s with
  | nil => exact h
  | cons r rs ih => exact ih (h.tellAbsence ord o r)

theorem State.CacheLawful.silenceExpires (h : s.CacheLawful) (ord : List Channel) (cueFirst : Bool) (o : Station) :
    (s.silenceExpires ord cueFirst o).CacheLawful := by
  have htold : ∀ rs, ((s.setPresence o { s.link.stations[o] with present := false }).tellAll ord o rs).CacheLawful :=
    fun rs => (h.of_view (s.cacheView_setLink _)).tellAll ord o rs
  unfold State.silenceExpires State.reportAbsence
  dsimp only
  split
  · split
    · exact htold _
    · split
      · exact (htold _).of_view (State.cacheView_setOwed _ _)
      · exact htold _
  · exact h

/-! ### Reception (R153, R154) -/

/-- A received frame whose block keeps the law. -/
theorem State.CacheLawful.receive (h : s.CacheLawful) (o : Station) (b : Bool) {f : State → State}
    (hf : ∀ {u : State}, u.CacheLawful → (f u).CacheLawful) : (s.receive o b f).CacheLawful := by
  unfold State.receive
  split
  · split
    · exact h
    · exact h.of_view s.cacheView_endFrame
  · exact h.of_view s.cacheView_clashed
  · exact hf (h.of_view (s.cacheView_heard o))

/-- A received cue of a recipient of absence reports, with the report that may follow it. -/
theorem State.CacheLawful.receiveCue (h : s.CacheLawful) (r : Recipient) (o : Station) {f : State → State}
    (hf : ∀ {u : State}, u.CacheWorks → (f u).CacheWorks) :
    (s.receive o false (State.whenTaken (State.takeCue r o f))).CacheLawful := by
  refine h.receive o false fun {u} hu => ?_
  unfold State.whenTaken State.takeCue
  split
  · next htakes =>
    have hworks : u.CacheWorks := .of_takesCues hu htakes
    split
    · have hcue := hf (hworks.of_view (u.cacheView_setOwed none))
      exact (hcue.lawful.of_view (State.cacheView_drawn _)).tellAbsence _ o r
    · exact (hf hworks).lawful
  · exact hu

/-! ### Fills (R108, R109, R122) -/

theorem State.CacheLawful.startFill (h : s.CacheLawful) : s.startFill.CacheLawful := by
  have hcore := h.core.startFill
  rcases s.startFill_cases with heq | ⟨before, after, key, l, hq, -, heq⟩
  · rw [heq]; exact h
  · rw [heq] at hcore ⊢
    refine ⟨hcore, fun hs => ?_, h.dormant, h.sources⟩
    obtain ⟨hempty, -⟩ := h.start hs
    rw [hempty] at hq
    simp at hq

/-- Another state of the same node and pace unit, with channels that rest. -/
theorem State.CacheSleeps.of_parts (h : s.CacheSleeps) (hnode : t.node = s.node) (hpace : t.pace = s.pace)
    (hrests : ∀ c, (t.channel c).request = .idle ∧ (t.channel c).incoming = none) : t.CacheSleeps :=
  ⟨by rw [hnode]; exact h.state, hrests, by rw [hpace]; exact h.stale⟩

theorem State.CacheSleeps.wayFree (h : s.CacheSleeps) (i : Fin 16) : (s.wayFree i).CacheSleeps := by
  have hstep := State.CacheStep.wayFree s i
  refine h.of_parts hstep.node hstep.pace fun c => ?_
  obtain ⟨hidle, hincoming⟩ := h.rests c
  exact ⟨s.wayFree_idle i c hidle, by rw [State.RequestStep.wayFree s i c]; exact hincoming⟩

theorem State.CacheSleeps.not_waiting (h : s.CacheSleeps) (c : Channel) (l : LineRef) :
    (s.channel c).request ≠ .waitingFill l := by
  rw [(h.rests c).1]; nofun

/-- Channels that rest take no line. -/
theorem State.CacheSleeps.lineTaken (h : s.CacheSleeps) {ord : List Channel} (hn : ord.Nodup) (f : Fill)
    (coefs : List Coefs) : (s.lineTaken ord f coefs).CacheSleeps := by
  have hturns := State.takenBy_turns f.line hn (s.lineBrought f coefs)
  have hchannel : ∀ c, (s.lineTaken ord f coefs).channel c = s.channel c := fun c =>
    (hturns.channels c).trans (if_neg fun hc => h.not_waiting c _ hc.2)
  exact h.of_parts ((congrArg State.node hturns.rest).trans rfl) ((congrArg State.pace hturns.rest).trans rfl) fun c => by
    rw [hchannel]; exact h.rests c

theorem State.CacheSleeps.fillPasses (h : s.CacheSleeps) {ord : List Channel} (hn : ord.Nodup) (f : Fill)
    (coefs : List Coefs) : (s.fillPasses ord f coefs).CacheSleeps := by
  have htaken := h.lineTaken hn f coefs
  rcases Nat.eq_zero_or_pos ((s.lineTaken ord f coefs).line f.line).pins with hzero | hpos
  · rw [State.fillPasses_unpinned hzero]; exact htaken.wayFree _
  · rw [State.fillPasses_pinned hpos]; exact htaken

/-- Channels that rest record no failed key. -/
theorem State.CacheSleeps.fillDropped (h : s.CacheSleeps) (f : Fill) : (s.fillDropped f).CacheSleeps := by
  have hrest := s.fillDropped_rest f
  have hchannel : ∀ c, (s.fillDropped f).channel c = s.channel c := fun c =>
    (s.channel_fillDropped f c).trans (if_neg (h.not_waiting c _))
  exact h.of_parts ((congrArg State.node hrest).trans (s.countCache_node _))
    ((congrArg State.pace hrest).trans (s.countCache_pace _)) fun c => by rw [hchannel]; exact h.rests c

theorem State.CacheSleeps.becomeFaulty (h : s.CacheSleeps) : s.becomeFaulty.CacheSleeps := by
  have hrest := s.becomeFaulty_rest
  refine h.of_parts (by rw [hrest]) (by rw [hrest]) fun c => ?_
  rw [State.channel_becomeFaulty]
  exact ⟨rfl, (h.rests c).2⟩

theorem State.CacheSleeps.fillFails (h : s.CacheSleeps) (f : Fill) : (s.fillFails f).CacheSleeps := by
  rw [State.fillFails_eq]
  split
  · exact (h.fillDropped f).becomeFaulty
  · exact (h.fillDropped f).wayFree _

theorem State.CacheSleeps.finishFill (h : s.CacheSleeps) {ord : List Channel} (hn : ord.Nodup) (record : List Byte) :
    (s.finishFill ord record).CacheSleeps := by
  unfold State.finishFill
  split
  · exact h
  · split
    · exact h.fillPasses hn _ _
    · exact h.fillFails _

theorem State.CacheLawful.finishFill (h : s.CacheLawful) {ord : List Channel} (hn : ord.Nodup) (hm : ∀ c, c ∈ ord)
    (record : List Byte) : (s.finishFill ord record).CacheLawful := by
  have hcore := h.core.finishFill hm record
  have hstate : (s.finishFill ord record).node.state = s.node.state :=
    congrArg TableView.state (s.tableView_finishFill ord record)
  by_cases hd : s.node.state = .dormant
  · exact ((h.sleeps hd).finishFill hn record).lawful hcore
  · by_cases hs : s.node.state = .start
    · rw [State.finishFill, (h.start hs).2.1]
      exact h
    · exact State.CacheWorks.lawful ⟨hcore, by rw [hstate]; exact hs, by rw [hstate]; exact hd⟩

end

end Sys2Proof.Machine
end

section
/-!
The law of the cache under the node states, start-up, block completions and the clock, and the step itself (R110, R111, R113,
R130, R131, R138, R141 to R145, R160).
-/
namespace Sys2Proof.Machine

/-- An empty cache, an empty queue and channels without sets (R102, R138, R145). -/
theorem State.CacheCore.of_blank {s : State} (hline : ∀ l, (s.line l).state = .invalid ∧ (s.line l).pins = 0)
    (hqueue : s.library.queue = []) (hfill : s.library.fill = none)
    (hchannel : ∀ c, (s.channel c).request = .idle ∧ (s.channel c).active = none ∧ (s.channel c).incoming = none) :
    s.CacheCore := by
  have hrefs : ∀ l, s.references l = 0 := fun l => by
    rw [State.references_eq_sum]
    refine Finset.sum_eq_zero fun c _ => ?_
    obtain ⟨-, hactive, hincoming⟩ := hchannel c
    simp [ChannelState.references, hactive, hincoming]
  have hvacant : ∀ {l} {p : Prop}, (s.line l).state ≠ .invalid → p := fun {l _} hl => absurd (hline l).1 hl
  refine ⟨⟨?_, fun c => .of_idle (hchannel c).1⟩, by rw [hqueue]; exact Nat.zero_le _⟩
  rw [State.CacheOrder, hqueue, hfill]
  exact {
    count := fun l => (hline l).2.trans (hrefs l).symm
    pinned := fun l hl => by rw [(hline l).2] at hl; cases hl
    place := fun _ hl => hvacant hl
    single := fun _ _ _ hl => hvacant hl
    keys := List.nodup_nil
    queued := nofun
    flying := nofun
    filling := fun _ hl => hvacant (LineState.ne_invalid_of_filling hl)
    lineless := nofun }

section
variable {s : State}

/-! ### Entries to the node states (R130, R141 to R145) -/

theorem State.CacheOrder.beforeSleep (h : s.CacheOrder) : s.beforeSleep.CacheOrder := by
  have hlibrary : s.beforeSleep.library = s.library := by rw [State.beforeSleep_rest]
  have hchannel : ∀ c, s.beforeSleep.channel c = (s.channel c).stop := fun c => by
    rw [State.channel, State.beforeSleep_rest]; simp [State.channel]
  refine h.congr (fun l => ?_) (by rw [hlibrary]) (by rw [hlibrary]) fun c l => ?_
  · rw [State.line, hlibrary, State.line]
  · rw [hchannel]; rfl

/-- The entry to DORMANT needs lines, queue and references in order, and leaves all channels at rest. -/
theorem State.CacheOrder.enterDormant (h : s.CacheOrder) {ord : List Channel} (hn : ord.Nodup) (hm : ∀ c, c ∈ ord)
    (b : Bool) : (s.enterDormant ord b).CacheLawful := by
  have hstep := State.CacheStep.sleepCache s.beforeSleep ord b
  have hpace : s.beforeSleep.pace = { s.pace with
      primary := s.pace.primary.unfresh, secondary := s.pace.secondary.unfresh,
      speedState := sleepSpeedState s.pace.speedState } := congrArg State.pace s.beforeSleep_rest
  have hsleeps : (s.beforeSleep.sleepCache ord b).CacheSleeps := by
    refine ⟨?_, fun c => ?_, fun w => ?_⟩
    · rw [hstep.node]
      exact congrArg (·.node.state) s.beforeSleep_rest
    · rw [State.sleepCache_channel hn hm]
      exact ⟨rfl, rfl⟩
    · rw [hstep.pace, hpace]
      cases w with
      | primary => rfl
      | secondary => rfl
  rw [State.enterDormant_eq]
  exact (hsleeps.lawful (h.beforeSleep.core_sleepCache hn hm b)).of_view rfl

theorem State.CacheCore.setNode (h : s.CacheCore) (n : NodeControl) : (s.setNode n).CacheCore :=
  h.congr (fun _ => rfl) rfl rfl fun _ => rfl

theorem State.CacheCore.enterActive (h : s.CacheCore) : s.enterActive.CacheWorks := by
  have hactive : (s.setNode { s.node with state := .active, settle := none }).CacheWorks := ⟨h.setNode _, nofun, nofun⟩
  exact hactive.of_view (State.cacheView_formNodeTarget _)

theorem State.CacheCore.enterQuiet (h : s.CacheCore) {ord : List Channel} (hn : ord.Nodup) (hm : ∀ c, c ∈ ord) (b : Bool) :
    (s.enterQuiet ord b).CacheLawful := by
  have hset : (s.setNode { s.node with state := .quiet, settle := none }).CacheWorks := ⟨h.setNode _, nofun, nofun⟩
  have hquiet : (s.setNode { s.node with state := .quiet, settle := none }).formNodeTarget.CacheWorks :=
    hset.of_view (State.cacheView_formNodeTarget _)
  unfold State.enterQuiet
  dsimp only
  split
  · exact hquiet.core.accord.order.enterDormant hn hm b
  · exact hquiet.lawful

theorem Library.wake_sets (x : Library) : x.wake.sets = x.sets ∧ x.wake.queue = x.queue ∧ x.wake.fill = x.fill := by
  rw [Library.wake_rest]
  exact ⟨rfl, rfl, rfl⟩

/-- The channels, without incoming sets in DORMANT, evaluate at the wake (R113). -/
theorem State.CacheLawful.wake (h : s.CacheLawful) (hd : s.node.state = .dormant) {ord : List Channel} (hn : ord.Nodup) :
    (s.wake ord).CacheWorks := by
  obtain ⟨hsets, hqueue, hfill⟩ := s.library.wake_sets
  have hwoken : s.woken.CacheWorks := by
    refine ⟨h.core.congr (fun l => ?_) hqueue hfill fun _ => rfl, nofun, nofun⟩
    show s.library.wake.sets[l.set].ways[l.way] = _
    rw [hsets]
    rfl
  rw [State.wake_eq]
  exact hwoken.of_step (hwoken.core.evaluateTurns hn fun c _ => (h.dormant hd c).2) (State.evaluateTurns_cacheStep ord _)

theorem State.CacheLawful.takeSleep (h : s.CacheLawful) {ord : List Channel} (hn : ord.Nodup) (hm : ∀ c, c ∈ ord)
    (b : Bool) : (s.takeSleep ord b).CacheLawful := by
  unfold State.takeSleep
  split
  · exact h.core.enterQuiet hn hm b
  · exact h.core.enterQuiet hn hm b
  · exact h
  · exact h
  · exact h
  · exact h

theorem State.CacheLawful.takeWake (h : s.CacheLawful) {ord : List Channel} (hn : ord.Nodup) :
    (s.takeWake ord).CacheLawful := by
  unfold State.takeWake
  split
  · exact h.core.enterActive.lawful
  · next hd => exact (h.wake hd hn).lawful
  · exact h
  · exact h
  · exact h
  · exact h

theorem State.CacheLawful.settleExpires (h : s.CacheLawful) : s.settleExpires.CacheLawful := by
  unfold State.settleExpires
  split
  · split
    · exact h.core.enterActive.lawful
    · exact h.of_view rfl
  · exact h

theorem State.CacheLawful.linkSilenceExpires (h : s.CacheLawful) {ord : List Channel} (hn : ord.Nodup) (hm : ∀ c, c ∈ ord)
    (b : Bool) : (s.linkSilenceExpires ord b).CacheLawful := by
  unfold State.linkSilenceExpires
  dsimp only
  split
  · split
    · exact (h.core.setNode _).enterQuiet hn hm b
    · exact h.of_view rfl
  · exact h

/-! ### HELD, reset and start-up (R138, R145, R158 to R161) -/

theorem State.enterHeld_cacheLawful (code : FaultCode) (s : State) : (s.enterHeld code).CacheLawful := by
  have hholding : (s.holding code).CacheWorks := by
    refine ⟨.of_blank (fun l => ?_) rfl rfl fun c => ?_, nofun, nofun⟩
    · rw [show (s.holding code).line l = .blank from Library.initial_line l]
      exact ⟨rfl, rfl⟩
    · rw [show (s.holding code).channel c = _ from initialChannels_get c]
      exact ⟨rfl, rfl, rfl⟩
  rw [State.enterHeld_eq]
  exact (hholding.of_view (State.cacheView_blockStart _)).lawful

theorem State.assertReset_cacheLawful (cause : ResetCause) (s : State) : (s.assertReset cause).CacheLawful := by
  rw [State.assertReset_eq]
  exact (State.cacheLaw_iff _).mp State.cacheLaw_resetTo

theorem State.CacheLawful.releaseReset (h : s.CacheLawful) (straps : BitVec 4) : (s.releaseReset straps).CacheLawful := by
  rw [State.releaseReset_eq]
  split
  · exact (State.cacheLaw_iff _).mp State.cacheLaw_resetTo
  · exact h

theorem State.CacheLawful.takeIdentification (h : s.CacheLawful) (b0 b1 b2 : Byte) :
    (s.takeIdentification b0 b1 b2).CacheLawful := by
  unfold State.takeIdentification
  split
  · split
    · exact s.enterHeld_cacheLawful _
    · exact h.of_view rfl
  · exact h

theorem State.CacheLawful.takeHeader (h : s.CacheLawful) (header : List Byte) : (s.takeHeader header).CacheLawful := by
  unfold State.takeHeader
  split
  · split
    · exact h.of_view rfl
    · exact s.enterHeld_cacheLawful _
  · exact h

/-- The channels of a configuration meet the empty cache of START (R102, R160). -/
theorem State.CacheLawful.handOver (h : s.CacheLawful) (hs : s.node.state = .start) {ord : List Channel} (hn : ord.Nodup)
    (cfg : NodeConfig) : (s.handOver ord cfg).CacheLawful := by
  obtain ⟨hqueue, hfill, hline⟩ := h.start hs
  have hrest := State.handed_rest cfg s
  have hlibrary : (s.handed cfg).library = { s.library with
      state := if cfg.library then .ready else .absent, selected := false } := congrArg State.library hrest
  have hhanded : (s.handed cfg).CacheWorks := by
    refine ⟨.of_blank (fun l => ?_) ?_ ?_ fun c => ?_, ?_, ?_⟩
    · rw [State.line, hlibrary]; exact hline l
    · rw [hlibrary]; exact hqueue
    · rw [hlibrary]; exact hfill
    · rw [State.channel_handed]; exact ⟨rfl, rfl, rfl⟩
    · rw [hrest]; nofun
    · rw [hrest]; nofun
  rw [State.handOver_eq]
  refine (hhanded.of_step (hhanded.core.evaluateTurns hn fun c _ => ?_) (State.evaluateTurns_cacheStep ord _)).lawful
  rw [State.channel_handed]
  rfl

theorem State.CacheLawful.takeImageRead (h : s.CacheLawful) {ord : List Channel} (hn : ord.Nodup) (rest : List Byte) :
    (s.takeImageRead ord rest).CacheLawful := by
  unfold State.takeImageRead
  split
  · next hloading =>
    have hs : s.node.state = .start := by
      simp only [State.loading, Bool.and_eq_true, beq_iff_eq] at hloading
      exact hloading.1.2
    split
    · exact h.handOver hs hn _
    · exact s.enterHeld_cacheLawful _
  · exact h

/-! ### Block completion (R110, R111) -/

theorem State.advanceCrossfade_alone {c : Channel} (h : (s.channel c).incoming = none) : s.advanceCrossfade c = s := by
  have hnone : (s.channel c).runningIncoming = none := by rw [ChannelState.runningIncoming, h]
  rw [State.advanceCrossfade, hnone]

theorem State.crossfadeTurns_alone (h : ∀ c, (s.channel c).incoming = none) (ord : List Channel) :
    s.inTurn State.advanceCrossfade ord = s := by
  induction ord with
  | nil => rfl
  | cons c cs ih => rw [State.inTurn_cons, State.advanceCrossfade_alone (h c), ih]

/-- In DORMANT no crossfade is left to go on. -/
theorem State.CacheLawful.crossfadeTurns (h : s.CacheLawful) (hs : s.node.state ≠ .start) (ord : List Channel) :
    (s.inTurn State.advanceCrossfade ord).CacheLawful := by
  by_cases hd : s.node.state = .dormant
  · rw [State.crossfadeTurns_alone fun c => (h.dormant hd c).2]
    exact h
  · have hworks : s.CacheWorks := ⟨h.core, hs, hd⟩
    exact (hworks.of_step (h.core.inTurn (fun c _ hu => hu.advanceCrossfade c) ord)
      (.inTurn (fun c u => .advanceCrossfade u c) ord s)).lawful

theorem State.CacheLawful.dormantIfFaded (h : s.CacheLawful) {ord : List Channel} (hn : ord.Nodup) (hm : ∀ c, c ∈ ord)
    (b : Bool) : (s.dormantIfFaded ord b).CacheLawful := by
  unfold State.dormantIfFaded
  split
  · exact h.core.accord.order.enterDormant hn hm b
  · exact h

theorem State.CacheLawful.completeBlock (h : s.CacheLawful) (hs : s.node.state ≠ .start) (stepFirst : Group → Bool)
    (entryFirst clearFirst : Bool) {ord : List Channel} (hn : ord.Nodup) (hm : ∀ c, c ∈ ord) :
    (s.completeBlock stepFirst entryFirst clearFirst ord).CacheLawful := by
  have hstepped : s.rampStep.CacheLawful := h.of_view (State.cacheView_of_parts (by simp) (by simp) (by simp) (by simp))
  have hview : (s.stepAndUpdate stepFirst).emit.cacheView = s.cacheView := by
    rw [State.cacheView_emit, State.cacheView_stepAndUpdate]
  have hstate : (s.stepAndUpdate stepFirst).emit.node.state ≠ .start := by
    rw [show (s.stepAndUpdate stepFirst).emit.node.state = s.node.state from congrArg CacheView.state hview]
    exact hs
  unfold State.completeBlock
  dsimp only
  split
  · exact (hstepped.core.accord.order.enterDormant hn hm clearFirst).of_view (State.cacheView_blockStart _)
  · exact (((h.of_view hview).crossfadeTurns hstate ord).dormantIfFaded hn hm clearFirst).of_view
      (State.cacheView_blockStart _)

theorem State.CacheLawful.takeCompletion (h : s.CacheLawful) (stepFirst : Group → Bool) (entryFirst clearFirst : Bool)
    {ord : List Channel} (hn : ord.Nodup) (hm : ∀ c, c ∈ ord) :
    (s.takeCompletion stepFirst entryFirst clearFirst ord).CacheLawful := by
  unfold State.takeCompletion
  split
  · next hdue =>
    have hs : s.node.state ≠ .start := fun hs => by simp [State.paced, hs] at hdue
    have hports := h.of_view (s.cacheView_setPorts { s.ports with blockDue := false })
    exact hports.completeBlock hs stepFirst entryFirst clearFirst hn hm
  · exact h

/-! ### The clock and the step -/

theorem State.CacheLawful.idle (h : s.CacheLawful) : s.idle.CacheLawful := by
  unfold State.idle
  split
  · exact h.of_view rfl
  · split
    · exact h
    · exact (h.of_view s.cacheView_advance).of_view rfl

theorem State.CacheLawful.exec {t : State} (h : s.CacheLawful) (c : Instr) (ht : exec c s = .next t) : t.CacheLawful := by
  have hn := channelOrder_nodup s.draws
  have hm := mem_channelOrder s.draws
  have hd : s.drawn.CacheLawful := h.of_view s.cacheView_drawn
  cases c <;> obtain rfl := Host.Outcome.next.inj ht
  case resetAssert cause => exact s.assertReset_cacheLawful cause
  case resetRelease straps => exact h.releaseReset straps
  case releaseWaitEnd => exact h.of_view s.cacheView_endReleaseWait
  case identificationRead b0 b1 b2 => exact h.takeIdentification b0 b1 b2
  case imageHeaderRead header => exact h.takeHeader header
  case imageRead rest => exact hd.takeImageRead hn rest
  case frameSync interval slots => exact h.of_view (s.cacheView_takeSync _ interval slots)
  case frameSyncGap => exact h.of_view s.cacheView_takeGap
  case outputFrameTick => exact h.of_view s.cacheView_outputTick
  case blockCompletion => exact hd.takeCompletion _ _ _ hn hm
  case settleExpiry => exact h.settleExpires
  case linkSilenceExpiry => exact hd.linkSilenceExpires hn hm _
  case freshnessExpiry source => exact hd.freshnessExpires _ source
  case lifetimeExpiry key => exact h.of_view (s.cacheView_lifetimeExpires key)
  case silenceExpiry station => exact hd.silenceExpires _ _ station
  case latenessExpiry place => exact h.of_view (s.cacheView_latenessExpires place)
  case silentExpiry => exact h.of_view s.cacheView_silentExpires
  case sendingStart => exact h.of_view s.cacheView_startSending
  case frameSent => exact h.of_view s.cacheView_finishSending
  case contentionLost => exact h.of_view s.cacheView_loseContention
  case transmitError => exact hd.of_view (State.cacheView_failSending _ _)
  case invalidFrame frame => exact h.of_view (s.cacheView_discardInvalid frame)
  case imageCue origin zone stamp flags fields => exact hd.receiveCue .image origin fun hu => hu.takeImage _ origin _
  case paceCue origin validity speed => exact hd.receiveCue .pace origin fun hu => hu.takePace _ origin _
  case dipApply origin op masks depth hold =>
    exact h.receiveCue .table origin fun hu => hu.of_view (State.cacheView_takeDipApply _ origin _)
  case dipRelease origin op =>
    exact h.receiveCue .table origin fun hu => hu.of_view (State.cacheView_takeDipRelease _ origin _)
  case headroomCue origin v0 v1 v2 v3 code flags =>
    exact h.receiveCue .table origin fun hu => hu.of_view (State.cacheView_takeHeadroom _ origin _)
  case sleepCue origin => exact hd.receive origin false fun hu => hu.takeSleep hn hm _
  case wakeCue origin => exact hd.receive origin true fun hu => hu.takeWake hn
  case queryCue origin target group index flags =>
    refine h.receive origin false fun {u} hu => ?_
    unfold State.whenTaken
    split
    · exact hu.of_view (u.cacheView_takeQuery _)
    · exact hu
  case reportFrame origin payload => exact h.receive origin false fun hu => hu
  case fillStart => exact h.startFill
  case fillCompletion record => exact hd.finishFill hn hm record
  case deepPowerDown => exact h.of_view s.cacheView_powerDown

end

/-- Settles O60: the law with its cases for START and DORMANT, kept by every command and by the clock. -/
theorem stepKeepsCacheLaw : Obligations.StepKeepsCacheLaw := by
  intro s t hlaw hstep
  have h := s.cacheLaw_iff.mp hlaw
  rw [State.cacheLaw_iff]
  unfold step at hstep
  split at hstep
  · obtain rfl := Host.Outcome.next.inj hstep
    exact h.idle
  · next c rest _ => exact State.CacheLawful.exec (s := { s with pending := rest }) (h.of_view rfl) c hstep

end Sys2Proof.Machine
end

section
/-!
The library port's own commands (R122, R123, R128, R130): each takes place exactly when the port allows it, and otherwise
the state stays as it is.
-/
namespace Sys2Proof.Machine

/-! ### When the loader is at a step, when the port may act -/

theorem State.loading_iff {s : State} {stage : LoaderStage} :
    s.loading stage = true ↔ s.inReset = false ∧ s.node.state = .start ∧ s.loader.stage = stage := by
  rw [State.loading, Bool.and_eq_true, Bool.and_eq_true, Bool.not_eq_true', beq_iff_eq, beq_iff_eq, and_assoc]

theorem Library.mayFill_iff {x : Library} :
    x.mayFill = true ↔ x.fill = none ∧ x.flash = .awake ∧ x.state = .ready := by
  rw [Library.mayFill, Bool.and_eq_true, Bool.and_eq_true, Option.isNone_iff_eq_none, beq_iff_eq, beq_iff_eq, and_assoc]

theorem Library.mayPowerDown_iff {x : Library} :
    x.mayPowerDown = true ↔ x.downPending = true ∧ x.fill = none ∧ x.flash = .awake := by
  rw [Library.mayPowerDown, Bool.and_eq_true, Bool.and_eq_true, Option.isNone_iff_eq_none, beq_iff_eq, and_assoc]

/-! ### The end of the release wait (R128, R129) -/

section
variable {s : State}

theorem State.endReleaseWait_releasing (hr : s.inReset = false) (hflash : s.library.flash = .releasing)
    (hload : ¬ s.loading .releaseWait = true) :
    s.endReleaseWait = { s with library := { s.library with flash := .awake } } := by
  have hdue : (!s.inReset && s.library.flash == .releasing) = true := by rw [hr, hflash]; rfl
  rw [State.endReleaseWait, if_pos hdue]
  exact if_neg hload

/-- In START the identification read follows. -/
theorem State.endReleaseWait_loading (hflash : s.library.flash = .releasing) (hload : s.loading .releaseWait = true) :
    s.endReleaseWait = { s with
      library := { s.library with flash := .awake, selected := true, mosi := [0x9F#8] }
      loader := { s.loader with stage := .identification } } := by
  have hdue : (!s.inReset && s.library.flash == .releasing) = true := by
    rw [(State.loading_iff.mp hload).1, hflash]; rfl
  rw [State.endReleaseWait, if_pos hdue]
  exact if_pos hload

/-! ### The start of a fill (R122, R123) -/

theorem oldestWithLine_middle {before : List QueueEntry} (hbefore : ∀ e ∈ before, e.line = none) (key : CoefKey)
    (l : LineRef) (after : List QueueEntry) :
    oldestWithLine (before ++ { key := key, line := some l } :: after) = some (key, l, before ++ after) := by
  induction before with
  | nil => rfl
  | cons e es ih =>
    obtain ⟨he, hes⟩ := List.forall_mem_cons.mp hbefore
    simp only [List.cons_append, oldestWithLine, he, ih hes]

theorem State.startFill_launches (hr : s.inReset = false) (hmay : s.library.mayFill = true) {key : CoefKey} {l : LineRef}
    {rest : List QueueEntry} (hold : oldestWithLine s.library.queue = some (key, l, rest)) :
    s.startFill = { s with library := { s.library with
      queue := rest, fill := some { line := l, key := key, address := recordAddress key }, selected := true,
      mosi := readCommand (recordAddress key) } } := by
  have hdue : (!s.inReset && s.library.mayFill) = true := by rw [hr, hmay]; rfl
  rw [State.startFill, if_pos hdue, hold]
  rfl

theorem State.startFill_unable (hmay : ¬ s.library.mayFill = true) : s.startFill = s :=
  if_neg fun hdue => hmay (Bool.and_eq_true_iff.mp hdue).2

/-! ### The deep power-down (R130) -/

theorem State.powerDown_sends (hr : s.inReset = false) (hmay : s.library.mayPowerDown = true) :
    s.powerDown = { s with
      library := { s.library with flash := .poweredDown, downPending := false, mosi := [0xB9#8] } } :=
  if_pos (by rw [hr, hmay]; rfl)

theorem State.powerDown_unable (hmay : ¬ s.library.mayPowerDown = true) : s.powerDown = s :=
  if_neg fun hdue => hmay (Bool.and_eq_true_iff.mp hdue).2

/-- Neither command does anything where the port may not act. -/
theorem State.port_unable (hfill : ¬ s.library.mayFill = true) (hdown : ¬ s.library.mayPowerDown = true) :
    exec .fillStart s = .next s ∧ exec .deepPowerDown s = .next s :=
  ⟨congrArg Host.Outcome.next (State.startFill_unable hfill), congrArg Host.Outcome.next (State.powerDown_unable hdown)⟩

end

/-- Settles O5: each command where the port allows it, and the two that a fill in flight or a flash not AWAKE holds up. -/
theorem libraryPortCommands : Obligations.LibraryPortCommands := by
  intro s hr
  refine ⟨fun hflash hwait => ?_, fun hflash hst hstage => ?_,
    fun before after key l hfill hawake hready hqueue hbefore => ?_, fun hdown hfill hawake => ?_, fun hfill => ?_,
    fun hawake => ?_⟩
  · have hload : ¬ s.loading .releaseWait = true := fun hload => hwait (State.loading_iff.mp hload).2
    exact congrArg Host.Outcome.next (State.endReleaseWait_releasing hr hflash hload)
  · exact congrArg Host.Outcome.next (State.endReleaseWait_loading hflash (State.loading_iff.mpr ⟨hr, hst, hstage⟩))
  · have hold := oldestWithLine_middle hbefore key l after
    rw [← hqueue] at hold
    exact ⟨recordAddress key, rfl,
      congrArg Host.Outcome.next (State.startFill_launches hr (Library.mayFill_iff.mpr ⟨hfill, hawake, hready⟩) hold)⟩
  · exact congrArg Host.Outcome.next (State.powerDown_sends hr (Library.mayPowerDown_iff.mpr ⟨hdown, hfill, hawake⟩))
  · have hbusy : s.library.fill ≠ none := Option.isSome_iff_ne_none.mp hfill
    exact State.port_unable (fun h => hbusy (Library.mayFill_iff.mp h).1)
      (fun h => hbusy (Library.mayPowerDown_iff.mp h).2.1)
  · exact State.port_unable (fun h => hawake (Library.mayFill_iff.mp h).2.1)
      (fun h => hawake (Library.mayPowerDown_iff.mp h).2.2)

end Sys2Proof.Machine
end

section
/-!
The start-up reads (R129, R158, R159, R161): what the identification bytes and the image header decide.
-/
namespace Sys2Proof.Machine

/-! ### The checks -/

theorem noMemory_iff {b0 b1 b2 : Byte} : noMemory b0 b1 b2 = true ↔
    (b0 = 0x00#8 ∧ b1 = 0x00#8 ∧ b2 = 0x00#8) ∨ (b0 = 0xFF#8 ∧ b1 = 0xFF#8 ∧ b2 = 0xFF#8) := by
  simp only [noMemory, Bool.or_eq_true, Bool.and_eq_true, beq_iff_eq, and_assoc]

section
variable {b0 b1 b2 b3 format reserved hi lo : Byte}

/-- The signature and format check fails as soon as one of its five bytes is another (R159). -/
theorem signature_wrong_iff : (([b0, b1, b2, b3, format, reserved, hi, lo].take 5 !=
      [0x48#8, 0x5A#8, 0x4E#8, 0x38#8, 0x01#8]) = true) ↔
    ¬ (b0 = 0x48#8 ∧ b1 = 0x5A#8 ∧ b2 = 0x4E#8 ∧ b3 = 0x38#8 ∧ format = 1#8) := by
  simp only [List.take_succ_cons, List.take_zero, bne_iff_ne, ne_eq, List.cons.injEq, and_true]

/-- The length field is the big-endian number in the last two header bytes (R159, R166). -/
theorem length_right_iff : halfAt [b0, b1, b2, b3, format, reserved, hi, lo] 6 = 606#16 ↔
    hi.toNat * 256 + lo.toNat = 606 := by
  rw [← BitVec.toNat_inj, show halfAt [b0, b1, b2, b3, format, reserved, hi, lo] 6 = hi ++ lo from rfl, append_toNat,
    mul_comm]
  rfl

theorem headerFault_badSignature
    (hsign : ¬ (b0 = 0x48#8 ∧ b1 = 0x5A#8 ∧ b2 = 0x4E#8 ∧ b3 = 0x38#8 ∧ format = 1#8)) :
    headerFault [b0, b1, b2, b3, format, reserved, hi, lo] = .badSignature :=
  if_pos (signature_wrong_iff.mpr hsign)

theorem headerFault_badLength (hsign : b0 = 0x48#8 ∧ b1 = 0x5A#8 ∧ b2 = 0x4E#8 ∧ b3 = 0x38#8 ∧ format = 1#8)
    (hlength : hi.toNat * 256 + lo.toNat ≠ 606) :
    headerFault [b0, b1, b2, b3, format, reserved, hi, lo] = .badLength := by
  rw [headerFault, if_neg fun h => signature_wrong_iff.mp h hsign]
  exact if_pos (length_right_iff.not.mpr hlength)

theorem headerFault_noFault (hsign : b0 = 0x48#8 ∧ b1 = 0x5A#8 ∧ b2 = 0x4E#8 ∧ b3 = 0x38#8 ∧ format = 1#8)
    (hlength : hi.toNat * 256 + lo.toNat = 606) :
    headerFault [b0, b1, b2, b3, format, reserved, hi, lo] = .noFault := by
  rw [headerFault, if_neg fun h => signature_wrong_iff.mp h hsign]
  exact if_neg (not_not_intro (length_right_iff.mpr hlength))

end

/-! ### The steps -/

section
variable {s : State}

theorem State.takeIdentification_absent (hload : s.loading .identification = true) {b0 b1 b2 : Byte}
    (hnone : noMemory b0 b1 b2 = true) : s.takeIdentification b0 b1 b2 = s.enterHeld .noMemory := by
  rw [State.takeIdentification, if_pos hload, if_pos hnone]

theorem State.takeIdentification_answers (hload : s.loading .identification = true) {b0 b1 b2 : Byte}
    (hsome : ¬ noMemory b0 b1 b2 = true) : s.takeIdentification b0 b1 b2 = { s with
      library := { s.library with selected := true, mosi := [0x03#8, 0x00#8, 0x00#8, 0x00#8] }
      loader := { s.loader with stage := .header } } := by
  rw [State.takeIdentification, if_pos hload, if_neg hsome]
  rfl

theorem State.takeHeader_passes (hload : s.loading .header = true) {header : List Byte}
    (hfault : headerFault header = .noFault) :
    s.takeHeader header = { s with loader := { s.loader with stage := .image, header := header } } := by
  rw [State.takeHeader, if_pos hload, hfault]
  rfl

theorem State.takeHeader_fails (hload : s.loading .header = true) {header : List Byte} {code : FaultCode}
    (hfault : headerFault header = code) (hcode : code ≠ .noFault) : s.takeHeader header = s.enterHeld code := by
  rw [State.takeHeader, if_pos hload, hfault]
  cases code with
  | noFault => exact absurd rfl hcode
  | _ => rfl

end

/-- Settles O6: the identification and the header each lead to HELD under their code or to the next step. -/
theorem startUpReadsDecide : Obligations.StartUpReadsDecide := by
  intro s hr hst
  refine ⟨fun b0 b1 b2 hstage => ?_, fun b0 b1 b2 b3 format reserved hi lo hstage => ?_⟩
  · have hload : s.loading .identification = true := State.loading_iff.mpr ⟨hr, hst, hstage⟩
    refine ⟨fun hnone => ⟨s.enterHeld .noMemory, ?_, s.enterHeld_heldWith _⟩, fun hsome => ?_⟩
    · exact congrArg Host.Outcome.next (State.takeIdentification_absent hload (noMemory_iff.mpr hnone))
    · exact congrArg Host.Outcome.next (State.takeIdentification_answers hload (noMemory_iff.not.mpr hsome))
  · have hload : s.loading .header = true := State.loading_iff.mpr ⟨hr, hst, hstage⟩
    refine ⟨fun hsign => ⟨s.enterHeld .badSignature, ?_, s.enterHeld_heldWith _⟩,
      fun hsign hlength => ⟨s.enterHeld .badLength, ?_, s.enterHeld_heldWith _⟩, fun hsign hlength => ?_⟩
    · exact congrArg Host.Outcome.next (State.takeHeader_fails hload (headerFault_badSignature hsign) nofun)
    · exact congrArg Host.Outcome.next (State.takeHeader_fails hload (headerFault_badLength hsign hlength) nofun)
    · exact congrArg Host.Outcome.next (State.takeHeader_passes hload (headerFault_noFault hsign hlength))

end Sys2Proof.Machine
end

section
/-!
What the law of the node state reads of the state: a view of it, and the operations that leave the view as it is.
-/
namespace Sys2Proof.Machine

/-! ### The view -/

/-- The parts of the state that the law of the node state speaks of (R137, R138, R139, R144, R146): node state, AMP_ON, the
NODE slot, input presence, output clocks and output frame. -/
structure NodeView where
  state    : NodeState
  ampOn    : Bool
  slot     : TermSlot
  presence : Presence
  running  : Bool
  frame    : Vector SlotWord 8

/-- The view of a state. -/
def State.nodeView (s : State) : NodeView where
  state := s.node.state
  ampOn := s.node.ampOn
  slot := s.slot .node
  presence := s.ports.presence
  running := s.ports.outRunning
  frame := s.ports.outFrame

/-- The law is a law of the view. -/
theorem State.NodeLaw.of_view {s t : State} (h : s.NodeLaw) (hview : t.nodeView = s.nodeView) : t.NodeLaw := by
  have hparts := hview
  simp only [State.nodeView, NodeView.mk.injEq] at hparts
  obtain ⟨hstate, hamp, hslot, hpresence, hrunning, hframe⟩ := hparts
  have hawake : t.awake = s.awake := by rw [State.awake, State.awake, hstate]
  exact {
    amp := by rw [hamp, hawake]; exact h.amp
    target := by rw [hslot, hstate, hpresence]; exact h.target
    sound := by rw [hslot]; exact h.sound
    silent := by rw [hslot, hstate]; exact h.silent
    clocks := by rw [hrunning, hstate]; exact h.clocks
    zeros := by rw [hframe, hamp, hpresence]; exact h.zeros }

/-- Where node state controller, NODE slot and audio ports are the same, the view is. -/
theorem State.nodeView_of_parts {s t : State} (hslot : t.slot .node = s.slot .node) (hnode : t.node = s.node := by rfl)
    (hports : t.ports = s.ports := by rfl) : t.nodeView = s.nodeView := by
  rw [State.nodeView, State.nodeView, hslot, hnode, hports]

section
variable (s : State)

/-! ### Single parts -/

@[simp] theorem State.nodeView_drawn : s.drawn.nodeView = s.nodeView := rfl
@[simp] theorem State.nodeView_setLink (l : LinkInterface) : (s.setLink l).nodeView = s.nodeView := rfl
@[simp] theorem State.nodeView_setOwed (o : Option (Station × Recipient)) : (s.setOwed o).nodeView = s.nodeView := rfl
@[simp] theorem State.nodeView_setPresence (o : Station) (x : PresenceRecord) :
    (s.setPresence o x).nodeView = s.nodeView := rfl
@[simp] theorem State.nodeView_endFrame : s.endFrame.nodeView = s.nodeView := rfl
@[simp] theorem State.nodeView_setPace (p : PaceUnit) : (s.setPace p).nodeView = s.nodeView := rfl
@[simp] theorem State.nodeView_clearSource (w : Source) : (s.clearSource w).nodeView = s.nodeView := rfl
@[simp] theorem State.nodeView_setTable (table : List Entry) : (s.setTable table).nodeView = s.nodeView := rfl
@[simp] theorem State.nodeView_setImage (z : Zone) (x : ZoneImage) : (s.setImage z x).nodeView = s.nodeView := rfl
@[simp] theorem State.nodeView_recordStamp (z : Zone) (o : Station) (b : Byte) :
    (s.recordStamp z o b).nodeView = s.nodeView := rfl

@[simp] theorem State.nodeView_countLink (k : LinkCounter) : (s.countLink k).nodeView = s.nodeView := by
  rw [State.countLink_rest]; rfl

@[simp] theorem State.nodeView_removeOrigins (o : Station) : (s.removeOrigins o).nodeView = s.nodeView := by
  rw [State.removeOrigins]; rfl

theorem State.nodeView_cacheStep {s t : State} (h : s.CacheStep t) : t.nodeView = s.nodeView :=
  State.nodeView_of_parts (h.slot .node) h.node h.ports

@[simp] theorem State.nodeView_countCache (k : CacheCounter) : (s.countCache k).nodeView = s.nodeView :=
  State.nodeView_cacheStep (.countCache s k)

/-- A heard frame restarts the link-silence timer, which the law does not read. -/
@[simp] theorem State.nodeView_heard (o : Station) : (s.heard o).nodeView = s.nodeView := by
  rw [State.heard_rest]; rfl

@[simp] theorem State.nodeView_clashed : s.clashed.nodeView = s.nodeView := by
  rw [State.clashed, State.nodeView_countLink]; rfl

/-! ### Slots of other blocks -/

theorem State.nodeView_writeTarget {i : SlotId} (hi : i ≠ .node) (v : Int) : (s.writeTarget i v).nodeView = s.nodeView :=
  State.nodeView_of_parts (s.slot_writeTarget_other hi v)

@[simp] theorem State.nodeView_recomputeTargets : s.recomputeTargets.nodeView = s.nodeView := by
  have hrest := s.recomputeTargets_ramp
  exact State.nodeView_of_parts (s.recomputeTargets_other nofun nofun) (by rw [hrest]) (by rw [hrest])

@[simp] theorem State.nodeView_writePaceTargets (curves : Vector Curve 4) (speed : Nat) :
    (s.writePaceTargets curves speed).nodeView = s.nodeView := by
  have hrest := s.writePaceTargets_rest curves speed
  exact State.nodeView_of_parts (s.writePaceTargets_other curves speed nofun) (by rw [hrest]) (by rw [hrest])

/-! ### Image handler -/

@[simp] theorem State.nodeView_imageTaken (z : Zone) (f : ImageFields) : (s.imageTaken z f).nodeView = s.nodeView := by
  have hslot : (s.imageTaken z f).slot .node = s.slot .node := by
    unfold State.imageTaken
    rw [State.slot_writeIfChanged_other _ _ (i := .bal z) (j := .node) nofun,
      State.slot_writeIfChanged_other _ _ (i := .fade z) (j := .node) nofun,
      State.slot_writeIfChanged_other _ _ (i := .vol z) (j := .node) nofun, State.setImage_slot]
  exact State.nodeView_of_parts hslot (by rw [State.imageTaken_rest]; rfl) (by rw [State.imageTaken_rest]; rfl)

@[simp] theorem State.nodeView_applyImage (ord : List Channel) (z : Zone) (f : ImageFields) :
    (s.applyImage ord z f).nodeView = s.nodeView := by
  rw [State.applyImage_eq]
  split
  · exact s.nodeView_imageTaken z f
  · rw [State.nodeView_cacheStep (.handPreset _ ord z _), State.nodeView_imageTaken]

@[simp] theorem State.nodeView_takeImage (ord : List Channel) (o : Station) (payload : List Byte) :
    (s.takeImage ord o payload).nodeView = s.nodeView := by
  unfold State.takeImage
  dsimp only
  split
  · exact s.nodeView_countLink _
  · split
    · exact s.nodeView_countLink _
    · split
      · rfl
      · exact s.nodeView_countLink _
      · rw [State.nodeView_applyImage, State.nodeView_recordStamp]
      · rw [State.nodeView_applyImage, State.nodeView_recordStamp]

/-! ### Pace unit -/

@[simp] theorem State.nodeView_formPace (ord : List Channel) : (s.formPace ord).nodeView = s.nodeView := by
  unfold State.formPace
  split
  · rfl
  · rw [State.nodeView_cacheStep (.handBands _ ord _ _), State.nodeView_setPace, State.nodeView_writePaceTargets]

@[simp] theorem State.nodeView_select (ord : List Channel) : (s.select ord).nodeView = s.nodeView := by
  unfold State.select
  dsimp only
  split
  · rfl
  · rw [State.nodeView_formPace, State.nodeView_setPace]

@[simp] theorem State.nodeView_takePace (ord : List Channel) (o : Station) (payload : List Byte) :
    (s.takePace ord o payload).nodeView = s.nodeView := by
  unfold State.takePace
  split
  · exact s.nodeView_countLink _
  · split
    · rw [State.nodeView_select, State.nodeView_setPace]
    · split
      · rw [State.nodeView_select, State.nodeView_clearSource]
      · exact s.nodeView_countLink _

@[simp] theorem State.nodeView_sourceAbsent (ord : List Channel) (o : Station) (w : Source) :
    (s.sourceAbsent ord o w).nodeView = s.nodeView := by
  unfold State.sourceAbsent
  split
  · rw [State.nodeView_select, State.nodeView_clearSource]
  · rfl

@[simp] theorem State.nodeView_freshnessExpires (ord : List Channel) (w : Source) :
    (s.freshnessExpires ord w).nodeView = s.nodeView := by
  unfold State.freshnessExpires
  split
  · rw [State.nodeView_select, State.nodeView_clearSource]
  · rfl

/-! ### Reduction table -/

@[simp] theorem State.nodeView_putEntry (e : Entry) : (s.putEntry e).nodeView = s.nodeView := by
  rw [State.putEntry_rest]; rfl

@[simp] theorem State.nodeView_applyGroup (o : Station) (g : Group) (v : Nat) :
    (s.applyGroup o g v).nodeView = s.nodeView := by
  unfold State.applyGroup
  split
  · rfl
  · exact s.nodeView_putEntry _

@[simp] theorem State.nodeView_purgeStation (o : Station) : (s.purgeStation o).nodeView = s.nodeView := by
  rw [State.purgeStation, State.nodeView_recomputeTargets, State.nodeView_setTable]

@[simp] theorem State.nodeView_lifetimeExpires (key : EntryKey) : (s.lifetimeExpires key).nodeView = s.nodeView := by
  unfold State.lifetimeExpires State.expireEntry
  split
  · rw [State.nodeView_recomputeTargets, State.nodeView_setTable]
  · rfl

@[simp] theorem State.nodeView_releaseDip (o : Station) (id : Fin 8) : (s.releaseDip o id).nodeView = s.nodeView := by
  unfold State.releaseDip
  split
  · rfl
  · rw [State.nodeView_recomputeTargets, State.nodeView_setTable]

@[simp] theorem State.nodeView_takeDipRelease (o : Station) (payload : List Byte) :
    (s.takeDipRelease o payload).nodeView = s.nodeView := by
  unfold State.takeDipRelease
  split
  · exact s.nodeView_releaseDip o _
  · exact s.nodeView_countLink _

@[simp] theorem State.nodeView_takeDipApply (o : Station) (payload : List Byte) :
    (s.takeDipApply o payload).nodeView = s.nodeView := by
  unfold State.takeDipApply State.applyDip
  split
  · split
    · exact s.nodeView_releaseDip o _
    · rw [State.nodeView_recomputeTargets, State.nodeView_putEntry]
  · exact s.nodeView_countLink _

@[simp] theorem State.nodeView_takeHeadroom (o : Station) (payload : List Byte) :
    (s.takeHeadroom o payload).nodeView = s.nodeView := by
  simp only [State.takeHeadroom, State.nodeView_recomputeTargets, State.nodeView_applyGroup]

/-! ### Absence reports -/

@[simp] theorem State.nodeView_tellAbsence (ord : List Channel) (o : Station) (r : Recipient) :
    (s.tellAbsence ord o r).nodeView = s.nodeView := by
  cases r with
  | image => exact s.nodeView_removeOrigins o
  | pace => rw [State.tellAbsence, State.paceAbsence, State.nodeView_sourceAbsent, State.nodeView_sourceAbsent]
  | table => exact s.nodeView_purgeStation o

@[simp] theorem State.nodeView_tellAll (ord : List Channel) (o : Station) (rs : List Recipient) :
    (s.tellAll ord o rs).nodeView = s.nodeView := by
  unfold State.tellAll
  induction rs generalizing s with
  | nil => rfl
  | cons r rs ih => rw [List.foldl_cons, ih, State.nodeView_tellAbsence]

@[simp] theorem State.nodeView_silenceExpires (ord : List Channel) (cueFirst : Bool) (o : Station) :
    (s.silenceExpires ord cueFirst o).nodeView = s.nodeView := by
  unfold State.silenceExpires State.reportAbsence
  dsimp only
  split
  · split
    · rw [State.nodeView_tellAll, State.nodeView_setPresence]
    · split
      · rw [State.nodeView_setOwed, State.nodeView_tellAll, State.nodeView_setPresence]
      · rw [State.nodeView_tellAll, State.nodeView_setPresence]
  · rfl

/-! ### Link interface and statistics block -/

@[simp] theorem State.nodeView_latenessExpires (place : Nat) : (s.latenessExpires place).nodeView = s.nodeView := by
  unfold State.latenessExpires State.makeLate
  split
  · split
    · rfl
    · rw [State.nodeView_countLink, State.nodeView_setLink]
  · rfl

@[simp] theorem State.nodeView_silentExpires : s.silentExpires.nodeView = s.nodeView := by
  unfold State.silentExpires
  split
  · rfl
  · rfl

@[simp] theorem State.nodeView_startSending : s.startSending.nodeView = s.nodeView := by
  unfold State.startSending
  split
  · rfl
  · rfl

@[simp] theorem State.nodeView_endUnsent (b : Bool) (a : Attempt) : (s.endUnsent b a).nodeView = s.nodeView := by
  unfold State.endUnsent
  split
  · rw [State.nodeView_countLink, State.nodeView_setLink]
  · rfl

@[simp] theorem State.nodeView_finishSending : s.finishSending.nodeView = s.nodeView := by
  unfold State.finishSending
  split
  · rfl
  · rw [State.nodeView_countLink, State.nodeView_setLink]

@[simp] theorem State.nodeView_loseContention : s.loseContention.nodeView = s.nodeView := by
  unfold State.loseContention
  split
  · rfl
  · rw [State.nodeView_countLink, State.nodeView_endUnsent]

@[simp] theorem State.nodeView_failSending (b : Bool) : (s.failSending b).nodeView = s.nodeView := by
  unfold State.failSending
  split
  · rfl
  · rw [State.nodeView_setLink, State.nodeView_countLink, State.nodeView_endUnsent]

@[simp] theorem State.nodeView_discardInvalid (f : RawFrame) : (s.discardInvalid f).nodeView = s.nodeView := by
  unfold State.discardInvalid
  split
  · rfl
  · split
    · rfl
    · rw [State.nodeView_endFrame, State.nodeView_countLink]

@[simp] theorem State.nodeView_takeQuery (payload : List Byte) : (s.takeQuery payload).nodeView = s.nodeView := by
  unfold State.takeQuery State.handAnswer
  split
  · rfl
  · split
    · exact s.nodeView_countLink _
    · split
      · exact s.nodeView_countLink _
      · split
        · rw [State.clearReported_rest]; rfl
        · rfl

/-! ### Library port -/

@[simp] theorem State.nodeView_startFill : s.startFill.nodeView = s.nodeView := by
  unfold State.startFill
  split
  · split
    · rfl
    · rfl
  · rfl

@[simp] theorem State.nodeView_powerDown : s.powerDown.nodeView = s.nodeView := by
  unfold State.powerDown
  split
  · rfl
  · rfl

@[simp] theorem State.nodeView_endReleaseWait : s.endReleaseWait.nodeView = s.nodeView := by
  unfold State.endReleaseWait
  split
  · dsimp only
    split
    · rfl
    · rfl
  · rfl

@[simp] theorem State.nodeView_wayFree (i : Fin 16) : (s.wayFree i).nodeView = s.nodeView :=
  State.nodeView_cacheStep (.wayFree s i)

@[simp] theorem State.nodeView_fillPasses (ord : List Channel) (f : Fill) (coefs : List Coefs) :
    (s.fillPasses ord f coefs).nodeView = s.nodeView := by
  have hturns : ∀ u : State, (u.inTurn (State.takeIfAttached f.line) ord).nodeView = u.nodeView := fun u =>
    State.nodeView_cacheStep (.inTurn (fun c x => .takeIfAttached x f.line c) ord u)
  unfold State.fillPasses
  dsimp only
  split
  · rw [State.nodeView_wayFree, hturns]; rfl
  · rw [hturns]; rfl

@[simp] theorem State.nodeView_fillFails (f : Fill) : (s.fillFails f).nodeView = s.nodeView := by
  have hcounted : ((s.invalidate f.line).countCache .fillErrors).nodeView = s.nodeView := by
    rw [State.nodeView_countCache]; rfl
  unfold State.fillFails
  dsimp only
  generalize (s.invalidate f.line).countCache .fillErrors = u at hcounted
  split
  · exact hcounted
  · rw [State.nodeView_wayFree]; exact hcounted

@[simp] theorem State.nodeView_finishFill (ord : List Channel) (record : List Byte) :
    (s.finishFill ord record).nodeView = s.nodeView := by
  unfold State.finishFill
  split
  · rfl
  · split
    · exact s.nodeView_fillPasses ord _ _
    · exact s.nodeView_fillFails _

/-! ### Blocks and the clock -/

@[simp] theorem State.nodeView_blockStart : s.blockStart.nodeView = s.nodeView := by
  rw [State.blockStart_rest]; rfl

@[simp] theorem State.nodeView_emit : s.emit.nodeView = s.nodeView := by
  rw [State.emit_rest]; rfl

@[simp] theorem State.nodeView_idle : s.idle.nodeView = s.nodeView := by
  unfold State.idle
  split
  · rfl
  · split
    · rfl
    · rfl

end

end Sys2Proof.Machine
end

section
/-!
Every step keeps AMP_ON, the NODE target, the NODE slot and the output port as the node state and the input presence want
them (R137 to R146): the operations that change what the law reads, and the step.
-/
namespace Sys2Proof.Machine

section
variable {s t : State}

/-! ### What the law says in single states -/

theorem State.NodeLaw.zeros_of_not_awake (h : s.NodeLaw) (ha : s.awake = false) :
    s.ports.outFrame = Vector.replicate 8 0#32 := h.zeros (.inl (h.amp.trans ha))

theorem State.NodeLaw.running (h : s.NodeLaw) (hs : s.node.state ≠ .start) : s.ports.outRunning = true := h.clocks.mpr hs

theorem State.not_start_of_awake (ha : s.awake = true) : s.node.state ≠ .start := fun hs => by
  rw [State.awake, hs] at ha; cases ha

/-- A slot that has reached its target has no active record and counts no blocks (R18). -/
theorem TermSlot.Sound.idle {x : TermSlot} (h : x.Sound) (hx : x.current = x.target) : x = TermSlot.idleAt x.target := by
  obtain ⟨current, target, active, blocks⟩ := x
  obtain ⟨hactive, hblocks⟩ := h
  obtain rfl : current = target := hx
  obtain rfl : active = none := by_contra fun hne => hactive hne rfl
  obtain rfl : blocks = 0 := hblocks rfl
  rfl

/-- Outside ACTIVE the NODE target is 1600, so that a slot that has faded out rests there (R139). -/
theorem State.NodeLaw.idle_of_faded (h : s.NodeLaw) (hs : s.node.state ≠ .active) (hc : (s.slot .node).current = 1600) :
    s.slot .node = TermSlot.idleAt 1600 := by
  have htarget : (s.slot .node).target = 1600 := h.target.trans (if_neg fun hboth => hs hboth.1)
  rw [← htarget]
  exact h.sound.idle (hc.trans htarget.symm)

/-! ### The NODE slot stepped and retargeted -/

/-- The NODE slot takes a step or stays, and nothing else that the law reads changes (R24, R26). -/
theorem State.NodeLaw.moveSlot (h : s.NodeLaw) (hnode : t.node = s.node) (hports : t.ports = s.ports)
    (hslot : t.slot .node = s.slot .node ∨ t.slot .node = (s.slot .node).step s.ramp.record) : t.NodeLaw := by
  rcases hslot with hslot | hslot
  · exact h.of_view (State.nodeView_of_parts hslot hnode hports)
  · have hawake : t.awake = s.awake := by rw [State.awake, State.awake, hnode]
    exact {
      amp := by rw [hnode, hawake]; exact h.amp
      target := by rw [hslot, TermSlot.step_target, hnode, hports]; exact h.target
      sound := by rw [hslot]; exact TermSlot.step_sound h.sound _
      silent := fun ha hq => by
        rw [hnode] at ha hq
        rw [hslot, h.silent ha hq, TermSlot.step_idleAt]
      clocks := by rw [hports, hnode]; exact h.clocks
      zeros := by rw [hports, hnode]; exact h.zeros }

/-- The NODE target is written anew for the node state and input presence of `t`; where `t` is in neither ACTIVE nor QUIET,
the slot has rested at 1600 and stays so (R139). -/
theorem State.NodeLaw.retarget (h : s.NodeLaw)
    (hslot : t.slot .node = s.written .node (nodeTarget t.node.state t.ports.presence)) (hamp : t.node.ampOn = t.awake)
    (hsilent : t.node.state ≠ .active → t.node.state ≠ .quiet → s.slot .node = TermSlot.idleAt 1600)
    (hclocks : t.ports.outRunning = true ↔ t.node.state ≠ .start)
    (hzeros : t.node.ampOn = false ∨ t.ports.presence = .lost → t.ports.outFrame = Vector.replicate 8 0#32) :
    t.NodeLaw where
  amp := hamp
  target := by rw [hslot, State.written_target]
  sound := by rw [hslot]; exact TermSlot.write_sound h.sound _ _ _
  silent ha hq := by
    have hmute : nodeTarget t.node.state t.ports.presence = (TermSlot.idleAt 1600).target := if_neg fun hboth => ha hboth.1
    rw [hslot, State.written, hsilent ha hq, hmute, TermSlot.write_same]
  clocks := hclocks
  zeros := hzeros

/-! ### Entries to the node states (R139 to R145) -/

theorem State.NodeLaw.enterActive (h : s.NodeLaw) (ha : s.awake = true) : s.enterActive.NodeLaw :=
  h.retarget (State.slot_writeTarget_same _ _ _) (h.amp.trans ha) (fun hne => absurd rfl hne)
    ⟨fun _ => nofun, fun _ => h.running (State.not_start_of_awake ha)⟩ h.zeros

/-- The entry to DORMANT needs a NODE slot at rest at 1600 and a node past START (R144). -/
theorem State.nodeLaw_enterDormant (hslot : s.slot .node = TermSlot.idleAt 1600) (hrun : s.ports.outRunning = true)
    {ord : List Channel} (hn : ord.Nodup) (hm : ∀ c, c ∈ ord) (b : Bool) : (s.enterDormant ord b).NodeLaw := by
  have hfalls := s.enterDormant_falls hn hm b
  generalize s.enterDormant ord b = t at hfalls
  have hnode := hfalls.entry.node
  obtain ⟨hports, -, -, -⟩ := hfalls.rest
  have hrest : t.slot .node = TermSlot.idleAt 1600 := (hfalls.slots .node nofun nofun).trans hslot
  exact {
    amp := by rw [State.awake, hnode]
    target := by rw [hrest, hnode]; rfl
    sound := by rw [hrest]; exact TermSlot.idleAt_sound _
    silent := fun _ _ => hrest
    clocks := by rw [hports, hnode]; exact ⟨fun _ => nofun, fun _ => hrun⟩
    zeros := fun _ => by rw [hports] }

theorem State.NodeLaw.enterQuiet (h : s.NodeLaw) (ha : s.awake = true) {ord : List Channel} (hn : ord.Nodup)
    (hm : ∀ c, c ∈ ord) (b : Bool) : (s.enterQuiet ord b).NodeLaw := by
  have hrun := h.running (State.not_start_of_awake ha)
  have hquiet : ((s.setNode { s.node with state := .quiet, settle := none }).formNodeTarget).NodeLaw :=
    h.retarget (State.slot_writeTarget_same _ _ _) (h.amp.trans ha) (fun _ hne => absurd rfl hne)
      ⟨fun _ => nofun, fun _ => hrun⟩ h.zeros
  unfold State.enterQuiet
  dsimp only
  split
  · next hfaded => exact State.nodeLaw_enterDormant (hquiet.idle_of_faded nofun hfaded) hrun hn hm b
  · exact hquiet

/-- The wake starts from DORMANT, where the output carries zeros (R131, R141, R146). -/
theorem State.NodeLaw.wake (h : s.NodeLaw) (hd : s.node.state = .dormant) (ord : List Channel) : (s.wake ord).NodeLaw := by
  have hmute : s.slot .node = TermSlot.idleAt 1600 := h.silent (by rw [hd]; nofun) (by rw [hd]; nofun)
  have hslot : s.woken.slot .node = TermSlot.idleAt 1600 := (State.slot_woken s .node).trans hmute
  have hwoken : s.woken.NodeLaw := {
    amp := rfl
    target := by rw [hslot]; rfl
    sound := by rw [hslot]; exact TermSlot.idleAt_sound _
    silent := fun _ _ => hslot
    clocks := ⟨fun _ => nofun, fun _ => h.running (by rw [hd]; nofun)⟩
    zeros := fun _ => h.zeros_of_not_awake (by rw [State.awake, hd]) }
  rw [State.wake_eq]
  exact hwoken.of_view (State.nodeView_cacheStep (State.evaluateTurns_cacheStep ord _))

theorem State.NodeLaw.takeSleep (h : s.NodeLaw) {ord : List Channel} (hn : ord.Nodup) (hm : ∀ c, c ∈ ord) (b : Bool) :
    (s.takeSleep ord b).NodeLaw := by
  unfold State.takeSleep
  split
  · next hs => exact h.enterQuiet (by rw [State.awake, hs]) hn hm b
  · next hs => exact h.enterQuiet (by rw [State.awake, hs]) hn hm b
  · exact h
  · exact h
  · exact h
  · exact h

theorem State.NodeLaw.takeWake (h : s.NodeLaw) (ord : List Channel) : (s.takeWake ord).NodeLaw := by
  unfold State.takeWake
  split
  · next hs => exact h.enterActive (by rw [State.awake, hs])
  · next hs => exact h.wake hs ord
  · exact h
  · exact h
  · exact h
  · exact h

theorem State.NodeLaw.settleExpires (h : s.NodeLaw) : s.settleExpires.NodeLaw := by
  unfold State.settleExpires
  split
  · split
    · next hs => exact h.enterActive (by rw [State.awake, hs])
    · exact h.of_view rfl
  · exact h

theorem State.NodeLaw.linkSilenceExpires (h : s.NodeLaw) {ord : List Channel} (hn : ord.Nodup) (hm : ∀ c, c ∈ ord)
    (b : Bool) : (s.linkSilenceExpires ord b).NodeLaw := by
  have hstopped : (s.setNode { s.node with linkSilence := none }).NodeLaw := h.of_view rfl
  unfold State.linkSilenceExpires
  dsimp only
  split
  · split
    · next hs => exact hstopped.enterQuiet (show s.awake = true by rw [State.awake, hs]) hn hm b
    · exact hstopped
  · exact h

/-! ### Reset and start-up (R138, R145, R158 to R161) -/

theorem State.NodeLaw.releaseReset (h : s.NodeLaw) (straps : BitVec 4) : (s.releaseReset straps).NodeLaw := by
  rw [State.releaseReset_eq]
  split
  · exact State.nodeLaw_resetTo
  · exact h

theorem State.nodeLaw_assertReset (cause : ResetCause) (s : State) : (s.assertReset cause).NodeLaw := by
  rw [State.assertReset_eq]
  exact State.nodeLaw_resetTo

/-- HELD and WAKING are entered from START with the NODE slot at 1600 and zeros on the output, and the output clocks run
(R137, R145, R160). -/
theorem State.NodeLaw.leaveStart (h : s.NodeLaw) (hs : s.node.state = .start) (hslot : t.slot .node = TermSlot.idleAt 1600)
    (hamp : t.node.ampOn = t.awake) (hactive : t.node.state ≠ .active) (hstart : t.node.state ≠ .start)
    (hports : t.ports = { s.ports with outRunning := true, blockFrames := 0, nodeStepped := false }) : t.NodeLaw where
  amp := hamp
  target := by rw [hslot]; exact (if_neg fun hboth => hactive hboth.1).symm
  sound := by rw [hslot]; exact TermSlot.idleAt_sound _
  silent _ _ := hslot
  clocks := by rw [hports]; exact ⟨fun _ => hstart, fun _ => rfl⟩
  zeros _ := by rw [hports]; exact h.zeros_of_not_awake (by rw [State.awake, hs])

theorem State.NodeLaw.enterHeld (h : s.NodeLaw) (hs : s.node.state = .start) (code : FaultCode) :
    (s.enterHeld code).NodeLaw := by
  have hheld := s.enterHeld_heldWith code
  have hnode := hheld.node
  exact h.leaveStart hs (hheld.slots .node) (by rw [State.awake, hnode]) (by rw [hnode]; nofun) (by rw [hnode]; nofun)
    hheld.ports

theorem State.NodeLaw.handOver (h : s.NodeLaw) (hs : s.node.state = .start) {ord : List Channel} (hn : ord.Nodup)
    (hm : ∀ c, c ∈ ord) (cfg : NodeConfig) : (s.handOver ord cfg).NodeLaw := by
  have hgiven := s.handOver_configuredBy hn hm cfg
  have hnode := hgiven.node
  obtain ⟨hslot, -⟩ := hgiven.slots
  exact h.leaveStart hs hslot (by rw [State.awake, hnode]) (by rw [hnode]; nofun) (by rw [hnode]; nofun) hgiven.ports

theorem State.NodeLaw.takeIdentification (h : s.NodeLaw) (b0 b1 b2 : Byte) : (s.takeIdentification b0 b1 b2).NodeLaw := by
  unfold State.takeIdentification
  split
  · next hload =>
    obtain ⟨-, hs, -⟩ := State.loading_iff.mp hload
    split
    · exact h.enterHeld hs _
    · exact h.of_view rfl
  · exact h

theorem State.NodeLaw.takeHeader (h : s.NodeLaw) (header : List Byte) : (s.takeHeader header).NodeLaw := by
  unfold State.takeHeader
  split
  · next hload =>
    obtain ⟨-, hs, -⟩ := State.loading_iff.mp hload
    split
    · exact h.of_view rfl
    · exact h.enterHeld hs _
  · exact h

theorem State.NodeLaw.takeImageRead (h : s.NodeLaw) {ord : List Channel} (hn : ord.Nodup) (hm : ∀ c, c ∈ ord)
    (rest : List Byte) : (s.takeImageRead ord rest).NodeLaw := by
  unfold State.takeImageRead
  split
  · next hload =>
    obtain ⟨-, hs, -⟩ := State.loading_iff.mp hload
    split
    · exact h.handOver hs hn hm _
    · exact h.enterHeld hs _
  · exact h

/-! ### Audio ports (R30, R133 to R137) -/

/-- A frame of the output port that keeps to the law of AMP_ON and input presence. -/
theorem State.NodeLaw.sendFrame (h : s.NodeLaw) (word : Channel → Int) {p : AudioPorts}
    (hpresence : p.presence = s.ports.presence) (hrunning : p.outRunning = s.ports.outRunning)
    (hframe : s.node.ampOn = false ∨ s.ports.presence = .lost → p.outFrame = Vector.replicate 8 0#32) :
    ((s.runFrame word).setPorts p).NodeLaw := by
  have hslot : ((s.runFrame word).setPorts p).slot .node = s.slot .node := State.runFrame_slot s word .node
  exact {
    amp := h.amp
    target := by rw [hslot]; exact h.target.trans (by rw [← hpresence]; rfl)
    sound := by rw [hslot]; exact h.sound
    silent := by rw [hslot]; exact h.silent
    clocks := (Eq.congr hrunning rfl).trans h.clocks
    zeros := fun hoff => hframe (by rw [← hpresence]; exact hoff) }

theorem State.NodeLaw.inputFrame (h : s.NodeLaw) (hp : s.ports.presence = .present) (slots : Vector SlotWord 16) :
    (s.inputFrame slots).NodeLaw := by
  unfold State.inputFrame
  split
  · refine h.sendFrame _ rfl rfl fun hoff => ?_
    exact State.outputOf_off (hoff.resolve_right (by rw [hp]; nofun)) _
  · exact h

theorem State.NodeLaw.outputTick (h : s.NodeLaw) : s.outputTick.NodeLaw := by
  unfold State.outputTick
  split
  · exact h.sendFrame _ rfl rfl fun _ => rfl
  · exact h

theorem State.NodeLaw.audioLoss (h : s.NodeLaw) : s.audioLoss.NodeLaw := by
  rw [State.audioLoss_eq]
  exact {
    amp := h.amp
    target := (congrArg TermSlot.target (s.slot_setSlot_same .node _)).trans (if_neg nofun).symm
    sound := by
      show ((s.setSlot .node (TermSlot.idleAt 1600)).slot .node).Sound
      rw [State.slot_setSlot_same]
      exact TermSlot.idleAt_sound _
    silent := fun _ _ => s.slot_setSlot_same .node _
    clocks := h.clocks
    zeros := fun _ => rfl }

/-- Before the target is written, the NODE slot has taken the coming step or not (R27, R135). -/
theorem State.NodeLaw.audioReturn (h : s.NodeLaw) (stepFirst : Bool) : (s.audioReturn stepFirst).NodeLaw := by
  obtain ⟨early, u, -, hu, hreturn⟩ := s.audioReturn_spec stepFirst
  have hearly : u.NodeLaw ∧ u.node = s.node ∧ u.ports = s.ports := by
    cases early with
    | false => rw [hu]; exact ⟨h, rfl, rfl⟩
    | true => rw [hu]; exact ⟨h.moveSlot rfl rfl (.inr (s.slot_setSlot_same .node _)), rfl, rfl⟩
  obtain ⟨hlaw, hnode, hports⟩ := hearly
  rw [hreturn]
  refine hlaw.retarget ?slot hlaw.amp hlaw.silent ?clocks fun _ => rfl
  case slot =>
    show (u.writeTarget .node (nodeTarget s.node.state .present)).slot .node = u.written .node (nodeTarget u.node.state .present)
    rw [hnode]
    exact State.slot_writeTarget_same _ _ _
  case clocks => exact h.clocks.trans (by rw [← hnode]; rfl)

theorem State.NodeLaw.takeSync (h : s.NodeLaw) (stepFirst : Bool) (interval : Nat) (slots : Vector SlotWord 16) :
    (s.takeSync stepFirst interval slots).NodeLaw := by
  have hmarked : (s.setPorts { s.ports with syncSeen := true }).NodeLaw := h.of_view rfl
  unfold State.takeSync
  dsimp only
  split
  · exact h
  · split
    · next hp =>
      unfold State.syncPresent
      split
      · exact hmarked.inputFrame hp slots
      · exact hmarked.audioLoss
    · unfold State.syncLost
      split
      · split
        · exact hmarked.audioReturn stepFirst
        · exact h.of_view rfl
      · exact h.of_view rfl

theorem State.NodeLaw.takeGap (h : s.NodeLaw) : s.takeGap.NodeLaw := by
  have hmarked : (s.setPorts { s.ports with syncSeen := false }).NodeLaw := h.of_view rfl
  unfold State.takeGap
  dsimp only
  split
  · exact h
  · split
    · exact hmarked.audioLoss
    · exact h.of_view rfl

/-! ### Block completion (R24 to R28, R143) -/

theorem State.stepped_node_cases (s : State) :
    s.stepped .node = s.slot .node ∨ s.stepped .node = (s.slot .node).step s.ramp.record := by
  unfold State.stepped
  split
  · exact .inl rfl
  · exact .inr rfl

theorem State.NodeLaw.rampStep (h : s.NodeLaw) : s.rampStep.NodeLaw :=
  h.moveSlot s.rampStep_node s.rampStep_ports (by rw [State.slot_rampStep]; exact s.stepped_node_cases)

theorem State.NodeLaw.stepAndUpdate (h : s.NodeLaw) (b : Group → Bool) : (s.stepAndUpdate b).NodeLaw := by
  have hspec := s.stepAndUpdate_spec b
  exact h.moveSlot (by rw [hspec.rest]) (by rw [hspec.rest]) (by rw [hspec.slots .node nofun]; exact s.stepped_node_cases)

theorem State.NodeLaw.enterDormant_of_fadedOut (h : s.NodeLaw) (hfaded : s.fadedOut = true) {ord : List Channel}
    (hn : ord.Nodup) (hm : ∀ c, c ∈ ord) (b : Bool) : (s.enterDormant ord b).NodeLaw := by
  obtain ⟨hs, hc⟩ : s.node.state = .quiet ∧ (s.slot .node).current = 1600 := by
    simpa only [State.fadedOut, Bool.and_eq_true, beq_iff_eq] using hfaded
  exact State.nodeLaw_enterDormant (h.idle_of_faded (by rw [hs]; nofun) hc) (h.running (by rw [hs]; nofun)) hn hm b

theorem State.NodeLaw.dormantIfFaded (h : s.NodeLaw) {ord : List Channel} (hn : ord.Nodup) (hm : ∀ c, c ∈ ord) (b : Bool) :
    (s.dormantIfFaded ord b).NodeLaw := by
  unfold State.dormantIfFaded
  split
  · next hfaded => exact h.enterDormant_of_fadedOut hfaded hn hm b
  · exact h

theorem State.NodeLaw.takeCompletion (h : s.NodeLaw) (stepFirst : Group → Bool) (entryFirst clearFirst : Bool)
    {ord : List Channel} (hn : ord.Nodup) (hm : ∀ c, c ∈ ord) :
    (s.takeCompletion stepFirst entryFirst clearFirst ord).NodeLaw := by
  have hdue : (s.setPorts { s.ports with blockDue := false }).NodeLaw := h.of_view rfl
  have hcrossfades : ∀ u : State, (u.inTurn State.advanceCrossfade ord).nodeView = u.nodeView := fun u =>
    State.nodeView_cacheStep (.inTurn (fun c x => .advanceCrossfade x c) ord u)
  unfold State.takeCompletion State.completeBlock
  dsimp only
  split
  · split
    · next hfirst =>
      have hfaded := (Bool.and_eq_true_iff.mp hfirst).2
      exact (hdue.rampStep.enterDormant_of_fadedOut hfaded hn hm clearFirst).of_view (State.nodeView_blockStart _)
    · have hworked := (hdue.stepAndUpdate stepFirst).of_view ((hcrossfades _).trans (State.nodeView_emit _))
      exact (hworked.dormantIfFaded hn hm clearFirst).of_view (State.nodeView_blockStart _)
  · exact h

/-! ### Reception (R153, R154) -/

theorem State.NodeLaw.receive (h : s.NodeLaw) (o : Station) (b : Bool) {f : State → State}
    (hf : ∀ {u : State}, u.NodeLaw → (f u).NodeLaw) : (s.receive o b f).NodeLaw := by
  unfold State.receive
  split
  · split
    · exact h
    · exact h.of_view s.nodeView_endFrame
  · exact h.of_view s.nodeView_clashed
  · exact hf (h.of_view (s.nodeView_heard o))

/-- A cue that its block takes without a change to what the law reads, with the absence report that may follow it. -/
theorem State.NodeLaw.receiveCue (h : s.NodeLaw) (r : Recipient) (o : Station) {f : State → State}
    (hf : ∀ u : State, (f u).nodeView = u.nodeView) :
    (s.receive o false (State.whenTaken (State.takeCue r o f))).NodeLaw := by
  refine h.receive o false fun {u} hu => ?_
  unfold State.whenTaken State.takeCue
  split
  · split
    · exact hu.of_view (by rw [State.nodeView_tellAbsence, State.nodeView_drawn, hf, State.nodeView_setOwed])
    · exact hu.of_view (hf u)
  · exact hu

/-! ### The step -/

theorem State.NodeLaw.exec (h : s.NodeLaw) (c : Instr) (ht : exec c s = .next t) : t.NodeLaw := by
  have hn := channelOrder_nodup s.draws
  have hm := mem_channelOrder s.draws
  have hd : s.drawn.NodeLaw := h.of_view rfl
  cases c <;> obtain rfl := Host.Outcome.next.inj ht
  case resetAssert cause => exact s.nodeLaw_assertReset cause
  case resetRelease straps => exact h.releaseReset straps
  case releaseWaitEnd => exact h.of_view s.nodeView_endReleaseWait
  case identificationRead b0 b1 b2 => exact h.takeIdentification b0 b1 b2
  case imageHeaderRead header => exact h.takeHeader header
  case imageRead rest => exact hd.takeImageRead hn hm rest
  case frameSync interval slots => exact h.takeSync _ interval slots
  case frameSyncGap => exact h.takeGap
  case outputFrameTick => exact h.outputTick
  case blockCompletion => exact hd.takeCompletion _ _ _ hn hm
  case settleExpiry => exact h.settleExpires
  case linkSilenceExpiry => exact hd.linkSilenceExpires hn hm _
  case freshnessExpiry source => exact hd.of_view (s.drawn.nodeView_freshnessExpires _ source)
  case lifetimeExpiry key => exact h.of_view (s.nodeView_lifetimeExpires key)
  case silenceExpiry station => exact hd.of_view (s.drawn.nodeView_silenceExpires _ _ station)
  case latenessExpiry place => exact h.of_view (s.nodeView_latenessExpires place)
  case silentExpiry => exact h.of_view s.nodeView_silentExpires
  case sendingStart => exact h.of_view s.nodeView_startSending
  case frameSent => exact h.of_view s.nodeView_finishSending
  case contentionLost => exact h.of_view s.nodeView_loseContention
  case transmitError => exact hd.of_view (s.drawn.nodeView_failSending _)
  case invalidFrame frame => exact h.of_view (s.nodeView_discardInvalid frame)
  case imageCue origin zone stamp flags fields =>
    exact hd.receiveCue .image origin fun u => u.nodeView_takeImage _ origin _
  case paceCue origin validity speed => exact hd.receiveCue .pace origin fun u => u.nodeView_takePace _ origin _
  case dipApply origin op masks depth hold => exact h.receiveCue .table origin fun u => u.nodeView_takeDipApply origin _
  case dipRelease origin op => exact h.receiveCue .table origin fun u => u.nodeView_takeDipRelease origin _
  case headroomCue origin v0 v1 v2 v3 code flags =>
    exact h.receiveCue .table origin fun u => u.nodeView_takeHeadroom origin _
  case sleepCue origin => exact hd.receive origin false fun hu => hu.takeSleep hn hm _
  case wakeCue origin => exact hd.receive origin true fun hu => hu.takeWake _
  case queryCue origin target group index flags =>
    refine h.receive origin false fun {u} hu => ?_
    unfold State.whenTaken
    split
    · exact hu.of_view (u.nodeView_takeQuery _)
    · exact hu
  case reportFrame origin payload => exact h.receive origin false id
  case fillStart => exact h.of_view s.nodeView_startFill
  case fillCompletion record => exact hd.of_view (s.drawn.nodeView_finishFill _ record)
  case deepPowerDown => exact h.of_view s.nodeView_powerDown

end

/-- Settles O56: what the law reads is changed by audio events, block completions and entries to a node state alone, and
each keeps the law. -/
theorem stepKeepsNodeLaw : Obligations.StepKeepsNodeLaw := by
  intro s t h hstep
  unfold step at hstep
  split at hstep
  · obtain rfl := Host.Outcome.next.inj hstep
    exact h.of_view s.nodeView_idle
  · next c rest _ => exact (h.of_view rfl : State.NodeLaw { s with pending := rest }).exec c hstep

end Sys2Proof.Machine
end

section
/-!
Entries to ACTIVE and QUIET, by the node timers and by sleep and wake cues, with the entry to DORMANT within the same event
(R139 to R143); frames heard (R142, R147, R154, R155); and a reset that begins to be held (R138).
-/
namespace Sys2Proof.Machine

section
variable {s t : State}

/-! ### Entries to ACTIVE and QUIET -/

/-- The NODE target is formed for ACTIVE, and the settle timer stops (R139, R141, R143). -/
theorem State.enterActive_eq (s : State) : s.enterActive =
    { s.writeTarget .node (if s.ports.presence = .present then 0 else 1600) with
      node := { s.node with state := .active, settle := none } } := by
  have htarget : nodeTarget .active s.ports.presence = if s.ports.presence = .present then 0 else 1600 := by
    simp only [nodeTarget, true_and]
  rw [← htarget]
  rfl

/-- The node in QUIET, its NODE target at 1600 (R139, R143). -/
def State.quieted (s : State) : State :=
  { s.writeTarget .node 1600 with node := { s.node with state := .quiet, settle := none } }

theorem State.quieted_current (s : State) : (s.quieted.slot .node).current = (s.slot .node).current := by
  show ((s.writeTarget .node 1600).slot .node).current = _
  rw [State.slot_writeTarget_same, TermSlot.write_current]

theorem State.enterQuiet_eq (s : State) (ord : List Channel) (b : Bool) : s.enterQuiet ord b =
    if (s.slot .node).current = 1600 then s.quieted.enterDormant ord b else s.quieted := by
  rw [← s.quieted_current]
  rfl

theorem State.enterQuiet_stays (hc : (s.slot .node).current ≠ 1600) (ord : List Channel) (b : Bool) :
    s.enterQuiet ord b = s.quieted := (s.enterQuiet_eq ord b).trans (if_neg hc)

/-- The entry to DORMANT gives the node state and the node timers their values whatever they were before, and the counter of
the free values is no part of it. -/
theorem State.FallsDormant.of_node {n : NodeControl} {d : Nat}
    (h : State.FallsDormant { s with node := n, draws := d } t)
    (hn : { n with state := NodeState.dormant, ampOn := false, settle := none, linkSilence := none } =
      { s.node with state := NodeState.dormant, ampOn := false, settle := none, linkSilence := none }) :
    s.FallsDormant t :=
  { h with entry := { h.entry with node := h.entry.node.trans hn } }

/-- With NODE.current at 1600 the entry to QUIET leads on to DORMANT within the same event (R143). -/
theorem State.enterQuiet_falls (hc : (s.slot .node).current = 1600) {ord : List Channel} (hn : ord.Nodup)
    (hm : ∀ c, c ∈ ord) (b : Bool) : (s.writeTarget .node 1600).FallsDormant (s.enterQuiet ord b) := by
  rw [State.enterQuiet_eq, if_pos hc]
  exact (s.quieted.enterDormant_falls hn hm b).of_node (s := s.writeTarget .node 1600) rfl

end

/-! ### The node timers (R140 to R143) -/

theorem State.settleExpires_waking {s : State} (hr : s.inReset = false) (hdue : s.node.settle = some 0)
    (hs : s.node.state = .waking) : s.settleExpires = s.enterActive := by
  simp only [State.settleExpires, hr, hdue, hs, Bool.not_false, Bool.true_and, beq_self_eq_true, if_true]

theorem State.linkSilenceExpires_due {s : State} (hr : s.inReset = false) (hdue : s.node.linkSilence = some 0)
    (ord : List Channel) (b : Bool) : s.linkSilenceExpires ord b =
      if s.node.state = .active then (s.setNode { s.node with linkSilence := none }).enterQuiet ord b
      else s.setNode { s.node with linkSilence := none } := by
  simp only [State.linkSilenceExpires, hr, hdue, Bool.not_false, Bool.true_and, beq_self_eq_true, if_true]

/-- Settles O19: the expiries by the entries to ACTIVE and QUIET that they make. -/
theorem nodeTimersExpire : Obligations.NodeTimersExpire := by
  intro s hr
  refine ⟨fun hdue hs => ?_, fun hdue => ?_⟩
  · exact congrArg Host.Outcome.next ((State.settleExpires_waking hr hdue hs).trans s.enterActive_eq)
  · have hexec : exec .linkSilenceExpiry s = .next (if s.node.state = .active then
        (s.drawn.setNode { s.node with linkSilence := none }).enterQuiet (channelOrder s.draws) (Config.clearFirst s.draws)
        else s.drawn.setNode { s.node with linkSilence := none }) :=
      congrArg Host.Outcome.next (State.linkSilenceExpires_due (s := s.drawn) hr hdue _ _)
    refine ⟨fun hs hc => ?_, fun hs hc => ?_, fun hs => ?_⟩
    · rw [hexec, if_pos hs, State.enterQuiet_stays (s := s.drawn.setNode _) hc]
      rfl
    · rw [if_pos hs] at hexec
      have hfalls := State.enterQuiet_falls (s := s.drawn.setNode { s.node with linkSilence := none }) hc
        (channelOrder_nodup s.draws) (mem_channelOrder s.draws) (Config.clearFirst s.draws)
      exact ⟨_, hexec, hfalls.of_node (s := s.writeTarget .node 1600) rfl⟩
    · rw [hexec, if_neg fun hactive => by simp [hactive] at hs]
      rfl

/-! ### Sleep and wake cues (R140, R143) -/

section
variable {s : State} {o : Station} (hr : s.inReset = false) (ho : o ≠ s.loader.station) (hd : s.node.state ≠ .dormant)
include hr ho hd

theorem State.exec_sleepCue : exec (.sleepCue o) s =
    .next ((s.drawn.heard o).takeSleep (channelOrder s.draws) (Config.clearFirst s.draws)) :=
  congrArg Host.Outcome.next (State.receive_heard (s := s.drawn) hr hd ho false _)

theorem State.exec_wakeCue : exec (.wakeCue o) s = .next ((s.drawn.heard o).takeWake (channelOrder s.draws)) :=
  congrArg Host.Outcome.next (State.receive_heard (s := s.drawn) hr hd ho true _)

end

theorem State.heard_drawn_node (s : State) (o : Station) : (s.drawn.heard o).node = (s.heard o).node := by
  rw [State.heard_drawn]

/-- A sleep cue acts in WAKING and ACTIVE alone (R140, R141). -/
theorem State.takeSleep_awake {s : State} (hs : s.node.state = .active ∨ s.node.state = .waking) (ord : List Channel)
    (b : Bool) : s.takeSleep ord b = s.enterQuiet ord b := by
  rcases hs with hs | hs <;> rw [State.takeSleep, hs]

theorem State.takeSleep_other {s : State} (hs : s.node.state = .start ∨ s.node.state = .held ∨ s.node.state = .quiet)
    (ord : List Channel) (b : Bool) : s.takeSleep ord b = s := by
  rcases hs with hs | hs | hs <;> rw [State.takeSleep, hs]

theorem State.takeWake_quiet {s : State} (hs : s.node.state = .quiet) (ord : List Channel) :
    s.takeWake ord = s.enterActive := by
  rw [State.takeWake, hs]

/-- A wake cue acts in QUIET and DORMANT alone (R140). -/
theorem State.takeWake_other {s : State}
    (hs : s.node.state = .start ∨ s.node.state = .held ∨ s.node.state = .waking ∨ s.node.state = .active)
    (ord : List Channel) : s.takeWake ord = s := by
  rcases hs with hs | hs | hs | hs <;> rw [State.takeWake, hs]

/-- Settles O40: the cue is heard, and the entry to QUIET or ACTIVE is made in the state that has heard it. -/
theorem sleepAndWakeCues : Obligations.SleepAndWakeCues := by
  intro s o hr ho
  have hstate : (s.drawn.heard o).node.state = s.node.state := State.heard_state s.drawn o
  have hslot : (s.drawn.heard o).slot .node = s.slot .node := State.heard_slot s.drawn o .node
  refine ⟨fun hs hc => ?_, fun hs hc => ?_, fun hs => ?_, fun hs => ?_, fun hs => ?_⟩
  · have hd : s.node.state ≠ .dormant := fun hd => by simp [hd] at hs
    rw [State.exec_sleepCue hr ho hd, State.takeSleep_awake (by rwa [hstate]), State.enterQuiet_stays (by rwa [hslot]),
      State.quieted, State.heard_drawn_node]
  · have hd : s.node.state ≠ .dormant := fun hd => by simp [hd] at hs
    have hfalls := State.enterQuiet_falls (s := s.drawn.heard o) (by rwa [hslot]) (channelOrder_nodup s.draws)
      (mem_channelOrder s.draws) (Config.clearFirst s.draws)
    rw [State.heard_drawn] at hfalls
    refine ⟨_, State.exec_sleepCue hr ho hd, ?_⟩
    rw [State.takeSleep_awake (by rwa [hstate]), State.heard_drawn]
    exact hfalls.of_node (s := (s.heard o).writeTarget .node 1600) rfl
  · have hd : s.node.state ≠ .dormant := fun hd => by simp [hd] at hs
    rw [State.exec_sleepCue hr ho hd, State.takeSleep_other (by rwa [hstate])]
  · rw [State.exec_wakeCue hr ho (by rw [hs]; nofun), State.takeWake_quiet (hstate.trans hs), State.enterActive_eq,
      State.heard_ports, State.drawn_ports, State.heard_drawn_node]
  · have hd : s.node.state ≠ .dormant := fun hd => by simp [hd] at hs
    rw [State.exec_wakeCue hr ho hd, State.takeWake_other (by rwa [hstate])]

/-! ### Report frames (R142, R147, R154, R155) -/

theorem State.awake_iff (s : State) : s.awake = true ↔ s.node.state ∈ [.waking, .active, .quiet] := by
  rw [State.awake]
  cases s.node.state <;> decide

/-- Settles O30: a report frame is heard and reaches no block. -/
theorem reportFrameIsHeard : Obligations.ReportFrameIsHeard := by
  intro s o payload hr hd ho
  have hrest := s.heard_rest o
  refine ⟨s.heard o, congrArg Host.Outcome.next (State.receive_heard hr hd ho false id), rfl, ?_, ?_, s.heard_stations o, ?_⟩
  · generalize s.heard o = t at hrest
    rw [hrest]
  · rw [State.heard_linkSilence]
    exact if_congr s.awake_iff rfl rfl
  · rw [hrest]

/-! ### A reset is asserted (R138) -/

/-- Whichever cause begins to hold the reset, one holds it now. -/
theorem State.assertReset_inReset (cause : ResetCause) (s : State) : (s.assertReset cause).inReset = true := by
  cases cause with
  | powerOn => simp [State.assertReset_eq, State.inReset, State.resetTo, State.underReset]
  | pin => simp [State.assertReset_eq, State.inReset, State.resetTo, State.underReset]

/-- Settles O3: every block at its reset values from the assertion on (log 9). -/
theorem resetAssertAbandonsEverything : Obligations.ResetAssertAbandonsEverything := by
  intro cause s
  refine ⟨s.assertReset cause, rfl, s.assertReset_inReset cause, ?_⟩
  rw [State.assertReset_eq]
  refine ⟨rfl, rfl, rfl, rfl, rfl, rfl, rfl, rfl, rfl, rfl, rfl, rfl, rfl, fun l => ?lines, rfl, rfl, rfl,
    State.slot_resetTo, rfl, rfl, rfl, fun st => ?stations, fun c => ?channels, rfl⟩
  case lines => rw [State.line_resetTo]; exact ⟨rfl, rfl⟩
  case stations => rw [State.stations_resetTo]
  case channels => rw [State.channel_resetTo]; exact ⟨rfl, rfl, rfl, rfl, rfl, rfl⟩

end Sys2Proof.Machine
end

section
/-!
Sending on the cue link: how an attempt begins and how it ends (R147 to R152), and the expiries of the transmit queue and of
SILENT (R150, R152).
-/
namespace Sys2Proof.Machine

/-! ### Counts and the interface -/

theorem State.countLink_setLink (s : State) (l : LinkInterface) (k : LinkCounter) :
    (s.setLink l).countLink k = (s.countLink k).setLink l := by
  unfold State.countLink
  rw [State.setLink_dormant]
  split <;> rfl

/-! ### The start of an attempt (R147, R150) -/

theorem LinkInterface.maySend_iff (l : LinkInterface) : l.maySend = true ↔
    l.sending = none ∧ l.inFrame = false ∧ l.silent = none ∧ l.queue ≠ [] := by
  simp [LinkInterface.maySend, and_assoc]

/-- Settles O25: the head entry's frame begins exactly where one may be sent. -/
theorem sendingStartBeginsTheHeadFrame : Obligations.SendingStartBeginsTheHeadFrame := by
  intro s e rest hr
  refine ⟨fun hidle hframe hsilent hqueue => ?begins, fun hbusy => ?stays⟩
  case begins =>
    have hmay : s.link.maySend = true := s.link.maySend_iff.2 ⟨hidle, hframe, hsilent, by rw [hqueue]; nofun⟩
    refine congrArg Host.Outcome.next ?_
    simp only [State.startSending, hr, hmay, Bool.not_false, Bool.and_self, if_true, LinkInterface.startSending, hqueue]
    rfl
  case stays =>
    have hmay : ¬ s.link.maySend = true := fun h => by
      obtain ⟨hidle, hframe, hsilent, hqueue⟩ := s.link.maySend_iff.1 h
      simp [hidle, hframe, hsilent, hqueue] at hbusy
    exact congrArg Host.Outcome.next (if_neg fun h => hmay (Bool.and_eq_true_iff.1 h).2)

/-! ### An attempt that is sent (R149, R151) -/

section
variable {s u : State} {a : Attempt} {e : TxEntry} {rest : List TxEntry}

theorem queueAfterSend_gone (hgone : a.gone = true) (q : List TxEntry) : queueAfterSend a q = q := if_pos hgone

theorem queueAfterSend_replaced (hgone : a.gone = false) (hreplaced : a.replaced = true) :
    queueAfterSend a (e :: rest) = { e with late := false } :: rest := by
  simp [queueAfterSend, hgone, hreplaced]

theorem queueAfterSend_own (hgone : a.gone = false) (hreplaced : a.replaced = false) :
    queueAfterSend a (e :: rest) = rest := by
  simp [queueAfterSend, hgone, hreplaced]

theorem State.exec_frameSent (hs : s.link.sending = some a) : exec .frameSent s = .next { s.countLink .framesSent with
    link := { s.link with sending := none, errors := 0, queue := queueAfterSend a s.link.queue } } := by
  change Host.Outcome.next s.finishSending = _
  rw [State.finishSending, hs]
  exact congrArg Host.Outcome.next (s.countLink_setLink _ _)

/-! ### An attempt that ends unsent (R149, R150, R152) -/

theorem LinkInterface.raiseErrors_few {l : LinkInterface} (h : l.errors < 15) :
    l.raiseErrors = { l with errors := l.errors + 1 } := if_neg (by omega)

theorem LinkInterface.raiseErrors_sixteenth {l : LinkInterface} (h : 15 ≤ l.errors) :
    l.raiseErrors = { l with silent := some 1000, queue := [], errors := 0 } := if_pos (by omega)

theorem State.endUnsent_drawn (s : State) (b : Bool) (a : Attempt) : s.drawn.endUnsent b a = (s.endUnsent b a).drawn := by
  unfold State.endUnsent
  rw [State.drawn_link]
  split
  · rw [State.countLink_setLink, State.countLink_setLink, State.countLink_drawn, ← s.countLink_draws .lateDiscards]
    rfl
  · rfl

/-- The entry stays where the attempt has none, or one that is not late. -/
theorem State.endUnsent_kept (h : lateAtEnd a s.link.queue = false) (b : Bool) :
    s.endUnsent b a = s.setLink { s.link with sending := none, inFrame := b, queue := s.link.queue } :=
  if_neg (by rw [h]; nofun)

/-- A late entry goes, and is counted. -/
theorem State.endUnsent_late (hgone : a.gone = false) (hqueue : s.link.queue = e :: rest) (hlate : e.late = true)
    (b : Bool) : s.endUnsent b a =
      (s.countLink .lateDiscards).setLink { s.link with sending := none, inFrame := b, queue := rest } := by
  have h : lateAtEnd a s.link.queue = true := by simp [lateAtEnd, hqueue, hgone, hlate]
  rw [State.endUnsent, if_pos h, State.countLink_setLink, hqueue, List.tail_cons]

/-- The ends of an attempt that was not sent, from the state `u` and the queue `q` that the judgement of its entry leaves. -/
theorem State.unsent_ends {q : List TxEntry} (hs : s.link.sending = some a) (hdraws : u.draws = s.draws)
    (hend : ∀ b, s.endUnsent b a = u.setLink { s.link with sending := none, inFrame := b, queue := q }) :
    exec .contentionLost s = .next { u.countLink .contentionLosses with
      link := { s.link with sending := none, inFrame := true, queue := q } } ∧
    (s.link.errors < 15 → ∃ b, exec .transmitError s = .next { u.countLink .transmitErrors with
      link := { s.link with sending := none, inFrame := b, queue := q, errors := s.link.errors + 1 }
      draws := s.draws + 1 }) ∧
    (15 ≤ s.link.errors → ∃ b, exec .transmitError s = .next { u.countLink .transmitErrors with
      link := { s.link with sending := none, inFrame := b, errors := 0, queue := [], silent := some 1000 }
      draws := s.draws + 1 }) := by
  have hlost : exec .contentionLost s = .next ((s.endUnsent true a).countLink .contentionLosses) := by
    change Host.Outcome.next s.loseContention = _
    rw [State.loseContention, hs]
  have herror : ∃ b, exec .transmitError s = .next { u.countLink .transmitErrors with
      link := LinkInterface.raiseErrors { s.link with sending := none, inFrame := b, queue := q }
      draws := s.draws + 1 } := by
    refine ⟨Config.errorInFrame s.draws, ?_⟩
    change Host.Outcome.next (s.drawn.failSending (Config.errorInFrame s.draws)) = _
    rw [State.failSending, State.drawn_link, hs]
    dsimp only
    rw [State.endUnsent_drawn, hend, State.countLink_drawn, State.countLink_setLink, State.setLink_draws, hdraws]
    rfl
  refine ⟨?_, fun hfew => ?_, fun hmany => ?_⟩
  · rw [hlost, hend, State.countLink_setLink]; rfl
  · obtain ⟨b, hb⟩ := herror
    exact ⟨b, by rw [hb, LinkInterface.raiseErrors_few]; exact hfew⟩
  · obtain ⟨b, hb⟩ := herror
    exact ⟨b, by rw [hb, LinkInterface.raiseErrors_sixteenth]; exact hmany⟩

end

/-- Settles O27: an attempt's end is that of its queue and, unsent, of the entry that it leaves or discards. -/
theorem sendingAttemptEnds : Obligations.SendingAttemptEnds := by
  intro s a hs
  refine ⟨fun e rest hgone hqueue => ⟨fun hown => ?own, fun hreplaced => ?replaced, fun hlate => ?kept, fun hlate => ?late⟩,
    fun hgone => ⟨?goneSent, ?goneUnsent⟩⟩
  case own => rw [State.exec_frameSent hs, hqueue, queueAfterSend_own hgone hown]
  case replaced => rw [State.exec_frameSent hs, hqueue, queueAfterSend_replaced hgone hreplaced]
  case kept => exact State.unsent_ends hs rfl (State.endUnsent_kept (by simp [lateAtEnd, hqueue, hlate]))
  case late => exact State.unsent_ends hs (s.countLink_draws _) (State.endUnsent_late hgone hqueue hlate)
  case goneSent => rw [State.exec_frameSent hs, queueAfterSend_gone hgone]
  case goneUnsent =>
    exact State.unsent_ends hs rfl (State.endUnsent_kept (by unfold lateAtEnd; split <;> simp [hgone]))

/-! ### The expiries (R150, R152) -/

/-- Settles O23: an entry whose lateness expires is discarded, unless an attempt is sending it. -/
theorem linkTimersExpire : Obligations.LinkTimersExpire := by
  intro s hr
  refine ⟨fun place e he hage hlate => ?lateness, fun hsilent => ?silent⟩
  case lateness =>
    have hdue : s.latenessDue place = true := by simp [State.latenessDue, he, hage, hlate]
    have hexec : exec (.latenessExpiry place) s = .next (s.makeLate place) := by
      refine congrArg Host.Outcome.next (if_pos ?_)
      rw [hr, hdue, Bool.not_false, Bool.and_self]
    refine ⟨fun hfree => ?discarded, fun a rest hs hgone hqueue hplace => ?marked⟩
    case discarded =>
      have hnotSent : ¬ (place = 0 ∧ (s.link.sending.any fun a => !a.gone) = true) := by
        rintro ⟨hplace, hany⟩
        obtain ⟨a, hs, hgone⟩ := (Option.any_eq_true _ _).1 hany
        rw [hfree hplace a hs] at hgone
        nomatch hgone
      rw [hexec, State.makeLate, if_neg hnotSent, State.countLink_setLink, List.eraseIdx_eq_take_drop_succ]
      rfl
    case marked =>
      rw [hexec, State.makeLate, if_pos ⟨hplace, by simp [hs, hgone]⟩, hqueue]
      rfl
  case silent =>
    refine congrArg Host.Outcome.next (if_pos ?_)
    rw [hr, hsilent]
    rfl

end Sys2Proof.Machine
end

section
/-!
Frames on the cue link, bit by bit (R147, R148, R153, R166, R167): the checks of a received frame, the command that a valid
one is, and the frames the node sends.
-/
namespace Sys2Proof.Machine

/-! ### The formats of the kinds (R148) -/

/-- R148's table: each kind with its priority and its payload lengths. -/
def frameFormats : List (BitVec 4 × BitVec 3 × List Nat) :=
  [(1#4, 4#3, [3, 4, 5, 6, 7, 8]), (2#4, 3#3, [3]), (3#4, 1#3, [1, 5]), (4#4, 2#3, [10]), (5#4, 0#3, [0]),
    (6#4, 0#3, [0]), (7#4, 6#3, [4]), (8#4, 7#3, [5, 7, 9, 11])]

/-- A frame's kind, priority and length are those of a row of R148's table. -/
def HasFormat (f : RawFrame) : Prop :=
  ∃ row ∈ frameFormats, f.kind = row.1 ∧ f.priority = row.2.1 ∧ f.length.toNat ∈ row.2.2

/-- The model's two tables by kind are R148's. -/
theorem hasFormat_iff (f : RawFrame) : HasFormat f ↔
    kindPriority f.kind.toNat = some f.priority ∧ f.length.toNat ∈ kindLengths f.kind.toNat := by
  have hrow : ∀ row ∈ frameFormats, kindPriority row.1.toNat = some row.2.1 ∧ kindLengths row.1.toNat = row.2.2 := by
    decide
  have hkinds : ∀ (k : BitVec 4) (p : BitVec 3), kindPriority k.toNat = some p →
      (k, p, kindLengths k.toNat) ∈ frameFormats := by decide
  constructor
  · rintro ⟨row, hmem, hkind, hpriority, hlength⟩
    rw [hkind, hpriority, (hrow row hmem).1, (hrow row hmem).2]
    exact ⟨rfl, hlength⟩
  · rintro ⟨hpriority, hlength⟩
    exact ⟨_, hkinds f.kind f.priority hpriority, rfl, rfl, hlength⟩

/-! ### The checks, in order (R153) -/

/-- The check value of a frame's covered bits (R166). -/
abbrev checkValue (f : RawFrame) : Half :=
  crc16 (coveredBits f.priority (stationBits f.origin) f.kind f.length f.payload)

section
variable {f : RawFrame}

theorem frameFailure_endMark (hend : f.endMark = false) : frameFailure f = some .formatErrors := if_pos hend

theorem frameFailure_check (hend : f.endMark = true) (hcheck : checkValue f ≠ f.check) :
    frameFailure f = some .checkErrors := by
  rw [frameFailure, if_neg (by rw [hend]; nofun), if_pos hcheck]

theorem frameFailure_format (hend : f.endMark = true) (hcheck : checkValue f = f.check) (hformat : ¬ HasFormat f) :
    frameFailure f = some .formatErrors := by
  rw [hasFormat_iff] at hformat
  rw [frameFailure, if_neg (by rw [hend]; nofun), if_neg (not_not.2 hcheck)]
  cases hp : kindPriority f.kind.toNat with
  | none => rfl
  | some p =>
    dsimp only
    split
    · rfl
    · next hpriority =>
      obtain rfl := not_not.1 hpriority
      exact if_neg fun hlength => hformat ⟨hp, List.contains_iff_mem.1 hlength⟩

theorem frameFailure_valid (hend : f.endMark = true) (hcheck : checkValue f = f.check) (hformat : HasFormat f) :
    frameFailure f = none := by
  obtain ⟨hpriority, hlength⟩ := (hasFormat_iff f).1 hformat
  rw [frameFailure, if_neg (by rw [hend]; nofun), if_neg (not_not.2 hcheck), hpriority]
  exact (if_neg (not_not.2 rfl)).trans (if_pos (List.contains_iff_mem.2 hlength))

theorem hasFormat_of_valid (h : frameFailure f = none) : HasFormat f := by
  by_contra hformat
  cases hend : f.endMark with
  | false => simp [frameFailure_endMark hend] at h
  | true =>
    by_cases hcheck : checkValue f = f.check
    · simp [frameFailure_format hend hcheck hformat] at h
    · simp [frameFailure_check hend hcheck] at h

/-! ### Invalid frames (R153) -/

/-- An invalid frame ends on the line and is counted under its failing check. -/
theorem State.exec_invalidFrame {s : State} {k : LinkCounter} (hr : s.inReset = false) (h : frameFailure f = some k) :
    exec (.invalidFrame f) s = .next { s.countLink k with link := { s.link with inFrame := false } } := by
  change Host.Outcome.next (s.discardInvalid f) = _
  rw [State.discardInvalid, hr, h]
  change Host.Outcome.next ((s.countLink k).setLink { (s.countLink k).link with inFrame := false }) = _
  rw [State.countLink_link]
  rfl

end

/-- Settles O29: the checks in their order, the last against R148's table. -/
theorem invalidFrameIsCountedOnce : Obligations.InvalidFrameIsCountedOnce := by
  rintro s f l hr rfl
  refine ⟨fun hend => ?endMark, fun hend hcheck => ?check, fun hend hcheck hrows => ?format⟩
  case endMark => exact State.exec_invalidFrame hr (frameFailure_endMark hend)
  case check => exact State.exec_invalidFrame hr (frameFailure_check hend hcheck)
  case format =>
    have hformat : ¬ HasFormat f := fun ⟨row, hmem, hfits⟩ => hrows row hmem hfits
    exact State.exec_invalidFrame hr (frameFailure_format hend hcheck hformat)

/-! ### The command that a frame is (R148, R154, R167) -/

section
variable {f : RawFrame}

theorem frameCommand_invalid (h : frameFailure f ≠ none) : frameCommand f = .invalidFrame f := by
  obtain ⟨k, hk⟩ := Option.ne_none_iff_exists'.1 h
  simp [frameCommand, hk]

theorem frameCommand_image (h : frameFailure f = none) (hkind : f.kind = 1#4) : frameCommand f =
    .imageCue f.origin (byteAt f.payload 0) (byteAt f.payload 1) (byteAt f.payload 2) (f.payload.drop 3) := by
  rw [frameCommand, h, hkind]; rfl

theorem frameCommand_pace (h : frameFailure f = none) (hkind : f.kind = 2#4) : frameCommand f =
    .paceCue f.origin (byteAt f.payload 0) (bytesAt f.payload 1) := by
  rw [frameCommand, h, hkind]; rfl

theorem frameCommand_dipApply (h : frameFailure f = none) (hkind : f.kind = 3#4) (hlength : f.length = 5#4) :
    frameCommand f =
      .dipApply f.origin (byteAt f.payload 0) (byteAt f.payload 1) (bytesAt f.payload 2) (byteAt f.payload 4) := by
  rw [frameCommand, h, hkind]
  exact if_pos hlength

theorem frameCommand_dipRelease (h : frameFailure f = none) (hkind : f.kind = 3#4) (hlength : f.length ≠ 5#4) :
    frameCommand f = .dipRelease f.origin (byteAt f.payload 0) := by
  rw [frameCommand, h, hkind]
  exact if_neg hlength

theorem frameCommand_headroom (h : frameFailure f = none) (hkind : f.kind = 4#4) : frameCommand f =
    .headroomCue f.origin (bytesAt f.payload 0) (bytesAt f.payload 2) (bytesAt f.payload 4) (bytesAt f.payload 6)
      (byteAt f.payload 8) (byteAt f.payload 9) := by
  rw [frameCommand, h, hkind]; rfl

theorem frameCommand_sleep (h : frameFailure f = none) (hkind : f.kind = 5#4) :
    frameCommand f = .sleepCue f.origin := by
  rw [frameCommand, h, hkind]; rfl

theorem frameCommand_wake (h : frameFailure f = none) (hkind : f.kind = 6#4) :
    frameCommand f = .wakeCue f.origin := by
  rw [frameCommand, h, hkind]; rfl

theorem frameCommand_query (h : frameFailure f = none) (hkind : f.kind = 7#4) : frameCommand f =
    .queryCue f.origin (byteAt f.payload 0) (byteAt f.payload 1) (byteAt f.payload 2) (byteAt f.payload 3) := by
  rw [frameCommand, h, hkind]; rfl

theorem frameCommand_report (h : frameFailure f = none) (hkind : f.kind = 8#4) :
    frameCommand f = .reportFrame f.origin f.payload := by
  rw [frameCommand, h, hkind]; rfl

theorem reportLengthOk_iff (n : Nat) : reportLengthOk n = true ↔ n ∈ [5, 7, 9, 11] := by
  simp [reportLengthOk, or_assoc]

/-- A valid frame is a command of its origin, and a well-formed one where the payload is as long as its length field says. -/
theorem frameCommand_valid (h : frameFailure f = none) : frameOrigin (frameCommand f) = some f.origin ∧
    (f.payload.length = f.length.toNat → (frameCommand f).wellFormed = true) := by
  obtain ⟨row, hmem, hkind, -, hlength⟩ := hasFormat_of_valid h
  simp only [frameFormats, List.mem_cons, List.not_mem_nil, or_false] at hmem
  rcases hmem with rfl | rfl | rfl | rfl | rfl | rfl | rfl | rfl
  · have hfits : f.length.toNat ≤ 8 := (by decide : ∀ n ∈ [3, 4, 5, 6, 7, 8], n ≤ 8) _ hlength
    rw [frameCommand_image h hkind]
    exact ⟨rfl, fun hl => decide_eq_true (by rw [List.length_drop]; omega)⟩
  · rw [frameCommand_pace h hkind]; exact ⟨rfl, fun _ => rfl⟩
  · by_cases hl : f.length = 5#4
    · rw [frameCommand_dipApply h hkind hl]; exact ⟨rfl, fun _ => rfl⟩
    · rw [frameCommand_dipRelease h hkind hl]; exact ⟨rfl, fun _ => rfl⟩
  · rw [frameCommand_headroom h hkind]; exact ⟨rfl, fun _ => rfl⟩
  · rw [frameCommand_sleep h hkind]; exact ⟨rfl, fun _ => rfl⟩
  · rw [frameCommand_wake h hkind]; exact ⟨rfl, fun _ => rfl⟩
  · rw [frameCommand_query h hkind]; exact ⟨rfl, fun _ => rfl⟩
  · rw [frameCommand_report h hkind]
    exact ⟨rfl, fun hl => (reportLengthOk_iff _).2 (hl ▸ hlength)⟩

end

/-! ### A frame's bits (R147, R166) -/

/-- The bits of a frame behind its start mark. -/
def lineBits (f : RawFrame) : List Bool :=
  coveredBits f.priority (stationBits f.origin) f.kind f.length f.payload ++ halfBits f.check ++ [true, true, true]

theorem length_coveredBits (priority : BitVec 3) (origin kind length : BitVec 4) (payload : List Byte) :
    (coveredBits priority origin kind length payload).length = 15 + 8 * payload.length := by
  rw [coveredBits, List.length_append, flatMap_byteBits_length]
  rfl

theorem length_lineBits (f : RawFrame) : (lineBits f).length = 34 + 8 * f.payload.length := by
  have hcheck : (halfBits f.check).length = 16 := rfl
  simp only [lineBits, List.length_append, length_coveredBits, hcheck, List.length_cons, List.length_nil]
  omega

/-! ### The frames the node sends (R147, R148, R166) -/

/-- The payload has a length that R148 gives the kind. -/
def TxKind.Allows (kind : TxKind) (payload : List Byte) : Prop :=
  (kind = .headroom ∧ payload.length = 10) ∨ (kind = .report ∧ payload.length ∈ [5, 7, 9, 11])

/-- The frame that the node's bits spell. -/
def sentFrame (kind : TxKind) (o : Station) (payload : List Byte) : RawFrame :=
  { priority := kind.priority
    origin := o
    kind := kind.number
    length := BitVec.ofNat 4 payload.length
    payload := payload
    check := crc16 (coveredBits kind.priority (stationBits o) kind.number (BitVec.ofNat 4 payload.length) payload)
    endMark := true }

theorem frameBits_eq (kind : TxKind) (o : Station) (payload : List Byte) :
    frameBits kind o payload = false :: lineBits (sentFrame kind o payload) := rfl

section
variable {kind : TxKind} {payload : List Byte}

theorem TxKind.Allows.length_lt (h : kind.Allows payload) : payload.length < 16 := by
  rcases h with ⟨-, hl⟩ | ⟨-, hl⟩
  · omega
  · exact (by decide : ∀ n ∈ [5, 7, 9, 11], n < 16) _ hl

theorem sentFrame_length (h : kind.Allows payload) (o : Station) :
    (sentFrame kind o payload).length.toNat = payload.length :=
  Nat.mod_eq_of_lt h.length_lt

theorem sentFrame_hasFormat (h : kind.Allows payload) (o : Station) : HasFormat (sentFrame kind o payload) := by
  rw [HasFormat, sentFrame_length h]
  rcases h with ⟨rfl, hl⟩ | ⟨rfl, hl⟩
  · exact ⟨(4#4, 2#3, [10]), by decide, rfl, rfl, List.mem_singleton.2 hl⟩
  · exact ⟨(8#4, 7#3, [5, 7, 9, 11]), by decide, rfl, rfl, hl⟩

theorem sentFrame_valid (h : kind.Allows payload) (o : Station) : frameFailure (sentFrame kind o payload) = none :=
  frameFailure_valid rfl rfl (sentFrame_hasFormat h o)

end

/-- Settles O26: a sent frame's bits are written as `sentFrame` and read back by their places; a valid frame is the command
of its row in R148's table. -/
theorem sentFramesAreValid : Obligations.SentFramesAreValid := by
  refine ⟨fun kind o payload hallows => ?sent, fun f => ⟨frameCommand_invalid, fun h => ?read⟩⟩
  case sent =>
    have hlength := sentFrame_length hallows o
    refine ⟨lineBits (sentFrame kind o payload), sentFrame kind o payload, frameBits_eq kind o payload,
      length_lineBits _, readFrame_spec _ hlength.symm rfl, rfl, sentFrame_valid hallows o, rfl, rfl, hlength, ?_, ?_⟩
    · rintro rfl; exact ⟨rfl, rfl⟩
    · rintro rfl; exact ⟨rfl, rfl⟩
  case read =>
    obtain ⟨horigin, hwellFormed⟩ := frameCommand_valid h
    refine ⟨fun hk zone stamp flags fields hp => ?image, fun hk validity hi lo hp => ?pace,
      fun hk hl op masks hi lo hold hp => ?dipApply, fun hk hl op hp => ?dipRelease,
      fun hk h0 l0 h1 l1 h2 l2 h3 l3 code flags hp => ?headroom, frameCommand_sleep h, frameCommand_wake h,
      fun hk target group index flags hp => ?query, frameCommand_report h, horigin, hwellFormed⟩
    case image => rw [frameCommand_image h hk, hp]; rfl
    case pace => rw [frameCommand_pace h hk, hp]; rfl
    case dipApply => rw [frameCommand_dipApply h hk hl, hp]; rfl
    case dipRelease => rw [frameCommand_dipRelease h hk (by rw [hl]; decide), hp]; rfl
    case headroom => rw [frameCommand_headroom h hk, hp]; rfl
    case query => rw [frameCommand_query h hk, hp]; rfl

end Sys2Proof.Machine
end

section
/-!
The image checks 3 to 7, one after the other (R159): what each asks of the bytes, and the fault code where it is the
first to fail.
-/
namespace Sys2Proof.Machine

theorem exists_vector_of_isSome {α : Type} {n : Nat} {f : Fin n → Option α} (h : ∀ i, (f i).isSome = true) :
    ∃ v : Vector α n, ∀ i : Fin n, f i = some v[i] :=
  ⟨Vector.ofFn fun i => (f i).get (h i), fun i => by simp⟩

/-! ### The check value and the law tables (checks 3 and 5) -/

theorem crc_eq_iff_checkRight (img : List Byte) : crcBytes (img.take 604) = halfAt img 604 ↔ CheckRight img := by
  rw [← BitVec.toNat_inj, halfAt_toNat, CheckRight]

theorem checkImage_of_not_checkRight {img : List Byte} (h : ¬ CheckRight img) : checkImage img = .error .badCheck := by
  rw [checkImage, if_pos (mt (crc_eq_iff_checkRight img).1 h)]

theorem lawTable_getElem (img : List Byte) (o : Nat) (i : Fin 33) :
    (lawTable img o)[i] = unsignedAt img (o + 2 * i.val) 2 := by
  simp [lawTable, halfAt_toNat]

theorem lawsOk_iff (img : List Byte) :
    (lawOk (lawTable img 332) && lawOk (lawTable img 398)) = true ↔ LawsInOrder img := by
  rw [Bool.and_eq_true, lawOk_iff, lawOk_iff, LawsInOrder, List.forall_mem_cons, List.forall_mem_singleton]

/-! ### The fields in their ranges (check 4) -/

/-- The records of check 4, as an image spells them: the node's fields, the channels and the zones (R169). -/
structure FieldsRead (img : List Byte) (primary secondary : Option Station) (library : Bool)
    (channels : Vector ChannelRecord 8) (zones : Vector ZoneConfig 4) : Prop where
  primary   : (primary.map (·.val)).getD 0xFF = unsignedAt img 8 1
  secondary : (secondary.map (·.val)).getD 0xFF = unsignedAt img 9 1
  library   : (library, unsignedAt img 10 1) ∈ [(false, 0), (true, 1)]
  channels  : ∀ c : Channel, channels[c].ReadAt img (12 + 20 * c.val)
  zones     : ∀ z : Zone, zones[z].ReadAt img (172 + 40 * z.val)

theorem NodeConfig.ReadFrom.fieldsRead {cfg : NodeConfig} {img : List Byte} (h : cfg.ReadFrom img) :
    FieldsRead img cfg.primary cfg.secondary cfg.library cfg.channels cfg.zones :=
  ⟨h.primary, h.secondary, h.library, h.channels, h.zones⟩

theorem FieldsInRange.exists_fieldsRead {img : List Byte} (h : FieldsInRange img) :
    ∃ primary secondary library channels zones, FieldsRead img primary secondary library channels zones := by
  obtain ⟨hsources, hlibrary, hchannels, hzones, -⟩ := h
  have source (o : Nat) (ho : o ∈ [8, 9]) : ∃ x : Option Station, (x.map (·.val)).getD 0xFF = unsignedAt img o 1 := by
    obtain ⟨x, hx⟩ := Option.isSome_iff_exists.1 ((optionField_isSome (n := 16) img o).2
      ((hsources o ho).imp_left Nat.lt_succ_of_le))
    exact ⟨x, (optionField_some (by decide) img o x).1 hx⟩
  obtain ⟨primary, hprimary⟩ := source 8 (by decide)
  obtain ⟨secondary, hsecondary⟩ := source 9 (by decide)
  obtain ⟨library, hlib⟩ := Option.isSome_iff_exists.1 ((flagField_isSome img 10).2 hlibrary)
  obtain ⟨channels, hch⟩ := exists_vector_of_isSome fun c : Channel => (channelRecord_isSome img c).2 (hchannels c)
  obtain ⟨zones, hz⟩ := exists_vector_of_isSome fun z : Zone => (zoneRecord_isSome img z).2 (hzones z)
  exact ⟨primary, secondary, library, channels, zones, hprimary, hsecondary, (flagField_some img 10 library).1 hlib,
    fun c => ((channelRecord_some img c _).1 (hch c)).2, fun z => ((zoneRecord_some img z _).1 (hz z)).2⟩

theorem checkImage_of_not_fieldsInRange {img : List Byte} (hcheck : CheckRight img) (h : ¬ FieldsInRange img) :
    checkImage img = .error .badRange := by
  rw [checkImage, if_neg (not_not.2 ((crc_eq_iff_checkRight img).2 hcheck))]
  split
  case h_2 => rfl
  case h_1 hprimary hsecondary hlibrary hchannels hzones hramps =>
    have isSome {α : Type} {f : Option α} {x : α} (e : f = some x) : f.isSome = true := by rw [e]; rfl
    refine absurd ⟨?sources, (flagField_isSome img 10).1 (isSome hlibrary), ?channels, ?zones, ?ramps⟩ h
    case sources =>
      rw [List.forall_mem_cons, List.forall_mem_singleton]
      exact ⟨((optionField_isSome img 8).1 (isSome hprimary)).imp_left Nat.le_of_lt_succ,
        ((optionField_isSome img 9).1 (isSome hsecondary)).imp_left Nat.le_of_lt_succ⟩
    case channels => exact fun c => (channelRecord_isSome img c).1 ((gather_isSome _ _).1 (isSome hchannels) c)
    case zones => exact fun z => (zoneRecord_isSome img z).1 ((gather_isSome _ _).1 (isSome hzones) z)
    case ramps => exact fun r => (rampRange_isSome img r).1 ((gather_isSome _ _).1 (isSome hramps) r)

section
variable {img : List Byte} {primary secondary : Option Station} {library : Bool}
  {channels : Vector ChannelRecord 8} {zones : Vector ZoneConfig 4}

theorem FieldsRead.checkImage_eq (h : FieldsRead img primary secondary library channels zones)
    (hcheck : CheckRight img) (hrange : FieldsInRange img) :
    checkImage img = checkTables img primary secondary library channels zones := by
  obtain ⟨ramps, hramps⟩ := Option.isSome_iff_exists.1 ((gather_isSome (0, 0) fun r : Fin 32 => rampRange img r).2
    fun r => (rampRange_isSome img r).2 (hrange.ramps r))
  rw [checkImage, if_neg (not_not.2 ((crc_eq_iff_checkRight img).2 hcheck)),
    (optionField_some (by decide) img 8 primary).2 h.primary,
    (optionField_some (by decide) img 9 secondary).2 h.secondary,
    (flagField_some img 10 library).2 h.library,
    (gather_some blankRecord _ channels).2 fun c =>
      (channelRecord_some img c channels[c]).2 ⟨hrange.channels c, h.channels c⟩,
    (gather_some blankZone _ zones).2 fun z => (zoneRecord_some img z zones[z]).2 ⟨hrange.zones z, h.zones z⟩, hramps]

/-! ### The pace curves (check 6) -/

theorem FieldsRead.curvesOk_iff (h : FieldsRead img primary secondary library channels zones) :
    (zones.toList.all fun z => curveOk z.curve) = true ↔ CurvesInOrder img := by
  have speed (z : Zone) (k : Nat) (hk : k < 8) :
      zones[z].curve[k].speed = unsignedAt img (180 + 40 * z.val + 4 * k) 2 := by
    rw [show 180 + 40 * z.val + 4 * k = 172 + 40 * z.val + 8 + 4 * k by omega]
    exact (h.zones z).speed ⟨k, hk⟩
  have rises (z : Zone) : curveOk zones[z].curve = true ↔ ∀ k, k < 7 →
      unsignedAt img (180 + 40 * z.val + 4 * k) 2 < unsignedAt img (180 + 40 * z.val + 4 * (k + 1)) 2 := by
    rw [curveOk_iff]
    refine forall_congr' fun k => ⟨fun hk h7 => ?_, fun hk h8 => ?_⟩
    · rw [← speed z k (by omega), ← speed z (k + 1) (by omega)]; exact hk (by omega)
    · rw [speed z k (by omega), speed z (k + 1) h8]; exact hk (by omega)
  rw [List.all_eq_true, CurvesInOrder, ← forall_congr' rises]
  constructor
  · exact fun hall z => hall _ (by simp)
  · intro hall x hx
    obtain ⟨i, hi, rfl⟩ := Vector.mem_iff_getElem.1 (Vector.mem_toList_iff.1 hx)
    exact hall ⟨i, hi⟩

/-! ### The ramp profile (check 7) -/

theorem rampRecords_isSome_iff (hrange : FieldsInRange img) :
    ((∀ r : Fin 32, (rampRecord img r).isSome = true) ∧ ∀ i : Fin 11, (vectorField img i).isSome = true) ↔
      RampsValid img := by
  simp only [rampRecord_isSome, vectorField_isSome, RampsValid, hrange.ramps, true_and]

/-- The ramp profile an image spells, with the law tables it holds, completes the records of check 4. -/
theorem FieldsRead.exists_readFrom (h : FieldsRead img primary secondary library channels zones)
    (hrange : FieldsInRange img) (hramps : RampsValid img) : ∃ cfg : NodeConfig, cfg.ReadFrom img := by
  obtain ⟨hrecords, hvector⟩ := (rampRecords_isSome_iff hrange).2 hramps
  obtain ⟨records, hr⟩ := exists_vector_of_isSome hrecords
  obtain ⟨vector, hv⟩ := exists_vector_of_isSome hvector
  have record (r : Fin 32) := ((rampRecord_some img r records[r]).1 (hr r)).2
  exact ⟨{ primary, secondary, library, channels, zones,
           laws := { fade := lawTable img 332, balance := lawTable img 398 }, profile := { records, vector } },
    { primary := h.primary, secondary := h.secondary, library := h.library, channels := h.channels, zones := h.zones
      fade := lawTable_getElem img 332
      balance := lawTable_getElem img 398
      rate := fun r => (record r).1
      chain := fun r => (record r).2.1
      span := fun r => (record r).2.2
      vector := fun i => (vectorField_some img i vector[i]).1 (hv i) }⟩

/-! ### The first of checks 5 to 7 that fails -/

theorem checkTables_badLaw (hlaws : ¬ LawsInOrder img) :
    checkTables img primary secondary library channels zones = .error .badLaw := by
  rw [← lawsOk_iff, Bool.not_eq_true] at hlaws
  rw [checkTables, hlaws]
  rfl

theorem FieldsRead.checkTables_badCurve (h : FieldsRead img primary secondary library channels zones)
    (hlaws : LawsInOrder img) (hcurves : ¬ CurvesInOrder img) :
    checkTables img primary secondary library channels zones = .error .badCurve := by
  rw [← h.curvesOk_iff, Bool.not_eq_true] at hcurves
  rw [checkTables, (lawsOk_iff img).2 hlaws, hcurves]
  rfl

theorem FieldsRead.checkTables_badRamp (h : FieldsRead img primary secondary library channels zones)
    (hrange : FieldsInRange img) (hlaws : LawsInOrder img) (hcurves : CurvesInOrder img) (hramps : ¬ RampsValid img) :
    checkTables img primary secondary library channels zones = .error .badRamp := by
  rw [checkTables, (lawsOk_iff img).2 hlaws, h.curvesOk_iff.2 hcurves, if_neg (by decide), if_neg (by decide)]
  split
  case h_2 => rfl
  case h_1 hrecords hvector =>
    refine absurd ((rampRecords_isSome_iff hrange).1 ⟨fun r => ?_, fun i => ?_⟩) hramps
    · rw [(gather_some _ _ _).1 hrecords r]; rfl
    · rw [(gather_some _ _ _).1 hvector i]; rfl

end

/-! ### An image that passes all -/

theorem NodeConfig.ReadFrom.laws_eq {cfg : NodeConfig} {img : List Byte} (h : cfg.ReadFrom img) :
    cfg.laws = { fade := lawTable img 332, balance := lawTable img 398 } := by
  have table (law : Vector Nat 33) (o : Nat) (e : ∀ i : Fin 33, law[i] = unsignedAt img (o + 2 * i.val) 2) :
      law = lawTable img o :=
    Vector.ext fun i hi => (e ⟨i, hi⟩).trans (lawTable_getElem img o ⟨i, hi⟩).symm
  exact congrArg₂ Laws.mk (table _ 332 h.fade) (table _ 398 h.balance)

theorem NodeConfig.ReadFrom.checkImage_eq {cfg : NodeConfig} {img : List Byte} (h : cfg.ReadFrom img)
    (hcheck : CheckRight img) (hrange : FieldsInRange img) (hlaws : LawsInOrder img) (hcurves : CurvesInOrder img)
    (hramps : RampsValid img) : checkImage img = .ok cfg := by
  have hrecords (r : Fin 32) : rampRecord img r = some cfg.profile.records[r] :=
    (rampRecord_some img r _).2 ⟨⟨hrange.ramps r, hramps.1 r⟩, h.rate r, h.chain r, h.span r⟩
  have hvector (i : Fin 11) : vectorField img i = some cfg.profile.vector[i] := (vectorField_some img i _).2 (h.vector i)
  rw [h.fieldsRead.checkImage_eq hcheck hrange, checkTables, (lawsOk_iff img).2 hlaws,
    h.fieldsRead.curvesOk_iff.2 hcurves, (gather_some _ _ cfg.profile.records).2 hrecords,
    (gather_some _ _ cfg.profile.vector).2 hvector, ← h.laws_eq]
  rfl

/-! ### The statement -/

/-- Settles O9, by cases on the first check that fails, if any: it gives the answer, and with it each clause is decided. -/
theorem imageChecksInOrder : Obligations.ImageChecksInOrder := by
  intro img
  by_cases hcheck : CheckRight img
  case neg => simp [checkImage_of_not_checkRight hcheck, hcheck]
  by_cases hrange : FieldsInRange img
  case neg => simp [checkImage_of_not_fieldsInRange hcheck hrange, hcheck, hrange]
  obtain ⟨primary, secondary, library, channels, zones, hread⟩ := hrange.exists_fieldsRead
  have htables := hread.checkImage_eq hcheck hrange
  by_cases hlaws : LawsInOrder img
  case neg => simp [htables, checkTables_badLaw hlaws, hcheck, hrange, hlaws]
  by_cases hcurves : CurvesInOrder img
  case neg => simp [htables, hread.checkTables_badCurve hlaws hcurves, hcheck, hrange, hlaws, hcurves]
  by_cases hramps : RampsValid img
  case neg => simp [htables, hread.checkTables_badRamp hrange hlaws hcurves hramps, hcheck, hrange, hlaws, hcurves, hramps]
  obtain ⟨cfg, hcfg⟩ := hread.exists_readFrom hrange hramps
  have admitted (x : NodeConfig) (hx : x.ReadFrom img) : checkImage img = .ok x :=
    hx.checkImage_eq hcheck hrange hlaws hcurves hramps
  have unique (x : NodeConfig) : cfg = x ↔ x.ReadFrom img :=
    ⟨fun e => e ▸ hcfg, fun hx => Except.ok.inj ((admitted cfg hcfg).symm.trans (admitted x hx))⟩
  simpa [admitted cfg hcfg, unique, hcheck, hrange, hlaws, hcurves, hramps] using Exists.intro cfg hcfg

end Sys2Proof.Machine
end

section
/-!
Steps and counted events (R162): the front command of the queue, and what one event does to the counters.
-/
namespace Sys2Proof.Machine

/-! ### The front command -/

/-- Settles O1: the step's case of a queue that holds a command. -/
theorem stepRunsTheFrontCommand : Obligations.StepRunsTheFrontCommand := by
  intro c rest s hpending
  rw [step, hpending]

/-! ### Counted events (R162) -/

/-- A counter that an event may raise: it rises where it is the event's and below 65,535. -/
theorem ite_bump (p : Prop) [Decidable p] (n : Nat) :
    (if p then bump n else n) = if p ∧ n < 65535 then n + 1 else n := by
  by_cases hp : p
  · simp only [hp, true_and, if_true, bump]
  · simp only [hp, false_and, if_false]

theorem State.countCache_rest (s : State) (k : CacheCounter) : s.countCache k =
    { s with stats := { s.stats with cacheAudio := (s.countCache k).stats.cacheAudio } } := by
  unfold State.countCache; split <;> rfl

/-- A CACHE/AUDIO counter after an event is counted, outside DORMANT. -/
theorem State.counter_countCache {s : State} (hd : s.dormant = false) (k : CacheCounter) (i : Fin 5) :
    (s.countCache k).stats.cacheAudio[i] =
      if i = k.index then bump s.stats.cacheAudio[i] else s.stats.cacheAudio[i] := by
  simp only [State.countCache, hd, Bool.false_eq_true, if_false]
  by_cases hi : i = k.index
  · subst hi; simp
  · have hv : (k.index : Nat) ≠ i := fun e => hi (Fin.ext e.symm)
    simp [hi, hv]

/-- Settles O24: DORMANT counts nothing, and outside it each of the three groups has its counter raised in its place. -/
theorem countersStick : Obligations.CountersStick := by
  refine ⟨rfl, rfl, rfl, fun s k c ck a => ⟨fun hdormant => ?dormant, fun hawake => ?counted⟩⟩
  case dormant =>
    have hd := s.dormant_eq_true_iff.mpr hdormant
    exact ⟨if_pos hd, if_pos hd, if_pos hd⟩
  case counted =>
    have hd : s.dormant = false := beq_eq_false_iff_ne.mpr hawake
    refine ⟨⟨_, s.countLink_rest k, fun i => ?link⟩, ⟨_, s.countChannel_rest c ck, fun d i => ?channel⟩,
      ⟨_, s.countCache_rest a, fun i => ?cache⟩⟩
    case link => rw [State.counter_countLink hd, ite_bump]
    case channel => simp only [State.counter_countChannel hd, ite_bump, and_assoc]
    case cache => rw [State.counter_countCache hd, ite_bump]

end Sys2Proof.Machine
end

section
/-!
Queries (R163 to R165): what a CLEAR clears, and what an answer handed to the link interface leaves of the node.
-/
namespace Sys2Proof.Machine

/-! ### Cleared counters (R165) -/

theorem State.counter_clearReported_link (s : State) (group index : Nat) (i : Fin 12) :
    (s.clearReported group index).stats.link[i] = if group = 1 then 0 else s.stats.link[i] := by
  unfold State.clearReported
  split
  · simp
  · split <;> simp
  · simp
  · next hlink _ _ => rw [if_neg hlink]

theorem State.counter_clearReported_channel (s : State) (group index : Nat) (c : Channel) (i : Fin 7) :
    (s.clearReported group index).stats.channel[c][i] =
      if group = 2 ∧ index = c.val then 0 else s.stats.channel[c][i] := by
  unfold State.clearReported
  split
  · simp
  · split
    · by_cases hc : index = c.val
      · simp [hc]
      · simp [hc]
    · next hindex =>
      have hc : index ≠ c.val := by omega
      simp [hc]
  · simp
  · next hchannel _ => rw [if_neg fun h => hchannel h.1]

theorem State.counter_clearReported_cacheAudio (s : State) (group index : Nat) (i : Fin 5) :
    (s.clearReported group index).stats.cacheAudio[i] = if group = 3 then 0 else s.stats.cacheAudio[i] := by
  unfold State.clearReported
  split
  · simp
  · split <;> simp
  · simp
  · next hcache => rw [if_neg hcache]

/-! ### Answers handed over (R151, R165) -/

/-- The state with the frames of an answer at the end of its transmit queue. -/
def State.withAnswer (frames : List (List Byte)) (s : State) : State :=
  s.setLink { s.link with queue := s.link.queue ++ frames.map fun p =>
    { kind := .report, payload := p, age := 0, late := false } }

@[simp] theorem State.withAnswer_stats (s : State) (frames : List (List Byte)) : (s.withAnswer frames).stats = s.stats := rfl

theorem State.handAnswer_refuses {s : State} {frames : List (List Byte)}
    (hfull : 8 < s.link.queue.length + frames.length) (group index : Nat) (clear : Bool) :
    s.handAnswer group index clear frames = s.countLink .queriesRefused := by
  rw [State.handAnswer, LinkInterface.acceptAnswer_refuses hfull]

theorem State.handAnswer_appends {s : State} {frames : List (List Byte)}
    (hroom : s.link.queue.length + frames.length ≤ 8) (group index : Nat) (clear : Bool) :
    s.handAnswer group index clear frames =
      if clear then (s.withAnswer frames).clearReported group index else s.withAnswer frames := by
  rw [State.handAnswer, LinkInterface.acceptAnswer_appends hroom]
  rfl

/-- An answer that is queued changes the transmit queue and the statistics alone. -/
theorem State.handAnswer_rest {s : State} {frames : List (List Byte)}
    (hroom : s.link.queue.length + frames.length ≤ 8) (group index : Nat) (clear : Bool) :
    s.handAnswer group index clear frames =
      { s.withAnswer frames with stats := (s.handAnswer group index clear frames).stats } := by
  rw [State.handAnswer_appends hroom]
  cases clear with
  | false => rfl
  | true => exact State.clearReported_rest _ group index

/-! ### The counters after an answer -/

section
variable {s : State} {frames : List (List Byte)} (hroom : s.link.queue.length + frames.length ≤ 8)
  (group index : Byte) (clear : Bool)
include hroom

theorem State.counter_handAnswer_link (i : Fin 12) : (s.handAnswer group.toNat index.toNat clear frames).stats.link[i] =
    if clear = true ∧ group = 1#8 then 0 else s.stats.link[i] := by
  rw [State.handAnswer_appends hroom]
  cases clear with
  | false => rfl
  | true => simp only [if_true, true_and, State.counter_clearReported_link, State.withAnswer_stats,
      BitVec.toNat_eq, BitVec.toNat_ofNat]

theorem State.counter_handAnswer_channel (c : Channel) (i : Fin 7) :
    (s.handAnswer group.toNat index.toNat clear frames).stats.channel[c][i] =
      if clear = true ∧ group = 2#8 ∧ index.toNat = c.val then 0 else s.stats.channel[c][i] := by
  rw [State.handAnswer_appends hroom]
  cases clear with
  | false => rfl
  | true => simp only [if_true, true_and, State.counter_clearReported_channel, State.withAnswer_stats,
      BitVec.toNat_eq, BitVec.toNat_ofNat]

theorem State.counter_handAnswer_cacheAudio (i : Fin 5) :
    (s.handAnswer group.toNat index.toNat clear frames).stats.cacheAudio[i] =
      if clear = true ∧ group = 3#8 then 0 else s.stats.cacheAudio[i] := by
  rw [State.handAnswer_appends hroom]
  cases clear with
  | false => rfl
  | true => simp only [if_true, true_and, State.counter_clearReported_cacheAudio, State.withAnswer_stats,
      BitVec.toNat_eq, BitVec.toNat_ofNat]

end

/-! ### The query (R163) -/

/-- A query of another station is heard and reaches the statistics block. -/
theorem State.exec_queryCue {s : State} {o : Station} (h : s.Takes o) (target group index flags : Byte) :
    exec (.queryCue o target group index flags) s = .next ((s.heard o).takeQuery [target, group, index, flags]) := by
  rw [exec, execQueryCue, State.receive_taken h]

theorem State.takeQuery_other {s : State} {payload : List Byte}
    (h : (byteAt payload 0).toNat ≠ s.loader.station.val) : s.takeQuery payload = s := if_pos h

theorem State.takeQuery_outside {s : State} {payload : List Byte}
    (h : (byteAt payload 0).toNat = s.loader.station.val)
    (hanswer : s.answer (byteAt payload 1) (byteAt payload 2) = none) :
    s.takeQuery payload = s.countLink .formatErrors := by
  rw [State.takeQuery, if_neg (not_not.mpr h), hanswer]

theorem State.takeQuery_answered {s : State} {payload : List Byte} {frames : List (List Byte)}
    (h : (byteAt payload 0).toNat = s.loader.station.val)
    (hanswer : s.answer (byteAt payload 1) (byteAt payload 2) = some frames) : s.takeQuery payload =
      s.handAnswer (byteAt payload 1).toNat (byteAt payload 2).toNat (byteAt payload 3)[0] frames := by
  rw [State.takeQuery, if_neg (not_not.mpr h), hanswer]

/-- Settles O42: the query is heard; then its target, the item table and the room in the transmit queue decide. -/
theorem queryCueIsAnswered : Obligations.QueryCueIsAnswered := by
  intro s o target group index flags h
  rw [State.exec_queryCue h, ← State.heard_loader s o]
  refine ⟨fun htarget => ?other, fun htarget => ⟨fun hanswer => ?outside, fun frames hanswer => ?answered⟩⟩
  case other => exact congrArg _ (State.takeQuery_other htarget)
  case outside => exact congrArg _ (State.takeQuery_outside htarget hanswer)
  case answered =>
    have hhanded : (s.heard o).takeQuery [target, group, index, flags] =
        (s.heard o).handAnswer group.toNat index.toNat flags[0] frames := State.takeQuery_answered htarget hanswer
    rw [hhanded, ← State.heard_queue s o]
    refine ⟨fun hfull => by rw [State.handAnswer_refuses hfull], fun hroom =>
      ⟨_, rfl, State.handAnswer_rest hroom _ _ _, fun i => ?link, fun c i => ?channel, fun i => ?cacheAudio⟩⟩
    case link => exact State.counter_handAnswer_link hroom group index flags[0] i
    case channel =>
      rw [← State.heard_channelCounters s o]
      exact State.counter_handAnswer_channel hroom group index flags[0] c i
    case cacheAudio =>
      rw [← State.heard_cacheCounters s o]
      exact State.counter_handAnswer_cacheAudio hroom group index flags[0] i

end Sys2Proof.Machine
end
